-- ==== Sys2Proof/Word.lean ====
section
/-! DEFINITION. The word types of AMB-CODEC: every interface register is 32 bits wide, data memory is
made of bytes, JH works on 16-bit words (spec/00_scope.md R5, R6). -/

namespace Sys2Proof

/-- An 8-bit unsigned value, the unit of data memory (R6, R34). -/
abbrev Byte := BitVec 8

/-- A 16-bit unsigned value: a JH word, a Lob match token, a Deplode base (R6). -/
abbrev Half := BitVec 16

/-- A 32-bit unsigned value: an interface register (R6, R10). -/
abbrev Word := BitVec 32

end Sys2Proof
end

