-- ==== Sys2Proof/Config.lean ====
section
/-! DEFINITION. What an implementation of AMB-CODEC fixes (spec/00_scope.md R5), the one open parameter
`MEM_SIZE`, and the free values the spec leaves open (spec/93_implementation_defined.md). -/

namespace Sys2Proof.Config

/-- `TRIE_DEFAULT_WINDOW` (R5): the window TRIE_INIT takes for an operand of 0. -/
def trieDefaultWindow : Nat := 4095
/-- `TRIE_MAX_WINDOW` (R5): a larger window is refused. -/
def trieMaxWindow : Nat := 4095
/-- `TRIE_MAX_RUN` (R5): the longest run one TRIE_ADD inserts. -/
def trieMaxRun : Nat := 130
/-- `LOB_MIN_COMPRESS` (R5): smaller inputs are stored verbatim. -/
def lobMinCompress : Nat := 20
/-- `LOB_WINDOW` (R5). -/
def lobWindow : Nat := 4095
/-- `LOB_MAX_MATCH` (R5). -/
def lobMaxMatch : Nat := 18
/-- `XLOB_WINDOW` (R5). -/
def xlobWindow : Nat := 1023
/-- `XLOB_MAX_MATCH` (R5). -/
def xlobMaxMatch : Nat := 130
/-- `XLOB_SMALL_MAX_OFFSET` (R5). -/
def xlobSmallMaxOffset : Nat := 511
/-- `XLOB_SMALL_MAX_MATCH` (R5). -/
def xlobSmallMaxMatch : Nat := 18
/-- `XLOB_MAX_LITRUN` (R5). -/
def xlobMaxLitrun : Nat := 127
/-- `XLOB_MAX_ZRUN` (R5): the longest run of zeros one token carries. -/
def xlobMaxZrun : Nat := 258
/-- `XLOB_MAX_RUN` (R5): the longest run of a non-zero byte one token carries. -/
def xlobMaxRun : Nat := 34
/-- `TLOB_MAX_SKIP` (R5). -/
def tlobMaxSkip : Nat := 255
/-- `TLOB_WINDOW` (R5): the trie window that gives distances 3 .. 482. -/
def tlobWindow : Nat := 480
/-- `TLOB_MAX_MATCH` (R5). -/
def tlobMaxMatch : Nat := 10
/-- The longest distance of a TextLob 2-byte match (R114). -/
def tlobShortMaxOffset : Nat := 258
/-- `DEPLODE_FOOTER_SIZE` (R5). -/
def deplodeFooterSize : Nat := 38
/-- `DEPLODE_MAX_EXTRA` (R5): a larger extra-bit count is refused. -/
def deplodeMaxExtra : Nat := 16
/-- The constant the ID register reads (R24). -/
def idWord : Word := 0x414D4301

/-- What a byte of data memory that nothing has written reads as. DESIGN CHOICE (unsafe, log entry 2): the
spec gives data memory no contents at reset. -/
def unlistedByte : Byte := 0

/-- `MEM_SIZE - 1`, the address of the last byte of data memory: the open parameter of R5 (U15), so
`1 <= MEM_SIZE <= 2^32` holds of every value. It has no body: nothing can be proved of its value. -/
opaque memTop : Word

/-- A free byte (spec/93 U7 to U9, U11, U12): the `n`-th time the machine draws, at a data-memory address. -/
opaque freeByte : Nat → Nat → Byte

/-- A free word (spec/93 U10, U11, U17): the `n`-th time the machine draws, at a register offset. -/
opaque freeWord : Nat → Nat → Word

end Sys2Proof.Config
end

