-- ==== Sys2Proof/Syntax.lean ====
section
/-! DEFINITION. The instructions of AMB-CODEC: one constructor per row of spec/opcode_table.json. The first
thirteen are command words a host writes to CMD (spec/30_encoding.md R54, R56). The others are the tokens
of the codec streams (R60 to R79), which the running decoder fetches, one at a time. -/

namespace Sys2Proof

inductive Instr where
  /-- TRIE_INIT, OP 0x01 (R80). -/
  | trieInit
  /-- TRIE_ADD, OP 0x02 (R81). -/
  | trieAdd
  /-- TRIE_MATCH, OP 0x03 (R83). -/
  | trieMatch
  /-- LOB_COMPRESS, OP 0x10 (R86). -/
  | lobCompress
  /-- LOB_DECOMPRESS, OP 0x11 (R91). -/
  | lobDecompress
  /-- XLOB_COMPRESS, OP 0x12 (R96). -/
  | xlobCompress
  /-- XLOB_DECOMPRESS, OP 0x13 (R103). -/
  | xlobDecompress
  /-- TLOB_COMPRESS, OP 0x14 (R111). -/
  | tlobCompress
  /-- TLOB_DECOMPRESS, OP 0x15 (R118). -/
  | tlobDecompress
  /-- DEPLODE, OP 0x21 (R124). -/
  | deplode
  /-- JH_CRYPT, OP 0x30 (R138). -/
  | jhCrypt
  /-- The reserved AdvancedLob compress opcode, OP 0x16 (R56). -/
  | reservedAdvlobCompress
  /-- The reserved AdvancedLob decompress opcode, OP 0x17 (R56). -/
  | reservedAdvlobDecompress
  /-- LOB_CTRL: the control byte of a Lob block (R61). -/
  | lobCtrl (c : Byte)
  /-- LOB_LIT: a Lob literal item (R92). -/
  | lobLit (v : Byte)
  /-- LOB_MATCH: a Lob match item, length `l + 3`, distance `d` (R62, R93). -/
  | lobMatch (l : BitVec 4) (d : BitVec 12)
  /-- XLOB_ZRLE: `c + 3` zero bytes (R64, R104). -/
  | xlobZrle (c : Byte)
  /-- XLOB_LITRUN: the header of a run of `n` literal bytes, which follow it (R65, R105). -/
  | xlobLitrun (n : BitVec 7)
  /-- XLOB_SMATCH: a small match, length `l + 3`, distance `d` (R66, R106). -/
  | xlobSmatch (l : BitVec 4) (d : BitVec 9)
  /-- XLOB_LMATCH_FIRST: a large match that opens a reservation; `h`, `b`, `n` make its 17-bit value and `r`
  is left for the next large match (R67, R107). -/
  | xlobLmatchFirst (h : BitVec 5) (b : Byte) (n : BitVec 4) (r : BitVec 4)
  /-- XLOB_LMATCH_SECOND: a large match that takes its last nibble from the open reservation (R67, R107). -/
  | xlobLmatchSecond (h : BitVec 5) (b : Byte)
  /-- XLOB_LRLE: `c + 3` copies of `v` (R68, R108). -/
  | xlobLrle (c : BitVec 5) (v : Byte)
  /-- XLOB_SLIT: one byte of value 0 .. 31 (R69, R109). -/
  | xlobSlit (v : BitVec 5)
  /-- TLOB_SKIP: the skip count, stream byte 0, with `k` verbatim bytes after it (R70, R119). -/
  | tlobSkip (k : Byte)
  /-- TLOB_LIT: a literal byte 0x20 .. 0xFF (R71, R120). -/
  | tlobLit (v : Byte)
  /-- TLOB_ZERO: the escape 0x1F for a zero byte (R71, R120). -/
  | tlobZero
  /-- TLOB_SHORT_FIRST: a match of length 2 that opens a reservation; distance `f ‖ g` plus 3, and `r` is left
  for the next 2-byte match (R72, R121). -/
  | tlobShortFirst (f : BitVec 4) (g : BitVec 4) (r : BitVec 4)
  /-- TLOB_SHORT_SECOND: a match of length 2 that takes its low nibble from the open reservation (R72, R121). -/
  | tlobShortSecond (f : BitVec 4)
  /-- TLOB_LONG: a match of length `l + 3`, distance `f + 3` (R73, R122). -/
  | tlobLong (f : BitVec 9) (l : BitVec 3)
  /-- DEP_SELLEN_0: selector 0, match length 1 (R76, R133). -/
  | depSellen0
  /-- DEP_SELLEN_10: selector 1, match length 2 (R76, R133). -/
  | depSellen10
  /-- DEP_SELLEN_110: selector 2, match length 3 (R76, R133). -/
  | depSellen110
  /-- DEP_SELLEN_1110: selector 3, match length 4 (R76, R133). -/
  | depSellen1110
  /-- DEP_SELLEN_11110xxx: selector 3, match length `5 + x` (R76, R133). -/
  | depSellen11110 (x : BitVec 3)
  /-- DEP_SELLEN_11111: selector 3, match length the next raw byte minus 1 (R76, R133). -/
  | depSellen11111
  /-- DEP_LITLEN_0: literal-length group 0; its extra bits follow (R77, R134). -/
  | depLitlen0
  /-- DEP_LITLEN_10: literal-length group 1; its extra bits follow (R77, R134). -/
  | depLitlen10
  /-- DEP_LITLEN_11: literal-length group 2; its extra bits follow (R77, R134). -/
  | depLitlen11
  /-- DEP_DIST_0: distance group 0; its extra bits follow (R78, R135). -/
  | depDist0
  /-- DEP_DIST_10: distance group 1; its extra bits follow (R78, R135). -/
  | depDist10
  /-- DEP_DIST_11: distance group 2; its extra bits follow (R78, R135). -/
  | depDist11
  /-- JH_WORD: the next data word of a JH region, to be XORed with its key word (R79, R139). -/
  | jhWord (w : Half)
  deriving DecidableEq, Repr

end Sys2Proof
end

