-- ==== Sys2Proof/Machine/State.lean ====
section
/-! DEFINITION. The state of AMB-CODEC (spec/10_state.md), as plain data: the interface registers, the latched
command context, the MatchTrie, the working state of the running command, data memory, the reset line, and
the host's pending port operations. -/

namespace Sys2Proof.Machine

/-- Why exec or step stops the machine. -/
inductive Fault where
  /-- Raised by a host access to a data-memory address at or above `MEM_SIZE`: the address does not exist
  (R34). Safe: the spec gives such an access no behaviour. -/
  | absentAddress (a : Nat)
  deriving DecidableEq, Repr

/-- Why exec or step refuses. -/
inductive Refusal where
  /-- Raised by exec for an instruction without a meaning. No arm of exec raises it. Safe. -/
  | notModelled (mnemonic : String)
  /-- Raised by the meaning of a stream token when the running command is not at a point where that token can be
  read. The spec gives a token a meaning only there (R60). No step raises it. Safe. -/
  | tokenOutOfPlace
  /-- Raised by step when no decoder answers for the running stream. The decoders answer for every byte
  value (R63, R70), so no step raises it. Safe. -/
  | undecodedToken
  deriving DecidableEq, Repr

/-- The error codes of R142. Codes 5 .. 15 are never written, so there is no term for them (U5). -/
inductive ErrCode where
  /-- 0: success. -/
  | none
  /-- 1: a malformed stream, file or input. -/
  | format
  /-- 2: the output does not fit in the destination region. -/
  | capacity
  /-- 3: a Deplode integrity error. -/
  | dataIntegrity
  /-- 4: a bad command word, region or operand. -/
  | misuse
  deriving DecidableEq, Repr

/-- `raise E(pos)` of R7: the error that ends a command. -/
structure Raise where
  code : ErrCode
  pos : Nat
  deriving DecidableEq, Repr

/-- What a step of a command's rule gives: a value, or the error it raises (R7, R145). -/
abbrev Result (α : Type) := Except Raise α

/-- STATUS (R12), one field per defined bit field. Reserved bits 7:5 and 31:12 are stuck at 0 (U4), so they
have no field; `Status.word` is the register's 32-bit view. -/
structure Status where
  /-- Bit 0: a command is running. -/
  busy : Bool
  /-- Bit 1: a command has completed. -/
  done : Bool
  /-- Bit 2: it completed with an error. -/
  err : Bool
  /-- Bit 3: LOB_COMPRESS stored its input verbatim. -/
  stored : Bool
  /-- Bit 4: a CMD write was dropped while BUSY. -/
  ovr : Bool
  /-- Bits 11:8. -/
  errCode : ErrCode
  deriving DecidableEq, Repr

/-- The command context (R26): the operand registers as they stood when the command was accepted. -/
structure Context where
  src : Word
  slen : Word
  dst : Word
  dcap : Word
  p0 : Word
  p1 : Word
  op : Byte
  deriving DecidableEq, Repr

/-- The MatchTrie (R27). `entries` is the finite map `TE` as a list of (anchor, bytes) with anchors strictly
rising. -/
structure Trie where
  /-- `TW`, 1 .. 4095. -/
  window : Nat
  /-- `TE`. -/
  entries : List (Nat × List Byte)
  /-- `TLAST`. -/
  last : Option Nat
  deriving DecidableEq, Repr

/-- The trie at reset and after every compress command (R27, R84, R158). -/
def Trie.initial : Trie := { window := Config.trieDefaultWindow, entries := [], last := none }

/-- LOB_COMPRESS's working state (R29, R88, R89). -/
structure LobEnc where
  /-- The parse position. -/
  p : Nat
  out : List Byte
  /-- The index in `out` of the open control byte. -/
  ci : Option Nat
  /-- Items in the current block. -/
  cnt : Nat
  deriving DecidableEq, Repr

/-- LOB_DECOMPRESS's working state (R29, R91). -/
structure LobDec where
  /-- The input index. -/
  i : Nat
  /-- The index of the current token's first byte. -/
  tok : Nat
  out : List Byte
  /-- The current control byte `C`. -/
  ctl : Byte
  /-- The next item of the block; 8 when a control byte is needed. -/
  k : Nat
  deriving DecidableEq, Repr

/-- XLOB_COMPRESS's working state (R29, R30, R96). -/
structure XlobEnc where
  p : Nat
  out : List Byte
  /-- The pending literals. -/
  lits : List Byte
  /-- The index in `out` of the byte whose low nibble is reserved. -/
  pend : Option Nat
  deriving DecidableEq, Repr

/-- XLOB_DECOMPRESS's working state (R29, R30, R103). -/
structure XlobDec where
  i : Nat
  /-- `t` of R103: the index of the token's first byte. -/
  tok : Nat
  out : List Byte
  /-- The open reservation's nibble. -/
  res : Option (BitVec 4)
  deriving DecidableEq, Repr

/-- TLOB_COMPRESS's working state (R29, R30, R111, R114). -/
structure TlobEnc where
  p : Nat
  out : List Byte
  pend : Option Nat
  /-- The next anchor to insert. -/
  nxt : Nat
  deriving DecidableEq, Repr

/-- TLOB_DECOMPRESS's working state (R29, R30, R118). -/
structure TlobDec where
  i : Nat
  tok : Nat
  out : List Byte
  res : Option (BitVec 4)
  /-- Whether the skip region has been read. -/
  skipped : Bool
  deriving DecidableEq, Repr

/-- Where DEPLODE stands in its loop (R131). -/
inductive DepPhase where
  /-- At the literal run that opens an iteration, and the test that ends the loop after it. -/
  | run
  /-- At the match-length code. -/
  | selLen
  /-- At the literal-length code, with the selector and match length just read. -/
  | litLen (sel : Fin 4) (ml : Nat)
  /-- At the distance code. -/
  | dist (sel : Fin 4) (ml : Nat)
  deriving DecidableEq, Repr

/-- DEPLODE's working state (R29, R126 to R128). -/
structure Dep where
  /-- The prepared buffer `P`. -/
  prepared : List Byte
  /-- The footer's distance table `T`. -/
  table : List Byte
  /-- The exploded size `E`. -/
  size : Nat
  /-- The cursor. -/
  cur : Nat
  /-- The bit buffer. -/
  bb : Byte
  /-- The count of unread bits in it. -/
  bc : Nat
  /-- The next literal-run length. -/
  lit : Nat
  out : List Byte
  phase : DepPhase
  deriving DecidableEq, Repr

/-- JH_CRYPT's working state (R29, R138). -/
structure Jh where
  /-- The offset of the next word. -/
  j : Nat
  d0 : Half
  d1 : Half
  deriving DecidableEq, Repr

/-- The working state of the running command (R29): none when idle, or accepted and not yet begun. -/
inductive Work where
  | none
  | lobEnc (w : LobEnc)
  | lobDec (w : LobDec)
  | xlobEnc (w : XlobEnc)
  | xlobDec (w : XlobDec)
  | tlobEnc (w : TlobEnc)
  | tlobDec (w : TlobDec)
  | dep (w : Dep)
  | jh (w : Jh)
  deriving DecidableEq, Repr

/-- Data memory (R34): the cells that differ from `Config.unlistedByte`, addresses strictly rising. -/
abbrev Memory := List Host.Cell

/-- What reaches the block next: an operation of the host at the register port, at data memory or at the reset
line (R9, R58), or a turn of the block's own engine. The list of these in State fixes one interleaving; a
statement over all states is over every interleaving (U13). -/
inductive Input where
  /-- A register write of `width` bits at a byte offset (R41). -/
  | regWrite (width : Nat) (off : Byte) (v : Word)
  /-- A register read of `width` bits at a byte offset (R41). -/
  | regRead (width : Nat) (off : Byte)
  /-- The host writes a byte of data memory. -/
  | memWrite (a : Word) (b : Byte)
  /-- The host reads a byte of data memory. -/
  | memRead (a : Word)
  /-- `rst_n` goes low (R158, R160). -/
  | resetLow
  /-- `rst_n` goes high (R158). -/
  | resetHigh
  /-- The engine takes a turn: it runs an accepted command to completion, or the next token of one begun. -/
  | engineTurn
  /-- The engine begins an accepted command and goes no further; as `engineTurn` when one is begun. -/
  | engineBegin
  deriving DecidableEq, Repr

/-- What the last input was answered. -/
inductive Response where
  /-- No data. -/
  | none
  /-- The 32 bits a register read returned. -/
  | data (v : Word)
  /-- The byte a memory read returned. -/
  | byte (b : Byte)
  /-- A register access that is not 32 bits wide and aligned (R41). -/
  | refused
  deriving DecidableEq, Repr

/-- The state of the block, of the data memory it reaches, and of the host side of its ports. -/
structure State where
  /-- CTRL bit 0, IE (R11); CTRL's other bits read as 0. -/
  ie : Bool
  /-- STATUS (R12). -/
  status : Status
  /-- CMD (R13). -/
  cmd : Word
  /-- SRC_ADDR (R14). -/
  srcAddr : Word
  /-- SRC_LEN (R15). -/
  srcLen : Word
  /-- DST_ADDR (R16). -/
  dstAddr : Word
  /-- DST_CAP (R17). -/
  dstCap : Word
  /-- PARAM0 (R18). -/
  param0 : Word
  /-- PARAM1 (R19). -/
  param1 : Word
  /-- OUT_LEN (R20). -/
  outLen : Word
  /-- MATCH_OFF (R21). -/
  matchOff : Word
  /-- MATCH_LEN (R22). -/
  matchLen : Word
  /-- ERR_POS (R23). -/
  errPos : Word
  /-- The command context (R26). -/
  ctx : Context
  /-- The MatchTrie (R27). -/
  trie : Trie
  /-- The per-command working state (R29, R30). -/
  work : Work
  /-- Data memory `M` (R34). -/
  mem : Memory
  /-- `MEM_SIZE - 1` (R5, R34): the platform's parameter. No step changes it. -/
  memTop : Word
  /-- Whether `rst_n` is low (R9, R158). -/
  rstLow : Bool
  /-- The model's own: what reaches the block next, first to come first. -/
  inputs : List Input
  /-- The model's own: the answer to the last input. -/
  response : Response
  /-- The model's own: the bytes of the running command's source region that the host has overwritten since its
  acceptance, as they stood then (R48 item 1, R164). -/
  srcOld : Memory
  /-- The model's own: the host has written its destination region since its acceptance (R164). -/
  dstDirty : Bool
  /-- The model's own: how many times free values have been drawn. -/
  free : Nat
  deriving DecidableEq, Repr

/-- STATUS after reset: 0x00000000 (R158). -/
def Status.reset : Status :=
  { busy := false, done := false, err := false, stored := false, ovr := false, errCode := .none }

/-- The command context at reset. DESIGN CHOICE (unsafe, log entry 1): the spec leaves it unspecified (R26). -/
def Context.reset : Context := { src := 0, slen := 0, dst := 0, dcap := 0, p0 := 0, p1 := 0, op := 0 }

/-- The machine right after reset (R158, R161): every register at the reset value of R10, an empty trie with
window 4095, no command, nothing listed in memory, and no input pending. -/
def State.reset : State :=
  { ie := false, status := Status.reset, cmd := 0
    srcAddr := 0, srcLen := 0, dstAddr := 0, dstCap := 0, param0 := 0, param1 := 0
    outLen := 0, matchOff := 0, matchLen := 0, errPos := 0
    ctx := Context.reset, trie := Trie.initial, work := .none
    mem := [], memTop := Config.memTop, rstLow := false
    inputs := [], response := .none, srcOld := [], dstDirty := false, free := 0 }

end Sys2Proof.Machine
end

