-- ==== Sys2Proof/Machine/Flags.lean ====
section
/-! DEFINITION. The flags of AMB-CODEC: STATUS and its fields, CTRL.IE and the interrupt line
(spec/10_state.md R11, R12; spec/60_exceptions.md R142, R148 to R150). -/

namespace Sys2Proof.Machine

/-- The 4-bit code of R142. -/
def ErrCode.bits : ErrCode → BitVec 4
  | .none => 0
  | .format => 1
  | .capacity => 2
  | .dataIntegrity => 3
  | .misuse => 4

/-- The error code a free word stands for: any of the codes R142 lets be written (R164, log entry 12). -/
def ErrCode.ofFree (w : Word) : ErrCode :=
  match w.toNat % 5 with
  | 0 => .none
  | 1 => .format
  | 2 => .capacity
  | 3 => .dataIntegrity
  | _ => .misuse

/-- STATUS as a read gives it (R12): reserved bits 31:12 and 7:5 read as 0. -/
def Status.word (t : Status) : Word :=
  (0 : BitVec 20) ++ t.errCode.bits ++ (0 : BitVec 3) ++ BitVec.ofBool t.ovr ++ BitVec.ofBool t.stored
    ++ BitVec.ofBool t.err ++ BitVec.ofBool t.done ++ BitVec.ofBool t.busy

/-- A write to STATUS (R12, R150): bit 1 clears DONE, bit 2 clears ERR and ERRCODE, bit 4 clears OVR; zero bits
change nothing, and no write changes BUSY, STORED or a reserved bit. -/
def Status.writeOnes (t : Status) (v : Word) : Status :=
  { t with
    done := t.done && !v.getLsbD 1
    err := t.err && !v.getLsbD 2
    errCode := if v.getLsbD 2 then .none else t.errCode
    ovr := t.ovr && !v.getLsbD 4 }

/-- STATUS when a command is accepted (R53): DONE, ERR, ERRCODE and STORED are cleared, OVR is not. -/
def Status.accepted (t : Status) : Status :=
  { t with busy := true, done := false, err := false, stored := false, errCode := .none }

/-- STATUS at a successful completion (R148). STORED is set only by a stored LOB_COMPRESS. -/
def Status.succeeded (t : Status) (stored : Bool) : Status :=
  { t with busy := false, done := true, err := false, errCode := .none, stored := t.stored || stored }

/-- STATUS at a completion with an error (R146). -/
def Status.failed (t : Status) (e : ErrCode) : Status :=
  { t with busy := false, done := true, err := true, errCode := e }

/-- CTRL as a read gives it (R11). -/
def State.ctrlWord (s : State) : Word := (0 : BitVec 31) ++ BitVec.ofBool s.ie

/-- The interrupt output (R149): `CTRL.IE & STATUS.DONE`, level, active high. -/
def State.irq (s : State) : Bool := s.ie && s.status.done

end Sys2Proof.Machine
end

