-- ==== Sys2Proof/WellFormed.lean ====
section
/-! DEFINITION. Which terms of `Instr` stand for an encoding: the ranges that the operand widths alone do
not say (spec/30_encoding.md R65, R71, R73). -/

namespace Sys2Proof

/-- A term of `Instr` that some encoding stands for. A literal run has 1 .. 127 bytes, since header 0 is the
zero-RLE token (R63, R65); no TextLob literal token stands for a byte below 0x20 (R71); a TextLob long
match has `f <= 479`, since `f[8:5] = 15` would make its first byte the zero escape (R73). -/
def Instr.wellFormed : Instr → Bool
  | .xlobLitrun n => n != 0
  | .tlobLit v => 0x20 ≤ v.toNat
  | .tlobLong f _ => f.toNat ≤ 479
  | .trieInit | .trieAdd | .trieMatch | .lobCompress | .lobDecompress | .xlobCompress | .xlobDecompress
  | .tlobCompress | .tlobDecompress | .deplode | .jhCrypt
  | .reservedAdvlobCompress | .reservedAdvlobDecompress => true
  | .lobCtrl _ | .lobLit _ | .lobMatch _ _ => true
  | .xlobZrle _ | .xlobSmatch _ _ | .xlobLmatchFirst _ _ _ _ | .xlobLmatchSecond _ _ | .xlobLrle _ _
  | .xlobSlit _ => true
  | .tlobSkip _ | .tlobZero | .tlobShortFirst _ _ _ | .tlobShortSecond _ => true
  | .depSellen0 | .depSellen10 | .depSellen110 | .depSellen1110 | .depSellen11110 _ | .depSellen11111 => true
  | .depLitlen0 | .depLitlen10 | .depLitlen11 | .depDist0 | .depDist10 | .depDist11 => true
  | .jhWord _ => true

end Sys2Proof
end

