-- ==== Sys2Proof/Decode.lean ====
section
/-! DEFINITION. The decoders of AMB-CODEC and, after them, the encoder (spec/30_encoding.md). A command is one
32-bit word (R53, R54). A stream token is decoded unit by unit, as the engine reads it: given the bytes
(or, for Deplode's prefix codes, the bits) read so far, the decoder answers the token, or that it needs
one more unit, or rejects by name. No token is self-identifying: the format comes from the running
command and its working state (R60). -/

namespace Sys2Proof

/-! ### Byte order and bit fields -/

/-- The 16-bit value of two bytes, first byte most significant (R39, R7). -/
def be16 (b0 b1 : Byte) : Half := b0 ++ b1

/-- The 32-bit value of four bytes, first byte most significant (R39, R7). -/
def be32 (b0 b1 b2 b3 : Byte) : Word := b0 ++ b1 ++ b2 ++ b3

/-- The high byte of a 16-bit value (R39). -/
def highByte (w : Half) : Byte := w.extractLsb' 8 8

/-- The low byte of a 16-bit value (R39). -/
def lowByte (w : Half) : Byte := w.extractLsb' 0 8

/-- The bits of a byte, most significant first: the order Deplode reads them in (R129). -/
def bitsOfByte (b : Byte) : List Bool :=
  [b.getLsbD 7, b.getLsbD 6, b.getLsbD 5, b.getLsbD 4, b.getLsbD 3, b.getLsbD 2, b.getLsbD 1, b.getLsbD 0]

/-! ### Opcodes (R54, R56) -/

def opTrieInit : Byte := 0x01
def opTrieAdd : Byte := 0x02
def opTrieMatch : Byte := 0x03
def opLobCompress : Byte := 0x10
def opLobDecompress : Byte := 0x11
def opXlobCompress : Byte := 0x12
def opXlobDecompress : Byte := 0x13
def opTlobCompress : Byte := 0x14
def opTlobDecompress : Byte := 0x15
def opReservedAdvlobCompress : Byte := 0x16
def opReservedAdvlobDecompress : Byte := 0x17
def opDeplode : Byte := 0x21
def opJhCrypt : Byte := 0x30

/-- The instruction an opcode names: the rows of R54, and the two reserved opcodes of R56. -/
def instrOfOpcode (op : Byte) : Option Instr :=
  if op = opTrieInit then some .trieInit
  else if op = opTrieAdd then some .trieAdd
  else if op = opTrieMatch then some .trieMatch
  else if op = opLobCompress then some .lobCompress
  else if op = opLobDecompress then some .lobDecompress
  else if op = opXlobCompress then some .xlobCompress
  else if op = opXlobDecompress then some .xlobDecompress
  else if op = opTlobCompress then some .tlobCompress
  else if op = opTlobDecompress then some .tlobDecompress
  else if op = opReservedAdvlobCompress then some .reservedAdvlobCompress
  else if op = opReservedAdvlobDecompress then some .reservedAdvlobDecompress
  else if op = opDeplode then some .deplode
  else if op = opJhCrypt then some .jhCrypt
  else none

/-! ### Decoding -/

/-- Which decoder reads the next token. `reserved` says whether the stream's reservation is open (R30, R60). -/
inductive Format where
  /-- A CMD word (R53). -/
  | command
  /-- A Lob control byte (R61). -/
  | lobControl
  /-- A Lob item whose control bit is 1 (R61). -/
  | lobLiteral
  /-- A Lob item whose control bit is 0 (R61, R62). -/
  | lobMatch
  /-- An ExtendedLob token (R63). -/
  | xlob (reserved : Bool)
  /-- TextLob stream byte 0 (R70). -/
  | tlobSkip
  /-- A TextLob token (R70). -/
  | tlob (reserved : Bool)
  /-- Deplode's match-length code (R76). -/
  | depSelLen
  /-- Deplode's literal-length code (R77). -/
  | depLitLen
  /-- Deplode's distance code (R78). -/
  | depDist
  /-- A JH word (R79). -/
  | jhWord
  deriving DecidableEq, Repr

/-- Why a decoder rejects what it is given. -/
inductive Reject where
  /-- CMD bits 31:8 are not zero (R53, R56). -/
  | reservedBits
  /-- CMD bits 7:0 are no opcode of R54 (R56). -/
  | undefinedOpcode
  /-- More units than a token of this format has. -/
  | tooManyUnits
  /-- A format of another kind of unit (a word, bytes or bits). -/
  | wrongKind
  deriving DecidableEq, Repr

/-- What a decoder answers. -/
inductive Decoded where
  /-- The units are this token's, all of them. -/
  | token (i : Instr)
  /-- A token of the format goes on with one more unit. -/
  | more
  /-- No token begins with these units. -/
  | rejected (r : Reject)
  deriving DecidableEq, Repr

/-- A CMD word (R53, R54, R56). -/
def decodeCommand (w : Word) : Decoded :=
  if w.extractLsb' 8 24 = 0 then
    match instrOfOpcode (w.extractLsb' 0 8) with
    | some i => .token i
    | none => .rejected .undefinedOpcode
  else .rejected .reservedBits

/-- An ExtendedLob token, by the class its first byte's bits 7:5 name (R63 to R69). -/
def decodeXlob (reserved : Bool) : List Byte → Decoded
  | [] => .more
  | [h] =>
    if h = 0 then .more
    else if h.extractLsb' 7 1 = 0 then .token (.xlobLitrun (h.extractLsb' 0 7))
    else if h.extractLsb' 5 3 = 7 then .token (.xlobSlit (h.extractLsb' 0 5))
    else .more
  | [h, b] =>
    if h = 0 then .token (.xlobZrle b)
    else if h.extractLsb' 5 3 = 4 then
      .token (.xlobSmatch (h.extractLsb' 1 4) (h.extractLsb' 0 1 ++ b))
    else if h.extractLsb' 5 3 = 5 then
      if reserved then .token (.xlobLmatchSecond (h.extractLsb' 0 5) b) else .more
    else if h.extractLsb' 5 3 = 6 then .token (.xlobLrle (h.extractLsb' 0 5) b)
    else .rejected .tooManyUnits
  | [h, b, q] =>
    if h.extractLsb' 5 3 = 5 ∧ reserved = false then
      .token (.xlobLmatchFirst (h.extractLsb' 0 5) b (q.extractLsb' 4 4) (q.extractLsb' 0 4))
    else .rejected .tooManyUnits
  | _ => .rejected .tooManyUnits

/-- A TextLob token, by the class its first byte names (R70 to R73): the high nibble 0 is a 2-byte match, 1 a
longer match or, with low nibble 15, the zero escape, and any other a literal. -/
def decodeTlob (reserved : Bool) : List Byte → Decoded
  | [] => .more
  | [b] =>
    if b.extractLsb' 4 4 = 0 then
      if reserved then .token (.tlobShortSecond (b.extractLsb' 0 4)) else .more
    else if b.extractLsb' 4 4 = 1 then
      if b.extractLsb' 0 4 = 15 then .token .tlobZero else .more
    else .token (.tlobLit b)
  | [b, c] =>
    if b.extractLsb' 4 4 = 0 ∧ reserved = false then
      .token (.tlobShortFirst (b.extractLsb' 0 4) (c.extractLsb' 4 4) (c.extractLsb' 0 4))
    else if b.extractLsb' 4 4 = 1 ∧ b.extractLsb' 0 4 ≠ 15 then
      .token (.tlobLong (b.extractLsb' 0 4 ++ c.extractLsb' 3 5) (c.extractLsb' 0 3))
    else .rejected .tooManyUnits
  | _ => .rejected .tooManyUnits

/-- A token of a format whose every token is one byte. -/
def decodeOneByte (mk : Byte → Instr) : List Byte → Decoded
  | [] => .more
  | [b] => .token (mk b)
  | _ => .rejected .tooManyUnits

/-- A token of a format whose every token is two bytes, a big-endian 16-bit value (R39). -/
def decodeTwoBytes (mk : Half → Instr) : List Byte → Decoded
  | [] => .more
  | [_] => .more
  | [b0, b1] => .token (mk (be16 b0 b1))
  | _ => .rejected .tooManyUnits

/-- A token of a byte stream, from the bytes read so far (R60). -/
def decodeBytes (f : Format) (bs : List Byte) : Decoded :=
  match f with
  | .lobControl => decodeOneByte .lobCtrl bs
  | .lobLiteral => decodeOneByte .lobLit bs
  | .lobMatch => decodeTwoBytes (fun t => .lobMatch (t.extractLsb' 12 4) (t.extractLsb' 0 12)) bs
  | .xlob reserved => decodeXlob reserved bs
  | .tlobSkip => decodeOneByte .tlobSkip bs
  | .tlob reserved => decodeTlob reserved bs
  | .jhWord => decodeTwoBytes .jhWord bs
  | .command | .depSelLen | .depLitLen | .depDist => .rejected .wrongKind

/-- Deplode's match-length code, from the bits read so far (R76). -/
def decodeSelLen : List Bool → Decoded
  | [] => .more
  | [false] => .token .depSellen0
  | [true] => .more
  | [true, false] => .token .depSellen10
  | [true, true] => .more
  | [true, true, false] => .token .depSellen110
  | [true, true, true] => .more
  | [true, true, true, false] => .token .depSellen1110
  | [true, true, true, true] => .more
  | [true, true, true, true, true] => .token .depSellen11111
  | [true, true, true, true, false] => .more
  | [true, true, true, true, false, _] => .more
  | [true, true, true, true, false, _, _] => .more
  | [true, true, true, true, false, x2, x1, x0] =>
    .token (.depSellen11110 (BitVec.ofBool x2 ++ BitVec.ofBool x1 ++ BitVec.ofBool x0))
  | _ => .rejected .tooManyUnits

/-- A code with the three words `0`, `10` and `11` (R77, R78). -/
def decodeThreeWay (i0 i10 i11 : Instr) : List Bool → Decoded
  | [] => .more
  | [false] => .token i0
  | [true] => .more
  | [true, false] => .token i10
  | [true, true] => .token i11
  | _ => .rejected .tooManyUnits

/-- A Deplode prefix code, from the bits read so far (R76 to R78). -/
def decodeBits (f : Format) (bs : List Bool) : Decoded :=
  match f with
  | .depSelLen => decodeSelLen bs
  | .depLitLen => decodeThreeWay .depLitlen0 .depLitlen10 .depLitlen11 bs
  | .depDist => decodeThreeWay .depDist0 .depDist10 .depDist11 bs
  | .command | .lobControl | .lobLiteral | .lobMatch | .xlob _ | .tlobSkip | .tlob _ | .jhWord =>
    .rejected .wrongKind

/-- The units of one encoding: a command word, a token's bytes in stream order, or a code's bits, first read
first. -/
inductive Code where
  | word (w : Word)
  | bytes (bs : List Byte)
  | bits (bs : List Bool)
  deriving DecidableEq, Repr

/-- Decode an encoding in a given format. Total on any units. -/
def decode (f : Format) : Code → Decoded
  | .word w => if f = .command then decodeCommand w else .rejected .wrongKind
  | .bytes bs => decodeBytes f bs
  | .bits bs => decodeBits f bs

/-! ### Encoding -/

/-- The format in which an instruction is decoded. -/
def formatOf : Instr → Format
  | .trieInit | .trieAdd | .trieMatch | .lobCompress | .lobDecompress | .xlobCompress | .xlobDecompress
  | .tlobCompress | .tlobDecompress | .deplode | .jhCrypt
  | .reservedAdvlobCompress | .reservedAdvlobDecompress => .command
  | .lobCtrl _ => .lobControl
  | .lobLit _ => .lobLiteral
  | .lobMatch _ _ => .lobMatch
  | .xlobZrle _ | .xlobLitrun _ | .xlobSmatch _ _ | .xlobLmatchFirst _ _ _ _ | .xlobLrle _ _
  | .xlobSlit _ => .xlob false
  | .xlobLmatchSecond _ _ => .xlob true
  | .tlobSkip _ => .tlobSkip
  | .tlobLit _ | .tlobZero | .tlobShortFirst _ _ _ | .tlobLong _ _ => .tlob false
  | .tlobShortSecond _ => .tlob true
  | .depSellen0 | .depSellen10 | .depSellen110 | .depSellen1110 | .depSellen11110 _ | .depSellen11111 => .depSelLen
  | .depLitlen0 | .depLitlen10 | .depLitlen11 => .depLitLen
  | .depDist0 | .depDist10 | .depDist11 => .depDist
  | .jhWord _ => .jhWord

/-- A command word: the opcode in bits 7:0, zero above it (R53). -/
def commandWord (op : Byte) : Word := (0 : BitVec 24) ++ op

/-- The two bytes of a big-endian 16-bit value (R39). -/
def bytesOfHalf (w : Half) : List Byte := [highByte w, lowByte w]

/-- The encoding of a well-formed instruction, from the same tables (R53, R54, R61 to R73, R76 to R79). -/
def encode : Instr → Code
  | .trieInit => .word (commandWord opTrieInit)
  | .trieAdd => .word (commandWord opTrieAdd)
  | .trieMatch => .word (commandWord opTrieMatch)
  | .lobCompress => .word (commandWord opLobCompress)
  | .lobDecompress => .word (commandWord opLobDecompress)
  | .xlobCompress => .word (commandWord opXlobCompress)
  | .xlobDecompress => .word (commandWord opXlobDecompress)
  | .tlobCompress => .word (commandWord opTlobCompress)
  | .tlobDecompress => .word (commandWord opTlobDecompress)
  | .deplode => .word (commandWord opDeplode)
  | .jhCrypt => .word (commandWord opJhCrypt)
  | .reservedAdvlobCompress => .word (commandWord opReservedAdvlobCompress)
  | .reservedAdvlobDecompress => .word (commandWord opReservedAdvlobDecompress)
  | .lobCtrl c => .bytes [c]
  | .lobLit v => .bytes [v]
  | .lobMatch l d => .bytes (bytesOfHalf (l ++ d))
  | .xlobZrle c => .bytes [0, c]
  | .xlobLitrun n => .bytes [(0 : BitVec 1) ++ n]
  | .xlobSmatch l d => .bytes (bytesOfHalf ((4 : BitVec 3) ++ l ++ d))
  | .xlobLmatchFirst h b n r => .bytes [(5 : BitVec 3) ++ h, b, n ++ r]
  | .xlobLmatchSecond h b => .bytes [(5 : BitVec 3) ++ h, b]
  | .xlobLrle c v => .bytes [(6 : BitVec 3) ++ c, v]
  | .xlobSlit v => .bytes [(7 : BitVec 3) ++ v]
  | .tlobSkip k => .bytes [k]
  | .tlobLit v => .bytes [v]
  | .tlobZero => .bytes [0x1F]
  | .tlobShortFirst f g r => .bytes [(0 : BitVec 4) ++ f, g ++ r]
  | .tlobShortSecond f => .bytes [(0 : BitVec 4) ++ f]
  | .tlobLong f l => .bytes (bytesOfHalf ((1 : BitVec 4) ++ f ++ l))
  | .depSellen0 => .bits [false]
  | .depSellen10 => .bits [true, false]
  | .depSellen110 => .bits [true, true, false]
  | .depSellen1110 => .bits [true, true, true, false]
  | .depSellen11110 x =>
    .bits [true, true, true, true, false, x.getLsbD 2, x.getLsbD 1, x.getLsbD 0]
  | .depSellen11111 => .bits [true, true, true, true, true]
  | .depLitlen0 => .bits [false]
  | .depLitlen10 => .bits [true, false]
  | .depLitlen11 => .bits [true, true]
  | .depDist0 => .bits [false]
  | .depDist10 => .bits [true, false]
  | .depDist11 => .bits [true, true]
  | .jhWord w => .bytes (bytesOfHalf w)

/-- The bytes of a byte token's encoding; empty for a command or a bit code. -/
def tokenBytes (i : Instr) : List Byte :=
  match encode i with
  | .bytes bs => bs
  | .word _ => []
  | .bits _ => []

/-! ### The opcode table's numbering -/

/-- The bytes of an `nbits`-bit number, most significant byte first: spec/opcode_table.json reads a token of
several bytes as one number whose most significant byte is the first of the stream. -/
def tableBytes (nbits w : Nat) : List Byte :=
  (List.range (nbits / 8)).map (fun k => BitVec.ofNat 8 (w >>> (nbits - 8 * (k + 1))))

/-- The format `decodeTableWord` reads a row's number in. A token's number does not name its stream (R60), so
this is a convention of the model (log entry 6): 32 bits are a command word; the others go to the stream whose
token range holds the first byte. -/
def tableFormat (nbits w : Nat) : Option Format :=
  if nbits = 32 then some .command
  else if nbits = 24 then some (.xlob false)
  else if nbits = 16 then
    let h := w / 256 % 256
    if h = 0 then some (.xlob false)
    else if h < 0x1F then some (.tlob false)
    else if h < 0x80 then some .lobMatch
    else if h < 0xA0 then some (.xlob false)
    else if h < 0xC0 then some (.xlob true)
    else if h < 0xE0 then some (.xlob false)
    else some .jhWord
  else if nbits = 8 then
    let h := w % 256
    if h < 0x10 then some (.tlob true)
    else if h < 0x1F then some (.xlob false)
    else if h = 0x1F then some (.tlob false)
    else if h < 0x80 then some (.xlob false)
    else if h < 0xE0 then some (.tlob false)
    else if 0xF0 ≤ h ∧ h < 0xF8 then some .depSelLen
    else some (.xlob false)
  else none

/-- The code of a row's number in a format. -/
def tableCode (f : Format) (nbits w : Nat) : Code :=
  match f with
  | .command => .word (BitVec.ofNat 32 w)
  | .depSelLen | .depLitLen | .depDist => .bits (bitsOfByte (BitVec.ofNat 8 w))
  | .lobControl | .lobLiteral | .lobMatch | .xlob _ | .tlobSkip | .tlob _ | .jhWord => .bytes (tableBytes nbits w)

/-- The instruction the decoders read from a row's number, in the numbering of spec/opcode_table.json. -/
def decodeTableWord (nbits w : Nat) : Option Instr :=
  match tableFormat nbits w with
  | none => none
  | some f =>
    match decode f (tableCode f nbits w) with
    | .token i => some i
    | .more => none
    | .rejected _ => none

end Sys2Proof
end

