-- ==== Sys2Proof/Machine/Operands.lean ====
section
/-! DEFINITION. The operands of a command, assembled from the context latched at its acceptance
(spec/30_encoding.md R55, spec/10_state.md R26), and the regions it uses (spec/20_memory.md R36 to R38).
Every operand is a whole register read as a natural number; no arithmetic on it wraps (R6). -/

namespace Sys2Proof.Machine

/-- `SRC`. -/
def State.src (s : State) : Nat := s.ctx.src.toNat
/-- `SLEN`. -/
def State.slen (s : State) : Nat := s.ctx.slen.toNat
/-- `DST`. -/
def State.dst (s : State) : Nat := s.ctx.dst.toNat
/-- `DCAP`. -/
def State.dcap (s : State) : Nat := s.ctx.dcap.toNat
/-- `P0`: the window, anchor, search offset or decoded size. -/
def State.p0 (s : State) : Nat := s.ctx.p0.toNat
/-- `P1`: the run length, maximum length or skip count. -/
def State.p1 (s : State) : Nat := s.ctx.p1.toNat
/-- The JH key: `P0[15:0]`; `P0[31:16]` is ignored (R55). -/
def State.jhKey (s : State) : Half := s.ctx.p0.extractLsb' 0 16

/-- `MEM_SIZE`, 1 .. 2^32 (R5, R34). -/
def State.memSize (s : State) : Nat := s.memTop.toNat + 1

/-- Whether an address lies in the region `[a, a + l)`. -/
def inRegion (a l x : Nat) : Bool := decide (a ≤ x ∧ x < a + l)

/-- `valid(A, L)` of R37, in natural arithmetic with no wrap. -/
def State.validRegion (s : State) (a l : Nat) : Bool := l == 0 || decide (a + l ≤ s.memSize)

/-- The overlap test of R38. -/
def State.overlapping (s : State) : Bool :=
  decide (0 < s.slen ∧ 0 < s.dcap ∧ s.src < s.dst + s.dcap ∧ s.dst < s.src + s.slen)

/-- Whether the command of an opcode reads the source region (R36). -/
def readsSource (op : Byte) : Bool :=
  op == opTrieAdd || op == opTrieMatch || op == opLobCompress || op == opLobDecompress || op == opXlobCompress
    || op == opXlobDecompress || op == opTlobCompress || op == opTlobDecompress || op == opDeplode || op == opJhCrypt

/-- Whether the command of an opcode writes the destination region (R36). -/
def writesDest (op : Byte) : Bool :=
  op == opLobCompress || op == opLobDecompress || op == opXlobCompress || op == opXlobDecompress
    || op == opTlobCompress || op == opTlobDecompress || op == opDeplode

/-- Whether the command of an opcode writes its source region in place (R36). -/
def writesSource (op : Byte) : Bool := op == opJhCrypt

/-- Whether an opcode is a compress command's (R84, R146). -/
def isCompress (op : Byte) : Bool :=
  op == opLobCompress || op == opXlobCompress || op == opTlobCompress

/-- The opcode of the running command: none when idle, or when the accepted word is illegal and so names no
command (R56). -/
def State.activeOp (s : State) : Option Byte :=
  if s.status.busy && s.cmd.extractLsb' 8 24 == 0 then some s.ctx.op else none

/-- Whether an address lies in the running command's source region (R36, R164). -/
def State.inActiveSource (s : State) (a : Nat) : Bool :=
  match s.activeOp with
  | some op => readsSource op && inRegion s.src s.slen a
  | none => false

/-- Whether an address lies in the running command's destination region (R36, R164). -/
def State.inActiveDest (s : State) (a : Nat) : Bool :=
  match s.activeOp with
  | some op => writesDest op && inRegion s.dst s.dcap a
  | none => false

end Sys2Proof.Machine
end

