-- ==== Sys2Proof/Machine/Ops.lean ====
section
/-! DEFINITION. The shared operations of AMB-CODEC: data memory, acceptance of a command, error entry and
completion, and the engine's loop (spec/20_memory.md, spec/30_encoding.md R53, spec/60_exceptions.md R146 to
R148, spec/70_reset_and_hazards.md R160, R164). -/

namespace Sys2Proof.Machine

/-! ### Data memory -/

/-- The byte at an address (R34). -/
def Memory.read : Memory → Nat → Byte
  | [], _ => Config.unlistedByte
  | c :: m, a => if c.1 = a then c.2 else Memory.read m a

/-- List a byte at an address, keeping addresses strictly rising. -/
def Memory.list (a : Nat) (b : Byte) : Memory → Memory
  | [] => [(a, b)]
  | c :: m =>
    if a < c.1 then (a, b) :: c :: m
    else if a = c.1 then (a, b) :: m
    else c :: Memory.list a b m

/-- Leave an address unlisted. -/
def Memory.unlist (a : Nat) (m : Memory) : Memory := m.filter (fun c => c.1 != a)

/-- Write one byte (R42), keeping the canonical form: a byte equal to what an unlisted address reads as is not
listed. -/
def Memory.write (m : Memory) (a : Nat) (b : Byte) : Memory :=
  if b = Config.unlistedByte then Memory.unlist a m else Memory.list a b m

/-- The canonical form of memory: addresses strictly rising, and no listed byte that an unlisted address
reads as. -/
abbrev Memory.wf (m : Memory) : Prop :=
  m.Pairwise (fun c d => c.1 < d.1) ∧ ∀ c ∈ m, c.2 ≠ Config.unlistedByte

/-- Write `f x` at every address `x` of `[a, a + n)` that satisfies `p`. -/
def Memory.fill (p : Nat → Bool) (f : Nat → Byte) (a : Nat) : Nat → Memory → Memory
  | 0, m => m
  | n + 1, m =>
    if p (a + n) then Memory.write (Memory.fill p f a n m) (a + n) (f (a + n)) else Memory.fill p f a n m

/-- Whether data memory has an address (R34). -/
def State.hasAddress (s : State) (a : Nat) : Bool := decide (a < s.memSize)

/-- Whether the host has written the running command's source region since its acceptance (R164). -/
def State.srcDirty (s : State) : Bool := !s.srcOld.isEmpty

/-- `S[i]` of R7: byte `i` of the source region, as it stood when the command was accepted (R48 item 1): the byte
in memory, unless the host has overwritten it since. -/
def State.srcByte (s : State) (i : Nat) : Byte := (s.srcOld.lookup (s.src + i)).getD (Memory.read s.mem (s.src + i))

/-- The overwritten source bytes after the host writes address `a`: the first write to an address of the region
records what stood there (R48 item 1). -/
def State.keepOld (s : State) (a : Nat) : Memory :=
  if s.inActiveSource a && (s.srcOld.lookup a).isNone then Memory.list a (Memory.read s.mem a) s.srcOld else s.srcOld

/-- Memory with any value in the running command's destination region (R147, R164). The command never writes its
source region (R147), which matters only to overlapping regions; but once the host has written either region, the
whole destination region holds any value (R164). -/
def State.anyDest (s : State) : Memory :=
  Memory.fill (fun x => s.hasAddress x && (s.srcDirty || s.dstDirty || !inRegion s.src s.slen x))
    (Config.freeByte s.free) s.dst s.dcap s.mem

/-- Memory with any value in the source region, for a JH_CRYPT disturbed or cut short (R160, R164). -/
def State.anySource (s : State) : Memory :=
  Memory.fill (fun x => s.hasAddress x) (Config.freeByte s.free) s.src s.slen s.mem

/-! ### Acceptance -/

/-- Acceptance of a CMD word while `BUSY = 0` (R53, R26): one atomic step that records the word, clears the
flags and result registers of the last command, latches the context and sets BUSY. -/
def State.accept (s : State) (word : Word) : State :=
  { s with
    cmd := word
    status := s.status.accepted
    outLen := 0
    errPos := 0
    ctx :=
      { src := s.srcAddr, slen := s.srcLen, dst := s.dstAddr, dcap := s.dstCap, p0 := s.param0, p1 := s.param1
        op := word.extractLsb' 0 8 }
    work := .none
    srcOld := []
    dstDirty := false }

/-! ### Error entry and completion -/

/-- The end of every command: its working state is discarded (R29). If the host wrote its source region while
BUSY, OUT_LEN, MATCH_OFF, MATCH_LEN, ERRCODE and ERR_POS hold any value (R164); every other result, ERR among
them, is as R146 and R148 give it. -/
def State.retire (s : State) : State :=
  if s.srcDirty then
    { s with
      outLen := Config.freeWord s.free 0x24
      matchOff := Config.freeWord s.free 0x28
      matchLen := Config.freeWord s.free 0x2C
      errPos := Config.freeWord s.free 0x30
      status := { s.status with errCode := ErrCode.ofFree (Config.freeWord s.free 0x04) }
      work := .none
      srcOld := []
      dstDirty := false
      free := s.free + 1 }
  else { s with work := .none, srcOld := [], dstDirty := false, free := s.free + 1 }

/-- Memory after a command ends with an error (R147): the destination region of a command that has one holds any
value. JH_CRYPT fails before it writes; its region holds any value only if the host wrote it (R164). -/
def State.memFailed (s : State) (op : Byte) : Memory :=
  if writesDest op then s.anyDest
  else if writesSource op && s.srcDirty then s.anySource
  else s.mem

/-- The registers, STATUS and trie at error entry (R146). -/
def State.errorEntry (s : State) (op : Byte) (r : Raise) : State :=
  { s with
    outLen := 0
    errPos := BitVec.ofNat 32 r.pos
    matchOff := if op = opTrieMatch then 0 else s.matchOff
    matchLen := if op = opTrieMatch then 0 else s.matchLen
    status := s.status.failed r.code
    trie := if isCompress op then Trie.initial else s.trie }

/-- Error entry: the command of opcode `op` raises `r` (R146, R147). -/
def State.raiseError (s : State) (op : Byte) (r : Raise) : State :=
  ({ s.errorEntry op r with mem := s.memFailed op }).retire

/-- An illegal command word ends with MISUSE(0) and does nothing else: it names no command, so it has no region
(R53, R56). -/
def State.illegalCommand (s : State) : State := (s.errorEntry s.ctx.op ⟨.misuse, 0⟩).retire

/-- The byte a successful command leaves at an address of its destination region (R47): output byte `k` at
`DST + k`, any value past the output; any value throughout if the host disturbed it (R164). -/
def State.destByte (s : State) (out : List Byte) (x : Nat) : Byte :=
  if s.srcDirty || s.dstDirty then Config.freeByte s.free x
  else
    match out[x - s.dst]? with
    | some b => b
    | none => Config.freeByte s.free x

/-- Memory after a command succeeds (R44, R47, R164). -/
def State.memSucceeded (s : State) (op : Byte) (out : List Byte) : Memory :=
  if writesDest op then Memory.fill (fun x => s.hasAddress x) (s.destByte out) s.dst s.dcap s.mem
  else if writesSource op && s.srcDirty then s.anySource
  else s.mem

/-- Successful completion of the command of opcode `op` with output `out` (R47, R148). A compress command
leaves the trie reset (R84). -/
def State.succeed (s : State) (op : Byte) (out : List Byte) (stored : Bool) : State :=
  ({ s with
      mem := s.memSucceeded op out
      outLen := BitVec.ofNat 32 out.length
      errPos := 0
      status := s.status.succeeded stored
      trie := if isCompress op then Trie.initial else s.trie }).retire

/-- How far a part of a command's rule has come: an error, the finished output, or working state to go on from. -/
inductive Progress where
  | raised (r : Raise)
  | finished (out : List Byte)
  | running (w : Work)
  deriving DecidableEq, Repr

/-- The machine after that part: error entry, completion, or the command still running. -/
def State.settle (s : State) (op : Byte) : Progress → State
  | .raised r => s.raiseError op r
  | .finished out => s.succeed op out false
  | .running w => { s with work := w }

/-! ### Checks common to the commands (R144, R145) -/

/-- Source region validity (R37). -/
def State.checkSource (s : State) : Result Unit :=
  if s.validRegion s.src s.slen then .ok () else .error ⟨.misuse, 0⟩

/-- Validity of both regions, source first, then overlap (R37, R38, R145). -/
def State.checkRegions (s : State) : Result Unit :=
  if !s.validRegion s.src s.slen then .error ⟨.misuse, 0⟩
  else if !s.validRegion s.dst s.dcap then .error ⟨.misuse, 0⟩
  else if s.overlapping then .error ⟨.misuse, 0⟩
  else .ok ()

/-- The capacity check of a finished compress output (R144). -/
def State.checkCapacity (s : State) (out : List Byte) : Progress :=
  if s.dcap < out.length then .raised ⟨.capacity, s.dcap⟩ else .finished out

/-! ### The engine's loop -/

/-- No command is in progress. -/
def State.resting (s : State) : Bool := s.work == .none

/-- Take turns until a condition holds, at most `fuel` of them. -/
def takeTurns (stop : State → Bool) (turn : State → State) : Nat → State → State
  | 0, s => s
  | fuel + 1, s => if stop s then s else takeTurns stop turn fuel (turn s)

/-- Read the bytes of one token of a stream `S` of length `n` from index `i` (`need()` of R103 and R118): the
token and the index past it. A missing byte raises FORMAT at its index. -/
def fetchToken (f : Format) (S : Nat → Byte) (n : Nat) : Nat → List Byte → Nat → Result (Option (Instr × Nat))
  | 0, _, _ => .ok none
  | fuel + 1, bs, i =>
    if n ≤ i then .error ⟨.format, i⟩
    else
      match decodeBytes f (bs ++ [S i]) with
      | .token t => .ok (some (t, i + 1))
      | .more => fetchToken f S n fuel (bs ++ [S i]) (i + 1)
      | .rejected _ => .ok none

/-- The longest byte token: an ExtendedLob large match that opens a reservation (R67). -/
def maxTokenBytes : Nat := 3

/-! ### Output -/

/-- Copy `l` bytes from distance `d`, one at a time, stopping at `limit` bytes of output: each byte is read after
the one before it is written (R93, R106, R121). -/
def copyMatch (limit d : Nat) : Nat → List Byte → List Byte
  | 0, out => out
  | l + 1, out =>
    if limit ≤ out.length then out else copyMatch limit d l (out ++ [out.getD (out.length - d) 0])

/-- Append one byte after another, stopping at `limit` bytes of output (`put1` of R103). -/
def putBytes (limit : Nat) (out bs : List Byte) : List Byte := out ++ bs.take (limit - out.length)

/-- Read `k` bytes of `S` into the output, stopping at `limit` bytes of output (R105, R119): the index past the
bytes read, and the output. A missing byte raises FORMAT at its index. -/
def readBytes (S : Nat → Byte) (n limit : Nat) : Nat → Nat → List Byte → Result (Nat × List Byte)
  | 0, i, out => .ok (i, out)
  | k + 1, i, out =>
    if limit ≤ out.length then .ok (i, out)
    else if n ≤ i then .error ⟨.format, i⟩
    else readBytes S n limit k (i + 1) (out ++ [S i])

/-- `S[a .. a + l)` of R7. -/
def bytesOf (S : Nat → Byte) (a l : Nat) : List Byte := (List.range l).map (fun j => S (a + j))

end Sys2Proof.Machine
end

