-- ==== Sys2Proof/Machine/Deplode.lean ====
section
/-! DEFINITION. The Deplode command and its prefix codes (spec/44_deplode.md R124 to R137,
spec/30_encoding.md R74 to R78). -/

namespace Sys2Proof.Machine

/-! ### Bits and raw bytes -/

/-- `getbit()` of R129: most significant bit first, refilled from the byte just before the cursor. -/
def Dep.getbit (w : Dep) : Result (Bool × Dep) :=
  if w.bc = 0 then
    if w.cur = 0 then .error ⟨.format, 0⟩
    else
      let b := w.prepared.getD (w.cur - 1) 0
      .ok (b.getLsbD 7, { w with cur := w.cur - 1, bb := b <<< 1, bc := 7 })
  else .ok (w.bb.getLsbD 7, { w with bb := w.bb <<< 1, bc := w.bc - 1 })

/-- `getbits(k)` of R129, on top of the bits read so far: `getbits(0) = 0`. -/
def Dep.getbits : Nat → Nat → Dep → Result (Nat × Dep)
  | 0, v, w => .ok (v, w)
  | k + 1, v, w =>
    match w.getbit with
    | .error r => .error r
    | .ok q => Dep.getbits k (2 * v + q.1.toNat) q.2

/-- `rawbyte()` of R130: the byte just before the cursor; the bit buffer is not disturbed. -/
def Dep.rawByte (w : Dep) : Result (Byte × Dep) :=
  if w.cur = 0 then .error ⟨.format, 0⟩
  else .ok (w.prepared.getD (w.cur - 1) 0, { w with cur := w.cur - 1 })

/-- Read the bits of one prefix code (R76 to R78). -/
def Dep.readCode (f : Format) : Nat → List Bool → Dep → Result (Option (Instr × Dep))
  | 0, _, _ => .ok none
  | fuel + 1, bs, w =>
    match w.getbit with
    | .error r => .error r
    | .ok q =>
      match decodeBits f (bs ++ [q.1]) with
      | .token t => .ok (some (t, q.2))
      | .more => Dep.readCode f fuel (bs ++ [q.1]) q.2
      | .rejected _ => .ok none

/-- The longest prefix code: `11110 xxx` (R76). -/
def maxCodeBits : Nat := 8

/-! ### The parts of the loop of R131 -/

/-- `litrun(n)` of R132: bytes move from before the cursor to the output's end. -/
def Dep.literalRun : Nat → Dep → Result Dep
  | 0, w => .ok w
  | n + 1, w =>
    if w.out.length = w.size then .error ⟨.dataIntegrity, w.size⟩
    else
      match w.rawByte with
      | .error r => .error r
      | .ok q => Dep.literalRun n { q.2 with out := q.2.out ++ [q.1] }

/-- The literal run that opens an iteration. The loop ends right after one when the cursor is at 0; the output
must then have the declared size (R131, R137). -/
def Dep.runProgress (w : Dep) : Progress :=
  match Dep.literalRun w.lit w with
  | .error r => .raised r
  | .ok w' =>
    if w'.cur = 0 then
      if w'.out.length = w'.size then .finished w'.out else .raised ⟨.dataIntegrity, w'.out.length⟩
    else .running (.dep { w' with phase := .selLen })

/-- A match-length code gives the selector and the match length (R133). -/
def Dep.setSelLen (sel : Fin 4) (ml : Nat) (w : Dep) : Result Dep := .ok { w with phase := .litLen sel ml }

/-- The code `11111` (R133): the match length is the next raw byte minus 1; a zero byte is a data error. -/
def Dep.rawSelLen (w : Dep) : Result Dep :=
  match w.rawByte with
  | .error r => .error r
  | .ok q =>
    if q.1 = 0 then .error ⟨.dataIntegrity, q.2.out.length⟩ else Dep.setSelLen 3 (q.1.toNat - 1) q.2

/-- The extra bits of literal-length group 0, by selector (R134). -/
def litExtra0 (_ : Fin 4) : Nat := 1
/-- The extra bits of literal-length group 1, by selector (R134). -/
def litExtra1 (sel : Fin 4) : Nat := [2, 3, 3, 4].getD sel.val 0
/-- The base of literal-length group 2, by selector (R134). -/
def litBase2 (sel : Fin 4) : Nat := [6, 10, 10, 18].getD sel.val 0
/-- The extra bits of literal-length group 2, by selector (R134). -/
def litExtra2 (sel : Fin 4) : Nat := [4, 5, 7, 14].getD sel.val 0

/-- `read_next_literal_run_params` after its prefix: `base + getbits(k)` (R134). -/
def Dep.setLitLen (base extra : Nat) (sel : Fin 4) (ml : Nat) (w : Dep) : Result Dep :=
  match Dep.getbits extra 0 w with
  | .error r => .error r
  | .ok q => .ok { q.2 with lit := base + q.1, phase := .dist sel ml }

/-- `X(g)` of R135: an extra-bit count of the footer's table. -/
def Dep.extra (w : Dep) (g : Nat) (sel : Fin 4) : Nat := (w.table.getD (8 + 4 * g + sel.val) 0).toNat

/-- `DB[s]` of R75: a base of the footer's table. -/
def Dep.base (w : Dep) (sel : Fin 4) : Nat :=
  (be16 (w.table.getD (2 * sel.val) 0) (w.table.getD (2 * sel.val + 1) 0)).toNat

/-- `matchcopy`'s bytes (R136): one at a time, never past the declared size. -/
def Dep.copyBytes (d : Nat) : Nat → Dep → Result Dep
  | 0, w => .ok w
  | l + 1, w =>
    if w.out.length = w.size then .error ⟨.dataIntegrity, w.size⟩
    else Dep.copyBytes d l { w with out := w.out ++ [w.out.getD (w.out.length - d) 0] }

/-- `read_match_distance` after its prefix, then `matchcopy` (R135, R136): the distance is
`base + getbits(k) + 1`. -/
def Dep.matchAt (base extra : Nat) (ml : Nat) (w : Dep) : Result Dep :=
  match Dep.getbits extra 0 w with
  | .error r => .error r
  | .ok q =>
    if q.2.out.length < base + q.1 + 1 then .error ⟨.format, q.2.cur⟩
    else
      match Dep.copyBytes (base + q.1 + 1) ml q.2 with
      | .error r => .error r
      | .ok w' => .ok { w' with phase := .run }

/-- The prefix code that a phase reads (R131). -/
def DepPhase.format : DepPhase → Option Format
  | .run => none
  | .selLen => some .depSelLen
  | .litLen _ _ => some .depLitLen
  | .dist _ _ => some .depDist

/-- The selector and match length at the literal-length code. -/
def DepPhase.atLitLen : DepPhase → Option (Fin 4 × Nat)
  | .litLen sel ml => some (sel, ml)
  | _ => none

/-- The selector and match length at the distance code. -/
def DepPhase.atDist : DepPhase → Option (Fin 4 × Nat)
  | .dist sel ml => some (sel, ml)
  | _ => none

/-- The literal-length code of a group (R134), at its phase. -/
def Dep.litLenCode (base extra : Fin 4 → Nat) (w : Dep) : Option (Result Dep) :=
  match w.phase.atLitLen with
  | some q => some (w.setLitLen (base q.1) (extra q.1) q.1 q.2)
  | none => none

/-- The distance code of a group (R135), at its phase. -/
def Dep.distCode (base : Fin 4 → Nat) (g : Nat) (w : Dep) : Option (Result Dep) :=
  match w.phase.atDist with
  | some q => some (w.matchAt (base q.1) (w.extra g q.1) q.2)
  | none => none

/-- The match-length code (R133), at its phase. -/
def Dep.selLenCode (f : Dep → Result Dep) (w : Dep) : Option (Result Dep) :=
  match w.phase with
  | .selLen => some (f w)
  | _ => none

/-- The effect of one prefix code; none where the code cannot stand, and for the tokens of other streams. -/
def Dep.apply (w : Dep) (i : Instr) : Option (Result Dep) :=
  match i with
  | .depSellen0 => w.selLenCode (Dep.setSelLen 0 1)
  | .depSellen10 => w.selLenCode (Dep.setSelLen 1 2)
  | .depSellen110 => w.selLenCode (Dep.setSelLen 2 3)
  | .depSellen1110 => w.selLenCode (Dep.setSelLen 3 4)
  | .depSellen11110 x => w.selLenCode (Dep.setSelLen 3 (5 + x.toNat))
  | .depSellen11111 => w.selLenCode Dep.rawSelLen
  | .depLitlen0 => w.litLenCode (fun _ => 0) litExtra0
  | .depLitlen10 => w.litLenCode (fun _ => 2) litExtra1
  | .depLitlen11 => w.litLenCode litBase2 litExtra2
  | .depDist0 => w.distCode (fun _ => 0) 0
  | .depDist10 => w.distCode (fun sel => 2 ^ w.extra 0 sel) 1
  | .depDist11 => w.distCode w.base 2
  | _ => none

/-- A prefix code does not end the command: it raises or the loop goes on (R131). -/
def Dep.progress : Result Dep → Progress
  | .error r => .raised r
  | .ok w => .running (.dep w)

/-- A turn of a running DEPLODE: a literal run, or one prefix code with what follows it (R131). -/
def depTurn (s : State) : State :=
  match s.work with
  | .dep w =>
    match w.phase.format with
    | none => s.settle opDeplode w.runProgress
    | some f =>
      match Dep.readCode f maxCodeBits [] w with
      | .error r => s.raiseError opDeplode r
      | .ok none => s
      | .ok (some (i, w')) =>
        match w'.apply i with
        | none => s
        | some r => s.settle opDeplode (Dep.progress r)
  | _ => s

/-! ### The header, the footer and the prepared buffer -/

/-- A big-endian 32-bit field of the file, as a natural number (R39). -/
def be32At (F : Nat → Byte) (a : Nat) : Word := be32 (F a) (F (a + 1)) (F (a + 2)) (F (a + 3))

/-- A size field: bit 31 is ignored (R125, U1). -/
def sizeField (F : Nat → Byte) (a : Nat) : Nat := ((be32At F a).extractLsb' 0 31).toNat

/-- The magic "IMP!" (R74, R125). -/
def impMagic : List Byte := [0x49, 0x4D, 0x50, 0x21]

/-- `header()` of R125. -/
def depHeaderCheck (F : Nat → Byte) (n : Nat) : Result Unit :=
  if n < 12 then .error ⟨.format, 0⟩
  else if bytesOf F 0 4 ≠ impMagic then .error ⟨.format, 0⟩
  else if sizeField F 8 < 12 ∨ n < sizeField F 8 + Config.deplodeFooterSize then .error ⟨.format, 8⟩
  else .ok ()

/-- The lowest of `count` extra-bit counts from `T[8 + j]` on that is above 16 (R126). -/
def firstBadExtra (t : List Byte) : Nat → Nat → Option Nat
  | 0, _ => none
  | count + 1, j =>
    if Config.deplodeMaxExtra < (t.getD (8 + j) 0).toNat then some j else firstBadExtra t count (j + 1)

/-- The footer's distance table `T` (R75, R126). -/
def depTable (F : Nat → Byte) : List Byte := bytesOf F (sizeField F 8 + 18) 20

/-- `footer()`'s check of R126. -/
def depFooterCheck (F : Nat → Byte) : Result Unit :=
  match firstBadExtra (depTable F) 12 0 with
  | some j => .error ⟨.format, sizeField F 8 + 26 + j⟩
  | none => .ok ()

/-- The prepared buffer `P` (R127): the initial data in reverse order of its 4-byte chunks, then the payload. -/
def depPrepared (F : Nat → Byte) : List Byte :=
  bytesOf F (sizeField F 8 + 8) 4 ++ bytesOf F (sizeField F 8 + 4) 4 ++ bytesOf F (sizeField F 8) 4
    ++ bytesOf F 12 (sizeField F 8 - 12)

/-- The working state at the start (R126, R128). -/
def depStart (F : Nat → Byte) : Dep :=
  { prepared := depPrepared F
    table := depTable F
    size := sizeField F 4
    cur := sizeField F 8 - (if F (sizeField F 8 + 16) = 0 then 0 else 1)
    bb := F (sizeField F 8 + 17)
    bc := 8
    lit := (be32At F (sizeField F 8 + 12)).toNat
    out := []
    phase := .run }

/-- The start of DEPLODE: the checks of the regions, the header, the footer and the capacity, in order (R124). -/
def deplodeBegin (s : State) : State :=
  match s.checkRegions with
  | .error r => s.raiseError opDeplode r
  | .ok _ =>
    match depHeaderCheck s.srcByte s.slen with
    | .error r => s.raiseError opDeplode r
    | .ok _ =>
      match depFooterCheck s.srcByte with
      | .error r => s.raiseError opDeplode r
      | .ok _ =>
        if s.dcap < sizeField s.srcByte 4 then s.raiseError opDeplode ⟨.capacity, s.dcap⟩
        else { s with work := .dep (depStart s.srcByte) }

/-- Turns that always suffice: an iteration of R131 takes four turns and reads at least three bits. -/
def depFuel (s : State) : Nat := 16 * (s.slen + 1)

/-- DEPLODE to its completion (R124). -/
def execDeplode (s : State) : Host.Outcome State Fault Refusal :=
  .next (takeTurns State.resting depTurn (depFuel s) (deplodeBegin s))

/-- A prefix code on a running DEPLODE that stands before it. -/
def onDep (f : Dep → Option (Result Dep)) (s : State) : Host.Outcome State Fault Refusal :=
  match s.work with
  | .dep w =>
    match f w with
    | some r => .next (s.settle opDeplode (Dep.progress r))
    | none => .refused .tokenOutOfPlace
  | _ => .refused .tokenOutOfPlace

/-- `0`: selector 0, match length 1 (R133). -/
def execDepSellen0 (s : State) : Host.Outcome State Fault Refusal :=
  onDep (fun w => w.selLenCode (Dep.setSelLen 0 1)) s

/-- `10`: selector 1, match length 2 (R133). -/
def execDepSellen10 (s : State) : Host.Outcome State Fault Refusal :=
  onDep (fun w => w.selLenCode (Dep.setSelLen 1 2)) s

/-- `110`: selector 2, match length 3 (R133). -/
def execDepSellen110 (s : State) : Host.Outcome State Fault Refusal :=
  onDep (fun w => w.selLenCode (Dep.setSelLen 2 3)) s

/-- `1110`: selector 3, match length 4 (R133). -/
def execDepSellen1110 (s : State) : Host.Outcome State Fault Refusal :=
  onDep (fun w => w.selLenCode (Dep.setSelLen 3 4)) s

/-- `11110 xxx`: selector 3, match length `5 + xxx` (R133). -/
def execDepSellen11110 (x : BitVec 3) (s : State) : Host.Outcome State Fault Refusal :=
  onDep (fun w => w.selLenCode (Dep.setSelLen 3 (5 + x.toNat))) s

/-- `11111`: selector 3, match length the next raw byte minus 1 (R133). -/
def execDepSellen11111 (s : State) : Host.Outcome State Fault Refusal :=
  onDep (fun w => w.selLenCode Dep.rawSelLen) s

/-- Literal-length group 0 (R134). -/
def execDepLitlen0 (s : State) : Host.Outcome State Fault Refusal :=
  onDep (fun w => w.litLenCode (fun _ => 0) litExtra0) s

/-- Literal-length group 1 (R134). -/
def execDepLitlen10 (s : State) : Host.Outcome State Fault Refusal :=
  onDep (fun w => w.litLenCode (fun _ => 2) litExtra1) s

/-- Literal-length group 2 (R134). -/
def execDepLitlen11 (s : State) : Host.Outcome State Fault Refusal :=
  onDep (fun w => w.litLenCode litBase2 litExtra2) s

/-- Distance group 0, then the match copy (R135, R136). -/
def execDepDist0 (s : State) : Host.Outcome State Fault Refusal :=
  onDep (fun w => w.distCode (fun _ => 0) 0) s

/-- Distance group 1, then the match copy (R135, R136). -/
def execDepDist10 (s : State) : Host.Outcome State Fault Refusal :=
  onDep (fun w => w.distCode (fun sel => 2 ^ w.extra 0 sel) 1) s

/-- Distance group 2, then the match copy (R135, R136). -/
def execDepDist11 (s : State) : Host.Outcome State Fault Refusal :=
  onDep (fun w => w.distCode w.base 2) s

end Sys2Proof.Machine
end

