-- ==== Sys2Proof/Machine/Jh.lean ====
section
/-! DEFINITION. The JH cipher command and its unit of data (spec/45_jh.md R138 to R141,
spec/30_encoding.md R79). -/

namespace Sys2Proof.Machine

/-- The key word after `d0`: `(d0 << 4) + d0 + 87` mod 65536 (R138, R139). -/
def jhNextKey (d0 : Half) : Half := (d0 <<< 4) + d0 + 87

/-- The word at the working offset: big-endian, and at an odd tail the last byte over an implicit 0 (R79, R140). -/
def Jh.word (S : Nat → Byte) (n : Nat) (w : Jh) : Half :=
  be16 (S w.j) (if w.j + 1 < n then S (w.j + 1) else 0)

/-- The region's bytes after one data word is XORed with its key word: two bytes, or, at an odd tail, the high
byte only (R138, R140). -/
def jhStore (s : State) (w : Jh) (data : Half) : Memory :=
  let out := data ^^^ w.d0
  Memory.fill (fun x => s.hasAddress x && inRegion s.src s.slen x)
    (fun x => if x = s.src + w.j then highByte out else lowByte out) (s.src + w.j) 2 s.mem

/-- One data word on the running JH_CRYPT (R138). -/
def jhWordStep (s : State) (w : Jh) (data : Half) : State :=
  let t : State := { s with mem := jhStore s w data }
  if s.slen ≤ w.j + 2 then t.succeed opJhCrypt [] false
  else { t with work := .jh { j := w.j + 2, d0 := jhNextKey w.d0, d1 := w.d0 } }

/-- A turn of a running JH_CRYPT: one word (R138). -/
def jhTurn (s : State) : State :=
  match s.work with
  | .jh w => jhWordStep s w (w.word s.srcByte s.slen)
  | _ => s

/-- The start of JH_CRYPT: the check; an empty region is complete at once (R138). The schedule word `d1` is
never read before it is written; it starts at 0 (log entry 1). -/
def jhCryptBegin (s : State) : State :=
  match s.checkSource with
  | .error r => s.raiseError opJhCrypt r
  | .ok _ =>
    if s.slen = 0 then s.succeed opJhCrypt [] false
    else { s with work := .jh { j := 0, d0 := s.jhKey, d1 := 0 } }

/-- JH_CRYPT to its completion (R138). -/
def execJhCrypt (s : State) : Host.Outcome State Fault Refusal :=
  .next (takeTurns State.resting jhTurn (s.slen + 1) (jhCryptBegin s))

/-- The next data word of the region is XORed with its key word and written back (R138 to R140). -/
def execJhWord (data : Half) (s : State) : Host.Outcome State Fault Refusal :=
  match s.work with
  | .jh w => .next (jhWordStep s w data)
  | _ => .refused .tokenOutOfPlace

end Sys2Proof.Machine
end

