-- ==== Sys2Proof/Machine/Trie.lean ====
section
/-! DEFINITION. The MatchTrie, its three commands, the command words that name no function, and the trie
operations the compress commands use (spec/40_matchtrie.md R80 to R84, spec/30_encoding.md R56). -/

namespace Sys2Proof.Machine

/-! ### The trie -/

/-- An empty trie with a window: `trieReset(W)` of R84. -/
def Trie.withWindow (w : Nat) : Trie := { window := w, entries := [], last := none }

/-- `TE[o] <- run`, keeping anchors strictly rising (R81). -/
def insertEntry (o : Nat) (run : List Byte) : List (Nat × List Byte) → List (Nat × List Byte)
  | [] => [(o, run)]
  | e :: es =>
    if o < e.1 then (o, run) :: e :: es
    else if o = e.1 then (o, run) :: es
    else e :: insertEntry o run es

/-- `evict(o)` (R82): remove each anchor `q` with `q + TW < o + 1`. -/
def evict (window o : Nat) (es : List (Nat × List Byte)) : List (Nat × List Byte) :=
  es.filter (fun e => !decide (e.1 + window < o + 1))

/-- The body of TRIE_ADD after its checks, `tadd` of R84 (R81, R82). -/
def Trie.add (t : Trie) (o : Nat) (run : List Byte) : Trie :=
  { t with entries := evict t.window o (insertEntry o run t.entries), last := some o }

/-- Insert the runs of at most `cap` bytes anchored at `k`, `k + 1`, ..., as many as `count` says, each cut at
the buffer's end (R84). -/
def Trie.addRuns (S : Nat → Byte) (n cap : Nat) : Nat → Nat → Trie → Trie
  | 0, _, t => t
  | count + 1, k, t => Trie.addRuns S n cap count (k + 1) (t.add k (bytesOf S k (min cap (n - k))))

/-- How many of at most `m` bytes of an entry agree with `S` from `s` on (R83). -/
def matchLength (S : Nat → Byte) : Nat → Nat → List Byte → Nat
  | 0, _, _ => 0
  | _ + 1, _, [] => 0
  | m + 1, s, b :: e => if b = S s then matchLength S m (s + 1) e + 1 else 0

/-- One entry's part of `match` (R83): the better of the best so far (anchor, length) and this entry. -/
def betterMatch (S : Nat → Byte) (s m : Nat) (best : Nat × Nat) (e : Nat × List Byte) : Nat × Nat :=
  let l := matchLength S m s e.2
  if best.2 < l ∨ (l = best.2 ∧ 0 < l ∧ best.1 < e.1) then (e.1, l) else best

/-- `match(s, m)` of R83: the anchor and length of the longest match, the largest anchor among equals; (0, 0)
when no byte matches. -/
def Trie.search (t : Trie) (S : Nat → Byte) (s m : Nat) : Nat × Nat :=
  t.entries.foldl (betterMatch S s m) (0, 0)

/-! ### TRIE_INIT -/

/-- TRIE_INIT on the latched context (R80). -/
def trieInitRun (s : State) : State :=
  if Config.trieMaxWindow < s.p0 then s.raiseError opTrieInit ⟨.misuse, 0⟩
  else
    State.succeed
      { s with trie := Trie.withWindow (if s.p0 = 0 then Config.trieDefaultWindow else s.p0) }
      opTrieInit [] false

/-- TRIE_INIT (R80). -/
def execTrieInit (s : State) : Host.Outcome State Fault Refusal := .next (trieInitRun s)

/-! ### TRIE_ADD -/

/-- TRIE_ADD's checks, in order (R81, R145). -/
def trieAddCheck (s : State) : Result Unit :=
  match s.checkSource with
  | .error r => .error r
  | .ok _ =>
    if s.p1 < 1 ∨ Config.trieMaxRun < s.p1 then .error ⟨.misuse, 0⟩
    else if s.slen < s.p0 + s.p1 then .error ⟨.misuse, 0⟩
    else
      match s.trie.last with
      | some q => if s.p0 ≤ q then .error ⟨.misuse, 0⟩ else .ok ()
      | none => .ok ()

/-- TRIE_ADD on the latched context (R81): the bytes are copied now (R167). -/
def trieAddRun (s : State) : State :=
  match trieAddCheck s with
  | .error r => s.raiseError opTrieAdd r
  | .ok _ =>
    State.succeed { s with trie := s.trie.add s.p0 (bytesOf s.srcByte s.p0 s.p1) } opTrieAdd [] false

/-- TRIE_ADD (R81). -/
def execTrieAdd (s : State) : Host.Outcome State Fault Refusal := .next (trieAddRun s)

/-! ### TRIE_MATCH -/

/-- TRIE_MATCH's checks, in order (R83, R145). -/
def trieMatchCheck (s : State) : Result Unit :=
  match s.checkSource with
  | .error r => .error r
  | .ok _ =>
    if Config.trieMaxRun < s.p1 then .error ⟨.misuse, 0⟩
    else if s.slen < s.p0 + s.p1 then .error ⟨.misuse, 0⟩
    else .ok ()

/-- TRIE_MATCH on the latched context (R83). -/
def trieMatchRun (s : State) : State :=
  match trieMatchCheck s with
  | .error r => s.raiseError opTrieMatch r
  | .ok _ =>
    let best := s.trie.search s.srcByte s.p0 s.p1
    State.succeed
      { s with matchOff := BitVec.ofNat 32 best.1, matchLen := BitVec.ofNat 32 best.2 } opTrieMatch [] false

/-- TRIE_MATCH (R83). -/
def execTrieMatch (s : State) : Host.Outcome State Fault Refusal := .next (trieMatchRun s)

/-! ### The reserved opcodes -/

/-- OP 0x16 behaves as an illegal opcode: it ends with MISUSE(0) (R56). -/
def execReservedAdvlobCompress (s : State) : Host.Outcome State Fault Refusal :=
  .next (s.raiseError opReservedAdvlobCompress ⟨.misuse, 0⟩)

/-- OP 0x17 behaves as an illegal opcode: it ends with MISUSE(0) (R56). -/
def execReservedAdvlobDecompress (s : State) : Host.Outcome State Fault Refusal :=
  .next (s.raiseError opReservedAdvlobDecompress ⟨.misuse, 0⟩)

end Sys2Proof.Machine
end

