-- ==== Sys2Proof/Machine/Lob.lean ====
section
/-! DEFINITION. The Lob commands and stream tokens (spec/41_lob.md R86 to R95, spec/30_encoding.md R61, R62). -/

namespace Sys2Proof.Machine

/-! ### LOB_COMPRESS -/

/-- Open a control byte when the first item of a block is written (R89). -/
def LobEnc.openBlock (w : LobEnc) : LobEnc :=
  if w.ci = none ∨ w.cnt = 8 then { w with ci := some w.out.length, out := w.out ++ [0], cnt := 0 } else w

/-- `put(literal(v))` of R89: bit `7 - cnt` of the control byte is set. -/
def LobEnc.putLiteral (w : LobEnc) (v : Byte) : LobEnc :=
  let w := w.openBlock
  { w with
    out := w.out.modify (w.ci.getD 0) (fun c => c ||| ((0x80 : Byte) >>> w.cnt)) ++ tokenBytes (.lobLit v)
    cnt := w.cnt + 1 }

/-- `put(match(d, L))` of R89: the control bit stays 0; the token is R62's. -/
def LobEnc.putMatch (w : LobEnc) (d l : Nat) : LobEnc :=
  let w := w.openBlock
  { w with
    out := w.out ++ tokenBytes (.lobMatch (BitVec.ofNat 4 (l - 3)) (BitVec.ofNat 12 d))
    cnt := w.cnt + 1 }

/-- `pad()` of R90: the output's length is made even. -/
def LobEnc.pad (w : LobEnc) : List Byte :=
  if w.out.length % 2 = 1 then
    if w.cnt < 8 then (w.putLiteral 0).out else w.out ++ [0xC0, 0, 0]
  else w.out

/-- One iteration of the parse of R88: search, write the item, then insert the positions it covers. -/
def lobEncItem (S : Nat → Byte) (n : Nat) (t : Trie) (w : LobEnc) : Trie × LobEnc :=
  let best := t.search S w.p (min Config.lobMaxMatch (n - w.p))
  let adv := if 3 ≤ best.2 then best.2 else 1
  let w' := if 3 ≤ best.2 then w.putMatch (w.p - best.1) best.2 else w.putLiteral (S w.p)
  (t.addRuns S n Config.lobMaxMatch adv w.p, { w' with p := w.p + adv })

/-- A turn of a running LOB_COMPRESS: one item, or, when the input is used up, padding, the capacity check and
completion (R86). -/
def lobEncTurn (s : State) : State :=
  match s.work with
  | .lobEnc w =>
    if w.p < s.slen then
      let r := lobEncItem s.srcByte s.slen s.trie w
      { s with trie := r.1, work := .lobEnc r.2 }
    else s.settle opLobCompress (s.checkCapacity w.pad)
  | _ => s

/-- The start of LOB_COMPRESS: the checks, and the stored form of R87, which is complete at once (R86). -/
def lobCompressBegin (s : State) : State :=
  match s.checkRegions with
  | .error r => s.raiseError opLobCompress r
  | .ok _ =>
    if s.slen < Config.lobMinCompress then
      if s.dcap < s.slen then s.raiseError opLobCompress ⟨.capacity, s.dcap⟩
      else s.succeed opLobCompress (bytesOf s.srcByte 0 s.slen) true
    else
      { s with
        trie := Trie.withWindow Config.lobWindow
        work := .lobEnc { p := 0, out := [], ci := none, cnt := 0 } }

/-- LOB_COMPRESS to its completion (R86). Each turn but the last covers at least one input byte. -/
def execLobCompress (s : State) : Host.Outcome State Fault Refusal :=
  .next (takeTurns State.resting lobEncTurn (s.slen + 1) (lobCompressBegin s))

/-! ### LOB_DECOMPRESS -/

/-- Whether the next unit is a control byte (R91). -/
def LobDec.awaitsControl (w : LobDec) : Bool := w.k == 8

/-- The control bit of the next item: bit `7 - k` (R61). -/
def LobDec.controlBit (w : LobDec) : Bool := w.ctl.getLsbD (7 - w.k)

/-- Whether the next item is a literal (R61). -/
def LobDec.awaitsLiteral (w : LobDec) : Bool := decide (w.k < 8) && w.controlBit

/-- Whether the next item is a match token (R61). -/
def LobDec.awaitsMatch (w : LobDec) : Bool := decide (w.k < 8) && !w.controlBit

/-- The decoder that reads the next unit (R61). -/
def LobDec.format (w : LobDec) : Format :=
  if w.awaitsControl then .lobControl else if w.controlBit then .lobLiteral else .lobMatch

/-- A control byte governs the next up to 8 items (R91). -/
def LobDec.control (w : LobDec) (c : Byte) : Result LobDec := .ok { w with ctl := c, k := 0 }

/-- A literal item (R92). -/
def LobDec.literal (w : LobDec) (v : Byte) : Result LobDec :=
  .ok { w with out := w.out ++ [v], k := w.k + 1 }

/-- A match item (R93). -/
def LobDec.copy (limit : Nat) (w : LobDec) (l : BitVec 4) (d : BitVec 12) : Result LobDec :=
  if d.toNat = 0 ∨ w.out.length < d.toNat then .error ⟨.format, w.tok⟩
  else .ok { w with out := copyMatch limit d.toNat (l.toNat + 3) w.out, k := w.k + 1 }

/-- Read the next unit: the token and the working state past its bytes. A unit the stream has no bytes for
raises FORMAT at its first byte (R91 to R93, R95). -/
def LobDec.fetch (S : Nat → Byte) (n : Nat) (w : LobDec) : Result (Option (Instr × LobDec)) :=
  match fetchToken w.format S n maxTokenBytes [] w.i with
  | .error _ => .error ⟨.format, w.i⟩
  | .ok none => .ok none
  | .ok (some (t, i)) => .ok (some (t, { w with i := i, tok := w.i }))

/-- Decoding goes on until the output has its `limit` bytes (R91, R94). -/
def LobDec.progress (limit : Nat) : Result LobDec → Progress
  | .error r => .raised r
  | .ok w => if limit ≤ w.out.length then .finished w.out else .running (.lobDec w)

/-- The effect of one fetched token; the tokens of other streams have none here. -/
def LobDec.apply (limit : Nat) (w : LobDec) (i : Instr) : Result LobDec :=
  match i with
  | .lobCtrl c => w.control c
  | .lobLit v => w.literal v
  | .lobMatch l d => w.copy limit l d
  | _ => .ok w

/-- A turn of a running LOB_DECOMPRESS: one unit of the stream (R91). -/
def lobDecTurn (s : State) : State :=
  match s.work with
  | .lobDec w =>
    match w.fetch s.srcByte s.slen with
    | .error r => s.raiseError opLobDecompress r
    | .ok none => s
    | .ok (some (i, w')) => s.settle opLobDecompress (LobDec.progress s.p0 (w'.apply s.p0 i))
  | _ => s

/-- The start of LOB_DECOMPRESS: the checks, and the stored form, which is complete at once (R91). -/
def lobDecompressBegin (s : State) : State :=
  match s.checkRegions with
  | .error r => s.raiseError opLobDecompress r
  | .ok _ =>
    if s.dcap < s.p0 then s.raiseError opLobDecompress ⟨.capacity, s.dcap⟩
    else if s.p0 < Config.lobMinCompress then
      if s.slen < s.p0 then s.raiseError opLobDecompress ⟨.format, s.slen⟩
      else s.succeed opLobDecompress (bytesOf s.srcByte 0 s.p0) false
    else { s with work := .lobDec { i := 0, tok := 0, out := [], ctl := 0, k := 8 } }

/-- LOB_DECOMPRESS to its completion (R91). Each turn but the last reads at least one stream byte. -/
def execLobDecompress (s : State) : Host.Outcome State Fault Refusal :=
  .next (takeTurns State.resting lobDecTurn (s.slen + 1) (lobDecompressBegin s))

/-- A Lob token on a running LOB_DECOMPRESS that stands before it. -/
def onLobDec (here : LobDec → Bool) (f : LobDec → Result LobDec) (s : State) : Host.Outcome State Fault Refusal :=
  match s.work with
  | .lobDec w =>
    if here w then .next (s.settle opLobDecompress (LobDec.progress s.p0 (f w))) else .refused .tokenOutOfPlace
  | _ => .refused .tokenOutOfPlace

/-- A control byte (R61, R91). -/
def execLobCtrl (c : Byte) (s : State) : Host.Outcome State Fault Refusal :=
  onLobDec LobDec.awaitsControl (fun w => w.control c) s

/-- A literal item (R92). -/
def execLobLit (v : Byte) (s : State) : Host.Outcome State Fault Refusal :=
  onLobDec LobDec.awaitsLiteral (fun w => w.literal v) s

/-- A match item (R93). -/
def execLobMatch (l : BitVec 4) (d : BitVec 12) (s : State) : Host.Outcome State Fault Refusal :=
  onLobDec LobDec.awaitsMatch (fun w => w.copy s.p0 l d) s

end Sys2Proof.Machine
end

