-- ==== Sys2Proof/Machine/Tlob.lean ====
section
/-! DEFINITION. The TextLob commands and stream tokens (spec/43_textlob.md R111 to R123,
spec/30_encoding.md R70 to R73). -/

namespace Sys2Proof.Machine

/-! ### TLOB_COMPRESS -/

/-- The lowest index of `count` from `j` on whose byte is 1 .. 31 (R112). -/
def firstControlByte (S : Nat → Byte) : Nat → Nat → Option Nat
  | 0, _ => none
  | count + 1, j =>
    if 1 ≤ (S j).toNat ∧ (S j).toNat ≤ 31 then some j else firstControlByte S count (j + 1)

/-- `check(k)` of R112. -/
def tlobCheck (S : Nat → Byte) (n k : Nat) : Result Unit :=
  if Config.tlobMaxSkip < k then .error ⟨.format, 0⟩
  else if n < k then .error ⟨.misuse, 0⟩
  else
    match firstControlByte S (n - k) k with
    | some j => .error ⟨.format, j⟩
    | none => .ok ()

/-- The header and the skip region (R113). -/
def tlobHeader (S : Nat → Byte) (k : Nat) : List Byte :=
  tokenBytes (.tlobSkip (BitVec.ofNat 8 k)) ++ bytesOf S 0 k

/-- `longtok(d, L)` of R115. -/
def TlobEnc.putLong (w : TlobEnc) (d l : Nat) : TlobEnc :=
  { w with out := w.out ++ tokenBytes (.tlobLong (BitVec.ofNat 9 (d - 3)) (BitVec.ofNat 3 (l - 3))) }

/-- `shorttok(d)` of R115: the first of a pair opens a reservation, the second fills it. -/
def TlobEnc.putShort (w : TlobEnc) (d : Nat) : TlobEnc :=
  let f : Byte := BitVec.ofNat 8 (d - 3)
  match w.pend with
  | none =>
    { w with
      out := w.out ++ tokenBytes (.tlobShortFirst (f.extractLsb' 4 4) (f.extractLsb' 0 4) 0)
      pend := some (w.out.length + 1) }
  | some k =>
    { w with
      out :=
        (w.out ++ tokenBytes (.tlobShortSecond (f.extractLsb' 4 4))).modify k
          (fun b => b ||| ((0 : BitVec 4) ++ f.extractLsb' 0 4))
      pend := none }

/-- `littok(v)` of R116. -/
def TlobEnc.putLiteral (w : TlobEnc) (v : Byte) : TlobEnc :=
  { w with out := w.out ++ tokenBytes (if v = 0 then .tlobZero else .tlobLit v) }

/-- One iteration of the parse of R114: insert the anchors up to `p - 3`, search, write the token. -/
def tlobEncItem (S : Nat → Byte) (n : Nat) (t : Trie) (w : TlobEnc) : Trie × TlobEnc :=
  let lag := w.p - 2 - w.nxt
  let t := t.addRuns S n Config.tlobMaxMatch lag w.nxt
  let best := t.search S w.p (min Config.tlobMaxMatch (n - w.p))
  let d := w.p - best.1
  let w := { w with nxt := w.nxt + lag }
  if 3 ≤ best.2 then (t, { w.putLong d best.2 with p := w.p + best.2 })
  else if best.2 = 2 ∧ d ≤ Config.tlobShortMaxOffset then (t, { w.putShort d with p := w.p + 2 })
  else (t, { w.putLiteral (S w.p) with p := w.p + 1 })

/-- The finished output, padded to even length (R111, R117). -/
def TlobEnc.finish (w : TlobEnc) : List Byte :=
  if w.out.length % 2 = 1 then w.out ++ [0] else w.out

/-- A turn of a running TLOB_COMPRESS (R111). -/
def tlobEncTurn (s : State) : State :=
  match s.work with
  | .tlobEnc w =>
    if w.p < s.slen then
      let r := tlobEncItem s.srcByte s.slen s.trie w
      { s with trie := r.1, work := .tlobEnc r.2 }
    else s.settle opTlobCompress (s.checkCapacity w.finish)
  | _ => s

/-- The start of TLOB_COMPRESS: the checks of the regions and the bytes, the trie's reset, the header (R111). -/
def tlobCompressBegin (s : State) : State :=
  match s.checkRegions with
  | .error r => s.raiseError opTlobCompress r
  | .ok _ =>
    match tlobCheck s.srcByte s.slen s.p1 with
    | .error r => s.raiseError opTlobCompress r
    | .ok _ =>
      { s with
        trie := Trie.withWindow Config.tlobWindow
        work := .tlobEnc { p := s.p1, out := tlobHeader s.srcByte s.p1, pend := none, nxt := 0 } }

/-- TLOB_COMPRESS to its completion (R111). Each turn but the last covers at least one input byte. -/
def execTlobCompress (s : State) : Host.Outcome State Fault Refusal :=
  .next (takeTurns State.resting tlobEncTurn (s.slen + 1) (tlobCompressBegin s))

/-! ### TLOB_DECOMPRESS -/

/-- The skip region (R119): a skip count above `limit` raises FORMAT(0). -/
def TlobDec.skip (limit : Nat) (S : Nat → Byte) (n : Nat) (w : TlobDec) (k : Byte) : Result TlobDec :=
  if limit < k.toNat then .error ⟨.format, 0⟩
  else
    match readBytes S n limit k.toNat w.i w.out with
    | .error r => .error r
    | .ok q => .ok { w with i := q.1, out := q.2, skipped := true }

/-- A literal or the zero escape (R120). -/
def TlobDec.literal (w : TlobDec) (v : Byte) : Result TlobDec := .ok { w with out := w.out ++ [v] }

/-- `copy(d, L)` of R121. -/
def TlobDec.copy (limit d l : Nat) (w : TlobDec) : Result TlobDec :=
  if w.out.length < d then .error ⟨.format, w.tok⟩
  else .ok { w with out := copyMatch limit d l w.out }

/-- A 2-byte match, first of a pair: its low nibble `r` is kept for the next (R121). -/
def TlobDec.shortFirst (limit : Nat) (w : TlobDec) (f g r : BitVec 4) : Result TlobDec :=
  TlobDec.copy limit ((f ++ g).toNat + 3) 2 { w with res := some r }

/-- A 2-byte match, second of a pair: it takes the reserved nibble (R121). -/
def TlobDec.shortSecond (limit : Nat) (w : TlobDec) (f : BitVec 4) : Result TlobDec :=
  TlobDec.copy limit ((f ++ w.res.getD 0).toNat + 3) 2 { w with res := none }

/-- A longer match (R122). -/
def TlobDec.longMatch (limit : Nat) (w : TlobDec) (f : BitVec 9) (l : BitVec 3) : Result TlobDec :=
  TlobDec.copy limit (f.toNat + 3) (l.toNat + 3) w

/-- The decoder that reads the next unit (R70). -/
def TlobDec.format (w : TlobDec) : Format := if w.skipped then .tlob w.res.isSome else .tlobSkip

/-- Read the next token (`need()` of R118): the token and the working state past its bytes. -/
def TlobDec.fetch (S : Nat → Byte) (n : Nat) (w : TlobDec) : Result (Option (Instr × TlobDec)) :=
  match fetchToken w.format S n maxTokenBytes [] w.i with
  | .error r => .error r
  | .ok none => .ok none
  | .ok (some (t, i)) => .ok (some (t, { w with i := i, tok := w.i }))

/-- Decoding goes on until the skip region has been read and the output has its `limit` bytes (R118, R123). -/
def TlobDec.progress (limit : Nat) : Result TlobDec → Progress
  | .error r => .raised r
  | .ok w => if w.skipped = true ∧ limit ≤ w.out.length then .finished w.out else .running (.tlobDec w)

/-- The effect of one fetched token; the tokens of other streams have none here. -/
def TlobDec.apply (limit : Nat) (S : Nat → Byte) (n : Nat) (w : TlobDec) (i : Instr) : Result TlobDec :=
  match i with
  | .tlobSkip k => w.skip limit S n k
  | .tlobLit v => w.literal v
  | .tlobZero => w.literal 0
  | .tlobShortFirst f g r => w.shortFirst limit f g r
  | .tlobShortSecond f => w.shortSecond limit f
  | .tlobLong f l => w.longMatch limit f l
  | _ => .ok w

/-- A turn of a running TLOB_DECOMPRESS: the skip region or one token (R118). -/
def tlobDecTurn (s : State) : State :=
  match s.work with
  | .tlobDec w =>
    match w.fetch s.srcByte s.slen with
    | .error r => s.raiseError opTlobDecompress r
    | .ok none => s
    | .ok (some (i, w')) =>
      s.settle opTlobDecompress (TlobDec.progress s.p0 (w'.apply s.p0 s.srcByte s.slen i))
  | _ => s

/-- The start of TLOB_DECOMPRESS: the checks. Even `N = 0` needs the skip-count byte (R118). -/
def tlobDecompressBegin (s : State) : State :=
  match s.checkRegions with
  | .error r => s.raiseError opTlobDecompress r
  | .ok _ =>
    if s.dcap < s.p0 then s.raiseError opTlobDecompress ⟨.capacity, s.dcap⟩
    else { s with work := .tlobDec { i := 0, tok := 0, out := [], res := none, skipped := false } }

/-- TLOB_DECOMPRESS to its completion (R118). Each turn but the last reads at least one stream byte. -/
def execTlobDecompress (s : State) : Host.Outcome State Fault Refusal :=
  .next (takeTurns State.resting tlobDecTurn (s.slen + 1) (tlobDecompressBegin s))

/-- A TextLob token on a running TLOB_DECOMPRESS that stands before it. -/
def onTlobDec (here : TlobDec → Bool) (f : TlobDec → Result TlobDec) (s : State) :
    Host.Outcome State Fault Refusal :=
  match s.work with
  | .tlobDec w =>
    if here w then .next (s.settle opTlobDecompress (TlobDec.progress s.p0 (f w))) else .refused .tokenOutOfPlace
  | _ => .refused .tokenOutOfPlace

/-- The skip count and the skip region (R119). -/
def execTlobSkip (k : Byte) (s : State) : Host.Outcome State Fault Refusal :=
  onTlobDec (fun w => !w.skipped) (fun w => w.skip s.p0 s.srcByte s.slen k) s

/-- A literal (R120). -/
def execTlobLit (v : Byte) (s : State) : Host.Outcome State Fault Refusal :=
  onTlobDec (fun w => w.skipped) (fun w => w.literal v) s

/-- The zero escape stands for a zero byte (R120). -/
def execTlobZero (s : State) : Host.Outcome State Fault Refusal :=
  onTlobDec (fun w => w.skipped) (fun w => w.literal 0) s

/-- A 2-byte match, first of a pair (R121). -/
def execTlobShortFirst (f g r : BitVec 4) (s : State) : Host.Outcome State Fault Refusal :=
  onTlobDec (fun w => w.skipped && w.res.isNone) (fun w => w.shortFirst s.p0 f g r) s

/-- A 2-byte match, second of a pair (R121). -/
def execTlobShortSecond (f : BitVec 4) (s : State) : Host.Outcome State Fault Refusal :=
  onTlobDec (fun w => w.skipped && w.res.isSome) (fun w => w.shortSecond s.p0 f) s

/-- A longer match (R122). -/
def execTlobLong (f : BitVec 9) (l : BitVec 3) (s : State) : Host.Outcome State Fault Refusal :=
  onTlobDec (fun w => w.skipped) (fun w => w.longMatch s.p0 f l) s

end Sys2Proof.Machine
end

