-- ==== Sys2Proof/Machine/Xlob.lean ====
section
/-! DEFINITION. The ExtendedLob (LZRS) commands and stream tokens (spec/42_extendedlob.md R96 to R110,
spec/30_encoding.md R63 to R69). -/

namespace Sys2Proof.Machine

/-! ### XLOB_COMPRESS -/

/-- `flush()` of R99: the pending literals are written as small literals if all are at most 31, else as one
literal run. -/
def XlobEnc.flush (w : XlobEnc) : XlobEnc :=
  if w.lits = [] then w
  else if w.lits.all (fun x => decide (x.toNat ≤ 31)) then
    { w with
      out := w.out ++ w.lits.flatMap (fun x => tokenBytes (.xlobSlit (BitVec.ofNat 5 x.toNat)))
      lits := [] }
  else
    { w with out := w.out ++ tokenBytes (.xlobLitrun (BitVec.ofNat 7 w.lits.length)) ++ w.lits, lits := [] }

/-- `addlit(v)` of R99. -/
def XlobEnc.addLiteral (w : XlobEnc) (v : Byte) : XlobEnc :=
  let w := { w with lits := w.lits ++ [v] }
  if w.lits.length = Config.xlobMaxLitrun then w.flush else w

/-- `runtok(v, r)` of R98. -/
def XlobEnc.putRun (w : XlobEnc) (v : Byte) (r : Nat) : XlobEnc :=
  if v = 0 then { w with out := w.out ++ tokenBytes (.xlobZrle (BitVec.ofNat 8 (r - 3))) }
  else { w with out := w.out ++ tokenBytes (.xlobLrle (BitVec.ofNat 5 (r - 3)) v) }

/-- The small form of `matchtok(d, L)` (R100). -/
def XlobEnc.putSmallMatch (w : XlobEnc) (d l : Nat) : XlobEnc :=
  { w with out := w.out ++ tokenBytes (.xlobSmatch (BitVec.ofNat 4 (l - 3)) (BitVec.ofNat 9 d)) }

/-- The 17-bit value of a large match: `(L - 3) << 10 | d` (R67, R101). -/
def largeMatchValue (d l : Nat) : BitVec 17 := BitVec.ofNat 7 (l - 3) ++ BitVec.ofNat 10 d

/-- The large form of `matchtok(d, L)` (R101): the first of a pair writes a reserve byte with its own nibble in
bits 7:4; the second puts its nibble in that byte's bits 3:0. -/
def XlobEnc.putLargeMatch (w : XlobEnc) (d l : Nat) : XlobEnc :=
  let v := largeMatchValue d l
  match w.pend with
  | none =>
    { w with
      out := w.out ++ tokenBytes (.xlobLmatchFirst (v.extractLsb' 12 5) (v.extractLsb' 4 8) (v.extractLsb' 0 4) 0)
      pend := some (w.out.length + 2) }
  | some k =>
    { w with
      out :=
        (w.out ++ tokenBytes (.xlobLmatchSecond (v.extractLsb' 12 5) (v.extractLsb' 4 8))).modify k
          (fun b => b ||| ((0 : BitVec 4) ++ v.extractLsb' 0 4))
      pend := none }

/-- `matchtok(d, L)`: the small form whenever it fits (R100, R101). -/
def XlobEnc.putMatch (w : XlobEnc) (d l : Nat) : XlobEnc :=
  if d ≤ Config.xlobSmallMaxOffset ∧ l ≤ Config.xlobSmallMaxMatch then w.putSmallMatch d l else w.putLargeMatch d l

/-- How many of `k` bytes of `S` from `a` on equal `v` without a break (R97). -/
def runLength (S : Nat → Byte) (v : Byte) : Nat → Nat → Nat
  | 0, _ => 0
  | k + 1, a => if S a = v then runLength S v k (a + 1) + 1 else 0

/-- The run length at `p`, cut at the token's maximum and at the buffer's end (R97). -/
def xlobRunAt (S : Nat → Byte) (n p : Nat) : Nat :=
  let cap := if S p = 0 then Config.xlobMaxZrun else Config.xlobMaxRun
  1 + runLength S (S p) (min (cap - 1) (n - p - 1)) (p + 1)

/-- One iteration of the parse of R97: a run at least as long as the best match, else a match, else a literal;
then the positions covered are inserted. -/
def xlobEncItem (S : Nat → Byte) (n : Nat) (t : Trie) (w : XlobEnc) : Trie × XlobEnc :=
  let r := xlobRunAt S n w.p
  let best := t.search S w.p (min Config.xlobMaxMatch (n - w.p))
  let adv := if 3 ≤ r ∧ best.2 ≤ r then r else if 3 ≤ best.2 then best.2 else 1
  let w' :=
    if 3 ≤ r ∧ best.2 ≤ r then w.flush.putRun (S w.p) r
    else if 3 ≤ best.2 then w.flush.putMatch (w.p - best.1) best.2
    else w.addLiteral (S w.p)
  (t.addRuns S n Config.xlobMaxMatch adv w.p, { w' with p := w.p + adv })

/-- The finished output: the last literals flushed, then padding to even length (R96, R102). -/
def XlobEnc.finish (w : XlobEnc) : List Byte :=
  if w.flush.out.length % 2 = 1 then w.flush.out ++ [0] else w.flush.out

/-- A turn of a running XLOB_COMPRESS (R96). -/
def xlobEncTurn (s : State) : State :=
  match s.work with
  | .xlobEnc w =>
    if w.p < s.slen then
      let r := xlobEncItem s.srcByte s.slen s.trie w
      { s with trie := r.1, work := .xlobEnc r.2 }
    else s.settle opXlobCompress (s.checkCapacity w.finish)
  | _ => s

/-- The start of XLOB_COMPRESS: the checks and the trie's reset (R96). -/
def xlobCompressBegin (s : State) : State :=
  match s.checkRegions with
  | .error r => s.raiseError opXlobCompress r
  | .ok _ =>
    { s with
      trie := Trie.withWindow Config.xlobWindow
      work := .xlobEnc { p := 0, out := [], lits := [], pend := none } }

/-- XLOB_COMPRESS to its completion (R96). Each turn but the last covers at least one input byte. -/
def execXlobCompress (s : State) : Host.Outcome State Fault Refusal :=
  .next (takeTurns State.resting xlobEncTurn (s.slen + 1) (xlobCompressBegin s))

/-! ### XLOB_DECOMPRESS -/

/-- Append bytes, stopping at the output's end (R103, R110). -/
def XlobDec.put (limit : Nat) (w : XlobDec) (bs : List Byte) : Result XlobDec :=
  .ok { w with out := putBytes limit w.out bs }

/-- `copy(d, L)` of R106. -/
def XlobDec.copy (limit d l : Nat) (w : XlobDec) : Result XlobDec :=
  if d = 0 ∨ w.out.length < d then .error ⟨.format, w.tok⟩
  else .ok { w with out := copyMatch limit d l w.out }

/-- Zero-RLE (R104). -/
def XlobDec.zeroRun (limit : Nat) (w : XlobDec) (c : Byte) : Result XlobDec :=
  w.put limit (List.replicate (c.toNat + 3) 0)

/-- Literal run (R105): the bytes are read one at a time, and reading stops when the output is complete. -/
def XlobDec.literalRun (limit : Nat) (S : Nat → Byte) (n : Nat) (w : XlobDec) (c : BitVec 7) : Result XlobDec :=
  match readBytes S n limit c.toNat w.i w.out with
  | .error r => .error r
  | .ok q => .ok { w with i := q.1, out := q.2 }

/-- Small match (R106). -/
def XlobDec.smallMatch (limit : Nat) (w : XlobDec) (l : BitVec 4) (d : BitVec 9) : Result XlobDec :=
  w.copy limit d.toNat (l.toNat + 3)

/-- A large match from its 17-bit value (R67, R107). -/
def XlobDec.largeMatch (limit : Nat) (w : XlobDec) (v : BitVec 17) : Result XlobDec :=
  w.copy limit (v.extractLsb' 0 10).toNat ((v.extractLsb' 10 7).toNat + 3)

/-- Large match, first of a pair: its reserve byte's low nibble is kept for the next (R107). -/
def XlobDec.largeFirst (limit : Nat) (w : XlobDec) (h : BitVec 5) (b : Byte) (n r : BitVec 4) : Result XlobDec :=
  XlobDec.largeMatch limit { w with res := some r } (h ++ b ++ n)

/-- Large match, second of a pair: it takes the reserved nibble (R107). -/
def XlobDec.largeSecond (limit : Nat) (w : XlobDec) (h : BitVec 5) (b : Byte) : Result XlobDec :=
  XlobDec.largeMatch limit { w with res := none } (h ++ b ++ w.res.getD 0)

/-- Literal RLE (R108). -/
def XlobDec.byteRun (limit : Nat) (w : XlobDec) (c : BitVec 5) (v : Byte) : Result XlobDec :=
  w.put limit (List.replicate (c.toNat + 3) v)

/-- Small literal (R109). -/
def XlobDec.smallLiteral (limit : Nat) (w : XlobDec) (v : BitVec 5) : Result XlobDec :=
  w.put limit [(0 : BitVec 3) ++ v]

/-- Read the next token (`need()` of R103): the token and the working state past its bytes. -/
def XlobDec.fetch (S : Nat → Byte) (n : Nat) (w : XlobDec) : Result (Option (Instr × XlobDec)) :=
  match fetchToken (.xlob w.res.isSome) S n maxTokenBytes [] w.i with
  | .error r => .error r
  | .ok none => .ok none
  | .ok (some (t, i)) => .ok (some (t, { w with i := i, tok := w.i }))

/-- Decoding goes on until the output has its `limit` bytes (R103, R110). -/
def XlobDec.progress (limit : Nat) : Result XlobDec → Progress
  | .error r => .raised r
  | .ok w => if limit ≤ w.out.length then .finished w.out else .running (.xlobDec w)

/-- The effect of one fetched token; the tokens of other streams have none here. -/
def XlobDec.apply (limit : Nat) (S : Nat → Byte) (n : Nat) (w : XlobDec) (i : Instr) : Result XlobDec :=
  match i with
  | .xlobZrle c => w.zeroRun limit c
  | .xlobLitrun c => w.literalRun limit S n c
  | .xlobSmatch l d => w.smallMatch limit l d
  | .xlobLmatchFirst h b q r => w.largeFirst limit h b q r
  | .xlobLmatchSecond h b => w.largeSecond limit h b
  | .xlobLrle c v => w.byteRun limit c v
  | .xlobSlit v => w.smallLiteral limit v
  | _ => .ok w

/-- A turn of a running XLOB_DECOMPRESS: one token (R103). -/
def xlobDecTurn (s : State) : State :=
  match s.work with
  | .xlobDec w =>
    match w.fetch s.srcByte s.slen with
    | .error r => s.raiseError opXlobDecompress r
    | .ok none => s
    | .ok (some (i, w')) =>
      s.settle opXlobDecompress (XlobDec.progress s.p0 (w'.apply s.p0 s.srcByte s.slen i))
  | _ => s

/-- The start of XLOB_DECOMPRESS: the checks; `N = 0` is complete at once (R103). -/
def xlobDecompressBegin (s : State) : State :=
  match s.checkRegions with
  | .error r => s.raiseError opXlobDecompress r
  | .ok _ =>
    if s.dcap < s.p0 then s.raiseError opXlobDecompress ⟨.capacity, s.dcap⟩
    else s.settle opXlobDecompress (XlobDec.progress s.p0 (.ok { i := 0, tok := 0, out := [], res := none }))

/-- XLOB_DECOMPRESS to its completion (R103). Each turn but the last reads at least one stream byte. -/
def execXlobDecompress (s : State) : Host.Outcome State Fault Refusal :=
  .next (takeTurns State.resting xlobDecTurn (s.slen + 1) (xlobDecompressBegin s))

/-- An ExtendedLob token on a running XLOB_DECOMPRESS whose reservation allows it. -/
def onXlobDec (here : XlobDec → Bool) (f : XlobDec → Result XlobDec) (s : State) :
    Host.Outcome State Fault Refusal :=
  match s.work with
  | .xlobDec w =>
    if here w then .next (s.settle opXlobDecompress (XlobDec.progress s.p0 (f w))) else .refused .tokenOutOfPlace
  | _ => .refused .tokenOutOfPlace

/-- Zero-RLE (R104). -/
def execXlobZrle (c : Byte) (s : State) : Host.Outcome State Fault Refusal :=
  onXlobDec (fun _ => true) (fun w => w.zeroRun s.p0 c) s

/-- A literal run (R105). -/
def execXlobLitrun (n : BitVec 7) (s : State) : Host.Outcome State Fault Refusal :=
  onXlobDec (fun _ => true) (fun w => w.literalRun s.p0 s.srcByte s.slen n) s

/-- A small match (R106). -/
def execXlobSmatch (l : BitVec 4) (d : BitVec 9) (s : State) : Host.Outcome State Fault Refusal :=
  onXlobDec (fun _ => true) (fun w => w.smallMatch s.p0 l d) s

/-- A large match, first of a pair (R107). -/
def execXlobLmatchFirst (h : BitVec 5) (b : Byte) (n r : BitVec 4) (s : State) :
    Host.Outcome State Fault Refusal :=
  onXlobDec (fun w => w.res.isNone) (fun w => w.largeFirst s.p0 h b n r) s

/-- A large match, second of a pair (R107). -/
def execXlobLmatchSecond (h : BitVec 5) (b : Byte) (s : State) : Host.Outcome State Fault Refusal :=
  onXlobDec (fun w => w.res.isSome) (fun w => w.largeSecond s.p0 h b) s

/-- Literal RLE (R108). -/
def execXlobLrle (c : BitVec 5) (v : Byte) (s : State) : Host.Outcome State Fault Refusal :=
  onXlobDec (fun _ => true) (fun w => w.byteRun s.p0 c v) s

/-- A small literal (R109). -/
def execXlobSlit (v : BitVec 5) (s : State) : Host.Outcome State Fault Refusal :=
  onXlobDec (fun _ => true) (fun w => w.smallLiteral s.p0 v) s

end Sys2Proof.Machine
end

