-- ==== Sys2Proof/Machine/Dispatch.lean ====
section
/-! DEFINITION. The meaning of every instruction: one arm per row of spec/opcode_table.json. -/

namespace Sys2Proof.Machine

def exec (i : Instr) (s : State) : Host.Outcome State Fault Refusal :=
  match i with
  | .trieInit => Sys2Proof.Machine.execTrieInit s
  | .trieAdd => Sys2Proof.Machine.execTrieAdd s
  | .trieMatch => Sys2Proof.Machine.execTrieMatch s
  | .lobCompress => Sys2Proof.Machine.execLobCompress s
  | .lobDecompress => Sys2Proof.Machine.execLobDecompress s
  | .xlobCompress => Sys2Proof.Machine.execXlobCompress s
  | .xlobDecompress => Sys2Proof.Machine.execXlobDecompress s
  | .tlobCompress => Sys2Proof.Machine.execTlobCompress s
  | .tlobDecompress => Sys2Proof.Machine.execTlobDecompress s
  | .deplode => Sys2Proof.Machine.execDeplode s
  | .jhCrypt => Sys2Proof.Machine.execJhCrypt s
  | .reservedAdvlobCompress => Sys2Proof.Machine.execReservedAdvlobCompress s
  | .reservedAdvlobDecompress => Sys2Proof.Machine.execReservedAdvlobDecompress s
  | .lobCtrl c => Sys2Proof.Machine.execLobCtrl c s
  | .lobLit v => Sys2Proof.Machine.execLobLit v s
  | .lobMatch l d => Sys2Proof.Machine.execLobMatch l d s
  | .xlobZrle c => Sys2Proof.Machine.execXlobZrle c s
  | .xlobLitrun n => Sys2Proof.Machine.execXlobLitrun n s
  | .xlobSmatch l d => Sys2Proof.Machine.execXlobSmatch l d s
  | .xlobLmatchFirst h b n r => Sys2Proof.Machine.execXlobLmatchFirst h b n r s
  | .xlobLmatchSecond h b => Sys2Proof.Machine.execXlobLmatchSecond h b s
  | .xlobLrle c v => Sys2Proof.Machine.execXlobLrle c v s
  | .xlobSlit v => Sys2Proof.Machine.execXlobSlit v s
  | .tlobSkip k => Sys2Proof.Machine.execTlobSkip k s
  | .tlobLit v => Sys2Proof.Machine.execTlobLit v s
  | .tlobZero => Sys2Proof.Machine.execTlobZero s
  | .tlobShortFirst f g r => Sys2Proof.Machine.execTlobShortFirst f g r s
  | .tlobShortSecond f => Sys2Proof.Machine.execTlobShortSecond f s
  | .tlobLong f l => Sys2Proof.Machine.execTlobLong f l s
  | .depSellen0 => Sys2Proof.Machine.execDepSellen0 s
  | .depSellen10 => Sys2Proof.Machine.execDepSellen10 s
  | .depSellen110 => Sys2Proof.Machine.execDepSellen110 s
  | .depSellen1110 => Sys2Proof.Machine.execDepSellen1110 s
  | .depSellen11110 x => Sys2Proof.Machine.execDepSellen11110 x s
  | .depSellen11111 => Sys2Proof.Machine.execDepSellen11111 s
  | .depLitlen0 => Sys2Proof.Machine.execDepLitlen0 s
  | .depLitlen10 => Sys2Proof.Machine.execDepLitlen10 s
  | .depLitlen11 => Sys2Proof.Machine.execDepLitlen11 s
  | .depDist0 => Sys2Proof.Machine.execDepDist0 s
  | .depDist10 => Sys2Proof.Machine.execDepDist10 s
  | .depDist11 => Sys2Proof.Machine.execDepDist11 s
  | .jhWord w => Sys2Proof.Machine.execJhWord w s

end Sys2Proof.Machine
end

