-- ==== Sys2Proof/Machine/Ports.lean ====
section
/-! DEFINITION. The host's side of AMB-CODEC: the register port, the host's accesses to data memory, and the
reset line (spec/10_state.md R9 to R25, spec/20_memory.md R41, R43, R48, spec/70_reset_and_hazards.md R158 to
R165). -/

namespace Sys2Proof.Machine

/-! ### The register port -/

/-- Whether the register port takes an access: 32 bits wide, at a multiple of 4 (R41). -/
def takesAccess (width : Nat) (off : Byte) : Bool := width == 32 && off.toNat % 4 == 0

/-- Whether a register reads as any value while BUSY: OUT_LEN, MATCH_OFF, MATCH_LEN and ERR_POS (R165). -/
def isResultRegister (off : Byte) : Bool := off == 0x24 || off == 0x28 || off == 0x2C || off == 0x30

/-- The value of a register (R10); unmapped offsets read as 0 (R25). -/
def State.register (s : State) (off : Byte) : Word :=
  if off = 0x00 then s.ctrlWord
  else if off = 0x04 then s.status.word
  else if off = 0x08 then s.cmd
  else if off = 0x0C then s.srcAddr
  else if off = 0x10 then s.srcLen
  else if off = 0x14 then s.dstAddr
  else if off = 0x18 then s.dstCap
  else if off = 0x1C then s.param0
  else if off = 0x20 then s.param1
  else if off = 0x24 then s.outLen
  else if off = 0x28 then s.matchOff
  else if off = 0x2C then s.matchLen
  else if off = 0x30 then s.errPos
  else if off = 0x34 then Config.idWord
  else 0

/-- A register read (R43): no side effect. It gives any value during reset (R158, U17) and, while BUSY, for the
result registers (R165, U10). A refused access changes no state (R41). -/
def State.readRegister (s : State) (width : Nat) (off : Byte) : State :=
  if takesAccess width off then
    if s.rstLow || (s.status.busy && isResultRegister off) then
      { s with response := .data (Config.freeWord s.free off.toNat), free := s.free + 1 }
    else { s with response := .data (s.register off) }
  else { s with response := .refused }

/-- A write to an operand register; ignored while BUSY (R162). -/
def State.writeOperand (s : State) (off : Byte) (v : Word) : State :=
  if s.status.busy then s
  else if off = 0x0C then { s with srcAddr := v }
  else if off = 0x10 then { s with srcLen := v }
  else if off = 0x14 then { s with dstAddr := v }
  else if off = 0x18 then { s with dstCap := v }
  else if off = 0x1C then { s with param0 := v }
  else if off = 0x20 then { s with param1 := v }
  else s

/-- A write to CMD: a command request (R53); while BUSY it is dropped and sets OVR (R163). -/
def State.writeCmd (s : State) (v : Word) : State :=
  if s.status.busy then { s with status := { s.status with ovr := true } } else s.accept v

/-- A write the register port takes (R10 to R25, R162). Writes to read-only and unmapped registers are ignored. -/
def State.putRegister (s : State) (off : Byte) (v : Word) : State :=
  if off = 0x00 then { s with ie := v.getLsbD 0 }
  else if off = 0x04 then { s with status := s.status.writeOnes v }
  else if off = 0x08 then s.writeCmd v
  else s.writeOperand off v

/-- A register write. It is ignored during reset (R158); a refused access changes no state (R41). -/
def State.writeRegister (s : State) (width : Nat) (off : Byte) (v : Word) : State :=
  if takesAccess width off then
    if s.rstLow then { s with response := .none } else { s.putRegister off v with response := .none }
  else { s with response := .refused }

/-! ### The host's memory accesses -/

/-- The host writes a byte of data memory. A write to a running command's region is remembered until it completes
(R48 item 1, R164). -/
def State.hostWrite (s : State) (a : Word) (b : Byte) : Host.Outcome State Fault Refusal :=
  if s.hasAddress a.toNat then
    .next
      { s with
        mem := Memory.write s.mem a.toNat b
        srcOld := s.keepOld a.toNat
        dstDirty := s.dstDirty || s.inActiveDest a.toNat
        response := .none }
  else .fault (.absentAddress a.toNat)

/-- The host reads a byte of data memory: any value in a running command's regions (R48 item 4, R164, U12). -/
def State.hostRead (s : State) (a : Word) : Host.Outcome State Fault Refusal :=
  if s.hasAddress a.toNat then
    if s.inActiveSource a.toNat || s.inActiveDest a.toNat then
      .next { s with response := .byte (Config.freeByte s.free a.toNat), free := s.free + 1 }
    else .next { s with response := .byte (Memory.read s.mem a.toNat) }
  else .fault (.absentAddress a.toNat)

/-! ### Reset -/

/-- Memory after reset (R158, R160): unchanged, but any value in the region a command cut short was writing. -/
def State.memReset (s : State) : Memory :=
  match s.activeOp with
  | some op =>
    if writesDest op then Memory.fill (fun x => s.hasAddress x) (Config.freeByte s.free) s.dst s.dcap s.mem
    else if writesSource op then s.anySource
    else s.mem
  | none => s.mem

/-- `rst_n` goes low (R158, R160): the command stops at once, and all but data memory is as after reset. The
host's pending operations and the platform's memory size are not the block's to change. -/
def State.resetLow (s : State) : State :=
  { State.reset with
    mem := s.memReset
    memTop := s.memTop
    rstLow := true
    inputs := s.inputs
    free := s.free + 1 }

/-- `rst_n` goes high: the block is idle and takes a CMD write at once (R158, R161). -/
def State.resetHigh (s : State) : State := { s with rstLow := false, response := .none }

end Sys2Proof.Machine
end

