-- ==== Sys2Proof/Machine/Engine.lean ====
section
/-! DEFINITION. The block's own engine: it fetches an accepted command from CMD, or the next token of a running
command from its stream, and runs it (spec/00_scope.md R2, spec/30_encoding.md R53, R60). No rule depends on
how long a command takes or in what order it works (spec/20_memory.md R47, spec/70_reset_and_hazards.md R168),
so a command may run to its end in one turn or token by token. -/

namespace Sys2Proof.Machine

/-- Run the command in CMD. A word that names no command ends with MISUSE(0) (R53, R56). -/
def runCommand (s : State) : Host.Outcome State Fault Refusal :=
  match decodeCommand s.cmd with
  | .token i => exec i s
  | .more => .next s.illegalCommand
  | .rejected _ => .next s.illegalCommand

/-- Begin a command and go no further than its checks: a command without a stream is complete at once. -/
def beginInstr (i : Instr) (s : State) : Host.Outcome State Fault Refusal :=
  match i with
  | .lobCompress => .next (lobCompressBegin s)
  | .lobDecompress => .next (lobDecompressBegin s)
  | .xlobCompress => .next (xlobCompressBegin s)
  | .xlobDecompress => .next (xlobDecompressBegin s)
  | .tlobCompress => .next (tlobCompressBegin s)
  | .tlobDecompress => .next (tlobDecompressBegin s)
  | .deplode => .next (deplodeBegin s)
  | .jhCrypt => .next (jhCryptBegin s)
  | i => exec i s

/-- Begin the command in CMD. -/
def beginCommand (s : State) : Host.Outcome State Fault Refusal :=
  match decodeCommand s.cmd with
  | .token i => beginInstr i s
  | .more => .next s.illegalCommand
  | .rejected _ => .next s.illegalCommand

/-- What the engine fetches next for a running command. -/
inductive Fetched where
  /-- An instruction, and the state past its units, on which it runs. -/
  | instr (i : Instr) (s : State)
  /-- The stream ends first: the command's error (R95, R110, R123, R129). -/
  | raised (op : Byte) (r : Raise)
  /-- No instruction: a part of the command's rule that is not a table row. -/
  | internal (s : State)
  /-- The decoder has no answer. -/
  | undecoded
  deriving DecidableEq, Repr

/-- Fetch from the running command's stream. A compressor's next parse position, and a Deplode literal run, are
parts of a command's rule that no token stands for. -/
def fetchRunning (s : State) : Fetched :=
  match s.work with
  | .none => .internal s
  | .lobEnc _ => .internal (lobEncTurn s)
  | .xlobEnc _ => .internal (xlobEncTurn s)
  | .tlobEnc _ => .internal (tlobEncTurn s)
  | .lobDec w =>
    match w.fetch s.srcByte s.slen with
    | .error r => .raised opLobDecompress r
    | .ok none => .undecoded
    | .ok (some (i, w')) => .instr i { s with work := .lobDec w' }
  | .xlobDec w =>
    match w.fetch s.srcByte s.slen with
    | .error r => .raised opXlobDecompress r
    | .ok none => .undecoded
    | .ok (some (i, w')) => .instr i { s with work := .xlobDec w' }
  | .tlobDec w =>
    match w.fetch s.srcByte s.slen with
    | .error r => .raised opTlobDecompress r
    | .ok none => .undecoded
    | .ok (some (i, w')) => .instr i { s with work := .tlobDec w' }
  | .dep w =>
    match w.phase.format with
    | none => .internal (depTurn s)
    | some f =>
      match Dep.readCode f maxCodeBits [] w with
      | .error r => .raised opDeplode r
      | .ok none => .undecoded
      | .ok (some (i, w')) => .instr i { s with work := .dep w' }
  | .jh w => .instr (.jhWord (w.word s.srcByte s.slen)) s

/-- A running command goes on by one token, or one part of its rule. -/
def runRunning (s : State) : Host.Outcome State Fault Refusal :=
  match fetchRunning s with
  | .instr i t => exec i t
  | .raised op r => .next (s.raiseError op r)
  | .internal t => .next t
  | .undecoded => .refused .undecodedToken

/-- The engine's turn. It does nothing while reset is low or no command is accepted (R158, R161). -/
def engineTurn (s : State) : Host.Outcome State Fault Refusal :=
  if s.rstLow || !s.status.busy then .next s
  else if s.resting then runCommand s
  else runRunning s

/-- The engine's turn when it begins an accepted command without running it to its end. -/
def engineBegin (s : State) : Host.Outcome State Fault Refusal :=
  if s.rstLow || !s.status.busy then .next s
  else if s.resting then beginCommand s
  else runRunning s

/-- One input reaches the block. -/
def takeInput (i : Input) (s : State) : Host.Outcome State Fault Refusal :=
  match i with
  | .regWrite width off v => .next (s.writeRegister width off v)
  | .regRead width off => .next (s.readRegister width off)
  | .memWrite a b => s.hostWrite a b
  | .memRead a => s.hostRead a
  | .resetLow => .next s.resetLow
  | .resetHigh => .next s.resetHigh
  | .engineTurn => engineTurn { s with response := .none }
  | .engineBegin => engineBegin { s with response := .none }

/-- The machine's step: the next input, or, when none is pending, the engine's turn. -/
def machineStep (s : State) : Host.Outcome State Fault Refusal :=
  match s.inputs with
  | [] => engineTurn s
  | i :: rest => takeInput i { s with inputs := rest }

/-! ### Placing one instruction where the engine fetches it -/

/-- A decoder's stream begins with the given bytes at address 0, more zeros after them, and an output long enough
for one token. -/
def State.withStream (s : State) (op : Byte) (bs : List Byte) (w : Work) : State :=
  let t := s.accept (commandWord op)
  { t with
    inputs := []
    rstLow := false
    ctx := { t.ctx with src := 0, slen := 256, dcap := 0, p0 := 512 }
    mem := Memory.fill (fun _ => true) (fun x => bs.getD x 0) 0 256 t.mem
    work := w }

/-- A running LOB_DECOMPRESS whose next unit is the first of `bs`. -/
def State.withLobUnit (s : State) (ctl : Byte) (k : Nat) (bs : List Byte) : State :=
  s.withStream opLobDecompress bs (.lobDec { i := 0, tok := 0, out := [], ctl := ctl, k := k })

/-- A running DEPLODE whose bit buffer holds the code in its top bits and whose prepared buffer is zeros. -/
def State.withCode (s : State) (bb : Byte) (phase : DepPhase) : State :=
  s.withStream opDeplode []
    (.dep
      { prepared := List.replicate 64 0, table := List.replicate 20 0, size := 512, cur := 64, bb := bb, bc := 8
        lit := 0, out := [], phase := phase })

/-- The engine's next fetch, in a format, finds the units of a row's number. -/
def State.withUnits (s : State) (f : Format) (nbits w : Nat) : State :=
  let bs := tableBytes nbits w
  match f with
  | .command => { s.accept (BitVec.ofNat 32 w) with inputs := [], rstLow := false }
  | .lobControl => s.withLobUnit 0 8 bs
  | .lobLiteral => s.withLobUnit 0xFF 0 bs
  | .lobMatch => s.withLobUnit 0 0 bs
  | .xlob reserved =>
    s.withStream opXlobDecompress bs
      (.xlobDec { i := 0, tok := 0, out := [], res := if reserved then some 0 else none })
  | .tlobSkip =>
    s.withStream opTlobDecompress bs (.tlobDec { i := 0, tok := 0, out := [], res := none, skipped := false })
  | .tlob reserved =>
    s.withStream opTlobDecompress bs
      (.tlobDec { i := 0, tok := 0, out := [], res := if reserved then some 0 else none, skipped := true })
  | .depSelLen => s.withCode (BitVec.ofNat 8 w) .selLen
  | .depLitLen => s.withCode (BitVec.ofNat 8 w) (.litLen 0 1)
  | .depDist => s.withCode (BitVec.ofNat 8 w) (.dist 0 1)
  | .jhWord =>
    s.withStream opJhCrypt bs (.jh { j := 0, d0 := s.jhKey, d1 := 0 })

end Sys2Proof.Machine
end

