-- ==== Sys2Proof/Machine/Step.lean ====
section
/-! DEFINITION. The machine's step, and the state whose next step runs a given instruction. -/

namespace Sys2Proof.Machine

/-- One step: the next input that reaches the block, or the engine's turn when none is pending. -/
def step (s : State) : Host.Outcome State Fault Refusal := machineStep s

/-- The state in which the engine's next fetch finds the instruction of a row's number: a command word in CMD,
accepted; a token next in the stream of a running command (log entry 5). A number no row has stands in CMD. -/
def State.withFetchWord (s : State) (nbits w : Nat) : State :=
  match tableFormat nbits w with
  | some f => s.withUnits f nbits w
  | none => s.withUnits .command nbits w

end Sys2Proof.Machine
end

