-- ==== Sys2Proof/Safety.lean ====
section
/-! DEFINITION. The terms the statements about AMB-CODEC are written in: reading a byte, what a completed
command leaves, what it keeps, the invariant of the machine, what the compressors write, the JH keystream and the
bits Deplode reads. -/

namespace Sys2Proof.Machine

/-- The model's read of one byte of data memory. -/
def State.readByte (s : State) (a : Nat) : Byte := Memory.read s.mem a

/-- The host has not written a region of the running command since its acceptance (R48, R164). -/
def Undisturbed (s : State) : Prop := s.srcDirty = false ∧ s.dstDirty = false

/-- Both regions are valid and do not overlap (R37, R38). -/
def RegionsOk (s : State) : Prop :=
  s.validRegion s.src s.slen = true ∧ s.validRegion s.dst s.dcap = true ∧ s.overlapping = false

/-- What no command writes: CTRL, CMD, the operand registers, OVR, the latched context, the platform's memory
size, the reset line, and the host side of the ports. -/
def KeepsHostSide (s t : State) : Prop :=
  t.ie = s.ie ∧ t.cmd = s.cmd ∧ t.srcAddr = s.srcAddr ∧ t.srcLen = s.srcLen ∧ t.dstAddr = s.dstAddr
    ∧ t.dstCap = s.dstCap ∧ t.param0 = s.param0 ∧ t.param1 = s.param1 ∧ t.status.ovr = s.status.ovr
    ∧ t.ctx = s.ctx ∧ t.memTop = s.memTop ∧ t.rstLow = s.rstLow ∧ t.inputs = s.inputs ∧ t.response = s.response

/-- The block is idle after a completion: no working state, BUSY 0, DONE 1 (R29, R146, R148). -/
def Idle (t : State) : Prop :=
  t.work = .none ∧ t.status.busy = false ∧ t.status.done = true ∧ t.srcDirty = false ∧ t.dstDirty = false

/-- STATUS, OUT_LEN and ERR_POS after a success with `n` output bytes (R148). -/
def SucceedsWith (s t : State) (n : Nat) (stored : Bool) : Prop :=
  Idle t ∧ KeepsHostSide s t ∧ t.status.err = false ∧ t.status.errCode = .none
    ∧ t.status.stored = (s.status.stored || stored) ∧ t.outLen = BitVec.ofNat 32 n ∧ t.errPos = 0

/-- A command that writes its destination region has succeeded with output `out` (R44, R47, R148): byte `k` of
`out` is at `DST + k`, every byte outside the destination region is unchanged, and so are MATCH_OFF and
MATCH_LEN. -/
def WritesOutput (s t : State) (out : List Byte) : Prop :=
  SucceedsWith s t out.length false ∧ t.matchOff = s.matchOff ∧ t.matchLen = s.matchLen
    ∧ (∀ k b, out[k]? = some b → t.readByte (s.dst + k) = b)
    ∧ ∀ x, inRegion s.dst s.dcap x = false → t.readByte x = s.readByte x

/-- A command has failed with error `e` at `pos` (R146): OUT_LEN is 0, ERRCODE and ERR_POS say which error. -/
def FailsWith (s t : State) (e : ErrCode) (pos : Nat) : Prop :=
  Idle t ∧ KeepsHostSide s t ∧ t.status.err = true ∧ t.status.errCode = e
    ∧ t.status.stored = s.status.stored ∧ t.outLen = 0 ∧ t.errPos = BitVec.ofNat 32 pos

/-- Every byte outside the destination region, and every byte of the source region, is unchanged (R44, R147). -/
def KeepsMemoryButDest (s t : State) : Prop :=
  ∀ x, (inRegion s.dst s.dcap x = false ∨ inRegion s.src s.slen x = true) → t.readByte x = s.readByte x

/-- MATCH_OFF and MATCH_LEN are as they were (R21, R22). -/
def KeepsMatch (s t : State) : Prop := t.matchOff = s.matchOff ∧ t.matchLen = s.matchLen

/-- A command other than TRIE_MATCH has failed (R146, R147), leaving the trie `trie`. -/
def CommandFails (s t : State) (e : ErrCode) (pos : Nat) (trie : Trie) : Prop :=
  FailsWith s t e pos ∧ KeepsMatch s t ∧ t.trie = trie ∧ KeepsMemoryButDest s t

/-- A command without a destination region has failed (R146): memory is as it was. -/
def CommandRefused (s t : State) (trie : Trie) : Prop :=
  FailsWith s t .misuse 0 ∧ KeepsMatch s t ∧ t.trie = trie ∧ t.mem = s.mem

/-- A decoder after one token: complete with the output `out`, or still running with working state `w` and
nothing else changed. -/
def DecodesTo (s t : State) (out : List Byte) (w : Work) : Prop :=
  if s.p0 ≤ out.length then WritesOutput s t out ∧ t.trie = s.trie else t = { s with work := w }

/-- A running decoder that the host has not disturbed, with output still to produce, all of which fits (R91,
R103, R118). -/
def Decoding (s : State) (out : List Byte) : Prop :=
  Undisturbed s ∧ s.validRegion s.dst s.dcap = true ∧ out.length < s.p0 ∧ s.p0 ≤ s.dcap

/-- `out'` is `out` and then up to `l` bytes copied from distance `d`, one at a time, cut at `limit` bytes: each
byte equals the one `d` before it (R93, R106, R121). -/
def CopiesFrom (limit d l : Nat) (out out' : List Byte) : Prop :=
  out'.length = min limit (out.length + l) ∧ out'.take out.length = out
    ∧ ∀ k, out.length ≤ k → k < out'.length → out'[k]? = out'[k - d]?

/-- The first `l` bytes of an entry are `S[s .. s + l)` (R83). -/
def Agrees (S : Nat → Byte) (s : Nat) (e : List Byte) (l : Nat) : Prop :=
  l ≤ e.length ∧ ∀ k, k < l → e[k]? = some (S (s + k))

/-- The decoder and the index of the next token of a running decompressor (R60). -/
def State.streamAt (s : State) : Option (Format × Nat) :=
  match s.work with
  | .lobDec w => some (w.format, w.i)
  | .xlobDec w => some (.xlob w.res.isSome, w.i)
  | .tlobDec w => some (w.format, w.i)
  | _ => none

/-- A running decompressor with its index moved past a token of `n` bytes. -/
def State.pastToken (s : State) (n : Nat) : State :=
  match s.work with
  | .lobDec w => { s with work := .lobDec { w with i := w.i + n, tok := w.i } }
  | .xlobDec w => { s with work := .xlobDec { w with i := w.i + n, tok := w.i } }
  | .tlobDec w => { s with work := .tlobDec { w with i := w.i + n, tok := w.i } }
  | _ => s

/-! ### Whole streams -/

/-- The bytes that a copy of `l` bytes from distance `d` appends: they repeat with period `d` (R93, R106, R121,
R136). None where the distance is 0 or reaches before the output. -/
def copied (out : List Byte) (d l : Nat) : Option (List Byte) :=
  if 1 ≤ d ∧ d ≤ out.length then some ((List.range l).map (fun j => out.getD (out.length - d + j % d) 0)) else none

/-- What a Lob token appends, and the control byte and item number after it (R61, R62, R91 to R93). -/
def lobAppends (q : Byte × Nat) (out : List Byte) (i : Instr) (_ : List Byte) : Option (List Byte × (Byte × Nat)) :=
  match i with
  | .lobCtrl c => if q.2 = 8 then some ([], (c, 0)) else none
  | .lobLit v => if q.2 < 8 ∧ q.1.getLsbD (7 - q.2) = true then some ([v], (q.1, q.2 + 1)) else none
  | .lobMatch l d =>
    if q.2 < 8 ∧ q.1.getLsbD (7 - q.2) = false then
      (copied out d.toNat (l.toNat + 3)).map (fun bs => (bs, (q.1, q.2 + 1)))
    else none
  | _ => none

/-- A large match from its 17-bit value (R67, R107). -/
def largeCopied (out : List Byte) (h : BitVec 5) (b : Byte) (n : BitVec 4) : Option (List Byte) :=
  let v := h.toNat * 4096 + b.toNat * 16 + n.toNat
  copied out (v % 1024) (v / 1024 + 3)

/-- What an ExtendedLob token with its literal bytes appends, and the reservation after it (R64 to R69, R104 to
R109). -/
def xlobAppends (res : Option (BitVec 4)) (out : List Byte) (i : Instr) (lits : List Byte) :
    Option (List Byte × Option (BitVec 4)) :=
  match i with
  | .xlobZrle c => some (List.replicate (c.toNat + 3) 0, res)
  | .xlobLitrun _ => some (lits, res)
  | .xlobSmatch l d => (copied out d.toNat (l.toNat + 3)).map (fun bs => (bs, res))
  | .xlobLmatchFirst h b n r =>
    if res = none then (largeCopied out h b n).map (fun bs => (bs, some r)) else none
  | .xlobLmatchSecond h b => res.bind (fun n => (largeCopied out h b n).map (fun bs => (bs, none)))
  | .xlobLrle c v => some (List.replicate (c.toNat + 3) v, res)
  | .xlobSlit v => some ([BitVec.ofNat 8 v.toNat], res)
  | _ => none

/-- What a TextLob token after the skip region appends, and the reservation after it (R71 to R73, R120 to R122). -/
def tlobAppends (res : Option (BitVec 4)) (out : List Byte) (i : Instr) (_ : List Byte) :
    Option (List Byte × Option (BitVec 4)) :=
  match i with
  | .tlobLit v => some ([v], res)
  | .tlobZero => some ([0], res)
  | .tlobShortFirst f g r =>
    if res = none then (copied out (f.toNat * 16 + g.toNat + 3) 2).map (fun bs => (bs, some r)) else none
  | .tlobShortSecond f =>
    res.bind (fun g => (copied out (f.toNat * 16 + g.toNat + 3) 2).map (fun bs => (bs, none)))
  | .tlobLong f l => (copied out (f.toNat + 3) (l.toNat + 3)).map (fun bs => (bs, res))
  | _ => none

/-- How many literal bytes follow a token in its stream (R65). -/
def literalCount (i : Instr) : Nat :=
  match i with
  | .xlobLitrun n => n.toNat
  | _ => 0

/-- The bytes of a stream of tokens, each with the literal bytes that follow it. -/
def streamOf (us : List (Instr × List Byte)) : List Byte := us.flatMap (fun u => tokenBytes u.1 ++ u.2)

/-- What a stream of tokens decodes to: each token appends its bytes, the last one reaches `limit`, and the output
is cut there. None where a token is not one of the stream's, or one follows the last. -/
def decoded {σ : Type} (appends : σ → List Byte → Instr → List Byte → Option (List Byte × σ)) (limit : Nat) :
    σ → List Byte → List (Instr × List Byte) → Option (List Byte)
  | _, out, [] => if limit ≤ out.length then some (out.take limit) else none
  | q, out, u :: us =>
    if out.length < limit ∧ u.1.wellFormed = true ∧ u.2.length = literalCount u.1 then
      match appends q out u.1 u.2 with
      | some r => decoded appends limit r.2 (out ++ r.1) us
      | none => none
    else none

/-- The source region begins with the given bytes; what follows them is not looked at (U18). -/
def State.sourceBegins (s : State) (bs : List Byte) : Prop :=
  bs.length ≤ s.slen ∧ ∀ j b, bs[j]? = some b → s.srcByte j = b

/-! ### The invariant -/

/-- The trie's form (R27, R81, R82): a window of 1 .. 4095; anchors strictly rising 32-bit numbers, none above
`TLAST` and none before the window; entries of 1 .. 130 bytes; no entries without a `TLAST`. -/
def Trie.wf (t : Trie) : Prop :=
  1 ≤ t.window ∧ t.window ≤ Config.trieMaxWindow
    ∧ t.entries.Pairwise (fun d e => d.1 < e.1)
    ∧ (∀ e ∈ t.entries, 1 ≤ e.2.length ∧ e.2.length ≤ Config.trieMaxRun)
    ∧ (t.last = none → t.entries = [])
    ∧ ∀ o, t.last = some o → o < 2 ^ 32 ∧ ∀ e ∈ t.entries, e.1 ≤ o ∧ o + 1 ≤ e.1 + t.window

/-- The anchors inserted since the trie's reset are those below `k`: `TLAST` is the one before it (R81, R84). -/
def Trie.reaches (t : Trie) (k : Nat) : Prop :=
  match t.last with
  | none => k = 0
  | some o => o + 1 = k

/-- A Deplode working state between codes: the bit buffer holds at most 8 bits, the cursor is in the prepared
buffer. -/
def Dep.ready (w : Dep) : Prop := w.bc ≤ 8 ∧ w.cur ≤ w.prepared.length

/-- A running command's working state is in step with the rest. A compressor keeps its command's window and has
inserted every position it has covered, TextLob with its lag of three; ExtendedLob's pending literals are fewer
than 127 (R84, R88, R97, R99, R114). DEPLODE's output is within the declared size, and that within the capacity
(R124, R128, R132, R136). -/
def WorkInStep (s : State) : Prop :=
  match s.work with
  | .lobEnc w => s.trie.window = 4095 ∧ s.trie.reaches w.p
  | .xlobEnc w => s.trie.window = 1023 ∧ s.trie.reaches w.p ∧ w.lits.length < 127
  | .tlobEnc w => s.trie.window = 480 ∧ s.trie.reaches w.nxt ∧ w.nxt ≤ w.p - 2
  | .dep w => w.ready ∧ w.out.length ≤ w.size ∧ w.size ≤ s.dcap
  | _ => True

/-- What holds of the machine between steps: memory in canonical form with no listed address outside it; the
trie's form; a running command's working state in step with them; no working state and no disturbance while idle
(R29); no command during reset (R158); DONE, ERR, ERRCODE and STORED clear while BUSY (R12, R53). -/
def State.Inv (s : State) : Prop :=
  Memory.wf s.mem ∧ (∀ c ∈ s.mem, c.1 < s.memSize) ∧ s.trie.wf ∧ WorkInStep s
    ∧ (s.status.busy = false → s.work = .none ∧ Undisturbed s)
    ∧ (s.rstLow = true → s.status.busy = false)
    ∧ (s.status.busy = true →
        s.status.done = false ∧ s.status.err = false ∧ s.status.errCode = .none ∧ s.status.stored = false)

/-! ### What a compressor writes -/

/-- The trie after the runs anchored at `k`, `k + 1`, ..., as many as `count` says, have been inserted in order,
each cut at `cap` bytes and at the buffer's end (`tadd` of R84, R88, R97, R114). -/
def Trie.inserts (t : Trie) (S : Nat → Byte) (n cap k count : Nat) : Trie :=
  (List.range count).foldl (fun u j => u.add (k + j) (bytesOf S (k + j) (min cap (n - (k + j))))) t

/-- `out[k] = out[k] | v`. -/
def orAt (out : List Byte) (k v : Nat) : List Byte := out.set k (out.getD k 0 ||| BitVec.ofNat 8 v)

/-- `put(item)` of R89: a control byte is opened when none is open or the open one has its 8 items; a literal sets
the item's control bit, most significant first; then the item's bytes. -/
def LobEnc.afterItem (w : LobEnc) (literal : Bool) (bs : List Byte) : LobEnc :=
  let opens : Bool := w.ci = none ∨ w.cnt = 8
  let out := if opens then w.out ++ [0] else w.out
  let ci := if opens then w.out.length else w.ci.getD 0
  let cnt := if opens then 0 else w.cnt
  { w with out := (if literal then orAt out ci (128 / 2 ^ cnt) else out) ++ bs, ci := some ci, cnt := cnt + 1 }

/-- The bytes of `match(d, L)`: `(L - 3) << 12 | d`, high byte first (R62, R89). -/
def lobMatchBytes (d l : Nat) : List Byte :=
  [BitVec.ofNat 8 (((l - 3) * 4096 + d) / 256), BitVec.ofNat 8 ((l - 3) * 4096 + d)]

/-- `pad()` of R90. -/
def LobEnc.padded (w : LobEnc) : List Byte :=
  if w.out.length % 2 = 0 then w.out
  else if w.cnt < 8 then (w.afterItem true [0]).out
  else w.out ++ [0xC0, 0, 0]

/-- The run at `p` has `r` bytes (R97): they all equal `S[p]`, and the next byte differs, is past the buffer, or
would pass the longest run a token can hold. -/
def IsRunAt (S : Nat → Byte) (n p r : Nat) : Prop :=
  1 ≤ r ∧ r ≤ (if S p = 0 then 258 else 34) ∧ p + r ≤ n ∧ (∀ k, k < r → S (p + k) = S p)
    ∧ (r < (if S p = 0 then 258 else 34) → p + r < n → S (p + r) ≠ S p)

/-- The bytes of one group of literals (R99): small literals if all are at most 31, else one literal run. -/
def xlobLiterals (xs : List Byte) : List Byte :=
  if xs.all (fun x => decide (x.toNat ≤ 31)) then xs.map (fun x => 0xE0 ||| x) else BitVec.ofNat 8 xs.length :: xs

/-- `flush()` and then `runtok(v, r)` (R98, R99). -/
def XlobEnc.afterRun (w : XlobEnc) (v : Byte) (r : Nat) : XlobEnc :=
  { w with
    out := w.out ++ xlobLiterals w.lits
      ++ (if v = 0 then [0, BitVec.ofNat 8 (r - 3)] else [BitVec.ofNat 8 (192 + (r - 3)), v])
    lits := [] }

/-- `flush()` and then `matchtok(d, L)` (R99 to R101): the small form wherever it fits; a large match is the first
of a pair, with a reserve byte of its own, or the second, with its nibble in the open one. -/
def XlobEnc.afterMatch (w : XlobEnc) (d l : Nat) : XlobEnc :=
  let out := w.out ++ xlobLiterals w.lits
  let v := (l - 3) * 1024 + d
  let head : List Byte := [BitVec.ofNat 8 (160 + v / 4096), BitVec.ofNat 8 (v / 16)]
  if d ≤ 511 ∧ l ≤ 18 then
    { w with out := out ++ [BitVec.ofNat 8 (128 + (l - 3) * 2 + d / 256), BitVec.ofNat 8 d], lits := [] }
  else
    match w.pend with
    | none =>
      { w with out := out ++ head ++ [BitVec.ofNat 8 (v % 16 * 16)], lits := [], pend := some (out.length + 2) }
    | some k => { w with out := orAt (out ++ head) k (v % 16), lits := [], pend := none }

/-- `addlit(v)` (R99): the group is written when it has 127 literals. -/
def XlobEnc.afterLiteral (w : XlobEnc) (v : Byte) : XlobEnc :=
  if w.lits.length + 1 = 127 then { w with out := w.out ++ xlobLiterals (w.lits ++ [v]), lits := [] }
  else { w with lits := w.lits ++ [v] }

/-- The output with one zero byte after it if its length is odd (R102, R117). -/
def evened (out : List Byte) : List Byte := if out.length % 2 = 0 then out else out ++ [0]

/-- `longtok(d, L)` (R115). -/
def TlobEnc.afterLong (w : TlobEnc) (d l : Nat) : TlobEnc :=
  { w with
    out := w.out ++ [BitVec.ofNat 8 (16 + (d - 3) / 32), BitVec.ofNat 8 ((d - 3) % 32 * 8 + (l - 3))] }

/-- `shorttok(d)` (R115): the first of a pair opens a reservation, the second puts its nibble there. -/
def TlobEnc.afterShort (w : TlobEnc) (d : Nat) : TlobEnc :=
  let high : Byte := BitVec.ofNat 8 ((d - 3) / 16)
  match w.pend with
  | none =>
    { w with out := w.out ++ [high, BitVec.ofNat 8 ((d - 3) % 16 * 16)], pend := some (w.out.length + 1) }
  | some k => { w with out := orAt (w.out ++ [high]) k ((d - 3) % 16), pend := none }

/-- `littok(v)` (R116). -/
def TlobEnc.afterLiteral (w : TlobEnc) (v : Byte) : TlobEnc :=
  { w with out := w.out ++ [if v = 0 then 0x1F else v] }

/-- A compress command has ended with the output `out`: written if it fits, else CAPACITY(DCAP); the trie is left
reset (R47, R84, R144). -/
def CompressEnds (s t : State) (out : List Byte) : Prop :=
  t.trie = Trie.initial
    ∧ if out.length ≤ s.dcap then WritesOutput s t out else CommandFails s t .capacity s.dcap Trie.initial

/-! ### JH -/

/-- Key word `m` of R139: `k_0 = K`, `k_(m+1) = (17 * k_m + 87) mod 65536`. -/
def keyWord (k : Nat) : Nat → Nat
  | 0 => k
  | m + 1 => (17 * keyWord k m + 87) % 65536

/-- The keystream byte at an offset of the region: the high byte of its key word at an even offset, the low byte
at an odd one (R139, R140). -/
def keyByte (k x : Nat) : Byte :=
  if x % 2 = 0 then BitVec.ofNat 8 (keyWord k (x / 2) / 256) else BitVec.ofNat 8 (keyWord k (x / 2))

/-! ### Deplode -/

/-- The bits Deplode reads next (R129): those left in the bit buffer, then those of the bytes before the cursor,
nearest first, each most significant bit first. -/
def Dep.bitsAhead (w : Dep) : List Bool :=
  (bitsOfByte w.bb).take w.bc ++ ((w.prepared.take w.cur).reverse.flatMap bitsOfByte)

/-- The working state after `k` more bits (R129): the bit buffer is refilled from the byte just before the cursor
only when a bit is needed and none is left, so the cursor passes exactly the bytes those bits come from. -/
def Dep.afterBits (w : Dep) (k : Nat) : Dep :=
  if k ≤ w.bc then { w with bb := w.bb <<< k, bc := w.bc - k }
  else
    let bytes := (k - w.bc + 7) / 8
    { w with
      cur := w.cur - bytes
      bb := w.prepared.getD (w.cur - bytes) 0 <<< (k - w.bc - 8 * (bytes - 1))
      bc := w.bc + 8 * bytes - k }

/-- A bit string as a number, first bit most significant. -/
def natOfBits (bs : List Bool) : Nat := bs.foldl (fun v b => 2 * v + b.toNat) 0

/-- One iteration of R131 after its literal run: the three prefix codes, and the extra bits of the last two. -/
structure DepItem where
  selCode : Instr
  litCode : Instr
  litBits : List Bool
  distCode : Instr
  distBits : List Bool
  deriving DecidableEq, Repr

/-- The literal run that opens an iteration (R132): the bytes before the cursor, nearest first. -/
def Dep.afterRun (w : Dep) : Option Dep :=
  if w.lit ≤ w.cur ∧ w.out.length + w.lit ≤ w.size then
    some { w with cur := w.cur - w.lit, out := w.out ++ ((w.prepared.take w.cur).drop (w.cur - w.lit)).reverse }
  else none

/-- A prefix code and its extra bits are the next bits (R129). -/
def Dep.afterCode (w : Dep) (i : Instr) (extra : List Bool) : Option Dep :=
  match encode i with
  | .bits bs => if (bs ++ extra) <+: w.bitsAhead then some (w.afterBits (bs ++ extra).length) else none
  | _ => none

/-- The selector and match length that a match-length code gives; `11111` takes a raw byte, which is not 0 (R133). -/
def Dep.selected (w : Dep) (i : Instr) : Option (Fin 4 × Nat × Dep) :=
  match i with
  | .depSellen0 => some (0, 1, w)
  | .depSellen10 => some (1, 2, w)
  | .depSellen110 => some (2, 3, w)
  | .depSellen1110 => some (3, 4, w)
  | .depSellen11110 x => some (3, 5 + x.toNat, w)
  | .depSellen11111 =>
    let r := (w.prepared.getD (w.cur - 1) 0).toNat
    if 0 < w.cur ∧ 0 < r then some (3, r - 1, { w with cur := w.cur - 1 }) else none
  | _ => none

/-- The base and the number of extra bits of a literal-length code (R134). -/
def litGroup (sel : Fin 4) (i : Instr) : Option (Nat × Nat) :=
  match i with
  | .depLitlen0 => some (0, 1)
  | .depLitlen10 => some (2, [2, 3, 3, 4].getD sel.val 0)
  | .depLitlen11 => some ([6, 10, 10, 18].getD sel.val 0, [4, 5, 7, 14].getD sel.val 0)
  | _ => none

/-- The base and the number of extra bits of a distance code, from the table `T` (R135). -/
def distGroup (table : List Byte) (sel : Fin 4) (i : Instr) : Option (Nat × Nat) :=
  let at_ (k : Nat) : Nat := (table.getD k 0).toNat
  match i with
  | .depDist0 => some (0, at_ (8 + sel.val))
  | .depDist10 => some (2 ^ at_ (8 + sel.val), at_ (12 + sel.val))
  | .depDist11 => some (at_ (2 * sel.val) * 256 + at_ (2 * sel.val + 1), at_ (16 + sel.val))
  | _ => none

/-- The match copy (R136), which may not pass the declared size. -/
def Dep.afterMatch (w : Dep) (d ml : Nat) : Option Dep :=
  if w.out.length + ml ≤ w.size then (copied w.out d ml).map (fun bs => { w with out := w.out ++ bs }) else none

/-- One iteration of R131 after its literal run (R133 to R136). -/
def Dep.afterItem (w : Dep) (it : DepItem) : Option Dep :=
  (w.afterCode it.selCode []).bind fun w1 =>
  (w1.selected it.selCode).bind fun q =>
  (litGroup q.1 it.litCode).bind fun lg =>
  (distGroup w.table q.1 it.distCode).bind fun dg =>
    if it.litBits.length = lg.2 ∧ it.distBits.length = dg.2 then
      (q.2.2.afterCode it.litCode it.litBits).bind fun w2 =>
      (w2.afterCode it.distCode it.distBits).bind fun w3 =>
        Dep.afterMatch { w3 with lit := lg.1 + natOfBits it.litBits } (dg.1 + natOfBits it.distBits + 1) q.2.1
    else none

/-- What DEPLODE gives from the start of an iteration (R131): the loop ends when a literal run leaves the cursor at
0, and the output must then have the declared size (R137). -/
def exploded : Dep → List DepItem → Option (List Byte)
  | w, [] => w.afterRun.bind fun v => if v.cur = 0 ∧ v.out.length = v.size then some v.out else none
  | w, it :: items => w.afterRun.bind fun v =>
    if v.cur = 0 then none else (v.afterItem it).bind fun u => exploded u items

/-! ### Running commands -/

/-- The eleven commands of R54. -/
def isCommand (i : Instr) : Bool :=
  match i with
  | .trieInit | .trieAdd | .trieMatch | .lobCompress | .lobDecompress | .xlobCompress | .xlobDecompress
  | .tlobCompress | .tlobDecompress | .deplode | .jhCrypt => true
  | _ => false

/-- The opcode of a command (R54); 0 for a token. -/
def opcodeOf (i : Instr) : Byte :=
  match i with
  | .trieInit => opTrieInit
  | .trieAdd => opTrieAdd
  | .trieMatch => opTrieMatch
  | .lobCompress => opLobCompress
  | .lobDecompress => opLobDecompress
  | .xlobCompress => opXlobCompress
  | .xlobDecompress => opXlobDecompress
  | .tlobCompress => opTlobCompress
  | .tlobDecompress => opTlobDecompress
  | .deplode => opDeplode
  | .jhCrypt => opJhCrypt
  | .reservedAdvlobCompress => opReservedAdvlobCompress
  | .reservedAdvlobDecompress => opReservedAdvlobDecompress
  | _ => 0

/-- The engine is next to move on a command that is running. -/
def EngineNext (s : State) : Prop := s.inputs = [] ∧ s.rstLow = false ∧ s.status.busy = true

/-- An accepted command that the engine has not begun, with the engine next to move. -/
def Accepted (s : State) : Prop :=
  EngineNext s ∧ s.work = .none

/-- The engine is about to begin the accepted command `i` without running it to its end (log entry 4). -/
def Beginning (s : State) (i : Instr) (rest : List Input) : Prop :=
  s.inputs = .engineBegin :: rest ∧ s.rstLow = false ∧ s.status.busy = true ∧ s.work = .none
    ∧ decodeCommand s.cmd = .token i

end Sys2Proof.Machine
end

