-- ==== Sys2Proof/Certificates/Slice0/Obligations.lean ====
section
/-! DEFINITION. The statements about AMB-CODEC for the provers. Each one's docstring names the rules of spec/
it rests on. -/

open Sys2Proof Sys2Proof.Machine

/-! ### Encoding and the step -/

/-- Every well-formed instruction, with every operand its encoding admits, decodes from its encoding (R53, R54,
R56, R61 to R73, R76 to R79). While a reservation is open, so does every token of the stream that does not
open one itself (R30, R63, R67, R70, R72). -/
def Obligations.DecodeUndoesEncode : Prop :=
  (∀ i : Instr, i.wellFormed = true → decode (formatOf i) (encode i) = .token i)
    ∧ (∀ i : Instr, i.wellFormed = true → formatOf i = .xlob false → (∀ h b n r, i ≠ .xlobLmatchFirst h b n r) →
        decode (.xlob true) (encode i) = .token i)
    ∧ ∀ i : Instr, i.wellFormed = true → formatOf i = .tlob false → (∀ f g r, i ≠ .tlobShortFirst f g r) →
        decode (.tlob true) (encode i) = .token i

/-- Whatever the decoders accept is the encoding of a well-formed instruction, so no two encodings of one
format stand for the same instruction (R54, R63, R70, R76 to R78). -/
def Obligations.EncodeUndoesDecode : Prop :=
  ∀ (f : Format) (c : Code) (i : Instr), decode f c = .token i → i.wellFormed = true ∧ encode i = c

/-- Words written out from the encoding tables decode to the instructions they stand for (R54, R62, R64, R66 to
R69, R71 to R73, R76, and the vectors of 95_test_vectors.md). -/
def Obligations.WrittenOutWordsDecode : Prop :=
  decodeCommand 0x00000010 = .token .lobCompress
    ∧ decodeCommand 0x00000030 = .token .jhCrypt
    ∧ decodeBytes .lobMatch [0xF0, 0x03] = .token (.lobMatch 15 3)
    ∧ decodeBytes (.xlob false) [0x00, 0x02] = .token (.xlobZrle 2)
    ∧ decodeBytes (.xlob false) [0x84, 0x0A] = .token (.xlobSmatch 2 10)
    ∧ decodeBytes (.xlob false) [0xA9, 0x42, 0x99] = .token (.xlobLmatchFirst 9 0x42 9 9)
    ∧ decodeBytes (.xlob true) [0xA9, 0x42] = .token (.xlobLmatchSecond 9 0x42)
    ∧ decodeBytes (.xlob false) [0xC1, 0x07] = .token (.xlobLrle 1 7)
    ∧ decodeBytes (.tlob false) [0x10, 0x2F] = .token (.tlobLong 5 7)
    ∧ decodeBytes (.tlob false) [0x00, 0x33] = .token (.tlobShortFirst 0 3 3)
    ∧ decodeBits .depSelLen [true, true, true, true, false, true, false, false] = .token (.depSellen11110 4)

/-- When CMD holds an accepted word that decodes to an instruction (R53, R26), the engine's turn is exec of it: with
no input pending, the step is exec on the state itself; an engine turn in the input list runs it on the state
with that input consumed. That a command runs whole in one turn, and the input list itself, are the model's
form (log entry 4, DESIGN CHOICE): R53 and R26 speak of neither. -/
def Obligations.StepRunsTheAcceptedCommand : Prop :=
  (∀ (s : State) (i : Instr), Accepted s → decodeCommand s.cmd = .token i → step s = exec i s)
    ∧ ∀ (s : State) (i : Instr) (rest : List Input), s.inputs = .engineTurn :: rest → s.rstLow = false →
        s.status.busy = true → s.work = .none → decodeCommand s.cmd = .token i →
        step s = exec i { s with inputs := rest, response := .none }

/-- When the bytes at a running decompressor's index decode to a token, the step is exec of it on the state with
the index moved past those bytes (R60, R91, R103, R118). That one step is one token (log entry 4) and that a
token's bytes are its header alone (log entry 17) are the model's choices. -/
def Obligations.StepRunsTheNextStreamToken : Prop :=
  ∀ (s : State) (f : Format) (at_ : Nat) (bs : List Byte) (i : Instr), EngineNext s →
    s.streamAt = some (f, at_) → decodeBytes f bs = .token i →
    (∀ j b, bs[j]? = some b → s.srcByte (at_ + j) = b) → at_ + bs.length ≤ s.slen →
    step s = exec i (s.pastToken bs.length)

/-- When the bits Deplode reads next begin with a prefix code of its phase, the step is exec of that code on the
state with those bits taken, the bit buffer refilled only when a bit is needed (R76 to R78, R129, R131). That
one step is one prefix code (log entry 4) and that the code is taken without its extra bits (log entry 17) are
the model's choices. -/
def Obligations.StepRunsTheNextDeplodeCode : Prop :=
  ∀ (s : State) (w : Dep) (f : Format) (bs rest : List Bool) (i : Instr), EngineNext s → s.work = .dep w →
    w.ready → w.phase.format = some f → decodeBits f bs = .token i → w.bitsAhead = bs ++ rest →
    step s = exec i { s with work := .dep (w.afterBits bs.length) }
      ∧ (w.afterBits bs.length).ready ∧ (w.afterBits bs.length).bitsAhead = rest

/-- A running JH_CRYPT's step is exec of JH_WORD on the big-endian word at its offset, whose low byte is 0 at an
odd tail (R79, R140). That one step is one data word (log entry 4) and that the odd tail is run as a JH_WORD (log
entry 11) are the model's choices. -/
def Obligations.StepRunsTheNextJhWord : Prop :=
  ∀ (s : State) (w : Jh), EngineNext s → s.work = .jh w →
    (w.j + 1 < s.slen → step s = exec (.jhWord (s.srcByte w.j ++ s.srcByte (w.j + 1))) s)
      ∧ (s.slen ≤ w.j + 1 → step s = exec (.jhWord (s.srcByte w.j ++ (0 : Byte))) s)

/-- An illegal command word ends with MISUSE(0) and touches no memory; MATCH_OFF, MATCH_LEN and the trie change
only as error entry says for the word's opcode bits (R53, R56, R146; log entry 8 names the model's reading). The
two reserved AdvancedLob opcodes complete with MISUSE(0) and do nothing else (R56). -/
def Obligations.IllegalAndReservedWordsEndInMisuse : Prop :=
  (∀ s : State, Accepted s → Undisturbed s →
      (s.cmd.extractLsb' 8 24 ≠ 0 ∨ instrOfOpcode (s.cmd.extractLsb' 0 8) = none) →
      ∃ t, step s = .next t ∧ FailsWith s t .misuse 0 ∧ t.mem = s.mem
        ∧ (s.ctx.op ≠ opTrieMatch → KeepsMatch s t) ∧ (isCompress s.ctx.op = false → t.trie = s.trie))
    ∧ ∀ (i : Instr) (s : State), i = .reservedAdvlobCompress ∨ i = .reservedAdvlobDecompress → Undisturbed s →
      ∃ t, exec i s = .next t ∧ CommandRefused s t s.trie

/-! ### Reset -/

/-- When reset ends, from any state, the block is idle, reads ID as 0x414D4301 and every other register as 0,
has an empty trie of window 4095 and a low interrupt line, fetches nothing of its own, and takes a CMD write at
once (R10, R158, R161). Both edges of `rst_n` are steps of the machine; that they come as inputs is the model's
form (log entry 4, DESIGN CHOICE). -/
def Obligations.ResetLeavesTheBlockIdle : Prop :=
  (∀ (s : State) (rest : List Input),
      (s.inputs = .resetLow :: rest → step s = .next (State.resetLow { s with inputs := rest }))
        ∧ (s.inputs = .resetHigh :: rest → step s = .next (State.resetHigh { s with inputs := rest })))
    ∧ (∀ off : Byte, State.reset.register off = if off = 0x34 then 0x414D4301 else 0)
    ∧ (∀ (s : State) (off : Byte), s.resetLow.resetHigh.register off = if off = 0x34 then 0x414D4301 else 0)
    ∧ (∀ s : State, s.resetLow.resetHigh.trie = { window := 4095, entries := [], last := none }
        ∧ s.resetLow.resetHigh.work = .none ∧ s.resetLow.resetHigh.irq = false
        ∧ s.resetLow.resetHigh.status.busy = false)
    ∧ (∀ s : State, engineTurn s.resetLow.resetHigh = .next s.resetLow.resetHigh)
    ∧ ∀ (s : State) (v : Word), (s.resetLow.resetHigh.writeRegister 32 0x08 v).status.busy = true

/-- Reset stops a running command at once: DONE stays 0, the interrupt line is low, every register, the trie and
the working state are as after reset, and memory is unchanged outside the region the command writes (R158,
R160). The command context, which the spec leaves unspecified (log entry 1), and the host's own side of the ports
are left open. -/
def Obligations.ResetCutsACommandShort : Prop :=
  ∀ (s : State) (rest : List Input), s.inputs = .resetLow :: rest →
    ∃ t, step s = .next t
      ∧ t = { State.reset with
              ctx := t.ctx, mem := t.mem, memTop := s.memTop, rstLow := true, inputs := rest, response := t.response
              free := t.free }
      ∧ t.irq = false
      ∧ ∀ x, s.inActiveDest x = false → (s.ctx.op ≠ opJhCrypt ∨ s.inActiveSource x = false) →
          t.readByte x = s.readByte x

/-! ### The invariant -/

/-- The invariant holds at reset. -/
def Obligations.InvariantHoldsAtReset : Prop := State.reset.Inv

/-- Every step keeps the invariant: memory stays canonical and inside data memory, the trie keeps its form with
every anchor inside the window, a running compressor keeps its window and has inserted every position it has
covered, a running DEPLODE's output stays within its declared size and that within DCAP, an idle block holds no
working state, and DONE, ERR, ERRCODE and STORED are clear while BUSY (R12, R27, R29, R34, R53, R82, R84, R88,
R97, R99, R114, R124, R132, R136, R158). -/
def Obligations.EveryStepKeepsTheInvariant : Prop :=
  ∀ s t : State, s.Inv → step s = .next t → t.Inv

/-! ### Every command -/

/-- Every accepted command completes: whatever the state and the bytes, exec answers a next state in which the
block is idle with DONE set (R148, R168). -/
def Obligations.EveryCommandCompletes : Prop :=
  ∀ (i : Instr) (s : State), isCommand i = true → ∃ t, exec i s = .next t ∧ Idle t ∧ KeepsHostSide s t

/-- Running a command token by token ends in the same state as running it in one turn: no rule depends on how the
work is cut (R47, R168, R169). The two ways to run it, one turn or one turn a token, are the model's form (log
entry 4, DESIGN CHOICE). -/
def Obligations.TokenByTokenRunAgrees : Prop :=
  ∀ (i : Instr) (s : State), Accepted s → s.response = .none → decodeCommand s.cmd = .token i →
    ∃ k, Sys2Proof.core.run k { s with inputs := [.engineBegin] } = exec i s

/-- A command, and a token of its stream, writes memory only inside the command's destination region; JH_CRYPT and
its data words only inside its source region; a trie command nowhere (R36, R44, R147). -/
def Obligations.CommandsWriteOnlyTheirRegions : Prop :=
  ∀ (i : Instr) (s t : State), exec i s = .next t →
    (i ≠ .jhCrypt → (∀ w, i ≠ .jhWord w) → ∀ x, inRegion s.dst s.dcap x = false → t.readByte x = s.readByte x)
      ∧ (i = .jhCrypt ∨ (∃ w, i = .jhWord w) →
          ∀ x, inRegion s.src s.slen x = false → t.readByte x = s.readByte x)
      ∧ (i = .trieInit ∨ i = .trieAdd ∨ i = .trieMatch → t.mem = s.mem)

/-- A command's result depends on no memory outside its source region: change the rest of memory, and it leaves
the same registers, the same trie and the same output (R8, R44). -/
def Obligations.ResultDependsOnlyOnTheSource : Prop :=
  ∀ (i : Instr) (s : State) (m : Memory), isCommand i = true → Undisturbed s →
    (∀ x, inRegion s.src s.slen x = true → Memory.read m x = Memory.read s.mem x) →
    ∃ t u, exec i s = .next t ∧ exec i { s with mem := m } = .next u ∧ u = { t with mem := u.mem }
      ∧ (∀ k, k < t.outLen.toNat → u.readByte (s.dst + k) = t.readByte (s.dst + k))
      ∧ (i = .jhCrypt → ∀ k, k < s.slen → u.readByte (s.src + k) = t.readByte (s.src + k))

/-- The source region is read as it stood at acceptance (R48 item 1): a host write while BUSY changes no source byte
the running command sees, and no part of its context or working state. A command the host has disturbed
ends with the ERR, STORED and trie of the same command left alone: that R164's list of what becomes open leaves
these as they are is the model's reading (log entry 10, DEDUCED; R146, R148, R164). Where the host wrote no byte
of the source region, whatever it wrote of the destination, STATUS and the result registers hold the command's
own values (R164). -/
def Obligations.SourceIsReadAsAccepted : Prop :=
  (∀ (s t : State) (a : Word) (b op : Byte) (rest : List Input), s.inputs = .memWrite a b :: rest →
      step s = .next t → s.activeOp = some op → readsSource op = true →
      t.work = s.work ∧ t.ctx = s.ctx ∧ (∀ k, k < s.slen → t.srcByte k = s.srcByte k)
        ∧ t.srcDirty = (s.srcDirty || inRegion s.src s.slen a.toNat))
    ∧ ∀ (i : Instr) (s : State) (m : Memory), isCommand i = true →
      (∀ k, k < s.slen → Memory.read m (s.src + k) = s.srcByte k) →
      ∃ t u, exec i s = .next t ∧ exec i { s with mem := m, srcOld := [], dstDirty := false } = .next u
        ∧ t.status.err = u.status.err ∧ t.status.stored = u.status.stored ∧ t.trie = u.trie
        ∧ (s.srcDirty = false → t.status = u.status ∧ t.outLen = u.outLen ∧ t.matchOff = u.matchOff
            ∧ t.matchLen = u.matchLen ∧ t.errPos = u.errPos)

/-- A region that does not fit in memory, or overlapping regions, end a command with MISUSE(0) before anything
else is checked (R37, R38, R145); a compress command leaves the trie reset (R84). No byte of the source region
changes, nor any outside the destination (R147): that the bytes the two regions share keep their values is the
model's reading of R147 (log entry 13, DEDUCED). -/
def Obligations.BadRegionsEndInMisuse : Prop :=
  (∀ (i : Instr) (s : State), writesDest (opcodeOf i) = true → Undisturbed s → ¬ RegionsOk s →
      ∃ t, exec i s = .next t
        ∧ CommandFails s t .misuse 0 (if isCompress (opcodeOf i) then Trie.initial else s.trie))
    ∧ (∀ (i : Instr) (s : State), i = .trieAdd ∨ i = .jhCrypt → Undisturbed s →
        s.validRegion s.src s.slen = false → ∃ t, exec i s = .next t ∧ CommandRefused s t s.trie)
    ∧ ∀ s : State, Undisturbed s → s.validRegion s.src s.slen = false →
        ∃ t, exec .trieMatch s = .next t ∧ FailsWith s t .misuse 0 ∧ t.matchOff = 0 ∧ t.matchLen = 0
          ∧ t.trie = s.trie ∧ t.mem = s.mem

/-- A decompress command whose `N` exceeds `DCAP` ends with CAPACITY(DCAP) before it decodes (R144). -/
def Obligations.DecompressChecksCapacityFirst : Prop :=
  ∀ (i : Instr) (s : State), i = .lobDecompress ∨ i = .xlobDecompress ∨ i = .tlobDecompress → Undisturbed s →
    RegionsOk s → s.dcap < s.p0 → ∃ t, exec i s = .next t ∧ CommandFails s t .capacity s.dcap s.trie

/-- A stream that ends before its next token is complete raises FORMAT: at the token's first byte in a Lob stream
(R91 to R93, R95), at the index of the missing byte in an ExtendedLob or TextLob stream (R103, R110, R118,
R123), at 0 for a Deplode prefix code cut short (R129, R137). -/
def Obligations.StreamEndRaisesFormat : Prop :=
  (∀ (s : State) (f : Format) (at_ : Nat), EngineNext s → Undisturbed s → s.streamAt = some (f, at_) →
      s.slen ≤ at_ → ∃ t, step s = .next t ∧ CommandFails s t .format at_ s.trie)
    ∧ (∀ (s : State) (f : Format) (at_ : Nat), EngineNext s → Undisturbed s → s.streamAt = some (f, at_) →
        at_ ≤ s.slen → decodeBytes f (bytesOf s.srcByte at_ (s.slen - at_)) = .more →
        ∃ t, step s = .next t
          ∧ CommandFails s t .format (match s.work with | .lobDec _ => at_ | _ => s.slen) s.trie)
    ∧ ∀ (s : State) (w : Dep) (f : Format), EngineNext s → Undisturbed s → s.work = .dep w → w.ready →
      w.phase.format = some f → decodeBits f w.bitsAhead = .more →
      ∃ t, step s = .next t ∧ CommandFails s t .format 0 s.trie

/-! ### MatchTrie -/

/-- TRIE_INIT (R80): a window up to 4095 gives an empty trie with it, 0 standing for 4095, which is the trie's reset
state (R159); a larger one is refused with MISUSE(0) and the trie unchanged. No memory is read or written. -/
def Obligations.TrieInitSetsTheWindow : Prop :=
  State.reset.trie = { window := 4095, entries := [], last := none }
    ∧ (∀ s : State, s.p0 = 0 → ∃ t, exec .trieInit s = .next t ∧ t.trie = State.reset.trie)
    ∧ ∀ s : State, Undisturbed s →
      (s.p0 ≤ 4095 → ∃ t, exec .trieInit s = .next t ∧ SucceedsWith s t 0 false ∧ KeepsMatch s t ∧ t.mem = s.mem
          ∧ t.trie = { window := if s.p0 = 0 then 4095 else s.p0, entries := [], last := none })
        ∧ (4095 < s.p0 → ∃ t, exec .trieInit s = .next t ∧ CommandRefused s t s.trie)

/-- TRIE_ADD (R81, R82): the run's bytes become the entry of its anchor, `TLAST` is that anchor, and exactly the
anchors before the window are gone. A run length outside 1 .. 130, a run past the buffer, or an anchor not
above the last one ends with MISUSE(0) and the trie unchanged (R81, R145). -/
def Obligations.TrieAddInsertsAndEvicts : Prop :=
  (∀ s : State, Undisturbed s → s.validRegion s.src s.slen = true → 1 ≤ s.p1 → s.p1 ≤ 130 → s.p0 + s.p1 ≤ s.slen →
      (∀ q, s.trie.last = some q → q < s.p0) →
      ∃ t, exec .trieAdd s = .next t ∧ SucceedsWith s t 0 false ∧ KeepsMatch s t ∧ t.mem = s.mem
        ∧ t.trie.window = s.trie.window ∧ t.trie.last = some s.p0
        ∧ ∀ q, t.trie.entries.lookup q =
            if q + s.trie.window < s.p0 + 1 then none
            else if q = s.p0 then some ((List.range s.p1).map (fun j => s.readByte (s.src + (s.p0 + j))))
            else s.trie.entries.lookup q)
    ∧ ∀ s : State, Undisturbed s →
      (s.p1 < 1 ∨ 130 < s.p1 ∨ s.slen < s.p0 + s.p1 ∨ ∃ q, s.trie.last = some q ∧ s.p0 ≤ q) →
      ∃ t, exec .trieAdd s = .next t ∧ CommandRefused s t s.trie

/-- TRIE_MATCH (R83): MATCH_OFF and MATCH_LEN are the search's anchor and length, and the trie is unchanged; a
maximum length above 130 or past the buffer ends with MISUSE(0) and both registers 0. -/
def Obligations.TrieMatchReportsTheSearch : Prop :=
  ∀ s : State, Undisturbed s →
    (s.validRegion s.src s.slen = true → s.p1 ≤ 130 → s.p0 + s.p1 ≤ s.slen →
        ∃ t, exec .trieMatch s = .next t ∧ SucceedsWith s t 0 false ∧ t.trie = s.trie ∧ t.mem = s.mem
          ∧ t.matchOff = BitVec.ofNat 32 (s.trie.search s.srcByte s.p0 s.p1).1
          ∧ t.matchLen = BitVec.ofNat 32 (s.trie.search s.srcByte s.p0 s.p1).2)
      ∧ (130 < s.p1 ∨ s.slen < s.p0 + s.p1 →
          ∃ t, exec .trieMatch s = .next t ∧ FailsWith s t .misuse 0 ∧ t.matchOff = 0 ∧ t.matchLen = 0
            ∧ t.trie = s.trie ∧ t.mem = s.mem)

/-- The search is right (R83): its length is at most `m` and is reached by the entry of its anchor; no entry
agrees with more bytes; among entries that agree with as many, its anchor is the largest; when no byte
agrees it answers (0, 0). -/
def Obligations.SearchFindsTheLongestMatch : Prop :=
  ∀ (t : Trie) (S : Nat → Byte) (s m q l : Nat), t.search S s m = (q, l) →
    l ≤ m ∧ (l = 0 → q = 0) ∧ (0 < l → ∃ e, (q, e) ∈ t.entries ∧ Agrees S s e l)
      ∧ ∀ q' e' l', (q', e') ∈ t.entries → l' ≤ m → Agrees S s e' l' → l' ≤ l ∧ (l' = l → 0 < l → q' ≤ q)

/-- If the entries hold the buffer's own bytes, a match reproduces the prefix it matched: the bytes at its anchor
equal the bytes at the search position, and copying them one at a time from that distance appends exactly
`S[s .. s + l)`; no entry agrees with more (R85). -/
def Obligations.MatchReproducesThePrefix : Prop :=
  ∀ (t : Trie) (S : Nat → Byte) (s m q l : Nat),
    (∀ q' e', (q', e') ∈ t.entries → ∀ k b, e'[k]? = some b → b = S (q' + k)) →
    t.search S s m = (q, l) → 0 < l →
    (∀ k, k < l → S (q + k) = S (s + k))
      ∧ (q < s → copyMatch (s + l) (s - q) l (bytesOf S 0 s) = bytesOf S 0 (s + l))
      ∧ ∀ q' e' l', (q', e') ∈ t.entries → l' ≤ m → Agrees S s e' l' → l' ≤ l

/-! ### Lob -/

/-- LOB_COMPRESS stores an input of fewer than 20 bytes verbatim, with no header, control byte or padding, and
sets STORED; if it does not fit, CAPACITY(DCAP) (R87, R144). -/
def Obligations.LobCompressStoresShortInputs : Prop :=
  ∀ s : State, Undisturbed s → RegionsOk s → s.slen < 20 →
    (s.slen ≤ s.dcap → ∃ t, exec .lobCompress s = .next t ∧ SucceedsWith s t s.slen true ∧ KeepsMatch s t
        ∧ t.trie = Trie.initial
        ∧ (∀ k, k < s.slen → t.readByte (s.dst + k) = s.readByte (s.src + k))
        ∧ ∀ x, inRegion s.dst s.dcap x = false → t.readByte x = s.readByte x)
      ∧ (s.dcap < s.slen → ∃ t, exec .lobCompress s = .next t ∧ CommandFails s t .capacity s.dcap Trie.initial)

/-- LOB_COMPRESS of 20 bytes or more, given room for the worst case, writes a stream of even length whose first
item is the literal first byte; the trie is left reset (R84, R86, R88, R90). Turn by turn: it begins with an
empty trie of window 4095 and no output (R84, R86); a turn writes the item that the search gives, a match of
distance 1 .. 4095 if its length is at least 3 and else a literal, under its control bit, and then inserts every
position it covers (R62, R84, R88, R89); the last pads the output and completes (R90, R144). That one turn is
one item is the model's form (log entry 4, DESIGN CHOICE). -/
def Obligations.LobCompressWritesAnEvenStream : Prop :=
  (∀ s : State, Undisturbed s → RegionsOk s → 20 ≤ s.slen → s.slen + s.slen / 8 + 4 ≤ s.dcap →
      ∃ t c rest, exec .lobCompress s = .next t ∧ WritesOutput s t (c :: s.srcByte 0 :: rest)
        ∧ c.getLsbD 7 = true ∧ rest.length % 2 = 0 ∧ t.trie = Trie.initial)
    ∧ (∀ (s : State) (rest : List Input), Beginning s .lobCompress rest → RegionsOk s → 20 ≤ s.slen →
        step s = .next
          { s with
            inputs := rest, response := .none, trie := { window := 4095, entries := [], last := none }
            work := .lobEnc { p := 0, out := [], ci := none, cnt := 0 } })
    ∧ (∀ (s : State) (w : LobEnc) (q l : Nat), EngineNext s → s.Inv → s.work = .lobEnc w → w.p < s.slen →
        s.trie.search s.srcByte w.p (min 18 (s.slen - w.p)) = (q, l) →
        (3 ≤ l → 1 ≤ w.p - q ∧ w.p - q ≤ 4095
            ∧ step s = .next
                { s with
                  trie := s.trie.inserts s.srcByte s.slen 18 w.p l
                  work := .lobEnc { w.afterItem false (lobMatchBytes (w.p - q) l) with p := w.p + l } })
          ∧ (l < 3 → step s = .next
              { s with
                trie := s.trie.inserts s.srcByte s.slen 18 w.p 1
                work := .lobEnc { w.afterItem true [s.srcByte w.p] with p := w.p + 1 } }))
    ∧ ∀ (s : State) (w : LobEnc), EngineNext s → Undisturbed s → RegionsOk s → s.work = .lobEnc w → s.slen ≤ w.p →
      ∃ t, step s = .next t ∧ CompressEnds s t w.padded

/-- On valid regions the Lob and ExtendedLob compressors fail only for want of room, with CAPACITY(DCAP) (R144;
R86, R96 "Exceptions"). A compress command raises it exactly when its output is longer than `DCAP`: whatever
the same source gives where it has room, it gives in `DCAP` bytes or more, and CAPACITY(DCAP) in fewer (R8,
R144). -/
def Obligations.CompressFailsOnlyForCapacity : Prop :=
  (∀ (i : Instr) (s : State), (i = .lobCompress ∧ 20 ≤ s.slen) ∨ i = .xlobCompress → Undisturbed s → RegionsOk s →
      ∃ t, exec i s = .next t ∧ t.trie = Trie.initial
        ∧ ((∃ out, WritesOutput s t out ∧ out.length ≤ s.dcap) ∨ CommandFails s t .capacity s.dcap Trie.initial))
    ∧ ∀ (i : Instr) (s u v : State), isCompress (opcodeOf i) = true → Undisturbed s → RegionsOk s → Undisturbed u →
      RegionsOk u → u.slen = s.slen → u.p1 = s.p1 → (∀ k, k < s.slen → u.srcByte k = s.srcByte k) →
      exec i u = .next v → v.status.err = false →
      (v.outLen.toNat ≤ s.dcap →
          ∃ t, exec i s = .next t ∧ SucceedsWith s t v.outLen.toNat (decide (i = .lobCompress ∧ s.slen < 20))
            ∧ KeepsMatch s t ∧ t.trie = Trie.initial
            ∧ (∀ k, k < v.outLen.toNat → t.readByte (s.dst + k) = v.readByte (u.dst + k))
            ∧ ∀ x, inRegion s.dst s.dcap x = false → t.readByte x = s.readByte x)
        ∧ (s.dcap < v.outLen.toNat → ∃ t, exec i s = .next t ∧ CommandFails s t .capacity s.dcap Trie.initial)

/-- LOB_DECOMPRESS of fewer than 20 bytes copies the stored form; a stream shorter than `N` is FORMAT(SLEN) (R91,
R95). Of 20 bytes or more, it gives what the control bytes, literals and matches of its stream decode to, cut at
`N` (R61, R62, R91 to R94). -/
def Obligations.LobDecompressDecodesItsStream : Prop :=
  (∀ s : State, Undisturbed s → RegionsOk s → s.p0 ≤ s.dcap → s.p0 < 20 →
      (s.p0 ≤ s.slen → ∃ t, exec .lobDecompress s = .next t ∧ WritesOutput s t (bytesOf s.srcByte 0 s.p0)
          ∧ t.trie = s.trie)
        ∧ (s.slen < s.p0 → ∃ t, exec .lobDecompress s = .next t ∧ CommandFails s t .format s.slen s.trie))
    ∧ ∀ (s : State) (us : List (Instr × List Byte)) (out : List Byte), Undisturbed s → RegionsOk s → s.p0 ≤ s.dcap →
      20 ≤ s.p0 → s.sourceBegins (streamOf us) → decoded lobAppends s.p0 (0, 8) [] us = some out →
      ∃ t, exec .lobDecompress s = .next t ∧ WritesOutput s t out ∧ t.trie = s.trie

/-- LOB_CTRL and LOB_LIT (R91, R92, R94): a control byte governs the next 8 items; a literal item appends its
byte, and the command completes when the output has `N` bytes. -/
def Obligations.LobControlAndLiteralItems : Prop :=
  ∀ (s : State) (w : LobDec) (b : Byte), s.work = .lobDec w → Decoding s w.out →
    (w.k = 8 → exec (.lobCtrl b) s = .next { s with work := .lobDec { w with ctl := b, k := 0 } })
      ∧ (w.k < 8 → w.ctl.getLsbD (7 - w.k) = true → ∃ t, exec (.lobLit b) s = .next t
          ∧ DecodesTo s t (w.out ++ [b]) (.lobDec { w with out := w.out ++ [b], k := w.k + 1 }))

/-- LOB_MATCH (R62, R93, R94): a distance of 1 up to the output's length copies `L` bytes one at a time, cut at
`N`; distance 0, or beyond the output, raises FORMAT at the token's first byte. -/
def Obligations.LobMatchItemCopies : Prop :=
  ∀ (s : State) (w : LobDec) (l : BitVec 4) (d : BitVec 12), s.work = .lobDec w → Decoding s w.out → w.k < 8 →
    w.ctl.getLsbD (7 - w.k) = false →
    (1 ≤ d.toNat → d.toNat ≤ w.out.length →
        ∃ t out, exec (.lobMatch l d) s = .next t ∧ CopiesFrom s.p0 d.toNat (l.toNat + 3) w.out out
          ∧ DecodesTo s t out (.lobDec { w with out := out, k := w.k + 1 }))
      ∧ (d.toNat = 0 ∨ w.out.length < d.toNat →
          ∃ t, exec (.lobMatch l d) s = .next t ∧ CommandFails s t .format w.tok s.trie)

/-- What a successful LOB_COMPRESS writes, stored form or stream, LOB_DECOMPRESS decodes back to the input, given
the input's length (R86 to R94;
95_test_vectors.md, property 1). -/
def Obligations.LobDecompressUndoesCompress : Prop :=
  ∀ s t v : State, Undisturbed s → RegionsOk s → exec .lobCompress s = .next t → t.status.err = false →
    Undisturbed v → RegionsOk v → v.mem = t.mem → v.src = s.dst → v.slen = t.outLen.toNat → v.p0 = s.slen →
    s.slen ≤ v.dcap → ∃ u, exec .lobDecompress v = .next u ∧ WritesOutput v u (bytesOf s.srcByte 0 s.slen)

/-! ### ExtendedLob -/

/-- XLOB_COMPRESS, given room for the worst case, writes a stream of even length and leaves the trie reset; an
empty input gives an empty output (R84, R96, R102). Turn by turn: it begins with an empty trie of window 1023
and no output (R84, R96); a turn writes a run token if the run at its position has at least 3 bytes and no
fewer than the match the search gives, else a match token if that match has at least 3 bytes, at a distance of
1 .. 1023, else it collects a literal, and then inserts every position it covers (R84, R97 to R101); the last
flushes the literals, pads the output and completes (R96, R102, R144). That one turn is one token is the model's
form (log entry 4, DESIGN CHOICE). -/
def Obligations.XlobCompressWritesAnEvenStream : Prop :=
  (∀ s : State, Undisturbed s → RegionsOk s → 2 * s.slen + 2 ≤ s.dcap →
      ∃ t out, exec .xlobCompress s = .next t ∧ WritesOutput s t out ∧ out.length % 2 = 0 ∧ t.trie = Trie.initial
        ∧ (s.slen = 0 ↔ out = []))
    ∧ (∀ (s : State) (rest : List Input), Beginning s .xlobCompress rest → RegionsOk s →
        step s = .next
          { s with
            inputs := rest, response := .none, trie := { window := 1023, entries := [], last := none }
            work := .xlobEnc { p := 0, out := [], lits := [], pend := none } })
    ∧ (∀ (s : State) (w : XlobEnc) (r q l : Nat), EngineNext s → s.Inv → s.work = .xlobEnc w → w.p < s.slen →
        IsRunAt s.srcByte s.slen w.p r → s.trie.search s.srcByte w.p (min 130 (s.slen - w.p)) = (q, l) →
        (3 ≤ r → l ≤ r → step s = .next
            { s with
              trie := s.trie.inserts s.srcByte s.slen 130 w.p r
              work := .xlobEnc { w.afterRun (s.srcByte w.p) r with p := w.p + r } })
          ∧ (r < 3 ∨ r < l → 3 ≤ l → 1 ≤ w.p - q ∧ w.p - q ≤ 1023
              ∧ step s = .next
                  { s with
                    trie := s.trie.inserts s.srcByte s.slen 130 w.p l
                    work := .xlobEnc { w.afterMatch (w.p - q) l with p := w.p + l } })
          ∧ (r < 3 → l < 3 → step s = .next
              { s with
                trie := s.trie.inserts s.srcByte s.slen 130 w.p 1
                work := .xlobEnc { w.afterLiteral (s.srcByte w.p) with p := w.p + 1 } }))
    ∧ ∀ (s : State) (w : XlobEnc), EngineNext s → s.Inv → Undisturbed s → RegionsOk s → s.work = .xlobEnc w →
      s.slen ≤ w.p → ∃ t, step s = .next t ∧ CompressEnds s t (evened (w.out ++ xlobLiterals w.lits))

/-- XLOB_DECOMPRESS gives what the tokens of its stream decode to, cut at `N`, each pair of large matches sharing
its reserve byte (R30, R63, R103 to R110); `N = 0` gives an empty output, whatever the stream; a stream that
begins with a zero-RLE token covering `N` bytes gives `N` zeros (R104). -/
def Obligations.XlobDecompressDecodesItsStream : Prop :=
  (∀ (s : State) (us : List (Instr × List Byte)) (out : List Byte), Undisturbed s → RegionsOk s → s.p0 ≤ s.dcap →
      s.sourceBegins (streamOf us) → decoded xlobAppends s.p0 none [] us = some out →
      ∃ t, exec .xlobDecompress s = .next t ∧ WritesOutput s t out ∧ t.trie = s.trie)
    ∧ ∀ s : State, Undisturbed s → RegionsOk s → s.p0 ≤ s.dcap →
      (s.p0 = 0 → ∃ t, exec .xlobDecompress s = .next t ∧ WritesOutput s t [] ∧ t.trie = s.trie)
        ∧ (0 < s.p0 → 2 ≤ s.slen → s.srcByte 0 = 0 → s.p0 ≤ (s.srcByte 1).toNat + 3 →
            ∃ t, exec .xlobDecompress s = .next t ∧ WritesOutput s t (List.replicate s.p0 0) ∧ t.trie = s.trie)

/-- XLOB_ZRLE, XLOB_LRLE and XLOB_SLIT (R104, R108, R109): `c + 3` zeros, `c + 3` copies of `v`, one byte of
value `x`, each cut at `N` (R110). -/
def Obligations.XlobRunTokensAppend : Prop :=
  ∀ (s : State) (w : XlobDec) (c : Byte) (q : BitVec 5) (v : Byte), s.work = .xlobDec w → Decoding s w.out →
    (∃ t out, exec (.xlobZrle c) s = .next t ∧ DecodesTo s t out (.xlobDec { w with out := out })
        ∧ out = w.out ++ List.replicate (min (c.toNat + 3) (s.p0 - w.out.length)) 0)
      ∧ (∃ t out, exec (.xlobLrle q v) s = .next t ∧ DecodesTo s t out (.xlobDec { w with out := out })
          ∧ out = w.out ++ List.replicate (min (q.toNat + 3) (s.p0 - w.out.length)) v)
      ∧ ∃ t out, exec (.xlobSlit q) s = .next t ∧ DecodesTo s t out (.xlobDec { w with out := out })
          ∧ out = w.out ++ [BitVec.ofNat 8 q.toNat]

/-- XLOB_LITRUN (R105, R110): the bytes that follow are carried unchanged, up to `N` bytes of output; a byte the
stream does not have raises FORMAT at its index. -/
def Obligations.XlobLiteralRunCopiesTheStream : Prop :=
  ∀ (s : State) (w : XlobDec) (n : BitVec 7), s.work = .xlobDec w → Decoding s w.out →
    (w.i + min n.toNat (s.p0 - w.out.length) ≤ s.slen →
        ∃ t out, exec (.xlobLitrun n) s = .next t
          ∧ out = w.out ++ bytesOf s.srcByte w.i (min n.toNat (s.p0 - w.out.length))
          ∧ DecodesTo s t out
              (.xlobDec { w with i := w.i + min n.toNat (s.p0 - w.out.length), out := out }))
      ∧ (w.i ≤ s.slen → s.slen < w.i + min n.toNat (s.p0 - w.out.length) →
          ∃ t, exec (.xlobLitrun n) s = .next t ∧ CommandFails s t .format s.slen s.trie)

/-- XLOB_SMATCH, XLOB_LMATCH_FIRST and XLOB_LMATCH_SECOND (R66, R67, R106, R107, R110): length and distance come
from the token's fields, the first large match of a pair keeps its low nibble for the second, and the second
takes it; distance 0, or beyond the output, raises FORMAT at the token's first byte. -/
def Obligations.XlobMatchTokensCopy : Prop :=
  ∀ (s : State) (w w' : XlobDec) (i : Instr) (l d : Nat), s.work = .xlobDec w → Decoding s w.out →
    ((∃ (ll : BitVec 4) (dd : BitVec 9), i = .xlobSmatch ll dd ∧ l = ll.toNat + 3 ∧ d = dd.toNat ∧ w' = w)
      ∨ (∃ (h : BitVec 5) (b : Byte) (n r : BitVec 4), i = .xlobLmatchFirst h b n r ∧ w.res = none
          ∧ l = (h.toNat * 4096 + b.toNat * 16 + n.toNat) / 1024 + 3
          ∧ d = (h.toNat * 4096 + b.toNat * 16 + n.toNat) % 1024 ∧ w' = { w with res := some r })
      ∨ (∃ (h : BitVec 5) (b : Byte) (n : BitVec 4), i = .xlobLmatchSecond h b ∧ w.res = some n
          ∧ l = (h.toNat * 4096 + b.toNat * 16 + n.toNat) / 1024 + 3
          ∧ d = (h.toNat * 4096 + b.toNat * 16 + n.toNat) % 1024 ∧ w' = { w with res := none })) →
    (1 ≤ d → d ≤ w.out.length →
        ∃ t out, exec i s = .next t ∧ CopiesFrom s.p0 d l w.out out
          ∧ DecodesTo s t out (.xlobDec { w' with out := out }))
      ∧ (d = 0 ∨ w.out.length < d → ∃ t, exec i s = .next t ∧ CommandFails s t .format w.tok s.trie)

/-- What a successful XLOB_COMPRESS writes, XLOB_DECOMPRESS decodes back to the input, given the input's length
(R96 to R110; 95_test_vectors.md, property 1). -/
def Obligations.XlobDecompressUndoesCompress : Prop :=
  ∀ s t v : State, Undisturbed s → RegionsOk s → exec .xlobCompress s = .next t → t.status.err = false →
    Undisturbed v → RegionsOk v → v.mem = t.mem → v.src = s.dst → v.slen = t.outLen.toNat → v.p0 = s.slen →
    s.slen ≤ v.dcap → ∃ u, exec .xlobDecompress v = .next u ∧ WritesOutput v u (bytesOf s.srcByte 0 s.slen)

/-! ### TextLob -/

/-- TLOB_COMPRESS (R84, R111 to R113, R117): a skip count above 255 is FORMAT(0), one above the input's length
MISUSE(0), and the lowest byte 1 .. 31 at or past it FORMAT at its index; otherwise, given room for the worst
case, the output has even length and begins with the skip count and the skipped bytes. The trie is left
reset. Turn by turn: it begins after the skip region with an empty trie of window 480, its output the skip count
and that region (R84, R111, R113); a turn inserts the anchors up to three before its position, searches, and
writes a long match, distance 3 .. 482, if the length is at least 3, a 2-byte match if the length is 2 and the
distance at most 258, else a literal (R84, R114 to R116); the last pads the output and completes (R117, R144).
That one turn is one token is the model's form (log entry 4, DESIGN CHOICE). -/
def Obligations.TlobCompressChecksThenWrites : Prop :=
  (∀ s : State, Undisturbed s → RegionsOk s →
      (255 < s.p1 → ∃ t, exec .tlobCompress s = .next t ∧ CommandFails s t .format 0 Trie.initial)
        ∧ (s.p1 ≤ 255 → s.slen < s.p1 → ∃ t, exec .tlobCompress s = .next t ∧ CommandFails s t .misuse 0 Trie.initial)
        ∧ (∀ j, s.p1 ≤ 255 → s.p1 ≤ j → j < s.slen → 1 ≤ (s.srcByte j).toNat → (s.srcByte j).toNat ≤ 31 →
            (∀ k, s.p1 ≤ k → k < j → ¬ (1 ≤ (s.srcByte k).toNat ∧ (s.srcByte k).toNat ≤ 31)) →
            ∃ t, exec .tlobCompress s = .next t ∧ CommandFails s t .format j Trie.initial)
        ∧ (s.p1 ≤ 255 → s.p1 ≤ s.slen →
            (∀ k, s.p1 ≤ k → k < s.slen → ¬ (1 ≤ (s.srcByte k).toNat ∧ (s.srcByte k).toNat ≤ 31)) →
            s.slen + 2 ≤ s.dcap →
            ∃ t rest, exec .tlobCompress s = .next t ∧ t.trie = Trie.initial
              ∧ WritesOutput s t (BitVec.ofNat 8 s.p1 :: bytesOf s.srcByte 0 s.p1 ++ rest)
              ∧ (1 + s.p1 + rest.length) % 2 = 0))
    ∧ (∀ (s : State) (rest : List Input), Beginning s .tlobCompress rest → RegionsOk s → s.p1 ≤ 255 → s.p1 ≤ s.slen →
        (∀ k, s.p1 ≤ k → k < s.slen → ¬ (1 ≤ (s.srcByte k).toNat ∧ (s.srcByte k).toNat ≤ 31)) →
        step s = .next
          { s with
            inputs := rest, response := .none, trie := { window := 480, entries := [], last := none }
            work := .tlobEnc
              { p := s.p1, out := BitVec.ofNat 8 s.p1 :: bytesOf s.srcByte 0 s.p1, pend := none, nxt := 0 } })
    ∧ (∀ (s : State) (w : TlobEnc) (u : Trie) (q l : Nat), EngineNext s → s.Inv → s.work = .tlobEnc w →
        w.p < s.slen → u = s.trie.inserts s.srcByte s.slen 10 w.nxt (w.p - 2 - w.nxt) →
        u.search s.srcByte w.p (min 10 (s.slen - w.p)) = (q, l) →
        (3 ≤ l → 3 ≤ w.p - q ∧ w.p - q ≤ 482
            ∧ step s = .next
                { s with
                  trie := u, work := .tlobEnc { w.afterLong (w.p - q) l with p := w.p + l, nxt := w.p - 2 } })
          ∧ (l = 2 → w.p - q ≤ 258 → 3 ≤ w.p - q
              ∧ step s = .next
                  { s with
                    trie := u, work := .tlobEnc { w.afterShort (w.p - q) with p := w.p + 2, nxt := w.p - 2 } })
          ∧ (l < 2 ∨ (l = 2 ∧ 258 < w.p - q) → step s = .next
              { s with
                trie := u
                work := .tlobEnc { w.afterLiteral (s.srcByte w.p) with p := w.p + 1, nxt := w.p - 2 } }))
    ∧ ∀ (s : State) (w : TlobEnc), EngineNext s → Undisturbed s → RegionsOk s → s.work = .tlobEnc w → s.slen ≤ w.p →
      ∃ t, step s = .next t ∧ CompressEnds s t (evened w.out)

/-- TLOB_DECOMPRESS gives its skip region and then what the tokens after it decode to, cut at `N`, each pair of
short matches sharing its reserved nibble (R30, R118 to R123); a stream without the skip-count byte, or a skip
count above `N`, is FORMAT(0) (R119, R123). -/
def Obligations.TlobDecompressDecodesItsStream : Prop :=
  (∀ (s : State) (k : Byte) (skipped : List Byte) (us : List (Instr × List Byte)) (out : List Byte), Undisturbed s →
      RegionsOk s → s.p0 ≤ s.dcap → skipped.length = k.toNat → k.toNat ≤ s.p0 →
      s.sourceBegins (k :: skipped ++ streamOf us) → decoded tlobAppends s.p0 none skipped us = some out →
      ∃ t, exec .tlobDecompress s = .next t ∧ WritesOutput s t out ∧ t.trie = s.trie)
    ∧ ∀ s : State, Undisturbed s → RegionsOk s → s.p0 ≤ s.dcap →
      (1 ≤ s.slen → (s.srcByte 0).toNat = s.p0 → s.p0 + 1 ≤ s.slen →
          ∃ t, exec .tlobDecompress s = .next t ∧ WritesOutput s t (bytesOf s.srcByte 1 s.p0) ∧ t.trie = s.trie)
        ∧ (s.slen = 0 ∨ (1 ≤ s.slen ∧ s.p0 < (s.srcByte 0).toNat) →
            ∃ t, exec .tlobDecompress s = .next t ∧ CommandFails s t .format 0 s.trie)

/-- TLOB_SKIP (R119): the skipped bytes are carried verbatim; a skip count above `N` is FORMAT(0); a byte the
stream does not have is FORMAT at its index. -/
def Obligations.TlobSkipTokenCopies : Prop :=
  ∀ (s : State) (w : TlobDec) (k : Byte), s.work = .tlobDec w → w.skipped = false → w.out = [] → Undisturbed s →
    s.validRegion s.dst s.dcap = true → s.p0 ≤ s.dcap →
    (k.toNat ≤ s.p0 → w.i + k.toNat ≤ s.slen →
        ∃ t out, exec (.tlobSkip k) s = .next t ∧ out = bytesOf s.srcByte w.i k.toNat
          ∧ DecodesTo s t out (.tlobDec { w with i := w.i + k.toNat, out := out, skipped := true }))
      ∧ (s.p0 < k.toNat → ∃ t, exec (.tlobSkip k) s = .next t ∧ CommandFails s t .format 0 s.trie)
      ∧ (k.toNat ≤ s.p0 → w.i ≤ s.slen → s.slen < w.i + k.toNat →
          ∃ t, exec (.tlobSkip k) s = .next t ∧ CommandFails s t .format s.slen s.trie)

/-- TLOB_LIT and TLOB_ZERO (R71, R120): a byte `b >= 0x20` is a literal that stands for itself, and 0x1F stands for
a zero byte. -/
def Obligations.TlobLiteralTokensAppend : Prop :=
  (∀ (b : Byte) (reserved : Bool), (0x20 ≤ b.toNat → decodeBytes (.tlob reserved) [b] = .token (.tlobLit b))
      ∧ decodeBytes (.tlob reserved) [0x1F] = .token .tlobZero)
    ∧ ∀ (s : State) (w : TlobDec) (v : Byte), s.work = .tlobDec w → w.skipped = true → Decoding s w.out →
      (∃ t, exec (.tlobLit v) s = .next t
          ∧ DecodesTo s t (w.out ++ [v]) (.tlobDec { w with out := w.out ++ [v] }))
        ∧ ∃ t, exec .tlobZero s = .next t
          ∧ DecodesTo s t (w.out ++ [0]) (.tlobDec { w with out := w.out ++ [0] })

/-- TLOB_SHORT_FIRST, TLOB_SHORT_SECOND and TLOB_LONG (R72, R73, R121 to R123): length and distance come from the
token's fields, the first 2-byte match of a pair keeps its low nibble for the second, and the second takes
it; a distance beyond the output raises FORMAT at the token's first byte. -/
def Obligations.TlobMatchTokensCopy : Prop :=
  ∀ (s : State) (w w' : TlobDec) (i : Instr) (l d : Nat), s.work = .tlobDec w → w.skipped = true →
    Decoding s w.out →
    ((∃ f g r : BitVec 4, i = .tlobShortFirst f g r ∧ w.res = none ∧ l = 2 ∧ d = f.toNat * 16 + g.toNat + 3
        ∧ w' = { w with res := some r })
      ∨ (∃ f g : BitVec 4, i = .tlobShortSecond f ∧ w.res = some g ∧ l = 2 ∧ d = f.toNat * 16 + g.toNat + 3
          ∧ w' = { w with res := none })
      ∨ (∃ (f : BitVec 9) (ll : BitVec 3), i = .tlobLong f ll ∧ l = ll.toNat + 3 ∧ d = f.toNat + 3 ∧ w' = w)) →
    (d ≤ w.out.length →
        ∃ t out, exec i s = .next t ∧ CopiesFrom s.p0 d l w.out out
          ∧ DecodesTo s t out (.tlobDec { w' with out := out }))
      ∧ (w.out.length < d → ∃ t, exec i s = .next t ∧ CommandFails s t .format w.tok s.trie)

/-- What a successful TLOB_COMPRESS writes, TLOB_DECOMPRESS decodes back to the input, given the input's length
(R111 to R123; 95_test_vectors.md, property 1). -/
def Obligations.TlobDecompressUndoesCompress : Prop :=
  ∀ s t v : State, Undisturbed s → RegionsOk s → exec .tlobCompress s = .next t → t.status.err = false →
    Undisturbed v → RegionsOk v → v.mem = t.mem → v.src = s.dst → v.slen = t.outLen.toNat → v.p0 = s.slen →
    s.slen ≤ v.dcap → ∃ u, exec .tlobDecompress v = .next u ∧ WritesOutput v u (bytesOf s.srcByte 0 s.slen)

/-! ### Deplode -/

/-- The prepared buffer has `I` bytes: the 12 initial-data bytes in reverse 4-byte-chunk order, then the payload
(R127). -/
def Obligations.PreparedBufferReordersTheInitialData : Prop :=
  ∀ F : Nat → Byte, 12 ≤ sizeField F 8 →
    (depPrepared F).length = sizeField F 8
      ∧ ∀ k, k < sizeField F 8 → (depPrepared F)[k]? = some
          (if k < 4 then F (sizeField F 8 + 8 + k)
            else if k < 8 then F (sizeField F 8 + 4 + (k - 4))
            else if k < 12 then F (sizeField F 8 + (k - 8))
            else F k)

/-- DEPLODE of a file whose header, footer and capacity pass their checks gives what its literal runs and matches
decode to (R124 to R137): each iteration moves a literal run from before the cursor, reads three prefix codes
with their extra bits, and copies a match. It starts with the sizes of the header (R125), the first run and the
table of the footer (R126), the prepared buffer, the cursor at its end or, when the footer's odd-data byte is not
0, one byte before it, and all 8 bits of the footer's bit buffer (R127, R128). A file of literals only, of even
length, gives the prepared buffer read backwards (R128, R132). -/
def Obligations.DeplodeDecodesItsFile : Prop :=
  (∀ (s : State) (items : List DepItem) (out : List Byte), Undisturbed s → RegionsOk s →
      bytesOf s.srcByte 0 4 = [0x49, 0x4D, 0x50, 0x21] → 12 ≤ sizeField s.srcByte 8 →
      sizeField s.srcByte 8 + 38 ≤ s.slen →
      (∀ j, j < 12 → (s.srcByte (sizeField s.srcByte 8 + 26 + j)).toNat ≤ 16) → sizeField s.srcByte 4 ≤ s.dcap →
      exploded (depStart s.srcByte) items = some out →
      ∃ t, exec .deplode s = .next t ∧ WritesOutput s t out ∧ t.trie = s.trie)
    ∧ (∀ (F : Nat → Byte) (i : Nat), i = sizeField F 8 →
        (∀ x, sizeField F x = ((F x).toNat * 2 ^ 24 + (F (x + 1)).toNat * 2 ^ 16 + (F (x + 2)).toNat * 2 ^ 8
            + (F (x + 3)).toNat) % 2 ^ 31)
          ∧ depStart F =
            { prepared := depPrepared F
              table := (List.range 20).map (fun k => F (i + 18 + k))
              size := sizeField F 4
              cur := if F (i + 16) = 0 then i else i - 1
              bb := F (i + 17)
              bc := 8
              lit := (F (i + 12)).toNat * 2 ^ 24 + (F (i + 13)).toNat * 2 ^ 16 + (F (i + 14)).toNat * 2 ^ 8
                + (F (i + 15)).toNat
              out := []
              phase := .run })
    ∧ ∀ (s : State) (size : Nat), Undisturbed s → RegionsOk s → bytesOf s.srcByte 0 4 = [0x49, 0x4D, 0x50, 0x21] →
      sizeField s.srcByte 8 = size → 12 ≤ size → size + 38 ≤ s.slen →
      (∀ j, j < 12 → (s.srcByte (size + 26 + j)).toNat ≤ 16) → sizeField s.srcByte 4 = size →
      be32At s.srcByte (size + 12) = BitVec.ofNat 32 size → s.srcByte (size + 16) = 0 → size ≤ s.dcap →
      ∃ t, exec .deplode s = .next t ∧ WritesOutput s t (depPrepared s.srcByte).reverse ∧ t.trie = s.trie

/-- DEPLODE's checks, in order, with their positions (R124 to R126, R137, R145): the header, the footer, the
capacity; when all pass, the decoder begins. Then, each time it comes to a literal run (R131, R132, R137): a run
past the declared size is DATA_INTEGRITY at that size, a run that meets the cursor at 0 first is FORMAT(0); after
a whole run the loop goes on while the cursor is above 0, and ends at 0 with the output, or with DATA_INTEGRITY at
the output's length if that is not the declared size. That a literal run is one step is the model's form (log
entry 4, DESIGN CHOICE). -/
def Obligations.DeplodeChecksInOrder : Prop :=
  (∀ s : State, Undisturbed s → RegionsOk s →
      (s.slen < 12 ∨ bytesOf s.srcByte 0 4 ≠ [0x49, 0x4D, 0x50, 0x21] →
          ∃ t, exec .deplode s = .next t ∧ CommandFails s t .format 0 s.trie)
        ∧ (12 ≤ s.slen → bytesOf s.srcByte 0 4 = [0x49, 0x4D, 0x50, 0x21] →
            (sizeField s.srcByte 8 < 12 ∨ s.slen < sizeField s.srcByte 8 + 38 →
                ∃ t, exec .deplode s = .next t ∧ CommandFails s t .format 8 s.trie)
              ∧ (12 ≤ sizeField s.srcByte 8 → sizeField s.srcByte 8 + 38 ≤ s.slen →
                  (∀ j, j < 12 → 16 < (s.srcByte (sizeField s.srcByte 8 + 26 + j)).toNat →
                      (∀ k, k < j → (s.srcByte (sizeField s.srcByte 8 + 26 + k)).toNat ≤ 16) →
                      ∃ t, exec .deplode s = .next t
                        ∧ CommandFails s t .format (sizeField s.srcByte 8 + 26 + j) s.trie)
                    ∧ ((∀ j, j < 12 → (s.srcByte (sizeField s.srcByte 8 + 26 + j)).toNat ≤ 16) →
                        s.dcap < sizeField s.srcByte 4 →
                        ∃ t, exec .deplode s = .next t ∧ CommandFails s t .capacity s.dcap s.trie))))
    ∧ (∀ (s : State) (rest : List Input), Beginning s .deplode rest → RegionsOk s →
        bytesOf s.srcByte 0 4 = [0x49, 0x4D, 0x50, 0x21] → 12 ≤ sizeField s.srcByte 8 →
        sizeField s.srcByte 8 + 38 ≤ s.slen →
        (∀ j, j < 12 → (s.srcByte (sizeField s.srcByte 8 + 26 + j)).toNat ≤ 16) → sizeField s.srcByte 4 ≤ s.dcap →
        step s = .next { s with inputs := rest, response := .none, work := .dep (depStart s.srcByte) })
    ∧ ∀ (s : State) (w : Dep), EngineNext s → Undisturbed s → s.work = .dep w → w.ready → w.phase = .run →
      w.out.length ≤ w.size →
      (w.size - w.out.length < w.lit → w.size - w.out.length ≤ w.cur →
          ∃ t, step s = .next t ∧ CommandFails s t .dataIntegrity w.size s.trie)
        ∧ (w.cur < w.lit → w.cur < w.size - w.out.length →
            ∃ t, step s = .next t ∧ CommandFails s t .format 0 s.trie)
        ∧ ∀ v, w.afterRun = some v →
          (0 < v.cur → step s = .next { s with work := .dep { v with phase := .selLen } })
            ∧ (v.cur = 0 → v.out.length ≠ w.size →
                ∃ t, step s = .next t ∧ CommandFails s t .dataIntegrity v.out.length s.trie)
            ∧ (v.cur = 0 → v.out.length = w.size → s.validRegion s.dst s.dcap = true → w.size ≤ s.dcap →
                ∃ t, step s = .next t ∧ WritesOutput s t v.out ∧ t.trie = s.trie)

/-- The six match-length codes give their selectors and lengths; after `11111` the length is the next raw byte
minus 1, a zero byte is DATA_INTEGRITY at the output's length, and no byte left is FORMAT(0) (R76, R130, R133,
R137). -/
def Obligations.DeplodeSelectorLengthCodes : Prop :=
  ∀ (s : State) (w : Dep) (x : BitVec 3), s.work = .dep w → w.phase = .selLen → Undisturbed s →
    exec .depSellen0 s = .next { s with work := .dep { w with phase := .litLen 0 1 } }
      ∧ exec .depSellen10 s = .next { s with work := .dep { w with phase := .litLen 1 2 } }
      ∧ exec .depSellen110 s = .next { s with work := .dep { w with phase := .litLen 2 3 } }
      ∧ exec .depSellen1110 s = .next { s with work := .dep { w with phase := .litLen 3 4 } }
      ∧ exec (.depSellen11110 x) s = .next { s with work := .dep { w with phase := .litLen 3 (5 + x.toNat) } }
      ∧ (∀ r, w.prepared[w.cur - 1]? = some r → 0 < w.cur →
          (r ≠ 0 → exec .depSellen11111 s =
              .next { s with work := .dep { w with cur := w.cur - 1, phase := .litLen 3 (r.toNat - 1) } })
            ∧ (r = 0 → ∃ t, exec .depSellen11111 s = .next t
                ∧ CommandFails s t .dataIntegrity w.out.length s.trie))
      ∧ (w.cur = 0 → ∃ t, exec .depSellen11111 s = .next t ∧ CommandFails s t .format 0 s.trie)

/-- The three literal-length codes (R77, R134): the next literal-run length is the group's base plus its extra
bits, which are taken from the bits ahead, most significant first (R129); too few bits is FORMAT(0). -/
def Obligations.DeplodeLiteralLengthCodes : Prop :=
  ∀ (s : State) (w : Dep) (sel : Fin 4) (ml : Nat) (i : Instr) (base k : Nat), s.work = .dep w → w.ready →
    w.phase = .litLen sel ml → Undisturbed s →
    ((i = .depLitlen0 ∧ base = 0 ∧ k = 1)
      ∨ (i = .depLitlen10 ∧ base = 2 ∧ [2, 3, 3, 4][sel.val]? = some k)
      ∨ (i = .depLitlen11 ∧ [6, 10, 10, 18][sel.val]? = some base ∧ [4, 5, 7, 14][sel.val]? = some k)) →
    (k ≤ w.bitsAhead.length →
        exec i s = .next
            { s with
              work := .dep
                { w.afterBits k with lit := base + natOfBits (w.bitsAhead.take k), phase := .dist sel ml } }
          ∧ (w.afterBits k).ready ∧ (w.afterBits k).bitsAhead = w.bitsAhead.drop k)
      ∧ (w.bitsAhead.length < k → ∃ t, exec i s = .next t ∧ CommandFails s t .format 0 s.trie)

/-- The three distance codes and the match copy (R78, R135 to R137): the distance is the group's base plus its
extra bits plus 1; it copies the match length one byte at a time; a distance beyond the output is FORMAT at
the cursor, a copy past the declared size DATA_INTEGRITY at that size, too few bits FORMAT(0). -/
def Obligations.DeplodeDistanceCodes : Prop :=
  ∀ (s : State) (w : Dep) (sel : Fin 4) (ml : Nat) (i : Instr) (base k : Nat) (x : Nat → Nat), s.work = .dep w →
    w.ready → w.phase = .dist sel ml → Undisturbed s → w.table.length = 20 →
    (∀ g b, w.table[8 + 4 * g + sel.val]? = some b → x g = b.toNat) →
    ((i = .depDist0 ∧ base = 0 ∧ k = x 0) ∨ (i = .depDist10 ∧ base = 2 ^ x 0 ∧ k = x 1)
      ∨ (i = .depDist11 ∧ k = x 2 ∧ ∃ b0 b1 : Byte, w.table[2 * sel.val]? = some b0
          ∧ w.table[2 * sel.val + 1]? = some b1 ∧ base = b0.toNat * 256 + b1.toNat)) →
    (w.bitsAhead.length < k → ∃ t, exec i s = .next t ∧ CommandFails s t .format 0 s.trie)
      ∧ (k ≤ w.bitsAhead.length → (w.afterBits k).ready ∧ (w.afterBits k).bitsAhead = w.bitsAhead.drop k
          ∧ (w.out.length < base + natOfBits (w.bitsAhead.take k) + 1 →
              ∃ t, exec i s = .next t ∧ CommandFails s t .format (w.afterBits k).cur s.trie)
          ∧ (base + natOfBits (w.bitsAhead.take k) + 1 ≤ w.out.length → w.out.length + ml ≤ w.size →
              ∃ out, CopiesFrom (w.out.length + ml) (base + natOfBits (w.bitsAhead.take k) + 1) ml w.out out
                ∧ exec i s = .next { s with work := .dep { w.afterBits k with out := out, phase := .run } })
          ∧ (base + natOfBits (w.bitsAhead.take k) + 1 ≤ w.out.length → w.out.length ≤ w.size →
              w.size < w.out.length + ml →
              ∃ t, exec i s = .next t ∧ CommandFails s t .dataIntegrity w.size s.trie))

/-! ### JH -/

/-- JH_CRYPT XORs byte `x` of the region with keystream byte `x` in place: word `m` with `k_m`, where `k_0 = K`
and `k_(m+1) = (17 * k_m + 87) mod 65536`, an odd last byte with the high byte of its key word; every other
byte, the trie and the match registers are unchanged (R138 to R140). -/
def Obligations.JhCryptXorsTheKeystream : Prop :=
  ∀ s : State, Undisturbed s → s.validRegion s.src s.slen = true →
    ∃ t, exec .jhCrypt s = .next t ∧ SucceedsWith s t 0 false ∧ KeepsMatch s t ∧ t.trie = s.trie
      ∧ (∀ x, x < s.slen →
          t.readByte (s.src + x) = s.readByte (s.src + x) ^^^ keyByte (s.ctx.p0.toNat % 65536) x)
      ∧ ∀ x, inRegion s.src s.slen x = false → t.readByte x = s.readByte x

/-- Two JH_CRYPT commands on the same region with the same key restore the original bytes (R141). -/
def Obligations.JhCryptTwiceRestores : Prop :=
  ∀ s t v : State, Undisturbed s → exec .jhCrypt s = .next t → Undisturbed v → v.mem = t.mem → v.memTop = s.memTop →
    v.src = s.src → v.slen = s.slen → v.p0 % 65536 = s.p0 % 65536 →
    ∃ u, exec .jhCrypt v = .next u ∧ ∀ x, u.readByte x = s.readByte x

/-- JH_WORD (R79, R138, R140): the data word XORed with its key word is written back big-endian, an odd last byte
alone; the key word becomes `(17 * d0 + 87) mod 65536`; after the region's last word the command is complete. -/
def Obligations.JhWordXorsAndAdvances : Prop :=
  ∀ (s : State) (w : Jh) (data : Half), s.work = .jh w → Undisturbed s → s.validRegion s.src s.slen = true →
    w.j < s.slen →
    ∃ t, exec (.jhWord data) s = .next t
      ∧ t.readByte (s.src + w.j) = (data ^^^ w.d0).extractLsb' 8 8
      ∧ (w.j + 1 < s.slen → t.readByte (s.src + w.j + 1) = (data ^^^ w.d0).extractLsb' 0 8)
      ∧ (∀ x, x ≠ s.src + w.j → (x ≠ s.src + w.j + 1 ∨ s.slen ≤ w.j + 1) → t.readByte x = s.readByte x)
      ∧ KeepsMatch s t ∧ t.trie = s.trie
      ∧ (w.j + 2 < s.slen → t = { s with mem := t.mem, work := t.work }
          ∧ t.work = .jh { j := w.j + 2, d0 := BitVec.ofNat 16 (17 * w.d0.toNat + 87), d1 := w.d0 })
      ∧ (s.slen ≤ w.j + 2 → SucceedsWith s t 0 false)

/-! ### The ports -/

/-- A CMD write while idle is accepted in one step: CMD records the word, DONE, ERR, ERRCODE and STORED are
cleared, OUT_LEN and ERR_POS are 0, the context latches the operand registers, and BUSY is set; OVR, the
match registers, the trie and memory are unchanged (R26, R53). -/
def Obligations.AcceptanceLatchesTheContext : Prop :=
  ∀ (s : State) (v : Word) (rest : List Input), s.inputs = .regWrite 32 0x08 v :: rest → s.rstLow = false →
    s.status.busy = false →
    ∃ t, step s = .next t ∧ t.cmd = v ∧ t.outLen = 0 ∧ t.errPos = 0
      ∧ t.status = { busy := true, done := false, err := false, stored := false, ovr := s.status.ovr, errCode := .none }
      ∧ t.ctx = { src := s.srcAddr, slen := s.srcLen, dst := s.dstAddr, dcap := s.dstCap, p0 := s.param0
                  p1 := s.param1, op := v.extractLsb' 0 8 }
      ∧ KeepsMatch s t ∧ t.trie = s.trie ∧ t.mem = s.mem ∧ t.ie = s.ie

/-- While BUSY, a CMD write is dropped and sets OVR: neither the running command nor CMD changes (R163). -/
def Obligations.CmdWhileBusySetsOvr : Prop :=
  ∀ (s : State) (v : Word) (rest : List Input), s.inputs = .regWrite 32 0x08 v :: rest → s.rstLow = false →
    s.status.busy = true →
    step s = .next { s with status := { s.status with ovr := true }, inputs := rest, response := .none }

/-- Register writes while BUSY (R162): CTRL and the write-1-to-clear bits of STATUS take effect, and every other
write but CMD's is ignored. Idle, a write to an operand register is what it then reads, and no other register
changes (R10, R14 to R19, R25). A register-write input that the port takes makes this write, and during reset
it changes nothing (R158). -/
def Obligations.OperandWritesNeedAnIdleBlock : Prop :=
  (∀ (s : State) (off : Byte) (v : Word) (rest : List Input), s.inputs = .regWrite 32 off v :: rest →
      off.toNat % 4 = 0 →
      (s.rstLow = false →
          step s = .next { (State.putRegister { s with inputs := rest } off v) with response := .none })
        ∧ (s.rstLow = true → step s = .next { s with inputs := rest, response := .none }))
    ∧ (∀ (s : State) (v : Word), s.putRegister 0x00 v = { s with ie := v.getLsbD 0 }
      ∧ s.putRegister 0x04 v = { s with status := s.status.writeOnes v })
    ∧ ∀ (s : State) (off : Byte) (v : Word), off ≠ 0x00 → off ≠ 0x04 → off ≠ 0x08 →
      (s.status.busy = true → s.putRegister off v = s)
        ∧ (s.status.busy = false → ∀ r : Byte, (s.putRegister off v).register r =
            if r = off ∧ (off = 0x0C ∨ off = 0x10 ∨ off = 0x14 ∨ off = 0x18 ∨ off = 0x1C ∨ off = 0x20) then v
            else s.register r)

/-- STATUS is write-1-to-clear (R12, R150): bit 1 clears DONE, bit 2 clears ERR and ERRCODE, bit 4 clears OVR,
zero bits change nothing, and BUSY and STORED never change; bits 31:12 and 7:5 read as 0, and CTRL reads as
IE alone (R11). -/
def Obligations.StatusWritesClearOnlyTheirBits : Prop :=
  (∀ (t : Status) (v : Word),
      (t.writeOnes v).done = (if v.getLsbD 1 then false else t.done)
        ∧ (t.writeOnes v).err = (if v.getLsbD 2 then false else t.err)
        ∧ (t.writeOnes v).errCode = (if v.getLsbD 2 then .none else t.errCode)
        ∧ (t.writeOnes v).ovr = (if v.getLsbD 4 then false else t.ovr)
        ∧ (t.writeOnes v).busy = t.busy ∧ (t.writeOnes v).stored = t.stored)
    ∧ (∀ t : Status, t.word.extractLsb' 12 20 = 0 ∧ t.word.extractLsb' 5 3 = 0
        ∧ t.word.extractLsb' 8 4 = t.errCode.bits ∧ t.word.getLsbD 0 = t.busy ∧ t.word.getLsbD 1 = t.done
        ∧ t.word.getLsbD 2 = t.err ∧ t.word.getLsbD 3 = t.stored ∧ t.word.getLsbD 4 = t.ovr)
    ∧ ∀ s : State, s.ctrlWord = if s.ie then 1 else 0

/-- The interrupt line follows IE and DONE (R149, R150): it is high after every completion while IE is 1, and a
write of 1 to DONE, a write of 0 to IE, or an accepted CMD write drops it. -/
def Obligations.InterruptFollowsDone : Prop :=
  (∀ s : State, s.irq = (s.ie && s.status.done))
    ∧ (∀ (i : Instr) (s t : State), isCommand i = true → exec i s = .next t → t.irq = s.ie)
    ∧ ∀ (s : State) (v : Word), s.rstLow = false →
        (v.getLsbD 1 = true → (s.writeRegister 32 0x04 v).irq = false)
          ∧ (v.getLsbD 0 = false → (s.writeRegister 32 0x00 v).irq = false)
          ∧ (s.status.busy = false → (s.writeRegister 32 0x08 v).irq = false)

/-- Port accesses that change nothing (R25, R41, R43, R165): one that is not 32 bits wide at a multiple of 4 is
refused; unmapped offsets read as 0 and ignore writes; a read changes only the port's answer and the model's
count of free values, and an idle block answers with the register. Every access, refused or not, is one step of
the machine, in which it is all that happens (R42); that it comes as an input is the model's form (log entry 4,
DESIGN CHOICE), and that a refused one is answered as refused and the machine goes on is its reading of R41 (log
entry 9, DEDUCED). -/
def Obligations.PortAccessesThatChangeNothing : Prop :=
  (∀ (s : State) (width : Nat) (off : Byte) (v : Word) (rest : List Input),
      (s.inputs = .regRead width off :: rest → step s = .next (State.readRegister { s with inputs := rest } width off))
        ∧ (s.inputs = .regWrite width off v :: rest →
            step s = .next (State.writeRegister { s with inputs := rest } width off v)))
    ∧ (∀ (s : State) (width : Nat) (off : Byte) (v : Word), width ≠ 32 ∨ off.toNat % 4 ≠ 0 →
      s.writeRegister width off v = { s with response := .refused }
        ∧ s.readRegister width off = { s with response := .refused })
    ∧ (∀ (s : State) (off : Byte) (v : Word), 0x38 ≤ off.toNat → s.register off = 0 ∧ s.putRegister off v = s)
    ∧ ∀ (s : State) (off : Byte), off.toNat % 4 = 0 →
        s.readRegister 32 off
            = { s with response := (s.readRegister 32 off).response, free := (s.readRegister 32 off).free }
          ∧ (s.rstLow = false → s.status.busy = false ∨ isResultRegister off = false →
              (s.readRegister 32 off).response = .data (s.register off))

/-- The host's memory accesses (R34, R42, R43): each is one step of the machine, in which it is all that happens. A
byte written is read back and every other byte is unchanged; a read changes only the port's answer and the model's
count of free values, and outside a running command's regions it answers the byte. That an access comes as an
input is the model's form (log entry 4, DESIGN CHOICE); that one at or above `MEM_SIZE`, to which R34 gives no
behaviour, stops with a fault is the model's choice (log entry 19, DEDUCED). -/
def Obligations.HostMemoryAccesses : Prop :=
  (∀ (s : State) (a : Word) (b : Byte) (rest : List Input),
      (s.inputs = .memWrite a b :: rest → step s = State.hostWrite { s with inputs := rest } a b)
        ∧ (s.inputs = .memRead a :: rest → step s = State.hostRead { s with inputs := rest } a))
    ∧ ∀ (s : State) (a : Word) (b : Byte),
      (a.toNat < s.memSize →
          (∃ t, s.hostWrite a b = .next t ∧ t.readByte a.toNat = b
              ∧ (∀ x, x ≠ a.toNat → t.readByte x = s.readByte x)
              ∧ t = { s with mem := t.mem, srcOld := t.srcOld, dstDirty := t.dstDirty, response := .none }
              ∧ (s.status.busy = false → t.hostRead a = .next { t with response := .byte b }))
            ∧ ∃ t, s.hostRead a = .next t ∧ t = { s with response := t.response, free := t.free }
              ∧ (s.inActiveSource a.toNat = false → s.inActiveDest a.toNat = false →
                  t.response = .byte (s.readByte a.toNat)))
        ∧ (s.memSize ≤ a.toNat → s.hostWrite a b = .fault (.absentAddress a.toNat)
            ∧ s.hostRead a = .fault (.absentAddress a.toNat))
end

