-- ==== Sys2Proof/Laws/Fields.lean ====
section
/-! SUPPORT. The words the encoder concatenates, as numbers, and the class that the first byte of each names. -/

namespace Sys2Proof

/-- A concatenation as a number: the left part counts in units of the right part's range. -/
theorem toNat_append_eq {m n : Nat} (x : BitVec m) (y : BitVec n) :
    (x ++ y).toNat = x.toNat * 2 ^ n + y.toNat := by
  rw [BitVec.toNat_append, Nat.shiftLeft_eq, Nat.mul_comm, ← Nat.two_pow_add_eq_or_of_lt y.isLt]

theorem highByte_toNat (w : Half) : (highByte w).toNat = w.toNat / 256 := by
  have := w.isLt
  simp only [highByte, BitVec.extractLsb'_toNat, Nat.shiftRight_eq_div_pow]
  omega

theorem lowByte_toNat (w : Half) : (lowByte w).toNat = w.toNat % 256 := by
  simp [lowByte, BitVec.extractLsb'_toNat]

/-- A 16-bit value is the big-endian value of its own two bytes (R39). -/
@[simp] theorem be16_bytes (w : Half) : be16 (highByte w) (lowByte w) = w := by
  apply BitVec.eq_of_toNat_eq
  rw [be16, toNat_append_eq, highByte_toNat, lowByte_toNat]
  omega

/-- A small-match token as a number (R66). -/
theorem smatchWord_toNat (l : BitVec 4) (d : BitVec 9) :
    ((4 : BitVec 3) ++ l ++ d : Half).toNat = 4 * 2 ^ 13 + l.toNat * 2 ^ 9 + d.toNat :=
  (toNat_append_eq _ d).trans (by rw [toNat_append_eq]; simp; omega)

/-- A Lob match token as a number (R62). -/
theorem lobMatchWord_toNat (l : BitVec 4) (d : BitVec 12) : (l ++ d : Half).toNat = l.toNat * 2 ^ 12 + d.toNat :=
  toNat_append_eq l d

/-- A TextLob long-match token as a number (R73). -/
theorem longWord_toNat (f : BitVec 9) (l : BitVec 3) :
    ((1 : BitVec 4) ++ f ++ l : Half).toNat = 2 ^ 12 + f.toNat * 2 ^ 3 + l.toNat :=
  (toNat_append_eq _ l).trans (by rw [toNat_append_eq]; simp; omega)

/-- The class bits of a header made of a class and a 5-bit field (R63). -/
theorem class_header (p : BitVec 3) (h : BitVec 5) : (p ++ h : Byte).extractLsb' 5 3 = p :=
  BitVec.extractLsb'_append_eq_left

/-- The field of a header made of a class and a 5-bit field (R63). -/
theorem field_header (p : BitVec 3) (h : BitVec 5) : (p ++ h : Byte).extractLsb' 0 5 = h :=
  BitVec.extractLsb'_append_eq_right

/-- The two nibbles of a byte made of them. -/
theorem nibbles (a b : BitVec 4) : (a ++ b : Byte).extractLsb' 4 4 = a ∧ (a ++ b : Byte).extractLsb' 0 4 = b :=
  ⟨BitVec.extractLsb'_append_eq_left, BitVec.extractLsb'_append_eq_right⟩

/-- The class bits of a small match's first byte (R66). -/
theorem class_smatch (l : BitVec 4) (d : BitVec 9) : (highByte ((4 : BitVec 3) ++ l ++ d)).extractLsb' 5 3 = 4 := by
  apply BitVec.eq_of_toNat_eq
  have := l.isLt
  have := d.isLt
  simp only [BitVec.extractLsb'_toNat, Nat.shiftRight_eq_div_pow, highByte_toNat, smatchWord_toNat]
  simp
  omega

/-- The high nibble of a long match's first byte is 1 (R73). -/
theorem class_long (f : BitVec 9) (l : BitVec 3) : (highByte ((1 : BitVec 4) ++ f ++ l)).extractLsb' 4 4 = 1 := by
  apply BitVec.eq_of_toNat_eq
  have := f.isLt
  have := l.isLt
  simp only [BitVec.extractLsb'_toNat, Nat.shiftRight_eq_div_pow, highByte_toNat, longWord_toNat]
  simp
  omega

/-- A long match's first byte is never the zero escape (R73). -/
theorem long_ne_escape (f : BitVec 9) (l : BitVec 3) (hf : f.toNat ≤ 479) :
    (highByte ((1 : BitVec 4) ++ f ++ l)).extractLsb' 0 4 ≠ 15 := by
  intro h
  have h' := congrArg BitVec.toNat h
  have := l.isLt
  simp only [BitVec.extractLsb'_toNat, Nat.shiftRight_eq_div_pow, highByte_toNat, longWord_toNat] at h'
  simp at h'
  omega

/-- A class of 4 or more is no zero header and no literal-run header (R63). -/
theorem class_large {h : Byte} {p : BitVec 3} (hp : h.extractLsb' 5 3 = p) (h4 : p.getLsbD 2 = true) :
    h ≠ 0 ∧ h.extractLsb' 7 1 ≠ 0 := by
  subst hp
  simp at h4
  refine ⟨?_, fun h0 => ?_⟩
  · rintro rfl
    simp at h4
  · have h7 : h[7] = false := by simpa using congrArg (·.getLsbD 0) h0
    simp [h4] at h7

end Sys2Proof
end

