-- ==== Sys2Proof/Laws/Memory.lean ====
section
/-! SUPPORT. The laws of data memory: reading after writing, the canonical form, and the range of listed
addresses. -/

namespace Sys2Proof.Machine

@[simp] theorem Memory.read_nil (x : Nat) : Memory.read [] x = Config.unlistedByte := rfl

theorem Memory.read_cons (c : Host.Cell) (m : Memory) (x : Nat) :
    Memory.read (c :: m) x = if c.1 = x then c.2 else Memory.read m x := rfl

/-- Below every listed address, memory is unlisted. -/
theorem Memory.read_below (m : Memory) (x : Nat) (h : ∀ c ∈ m, x < c.1) :
    Memory.read m x = Config.unlistedByte := by
  induction m with
  | nil => rfl
  | cons c m ih =>
    have hc := h c (by simp)
    rw [Memory.read_cons, if_neg (by omega), ih (fun d hd => h d (by simp [hd]))]

theorem Memory.read_list (m : Memory) (a x : Nat) (b : Byte) :
    Memory.read (Memory.list a b m) x = if x = a then b else Memory.read m x := by
  induction m with
  | nil => simp only [Memory.list, Memory.read_cons, Memory.read_nil, eq_comm]
  | cons c m ih =>
    simp only [Memory.list]
    split
    · simp only [Memory.read_cons, eq_comm]
    · split
      · next h =>
        subst h
        simp only [Memory.read_cons]
        by_cases h2 : c.1 = x
        · simp [h2]
        · simp [h2, Ne.symm h2]
      · next h1 h2 =>
        simp only [Memory.read_cons, ih]
        by_cases h3 : c.1 = x
        · rw [if_pos h3, if_pos h3, if_neg (by omega)]
        · simp [h3]

theorem Memory.lookup_cons (c : Host.Cell) (m : Memory) (x : Nat) :
    List.lookup x (c :: m) = if c.1 = x then some c.2 else List.lookup x m := by
  obtain ⟨a, b⟩ := c
  by_cases h : a = x
  · simp [h]
  · rw [if_neg h, List.lookup, show (x == a) = false by simpa using Ne.symm h]

/-- What is listed at an address after one is listed. -/
theorem Memory.lookup_list (m : Memory) (a x : Nat) (b : Byte) :
    List.lookup x (Memory.list a b m) = if a = x then some b else List.lookup x m := by
  induction m with
  | nil => exact Memory.lookup_cons _ _ _
  | cons c m ih =>
    simp only [Memory.list]
    split
    · exact Memory.lookup_cons _ _ _
    · split
      · next h => simp only [Memory.lookup_cons, ← h]; split <;> rfl
      · next h => simp only [Memory.lookup_cons, ih]; split <;> split <;> first | rfl | omega

theorem Memory.read_unlist (m : Memory) (a x : Nat) :
    Memory.read (Memory.unlist a m) x = if x = a then Config.unlistedByte else Memory.read m x := by
  induction m with
  | nil => simp [Memory.unlist]
  | cons c m ih =>
    have hu : Memory.unlist a (c :: m) = if c.1 = a then Memory.unlist a m else c :: Memory.unlist a m := by
      by_cases h : c.1 = a <;> simp [Memory.unlist, h]
    rw [hu]
    by_cases h : c.1 = a
    · rw [if_pos h, ih]
      by_cases h2 : x = a
      · simp [h2]
      · rw [if_neg h2, if_neg h2, Memory.read_cons, if_neg (by omega)]
    · rw [if_neg h, Memory.read_cons, Memory.read_cons, ih]
      by_cases h2 : x = a
      · rw [if_pos h2, if_neg (by omega)]; simp [h2]
      · simp [h2]

/-- Reading after one write. -/
@[simp] theorem Memory.read_write (m : Memory) (a x : Nat) (b : Byte) :
    Memory.read (Memory.write m a b) x = if x = a then b else Memory.read m x := by
  unfold Memory.write
  split
  · next h => rw [Memory.read_unlist, h]
  · rw [Memory.read_list]

/-- Reading after filling a range. -/
theorem Memory.read_fill (p : Nat → Bool) (f : Nat → Byte) (a n : Nat) (m : Memory) (x : Nat) :
    Memory.read (Memory.fill p f a n m) x
      = if a ≤ x ∧ x < a + n ∧ p x = true then f x else Memory.read m x := by
  induction n with
  | zero => rw [if_neg (by omega)]; rfl
  | succ n ih =>
    simp only [Memory.fill]
    by_cases hx : x = a + n
    · subst hx
      by_cases hp : p (a + n) = true
      · rw [if_pos hp, Memory.read_write, if_pos rfl, if_pos ⟨by omega, by omega, hp⟩]
      · rw [if_neg hp, ih, if_neg (by omega), if_neg (fun h => hp h.2.2)]
    · have hiff : (a ≤ x ∧ x < a + n ∧ p x = true) ↔ (a ≤ x ∧ x < a + (n + 1) ∧ p x = true) :=
        and_congr_right fun _ => and_congr_left fun _ => by omega
      split
      · rw [Memory.read_write, if_neg hx, ih, if_congr hiff rfl rfl]
      · rw [ih, if_congr hiff rfl rfl]

/-! ### The canonical form -/

theorem Memory.mem_list {m : Memory} {a : Nat} {b : Byte} {c : Host.Cell} (h : c ∈ Memory.list a b m) :
    c = (a, b) ∨ c ∈ m := by
  induction m with
  | nil => simpa [Memory.list] using h
  | cons d m ih =>
    simp only [Memory.list] at h
    split at h
    · simpa using h
    · split at h
      · rcases List.mem_cons.1 h with h | h
        · exact .inl h
        · exact .inr (by simp [h])
      · rcases List.mem_cons.1 h with h | h
        · exact .inr (by simp [h])
        · rcases ih h with h | h
          · exact .inl h
          · exact .inr (by simp [h])

theorem Memory.wf_list {m : Memory} (a : Nat) (b : Byte) (hb : b ≠ Config.unlistedByte) (h : Memory.wf m) :
    Memory.wf (Memory.list a b m) := by
  refine ⟨?_, fun c hc => ?_⟩
  · have hp := h.1
    clear h
    induction m with
    | nil => simp [Memory.list]
    | cons d m ih =>
      have hd := List.pairwise_cons.1 hp
      simp only [Memory.list]
      split
      · next h1 =>
        refine List.pairwise_cons.2 ⟨fun c hc => ?_, hp⟩
        rcases List.mem_cons.1 hc with rfl | hc
        · exact h1
        · exact Nat.lt_trans h1 (hd.1 c hc)
      · split
        · next h2 => exact List.pairwise_cons.2 ⟨fun c hc => by simpa [h2] using hd.1 c hc, hd.2⟩
        · next h1 h2 =>
          refine List.pairwise_cons.2 ⟨fun c hc => ?_, ih hd.2⟩
          rcases Memory.mem_list hc with rfl | hc
          · change d.1 < a; omega
          · exact hd.1 c hc
  · rcases Memory.mem_list hc with rfl | hc
    · exact hb
    · exact h.2 c hc

theorem Memory.wf_unlist {m : Memory} (a : Nat) (h : Memory.wf m) : Memory.wf (Memory.unlist a m) :=
  ⟨h.1.filter _, fun c hc => h.2 c (List.mem_filter.1 hc).1⟩

/-- A write keeps the canonical form. -/
theorem Memory.wf_write {m : Memory} (a : Nat) (b : Byte) (h : Memory.wf m) : Memory.wf (Memory.write m a b) := by
  unfold Memory.write
  split
  · exact Memory.wf_unlist a h
  · next hb => exact Memory.wf_list a b hb h

/-- Filling a range keeps the canonical form. -/
theorem Memory.wf_fill (p : Nat → Bool) (f : Nat → Byte) (a n : Nat) {m : Memory} (h : Memory.wf m) :
    Memory.wf (Memory.fill p f a n m) := by
  induction n with
  | zero => exact h
  | succ n ih =>
    simp only [Memory.fill]
    split
    · exact Memory.wf_write _ _ ih
    · exact ih

/-- A cell listed after a write was listed before it, or is at the address written. -/
theorem Memory.mem_write {m : Memory} {a : Nat} {b : Byte} {c : Host.Cell} (h : c ∈ Memory.write m a b) :
    c.1 = a ∨ c ∈ m := by
  unfold Memory.write at h
  split at h
  · exact .inr (List.mem_filter.1 h).1
  · rcases Memory.mem_list h with rfl | h
    · exact .inl rfl
    · exact .inr h

/-- A cell listed after a fill was listed before it, or satisfies the fill's condition. -/
theorem Memory.mem_fill {p : Nat → Bool} {f : Nat → Byte} {a n : Nat} {m : Memory} {c : Host.Cell}
    (h : c ∈ Memory.fill p f a n m) : p c.1 = true ∨ c ∈ m := by
  induction n with
  | zero => exact .inr h
  | succ n ih =>
    simp only [Memory.fill] at h
    split at h
    · next hp =>
      rcases Memory.mem_write h with h | h
      · exact .inl (h ▸ hp)
      · exact ih h
    · exact ih h

end Sys2Proof.Machine
end

