-- ==== Sys2Proof/Laws/State.lean ====
section
/-! SUPPORT. What each shared operation makes of each field of State. The result registers and the error bits
are given for a command whose source region the host has not written; the free values of R164 are the
other case. -/

namespace Sys2Proof.Machine

/-! ### Acceptance (R53) -/

@[simp] theorem State.accept_ie (s : State) (word : Word) :
    (s.accept word).ie = s.ie := rfl

@[simp] theorem State.accept_cmd (s : State) (word : Word) :
    (s.accept word).cmd = word := rfl

@[simp] theorem State.accept_srcAddr (s : State) (word : Word) :
    (s.accept word).srcAddr = s.srcAddr := rfl

@[simp] theorem State.accept_srcLen (s : State) (word : Word) :
    (s.accept word).srcLen = s.srcLen := rfl

@[simp] theorem State.accept_dstAddr (s : State) (word : Word) :
    (s.accept word).dstAddr = s.dstAddr := rfl

@[simp] theorem State.accept_dstCap (s : State) (word : Word) :
    (s.accept word).dstCap = s.dstCap := rfl

@[simp] theorem State.accept_param0 (s : State) (word : Word) :
    (s.accept word).param0 = s.param0 := rfl

@[simp] theorem State.accept_param1 (s : State) (word : Word) :
    (s.accept word).param1 = s.param1 := rfl

@[simp] theorem State.accept_outLen (s : State) (word : Word) :
    (s.accept word).outLen = 0 := rfl

@[simp] theorem State.accept_matchOff (s : State) (word : Word) :
    (s.accept word).matchOff = s.matchOff := rfl

@[simp] theorem State.accept_matchLen (s : State) (word : Word) :
    (s.accept word).matchLen = s.matchLen := rfl

@[simp] theorem State.accept_errPos (s : State) (word : Word) :
    (s.accept word).errPos = 0 := rfl

@[simp] theorem State.accept_ctx_src (s : State) (word : Word) : (s.accept word).ctx.src = s.srcAddr := rfl

@[simp] theorem State.accept_ctx_slen (s : State) (word : Word) : (s.accept word).ctx.slen = s.srcLen := rfl

@[simp] theorem State.accept_ctx_dst (s : State) (word : Word) : (s.accept word).ctx.dst = s.dstAddr := rfl

@[simp] theorem State.accept_ctx_dcap (s : State) (word : Word) : (s.accept word).ctx.dcap = s.dstCap := rfl

@[simp] theorem State.accept_ctx_p0 (s : State) (word : Word) : (s.accept word).ctx.p0 = s.param0 := rfl

@[simp] theorem State.accept_ctx_p1 (s : State) (word : Word) : (s.accept word).ctx.p1 = s.param1 := rfl

@[simp] theorem State.accept_ctx_op (s : State) (word : Word) : (s.accept word).ctx.op = word.extractLsb' 0 8 := rfl

@[simp] theorem State.accept_trie (s : State) (word : Word) :
    (s.accept word).trie = s.trie := rfl

@[simp] theorem State.accept_work (s : State) (word : Word) :
    (s.accept word).work = .none := rfl

@[simp] theorem State.accept_mem (s : State) (word : Word) :
    (s.accept word).mem = s.mem := rfl

@[simp] theorem State.accept_memTop (s : State) (word : Word) :
    (s.accept word).memTop = s.memTop := rfl

@[simp] theorem State.accept_rstLow (s : State) (word : Word) :
    (s.accept word).rstLow = s.rstLow := rfl

@[simp] theorem State.accept_inputs (s : State) (word : Word) :
    (s.accept word).inputs = s.inputs := rfl

@[simp] theorem State.accept_response (s : State) (word : Word) :
    (s.accept word).response = s.response := rfl

@[simp] theorem State.accept_srcOld (s : State) (word : Word) :
    (s.accept word).srcOld = [] := rfl

@[simp] theorem State.accept_srcDirty (s : State) (word : Word) :
    (s.accept word).srcDirty = false := rfl

@[simp] theorem State.accept_dstDirty (s : State) (word : Word) :
    (s.accept word).dstDirty = false := rfl

@[simp] theorem State.accept_free (s : State) (word : Word) :
    (s.accept word).free = s.free := rfl

@[simp] theorem State.accept_status (s : State) (word : Word) :
    (s.accept word).status = s.status.accepted := rfl

/-! ### Error entry (R146) -/

@[simp] theorem State.errorEntry_ie (s : State) (op : Byte) (r : Raise) :
    (s.errorEntry op r).ie = s.ie := rfl

@[simp] theorem State.errorEntry_cmd (s : State) (op : Byte) (r : Raise) :
    (s.errorEntry op r).cmd = s.cmd := rfl

@[simp] theorem State.errorEntry_srcAddr (s : State) (op : Byte) (r : Raise) :
    (s.errorEntry op r).srcAddr = s.srcAddr := rfl

@[simp] theorem State.errorEntry_srcLen (s : State) (op : Byte) (r : Raise) :
    (s.errorEntry op r).srcLen = s.srcLen := rfl

@[simp] theorem State.errorEntry_dstAddr (s : State) (op : Byte) (r : Raise) :
    (s.errorEntry op r).dstAddr = s.dstAddr := rfl

@[simp] theorem State.errorEntry_dstCap (s : State) (op : Byte) (r : Raise) :
    (s.errorEntry op r).dstCap = s.dstCap := rfl

@[simp] theorem State.errorEntry_param0 (s : State) (op : Byte) (r : Raise) :
    (s.errorEntry op r).param0 = s.param0 := rfl

@[simp] theorem State.errorEntry_param1 (s : State) (op : Byte) (r : Raise) :
    (s.errorEntry op r).param1 = s.param1 := rfl

@[simp] theorem State.errorEntry_outLen (s : State) (op : Byte) (r : Raise) :
    (s.errorEntry op r).outLen = 0 := rfl

@[simp] theorem State.errorEntry_matchOff (s : State) (op : Byte) (r : Raise) :
    (s.errorEntry op r).matchOff = if op = opTrieMatch then 0 else s.matchOff := rfl

@[simp] theorem State.errorEntry_matchLen (s : State) (op : Byte) (r : Raise) :
    (s.errorEntry op r).matchLen = if op = opTrieMatch then 0 else s.matchLen := rfl

@[simp] theorem State.errorEntry_errPos (s : State) (op : Byte) (r : Raise) :
    (s.errorEntry op r).errPos = BitVec.ofNat 32 r.pos := rfl

@[simp] theorem State.errorEntry_ctx (s : State) (op : Byte) (r : Raise) :
    (s.errorEntry op r).ctx = s.ctx := rfl

@[simp] theorem State.errorEntry_trie (s : State) (op : Byte) (r : Raise) :
    (s.errorEntry op r).trie = if isCompress op then Trie.initial else s.trie := rfl

@[simp] theorem State.errorEntry_work (s : State) (op : Byte) (r : Raise) :
    (s.errorEntry op r).work = s.work := rfl

@[simp] theorem State.errorEntry_mem (s : State) (op : Byte) (r : Raise) :
    (s.errorEntry op r).mem = s.mem := rfl

@[simp] theorem State.errorEntry_memTop (s : State) (op : Byte) (r : Raise) :
    (s.errorEntry op r).memTop = s.memTop := rfl

@[simp] theorem State.errorEntry_rstLow (s : State) (op : Byte) (r : Raise) :
    (s.errorEntry op r).rstLow = s.rstLow := rfl

@[simp] theorem State.errorEntry_inputs (s : State) (op : Byte) (r : Raise) :
    (s.errorEntry op r).inputs = s.inputs := rfl

@[simp] theorem State.errorEntry_response (s : State) (op : Byte) (r : Raise) :
    (s.errorEntry op r).response = s.response := rfl

@[simp] theorem State.errorEntry_srcOld (s : State) (op : Byte) (r : Raise) :
    (s.errorEntry op r).srcOld = s.srcOld := rfl

@[simp] theorem State.errorEntry_srcDirty (s : State) (op : Byte) (r : Raise) :
    (s.errorEntry op r).srcDirty = s.srcDirty := rfl

@[simp] theorem State.errorEntry_dstDirty (s : State) (op : Byte) (r : Raise) :
    (s.errorEntry op r).dstDirty = s.dstDirty := rfl

@[simp] theorem State.errorEntry_free (s : State) (op : Byte) (r : Raise) :
    (s.errorEntry op r).free = s.free := rfl

@[simp] theorem State.errorEntry_status (s : State) (op : Byte) (r : Raise) :
    (s.errorEntry op r).status = s.status.failed r.code := rfl

/-! ### The record of overwritten source bytes (R48 item 1, R164) -/

theorem State.srcDirty_eq_false {s : State} : s.srcDirty = false ↔ s.srcOld = [] := by
  simp [State.srcDirty]

@[simp] theorem State.srcDirty_with_work (s : State) (w : Work) :
    State.srcDirty { s with work := w } = s.srcDirty := rfl

@[simp] theorem State.srcDirty_with_mem (s : State) (m : Memory) :
    State.srcDirty { s with mem := m } = s.srcDirty := rfl

@[simp] theorem State.srcDirty_with_trie (s : State) (t : Trie) :
    State.srcDirty { s with trie := t } = s.srcDirty := rfl

@[simp] theorem State.srcByte_with_work (s : State) (w : Work) :
    State.srcByte { s with work := w } = s.srcByte := rfl

@[simp] theorem State.srcByte_with_trie (s : State) (t : Trie) :
    State.srcByte { s with trie := t } = s.srcByte := rfl

/-! ### The end of a command (R29, R164) -/

theorem State.retire_disturbed (s : State) (h : s.srcDirty = true) :
    s.retire =
      { s with
        outLen := Config.freeWord s.free 0x24
        matchOff := Config.freeWord s.free 0x28
        matchLen := Config.freeWord s.free 0x2C
        errPos := Config.freeWord s.free 0x30
        status := { s.status with errCode := ErrCode.ofFree (Config.freeWord s.free 0x04) }
        work := .none
        srcOld := []
        dstDirty := false
        free := s.free + 1 } := by
  rw [State.retire, if_pos h]

theorem State.retire_undisturbed (s : State) (h : s.srcDirty = false) :
    s.retire = { s with work := .none, srcOld := [], dstDirty := false, free := s.free + 1 } := by
  rw [State.retire, if_neg (by simp [h])]

@[simp] theorem State.retire_ie (s : State) :
    (s.retire).ie = s.ie := by
  unfold State.retire; split <;> rfl

@[simp] theorem State.retire_cmd (s : State) :
    (s.retire).cmd = s.cmd := by
  unfold State.retire; split <;> rfl

@[simp] theorem State.retire_srcAddr (s : State) :
    (s.retire).srcAddr = s.srcAddr := by
  unfold State.retire; split <;> rfl

@[simp] theorem State.retire_srcLen (s : State) :
    (s.retire).srcLen = s.srcLen := by
  unfold State.retire; split <;> rfl

@[simp] theorem State.retire_dstAddr (s : State) :
    (s.retire).dstAddr = s.dstAddr := by
  unfold State.retire; split <;> rfl

@[simp] theorem State.retire_dstCap (s : State) :
    (s.retire).dstCap = s.dstCap := by
  unfold State.retire; split <;> rfl

@[simp] theorem State.retire_param0 (s : State) :
    (s.retire).param0 = s.param0 := by
  unfold State.retire; split <;> rfl

@[simp] theorem State.retire_param1 (s : State) :
    (s.retire).param1 = s.param1 := by
  unfold State.retire; split <;> rfl

@[simp] theorem State.retire_outLen (s : State) (h : s.srcDirty = false) :
    (s.retire).outLen = s.outLen := by
  rw [State.retire_undisturbed s h]

@[simp] theorem State.retire_matchOff (s : State) (h : s.srcDirty = false) :
    (s.retire).matchOff = s.matchOff := by
  rw [State.retire_undisturbed s h]

@[simp] theorem State.retire_matchLen (s : State) (h : s.srcDirty = false) :
    (s.retire).matchLen = s.matchLen := by
  rw [State.retire_undisturbed s h]

@[simp] theorem State.retire_errPos (s : State) (h : s.srcDirty = false) :
    (s.retire).errPos = s.errPos := by
  rw [State.retire_undisturbed s h]

@[simp] theorem State.retire_ctx (s : State) :
    (s.retire).ctx = s.ctx := by
  unfold State.retire; split <;> rfl

@[simp] theorem State.retire_trie (s : State) :
    (s.retire).trie = s.trie := by
  unfold State.retire; split <;> rfl

@[simp] theorem State.retire_work (s : State) :
    (s.retire).work = .none := by
  unfold State.retire; split <;> rfl

@[simp] theorem State.retire_mem (s : State) :
    (s.retire).mem = s.mem := by
  unfold State.retire; split <;> rfl

@[simp] theorem State.retire_memTop (s : State) :
    (s.retire).memTop = s.memTop := by
  unfold State.retire; split <;> rfl

@[simp] theorem State.retire_rstLow (s : State) :
    (s.retire).rstLow = s.rstLow := by
  unfold State.retire; split <;> rfl

@[simp] theorem State.retire_inputs (s : State) :
    (s.retire).inputs = s.inputs := by
  unfold State.retire; split <;> rfl

@[simp] theorem State.retire_response (s : State) :
    (s.retire).response = s.response := by
  unfold State.retire; split <;> rfl

@[simp] theorem State.retire_srcOld (s : State) :
    (s.retire).srcOld = [] := by
  unfold State.retire; split <;> rfl

@[simp] theorem State.retire_srcDirty (s : State) :
    (s.retire).srcDirty = false := by
  unfold State.retire; split <;> rfl

@[simp] theorem State.retire_dstDirty (s : State) :
    (s.retire).dstDirty = false := by
  unfold State.retire; split <;> rfl

@[simp] theorem State.retire_free (s : State) :
    (s.retire).free = s.free + 1 := by
  unfold State.retire; split <;> rfl

@[simp] theorem State.retire_status (s : State) (h : s.srcDirty = false) :
    (s.retire).status = s.status := by
  rw [State.retire_undisturbed s h]

@[simp] theorem State.retire_status_busy (s : State) : s.retire.status.busy = s.status.busy := by
  unfold State.retire; split <;> rfl

@[simp] theorem State.retire_status_done (s : State) : s.retire.status.done = s.status.done := by
  unfold State.retire; split <;> rfl

/-- ERR stays as the outcome gave it, whatever the host did to the source region (R146, R148, R164). -/
@[simp] theorem State.retire_status_err (s : State) : s.retire.status.err = s.status.err := by
  unfold State.retire; split <;> rfl

@[simp] theorem State.retire_status_stored (s : State) : s.retire.status.stored = s.status.stored := by
  unfold State.retire; split <;> rfl

@[simp] theorem State.retire_status_ovr (s : State) : s.retire.status.ovr = s.status.ovr := by
  unfold State.retire; split <;> rfl

/-! ### A command that raises (R146, R147) -/

@[simp] theorem State.raiseError_ie (s : State) (op : Byte) (r : Raise) :
    (s.raiseError op r).ie = s.ie := by simp [State.raiseError]

@[simp] theorem State.raiseError_cmd (s : State) (op : Byte) (r : Raise) :
    (s.raiseError op r).cmd = s.cmd := by simp [State.raiseError]

@[simp] theorem State.raiseError_srcAddr (s : State) (op : Byte) (r : Raise) :
    (s.raiseError op r).srcAddr = s.srcAddr := by simp [State.raiseError]

@[simp] theorem State.raiseError_srcLen (s : State) (op : Byte) (r : Raise) :
    (s.raiseError op r).srcLen = s.srcLen := by simp [State.raiseError]

@[simp] theorem State.raiseError_dstAddr (s : State) (op : Byte) (r : Raise) :
    (s.raiseError op r).dstAddr = s.dstAddr := by simp [State.raiseError]

@[simp] theorem State.raiseError_dstCap (s : State) (op : Byte) (r : Raise) :
    (s.raiseError op r).dstCap = s.dstCap := by simp [State.raiseError]

@[simp] theorem State.raiseError_param0 (s : State) (op : Byte) (r : Raise) :
    (s.raiseError op r).param0 = s.param0 := by simp [State.raiseError]

@[simp] theorem State.raiseError_param1 (s : State) (op : Byte) (r : Raise) :
    (s.raiseError op r).param1 = s.param1 := by simp [State.raiseError]

@[simp] theorem State.raiseError_ctx (s : State) (op : Byte) (r : Raise) :
    (s.raiseError op r).ctx = s.ctx := by simp [State.raiseError]

@[simp] theorem State.raiseError_memTop (s : State) (op : Byte) (r : Raise) :
    (s.raiseError op r).memTop = s.memTop := by simp [State.raiseError]

@[simp] theorem State.raiseError_rstLow (s : State) (op : Byte) (r : Raise) :
    (s.raiseError op r).rstLow = s.rstLow := by simp [State.raiseError]

@[simp] theorem State.raiseError_inputs (s : State) (op : Byte) (r : Raise) :
    (s.raiseError op r).inputs = s.inputs := by simp [State.raiseError]

@[simp] theorem State.raiseError_response (s : State) (op : Byte) (r : Raise) :
    (s.raiseError op r).response = s.response := by simp [State.raiseError]

@[simp] theorem State.raiseError_work (s : State) (op : Byte) (r : Raise) :
    (s.raiseError op r).work = .none := by simp [State.raiseError]

@[simp] theorem State.raiseError_srcOld (s : State) (op : Byte) (r : Raise) :
    (s.raiseError op r).srcOld = [] := by simp [State.raiseError]

@[simp] theorem State.raiseError_srcDirty (s : State) (op : Byte) (r : Raise) :
    (s.raiseError op r).srcDirty = false := by simp [State.raiseError]

@[simp] theorem State.raiseError_dstDirty (s : State) (op : Byte) (r : Raise) :
    (s.raiseError op r).dstDirty = false := by simp [State.raiseError]

@[simp] theorem State.raiseError_free (s : State) (op : Byte) (r : Raise) :
    (s.raiseError op r).free = s.free + 1 := by simp [State.raiseError]

@[simp] theorem State.raiseError_trie (s : State) (op : Byte) (r : Raise) :
    (s.raiseError op r).trie = if isCompress op then Trie.initial else s.trie := by simp [State.raiseError]

@[simp] theorem State.raiseError_mem (s : State) (op : Byte) (r : Raise) :
    (s.raiseError op r).mem = s.memFailed op := by simp [State.raiseError]

@[simp] theorem State.raiseError_outLen (s : State) (op : Byte) (r : Raise) (h : s.srcDirty = false) :
    (s.raiseError op r).outLen = 0 := by
  simp [State.raiseError, State.srcDirty, State.srcDirty_eq_false.1 h]

@[simp] theorem State.raiseError_errPos (s : State) (op : Byte) (r : Raise) (h : s.srcDirty = false) :
    (s.raiseError op r).errPos = BitVec.ofNat 32 r.pos := by
  simp [State.raiseError, State.srcDirty, State.srcDirty_eq_false.1 h]

@[simp] theorem State.raiseError_matchOff (s : State) (op : Byte) (r : Raise) (h : s.srcDirty = false) :
    (s.raiseError op r).matchOff = if op = opTrieMatch then 0 else s.matchOff := by
  simp [State.raiseError, State.srcDirty, State.srcDirty_eq_false.1 h]

@[simp] theorem State.raiseError_matchLen (s : State) (op : Byte) (r : Raise) (h : s.srcDirty = false) :
    (s.raiseError op r).matchLen = if op = opTrieMatch then 0 else s.matchLen := by
  simp [State.raiseError, State.srcDirty, State.srcDirty_eq_false.1 h]

@[simp] theorem State.raiseError_status (s : State) (op : Byte) (r : Raise) (h : s.srcDirty = false) :
    (s.raiseError op r).status = s.status.failed r.code := by
  simp [State.raiseError, State.srcDirty, State.srcDirty_eq_false.1 h]

@[simp] theorem State.raiseError_status_busy (s : State) (op : Byte) (r : Raise) :
    (s.raiseError op r).status.busy = false := by simp [State.raiseError, Status.failed]

@[simp] theorem State.raiseError_status_err (s : State) (op : Byte) (r : Raise) :
    (s.raiseError op r).status.err = true := by simp [State.raiseError, Status.failed]

@[simp] theorem State.raiseError_status_stored (s : State) (op : Byte) (r : Raise) :
    (s.raiseError op r).status.stored = s.status.stored := by simp [State.raiseError, Status.failed]

@[simp] theorem State.raiseError_status_done (s : State) (op : Byte) (r : Raise) :
    (s.raiseError op r).status.done = true := by simp [State.raiseError, Status.failed]

@[simp] theorem State.raiseError_status_ovr (s : State) (op : Byte) (r : Raise) :
    (s.raiseError op r).status.ovr = s.status.ovr := by simp [State.raiseError, Status.failed]

/-! ### A command that succeeds (R47, R148) -/

@[simp] theorem State.succeed_ie (s : State) (op : Byte) (out : List Byte) (stored : Bool) :
    (s.succeed op out stored).ie = s.ie := by simp [State.succeed]

@[simp] theorem State.succeed_cmd (s : State) (op : Byte) (out : List Byte) (stored : Bool) :
    (s.succeed op out stored).cmd = s.cmd := by simp [State.succeed]

@[simp] theorem State.succeed_srcAddr (s : State) (op : Byte) (out : List Byte) (stored : Bool) :
    (s.succeed op out stored).srcAddr = s.srcAddr := by simp [State.succeed]

@[simp] theorem State.succeed_srcLen (s : State) (op : Byte) (out : List Byte) (stored : Bool) :
    (s.succeed op out stored).srcLen = s.srcLen := by simp [State.succeed]

@[simp] theorem State.succeed_dstAddr (s : State) (op : Byte) (out : List Byte) (stored : Bool) :
    (s.succeed op out stored).dstAddr = s.dstAddr := by simp [State.succeed]

@[simp] theorem State.succeed_dstCap (s : State) (op : Byte) (out : List Byte) (stored : Bool) :
    (s.succeed op out stored).dstCap = s.dstCap := by simp [State.succeed]

@[simp] theorem State.succeed_param0 (s : State) (op : Byte) (out : List Byte) (stored : Bool) :
    (s.succeed op out stored).param0 = s.param0 := by simp [State.succeed]

@[simp] theorem State.succeed_param1 (s : State) (op : Byte) (out : List Byte) (stored : Bool) :
    (s.succeed op out stored).param1 = s.param1 := by simp [State.succeed]

@[simp] theorem State.succeed_ctx (s : State) (op : Byte) (out : List Byte) (stored : Bool) :
    (s.succeed op out stored).ctx = s.ctx := by simp [State.succeed]

@[simp] theorem State.succeed_memTop (s : State) (op : Byte) (out : List Byte) (stored : Bool) :
    (s.succeed op out stored).memTop = s.memTop := by simp [State.succeed]

@[simp] theorem State.succeed_rstLow (s : State) (op : Byte) (out : List Byte) (stored : Bool) :
    (s.succeed op out stored).rstLow = s.rstLow := by simp [State.succeed]

@[simp] theorem State.succeed_inputs (s : State) (op : Byte) (out : List Byte) (stored : Bool) :
    (s.succeed op out stored).inputs = s.inputs := by simp [State.succeed]

@[simp] theorem State.succeed_response (s : State) (op : Byte) (out : List Byte) (stored : Bool) :
    (s.succeed op out stored).response = s.response := by simp [State.succeed]

@[simp] theorem State.succeed_work (s : State) (op : Byte) (out : List Byte) (stored : Bool) :
    (s.succeed op out stored).work = .none := by simp [State.succeed]

@[simp] theorem State.succeed_srcOld (s : State) (op : Byte) (out : List Byte) (stored : Bool) :
    (s.succeed op out stored).srcOld = [] := by simp [State.succeed]

@[simp] theorem State.succeed_srcDirty (s : State) (op : Byte) (out : List Byte) (stored : Bool) :
    (s.succeed op out stored).srcDirty = false := by simp [State.succeed]

@[simp] theorem State.succeed_dstDirty (s : State) (op : Byte) (out : List Byte) (stored : Bool) :
    (s.succeed op out stored).dstDirty = false := by simp [State.succeed]

@[simp] theorem State.succeed_free (s : State) (op : Byte) (out : List Byte) (stored : Bool) :
    (s.succeed op out stored).free = s.free + 1 := by simp [State.succeed]

@[simp] theorem State.succeed_trie (s : State) (op : Byte) (out : List Byte) (stored : Bool) :
    (s.succeed op out stored).trie = if isCompress op then Trie.initial else s.trie := by simp [State.succeed]

@[simp] theorem State.succeed_mem (s : State) (op : Byte) (out : List Byte) (stored : Bool) :
    (s.succeed op out stored).mem = s.memSucceeded op out := by simp [State.succeed]

@[simp] theorem State.succeed_outLen (s : State) (op : Byte) (out : List Byte) (stored : Bool) (h : s.srcDirty = false) :
    (s.succeed op out stored).outLen = BitVec.ofNat 32 out.length := by
  simp [State.succeed, State.srcDirty, State.srcDirty_eq_false.1 h]

@[simp] theorem State.succeed_errPos (s : State) (op : Byte) (out : List Byte) (stored : Bool) (h : s.srcDirty = false) :
    (s.succeed op out stored).errPos = 0 := by
  simp [State.succeed, State.srcDirty, State.srcDirty_eq_false.1 h]

@[simp] theorem State.succeed_matchOff (s : State) (op : Byte) (out : List Byte) (stored : Bool) (h : s.srcDirty = false) :
    (s.succeed op out stored).matchOff = s.matchOff := by
  simp [State.succeed, State.srcDirty, State.srcDirty_eq_false.1 h]

@[simp] theorem State.succeed_matchLen (s : State) (op : Byte) (out : List Byte) (stored : Bool) (h : s.srcDirty = false) :
    (s.succeed op out stored).matchLen = s.matchLen := by
  simp [State.succeed, State.srcDirty, State.srcDirty_eq_false.1 h]

@[simp] theorem State.succeed_status (s : State) (op : Byte) (out : List Byte) (stored : Bool) (h : s.srcDirty = false) :
    (s.succeed op out stored).status = s.status.succeeded stored := by
  simp [State.succeed, State.srcDirty, State.srcDirty_eq_false.1 h]

@[simp] theorem State.succeed_status_busy (s : State) (op : Byte) (out : List Byte) (stored : Bool) :
    (s.succeed op out stored).status.busy = false := by simp [State.succeed, Status.succeeded]

@[simp] theorem State.succeed_status_err (s : State) (op : Byte) (out : List Byte) (stored : Bool) :
    (s.succeed op out stored).status.err = false := by simp [State.succeed, Status.succeeded]

@[simp] theorem State.succeed_status_stored (s : State) (op : Byte) (out : List Byte) (stored : Bool) :
    (s.succeed op out stored).status.stored = (s.status.stored || stored) := by
  simp [State.succeed, Status.succeeded]

@[simp] theorem State.succeed_status_done (s : State) (op : Byte) (out : List Byte) (stored : Bool) :
    (s.succeed op out stored).status.done = true := by simp [State.succeed, Status.succeeded]

@[simp] theorem State.succeed_status_ovr (s : State) (op : Byte) (out : List Byte) (stored : Bool) :
    (s.succeed op out stored).status.ovr = s.status.ovr := by simp [State.succeed, Status.succeeded]

end Sys2Proof.Machine
end

