-- ==== Sys2Proof/Laws/Ops.lean ====
section
/-! SUPPORT. What each shared operation can do, said once: regions, error entry, completion, the engine's loop,
match copies and stream reads. -/

namespace Sys2Proof.Machine

/-! ### Regions -/

@[simp] theorem inRegion_eq_true (a l x : Nat) : inRegion a l x = true ↔ a ≤ x ∧ x < a + l := by
  simp [inRegion]

@[simp] theorem inRegion_eq_false (a l x : Nat) : inRegion a l x = false ↔ ¬ (a ≤ x ∧ x < a + l) := by
  rw [← Bool.not_eq_true, inRegion_eq_true]

@[simp] theorem State.hasAddress_eq_true (s : State) (x : Nat) : s.hasAddress x = true ↔ x < s.memSize := by
  simp [State.hasAddress]

/-- Every address of a valid region is an address of data memory. -/
theorem State.lt_memSize_of_validRegion {s : State} {a l x : Nat} (hv : s.validRegion a l = true)
    (hx : a ≤ x ∧ x < a + l) : x < s.memSize := by
  simp [State.validRegion] at hv
  omega

theorem State.checkSource_ok {s : State} (h : s.validRegion s.src s.slen = true) : s.checkSource = .ok () := by
  simp [State.checkSource, h]

theorem State.checkSource_error {s : State} (h : s.validRegion s.src s.slen = false) :
    s.checkSource = .error ⟨.misuse, 0⟩ := by
  simp [State.checkSource, h]

theorem State.checkRegions_ok {s : State} (h : RegionsOk s) : s.checkRegions = .ok () := by
  obtain ⟨h1, h2, h3⟩ := h
  simp [State.checkRegions, h1, h2, h3]

theorem State.checkRegions_error {s : State} (h : ¬ RegionsOk s) : s.checkRegions = .error ⟨.misuse, 0⟩ := by
  unfold State.checkRegions
  split
  · rfl
  · split
    · rfl
    · split
      · rfl
      · exact absurd ⟨by simp_all, by simp_all, by simp_all⟩ h

/-! ### The source region (R48 item 1) -/

theorem State.readByte_mk (s : State) (x : Nat) : s.readByte x = Memory.read s.mem x := rfl

theorem State.srcByte_undisturbed {s : State} (h : s.srcDirty = false) (i : Nat) :
    s.srcByte i = s.readByte (s.src + i) := by
  simp [State.srcByte, State.srcDirty_eq_false.1 h, State.readByte]

/-- What the record of overwritten bytes holds after the host writes an address: that address of the source region
with the byte that stood there, if it is not recorded yet. -/
theorem State.keepOld_lookup (s : State) (a x : Nat) :
    (s.keepOld a).lookup x = if a = x ∧ s.inActiveSource a = true ∧ s.srcOld.lookup a = none
      then some (s.readByte a) else s.srcOld.lookup x := by
  unfold State.keepOld
  cases s.inActiveSource a <;> generalize ho : s.srcOld.lookup a = o <;> cases o <;>
    simp [Memory.lookup_list, State.readByte]

/-- A host write leaves the source region of a running command that reads one as it stood at acceptance (R48
item 1). -/
theorem State.hostWrite_srcByte {s t : State} {a : Word} {b : Byte} {op : Byte} (h : s.hostWrite a b = .next t)
    (hop : s.activeOp = some op) (hr : readsSource op = true) {k : Nat} (hk : k < s.slen) :
    t.srcByte k = s.srcByte k := by
  unfold State.hostWrite at h
  split at h
  · cases h
    simp only [State.srcByte, State.src, State.keepOld_lookup, Memory.read_write]
    have hs : s.inActiveSource a.toNat = inRegion s.src s.slen a.toNat := by simp [State.inActiveSource, hop, hr]
    by_cases hx : s.ctx.src.toNat + k = a.toNat
    · have hin : s.inActiveSource a.toNat = true := by
        rw [hs, inRegion_eq_true, ← hx]
        simp only [State.src]
        omega
      cases hl : s.srcOld.lookup a.toNat <;> simp [hx, hin, hl, State.readByte]
    · simp [hx, Ne.symm hx]
  · cases h

/-! ### Reading memory after a command -/

/-- Error entry of a command the host left alone changes no byte outside the destination region, and none of the
source region (R147). -/
theorem State.raiseError_readByte {s : State} {op : Byte} {r : Raise} (hu : Undisturbed s) (x : Nat)
    (hx : inRegion s.dst s.dcap x = false ∨ inRegion s.src s.slen x = true) :
    (s.raiseError op r).readByte x = s.readByte x := by
  simp only [State.readByte, State.raiseError_mem, State.memFailed, hu.1, Bool.and_false]
  split
  · rw [State.anyDest, hu.1, hu.2, Memory.read_fill, if_neg]
    rintro ⟨h1, h2, h3⟩
    rcases hx with hx | hx <;> simp_all
  · rfl

/-- Error entry of a command one of whose regions the host has written leaves any value in the whole destination
region, the bytes it shares with the source region among them (R164). -/
theorem State.raiseError_readByte_disturbed {s : State} {op : Byte} {r : Raise}
    (hd : s.srcDirty = true ∨ s.dstDirty = true) (hop : writesDest op = true) {x : Nat}
    (hx : inRegion s.dst s.dcap x = true) (hm : s.hasAddress x = true) :
    (s.raiseError op r).readByte x = Config.freeByte s.free x := by
  simp only [inRegion_eq_true] at hx
  simp only [State.readByte, State.raiseError_mem, State.memFailed, hop, if_true, State.anyDest]
  rw [Memory.read_fill, if_pos]
  rcases hd with hd | hd <;> simp [hx, hm, hd]

/-- A command without a destination region that raises leaves memory as it was. -/
theorem State.raiseError_mem_same {s : State} {op : Byte} {r : Raise} (hd : s.srcDirty = false)
    (hop : writesDest op = false) : (s.raiseError op r).mem = s.mem := by
  simp [State.memFailed, hd, hop]

/-- Completion changes no byte outside the command's regions (R44). -/
theorem State.succeed_readByte_outside {s : State} {op : Byte} {out : List Byte} {b : Bool} (hd : s.srcDirty = false)
    (x : Nat) (hx : inRegion s.dst s.dcap x = false) : (s.succeed op out b).readByte x = s.readByte x := by
  simp only [State.readByte, State.succeed_mem, State.memSucceeded, hd, Bool.and_false]
  split
  · rw [Memory.read_fill, if_neg]
    rintro ⟨h1, h2, h3⟩
    simp_all
  · rfl

/-- Completion places output byte `k` at `DST + k` (R47). -/
theorem State.succeed_readByte_output {s : State} {op : Byte} {out : List Byte} {b : Bool} (hu : Undisturbed s)
    (hop : writesDest op = true) (hv : s.validRegion s.dst s.dcap = true) (hl : out.length ≤ s.dcap) {k : Nat}
    {c : Byte} (hk : out[k]? = some c) : (s.succeed op out b).readByte (s.dst + k) = c := by
  have hkl : k < out.length := (List.getElem?_eq_some_iff.1 hk).1
  have hm : s.dst + k < s.memSize := s.lt_memSize_of_validRegion hv ⟨by omega, by omega⟩
  simp only [State.readByte, State.succeed_mem, State.memSucceeded, hop, if_true]
  rw [Memory.read_fill, if_pos ⟨by omega, by omega, by simpa using hm⟩]
  have : s.dst + k - s.dst = k := by omega
  simp [State.destByte, hu.1, hu.2, this, hk]

/-! ### Error entry and completion -/

theorem State.raiseError_idle (s : State) (op : Byte) (r : Raise) : Idle (s.raiseError op r) := by
  simp [Idle]

theorem State.succeed_idle (s : State) (op : Byte) (out : List Byte) (b : Bool) : Idle (s.succeed op out b) := by
  simp [Idle]

theorem State.raiseError_keepsHostSide (s : State) (op : Byte) (r : Raise) : KeepsHostSide s (s.raiseError op r) := by
  simp [KeepsHostSide]

theorem State.succeed_keepsHostSide (s : State) (op : Byte) (out : List Byte) (b : Bool) :
    KeepsHostSide s (s.succeed op out b) := by
  simp [KeepsHostSide]

/-- Error entry says which error and where (R146). -/
theorem State.raiseError_failsWith {s : State} (op : Byte) (r : Raise) (hd : s.srcDirty = false) :
    FailsWith s (s.raiseError op r) r.code r.pos :=
  ⟨s.raiseError_idle op r, s.raiseError_keepsHostSide op r, by simp [hd, Status.failed], by simp [hd, Status.failed],
    by simp [hd, Status.failed], by simp [hd], by simp [hd]⟩

/-- A command with a destination region, or a trie command but TRIE_MATCH, that raises (R146, R147). -/
theorem State.raiseError_commandFails {s : State} (op : Byte) (r : Raise) (hu : Undisturbed s)
    (hop : op ≠ opTrieMatch) :
    CommandFails s (s.raiseError op r) r.code r.pos (if isCompress op then Trie.initial else s.trie) :=
  ⟨s.raiseError_failsWith op r hu.1, ⟨by simp [hu.1, hop], by simp [hu.1, hop]⟩, by simp,
    fun x hx => State.raiseError_readByte hu x hx⟩

/-- A command without a destination region that raises (R146). -/
theorem State.raiseError_commandRefused {s : State} (op : Byte) (hd : s.srcDirty = false) (hop : op ≠ opTrieMatch)
    (hw : writesDest op = false) (hc : isCompress op = false) :
    CommandRefused s (s.raiseError op ⟨.misuse, 0⟩) s.trie :=
  ⟨s.raiseError_failsWith op _ hd, ⟨by simp [hd, hop], by simp [hd, hop]⟩, by simp [hc],
    State.raiseError_mem_same hd hw⟩

/-- Completion sets STATUS, OUT_LEN and ERR_POS (R148). -/
theorem State.succeed_succeedsWith {s : State} (op : Byte) (out : List Byte) (b : Bool) (hd : s.srcDirty = false) :
    SucceedsWith s (s.succeed op out b) out.length b :=
  ⟨s.succeed_idle op out b, s.succeed_keepsHostSide op out b, by simp [hd, Status.succeeded],
    by simp [hd, Status.succeeded], by simp [hd, Status.succeeded], by simp [hd], by simp [hd]⟩

/-- Completion of a command with a destination region that has room for its output (R44, R47, R148). -/
theorem State.succeed_writesOutput {s : State} (op : Byte) (out : List Byte) (hu : Undisturbed s)
    (hop : writesDest op = true) (hv : s.validRegion s.dst s.dcap = true) (hl : out.length ≤ s.dcap) :
    WritesOutput s (s.succeed op out false) out :=
  ⟨s.succeed_succeedsWith op out false hu.1, by simp [hu.1], by simp [hu.1],
    fun _ _ hk => State.succeed_readByte_output hu hop hv hl hk,
    fun x hx => State.succeed_readByte_outside hu.1 x hx⟩

/-- A compress command ends with its output if that fits, else with CAPACITY(DCAP), and leaves the trie reset (R84,
R144). -/
theorem State.settle_checkCapacity {s : State} (op : Byte) (out : List Byte) (hu : Undisturbed s) (hr : RegionsOk s)
    (hop : op = opLobCompress ∨ op = opXlobCompress ∨ op = opTlobCompress) :
    CompressEnds s (s.settle op (s.checkCapacity out)) out := by
  obtain ⟨hc, hw, hm⟩ : isCompress op = true ∧ writesDest op = true ∧ op ≠ opTrieMatch := by
    rcases hop with rfl | rfl | rfl <;> decide
  unfold State.checkCapacity
  split
  · next h =>
    have hf := State.raiseError_commandFails op ⟨.capacity, s.dcap⟩ hu hm
    rw [if_pos hc] at hf
    exact ⟨hf.2.2.1, by rw [if_neg (by omega)]; exact hf⟩
  · next h =>
    refine ⟨by simp [State.settle, hc], ?_⟩
    rw [if_pos (by omega)]
    exact s.succeed_writesOutput op out hu hw hr.2.1 (by omega)

/-! ### The engine's loop -/

theorem State.resting_iff (s : State) : s.resting = true ↔ s.work = .none := by
  simp [State.resting]

@[simp] theorem takeTurns_zero (stop : State → Bool) (turn : State → State) (s : State) :
    takeTurns stop turn 0 s = s := rfl

theorem takeTurns_succ (stop : State → Bool) (turn : State → State) (n : Nat) (s : State) :
    takeTurns stop turn (n + 1) s = if stop s then s else takeTurns stop turn n (turn s) := rfl

theorem takeTurns_stopped {stop : State → Bool} {turn : State → State} {s : State} (h : stop s = true) (n : Nat) :
    takeTurns stop turn n s = s := by
  cases n with
  | zero => rfl
  | succ n => rw [takeTurns_succ, if_pos h]

/-- What every turn keeps, the loop keeps. -/
theorem takeTurns_keeps {P : State → Prop} {stop : State → Bool} {turn : State → State}
    (step : ∀ s, P s → stop s = false → P (turn s)) (n : Nat) {s : State} (h : P s) : P (takeTurns stop turn n s) := by
  induction n generalizing s with
  | zero => exact h
  | succ n ih =>
    rw [takeTurns_succ]
    split
    · exact h
    · next hs => exact ih (step s h (by simpa using hs))

/-- A measure that every turn lowers runs out: the loop reaches its stop. -/
theorem takeTurns_reaches_stop {P : State → Prop} {stop : State → Bool} {turn : State → State} (measure : State → Nat)
    (step : ∀ s, P s → stop s = false → P (turn s) ∧ (stop (turn s) = true ∨ measure (turn s) < measure s))
    (n : Nat) {s : State} (h : P s) (hn : measure s < n) :
    stop (takeTurns stop turn n s) = true ∧ P (takeTurns stop turn n s) := by
  induction n generalizing s with
  | zero => omega
  | succ n ih =>
    rw [takeTurns_succ]
    split
    · next hs => exact ⟨hs, h⟩
    · next hs =>
      obtain ⟨hp, hstop | hlt⟩ := step s h (by simpa using hs)
      · rw [takeTurns_stopped hstop]; exact ⟨hstop, hp⟩
      · exact ih hp (by omega)

/-! ### Match copies -/

theorem CopiesFrom.extends_out {limit d l : Nat} {out out' : List Byte} (h : CopiesFrom limit d l out out') :
    ∃ rest, out' = out ++ rest :=
  ⟨out'.drop out.length, by conv_lhs => rw [← List.take_append_drop out.length out', h.2.1]⟩

/-- A match copy gives the bytes R93, R106 and R121 say. -/
theorem copyMatch_copiesFrom {limit d : Nat} (hd : 1 ≤ d) (l : Nat) (out : List Byte) (hdo : d ≤ out.length)
    (hlim : out.length ≤ limit) : CopiesFrom limit d l out (copyMatch limit d l out) := by
  induction l generalizing out with
  | zero => exact ⟨by simp [copyMatch]; omega, by simp [copyMatch], fun k h1 h2 => by simp [copyMatch] at h2; omega⟩
  | succ l ih =>
    simp only [copyMatch]
    split
    · next hle => exact ⟨by omega, by simp, fun k h1 h2 => by omega⟩
    · next hle =>
      set b := out.getD (out.length - d) 0 with hb
      obtain ⟨h1, h2, h3⟩ := ih (out ++ [b]) (by simp; omega) (by simp; omega)
      simp only [List.length_append, List.length_singleton] at h1 h2 h3
      refine ⟨by rw [h1]; omega, ?_, fun k hk1 hk2 => ?_⟩
      · have h4 := congrArg (List.take out.length) h2
        rw [List.take_take, List.take_left] at h4
        rwa [Nat.min_eq_left (by omega)] at h4
      · rcases Nat.lt_or_ge k (out.length + 1) with hlt | hge
        · have hk : k = out.length := by omega
          subst hk
          have h5 : ∀ j, j < out.length + 1 →
              (copyMatch limit d l (out ++ [b]))[j]? = (out ++ [b])[j]? := by
            intro j hj
            conv_rhs => rw [← h2]
            rw [List.getElem?_take, if_pos hj]
          have hx : out.length - d < out.length := by omega
          rw [h5 _ (by omega), h5 _ (by omega), List.getElem?_concat_length,
            List.getElem?_append_left (l₂ := [b]) hx, hb, List.getD, List.getElem?_eq_getElem hx]
          rfl
        · exact h3 k hge hk2

/-! ### Stream reads -/

@[simp] theorem bytesOf_length (S : Nat → Byte) (a l : Nat) : (bytesOf S a l).length = l := by
  simp [bytesOf]

theorem bytesOf_getElem? (S : Nat → Byte) (a l k : Nat) (hk : k < l) : (bytesOf S a l)[k]? = some (S (a + k)) := by
  simp [bytesOf, hk]

theorem bytesOf_zero (S : Nat → Byte) (a : Nat) : bytesOf S a 0 = [] := rfl

theorem bytesOf_succ (S : Nat → Byte) (a l : Nat) : bytesOf S a (l + 1) = S a :: bytesOf S (a + 1) l := by
  simp only [bytesOf, List.range_succ_eq_map, List.map_cons, List.map_map, Nat.add_zero]
  congr 1
  apply List.map_congr_left
  intro j _
  simp only [Function.comp, Nat.succ_eq_add_one]
  congr 1
  omega

/-- A read of `k` bytes that the stream has, cut at the output's limit. -/
theorem readBytes_ok (S : Nat → Byte) (n limit k i : Nat) (out : List Byte)
    (h : i + min k (limit - out.length) ≤ n) :
    readBytes S n limit k i out
      = .ok (i + min k (limit - out.length), out ++ bytesOf S i (min k (limit - out.length))) := by
  induction k generalizing i out with
  | zero => simp [readBytes, bytesOf_zero]
  | succ k ih =>
    simp only [readBytes]
    split
    · next hl =>
      have : min (k + 1) (limit - out.length) = 0 := by omega
      simp [this, bytesOf_zero]
    · next hl =>
      have hm : min (k + 1) (limit - out.length) = min k (limit - (out.length + 1)) + 1 := by omega
      rw [if_neg (by omega), ih _ _ (by simp; omega), hm, bytesOf_succ]
      simp
      omega

/-- A read of more bytes than the stream has raises FORMAT at its end. -/
theorem readBytes_error (S : Nat → Byte) (n limit k i : Nat) (out : List Byte) (hi : i ≤ n)
    (h : n < i + min k (limit - out.length)) : readBytes S n limit k i out = .error ⟨.format, n⟩ := by
  induction k generalizing i out with
  | zero => simp at h; omega
  | succ k ih =>
    simp only [readBytes]
    rw [if_neg (by omega)]
    split
    · next hn => rw [show i = n by omega]
    · exact ih _ _ (by omega) (by simp; omega)

theorem putBytes_replicate (limit : Nat) (out : List Byte) (k : Nat) (b : Byte) :
    putBytes limit out (List.replicate k b) = out ++ List.replicate (min k (limit - out.length)) b := by
  simp [putBytes, List.take_replicate, Nat.min_comm]

end Sys2Proof.Machine
end

