-- ==== Sys2Proof/Laws/Trie.lean ====
section
/-! SUPPORT. The laws of the MatchTrie: what an insertion and an eviction leave, the form every operation keeps, and
how far a search can match. -/

namespace Sys2Proof.Machine

/-! ### Entries -/

theorem mem_insertEntry {o : Nat} {run : List Byte} {es : List (Nat × List Byte)} {e : Nat × List Byte}
    (h : e ∈ insertEntry o run es) : e = (o, run) ∨ e ∈ es := by
  induction es with
  | nil => simpa [insertEntry] using h
  | cons d es ih =>
    simp only [insertEntry] at h
    split at h
    · simpa using h
    · split at h
      · rcases List.mem_cons.1 h with h | h
        · exact .inl h
        · exact .inr (List.mem_cons_of_mem _ h)
      · rcases List.mem_cons.1 h with rfl | h
        · exact .inr List.mem_cons_self
        · exact (ih h).imp_right (List.mem_cons_of_mem _)

/-- Insertion keeps anchors strictly rising. -/
theorem insertEntry_rising {es : List (Nat × List Byte)} (o : Nat) (run : List Byte)
    (h : es.Pairwise (fun d e => d.1 < e.1)) : (insertEntry o run es).Pairwise (fun d e => d.1 < e.1) := by
  induction es with
  | nil => simp [insertEntry]
  | cons d es ih =>
    have hd := List.pairwise_cons.1 h
    simp only [insertEntry]
    split
    · next h1 =>
      refine List.pairwise_cons.2 ⟨fun c hc => ?_, h⟩
      rcases List.mem_cons.1 hc with rfl | hc
      · exact h1
      · exact Nat.lt_trans h1 (hd.1 c hc)
    · split
      · next h2 => exact List.pairwise_cons.2 ⟨fun c hc => by simpa [h2] using hd.1 c hc, hd.2⟩
      · next h1 h2 =>
        refine List.pairwise_cons.2 ⟨fun c hc => ?_, ih hd.2⟩
        rcases mem_insertEntry hc with rfl | hc
        · change d.1 < o; omega
        · exact hd.1 c hc

/-- One listed anchor, then the others. -/
theorem lookup_entry_cons (a q : Nat) (b : List Byte) (es : List (Nat × List Byte)) :
    ((a, b) :: es).lookup q = if q = a then some b else es.lookup q := by
  by_cases h : q = a
  · simp [h]
  · have hb : (q == a) = false := by simpa using h
    simp [List.lookup_cons, h, hb]

/-- After an insertion, the anchor's entry is the run, and every other entry is as it was (R81). -/
theorem lookup_insertEntry (es : List (Nat × List Byte)) (o q : Nat) (run : List Byte) :
    (insertEntry o run es).lookup q = if q = o then some run else es.lookup q := by
  induction es with
  | nil => rw [insertEntry, lookup_entry_cons]
  | cons d es ih =>
    obtain ⟨a, b⟩ := d
    simp only [insertEntry]
    split
    · rw [lookup_entry_cons]
    · split
      · next h2 =>
        have h2 : o = a := h2
        subst h2
        rw [lookup_entry_cons, lookup_entry_cons]
        by_cases h : q = o <;> simp [h]
      · next h1 h2 =>
        have h2 : o ≠ a := h2
        rw [lookup_entry_cons, lookup_entry_cons, ih]
        by_cases h : q = a
        · rw [if_pos h, if_pos h, if_neg (by omega)]
        · rw [if_neg h, if_neg h]

/-- After an eviction, exactly the anchors before the window are gone (R82). -/
theorem lookup_evict (window o q : Nat) (es : List (Nat × List Byte)) :
    (evict window o es).lookup q = if q + window < o + 1 then none else es.lookup q := by
  induction es with
  | nil => simp [evict]
  | cons d es ih =>
    obtain ⟨a, b⟩ := d
    by_cases ha : a + window < o + 1
    · have : evict window o ((a, b) :: es) = evict window o es := List.filter_cons_of_neg (by simpa using ha)
      rw [this, ih, lookup_entry_cons]
      by_cases h : q = a
      · subst h; simp [ha]
      · simp [h]
    · have : evict window o ((a, b) :: es) = (a, b) :: evict window o es :=
        List.filter_cons_of_pos (by simpa using ha)
      rw [this, lookup_entry_cons, lookup_entry_cons, ih]
      by_cases h : q = a
      · rw [if_pos h, if_pos h, if_neg (by omega)]
      · simp [h]

@[simp] theorem Trie.add_window (t : Trie) (o : Nat) (run : List Byte) : (t.add o run).window = t.window := rfl

@[simp] theorem Trie.add_last (t : Trie) (o : Nat) (run : List Byte) : (t.add o run).last = some o := rfl

/-- An entry of a trie after an insertion (R81, R82). -/
theorem Trie.add_lookup (t : Trie) (o q : Nat) (run : List Byte) :
    (t.add o run).entries.lookup q
      = if q + t.window < o + 1 then none else if q = o then some run else t.entries.lookup q := by
  rw [Trie.add, lookup_evict, lookup_insertEntry]

theorem Trie.mem_add {t : Trie} {o : Nat} {run : List Byte} {e : Nat × List Byte} (h : e ∈ (t.add o run).entries) :
    (e = (o, run) ∨ e ∈ t.entries) ∧ o + 1 ≤ e.1 + t.window := by
  obtain ⟨h1, h2⟩ := List.mem_filter.1 h
  exact ⟨mem_insertEntry h1, by simpa using h2⟩

/-! ### The form -/

/-- An empty trie with a legal window has the form (R80, R84). -/
theorem Trie.withWindow_wf {w : Nat} (h1 : 1 ≤ w) (h2 : w ≤ Config.trieMaxWindow) : (Trie.withWindow w).wf :=
  ⟨h1, h2, List.Pairwise.nil, by simp [Trie.withWindow], by simp [Trie.withWindow], by simp [Trie.withWindow]⟩

theorem Trie.initial_wf : Trie.initial.wf := Trie.withWindow_wf (by decide) (by decide)

/-- An insertion above the last anchor keeps the form (R81, R82). -/
theorem Trie.add_wf {t : Trie} {o : Nat} {run : List Byte} (h : t.wf) (hl : ∀ q, t.last = some q → q < o)
    (ho : o < 2 ^ 32) (h1 : 1 ≤ run.length) (h2 : run.length ≤ Config.trieMaxRun) : (t.add o run).wf := by
  obtain ⟨w1, w2, rising, lens, noLast, anchors⟩ := h
  refine ⟨w1, w2, (insertEntry_rising o run rising).filter _, fun e he => ?_, by simp, fun q hq => ?_⟩
  · rcases (Trie.mem_add he).1 with rfl | he
    · exact ⟨h1, h2⟩
    · exact lens e he
  · obtain rfl : o = q := by simpa using hq
    refine ⟨ho, fun e he => ⟨?_, (Trie.mem_add he).2⟩⟩
    rcases (Trie.mem_add he).1 with rfl | he
    · exact Nat.le_refl o
    · cases hlast : t.last with
      | none => simp [noLast hlast] at he
      | some q => exact Nat.le_trans ((anchors q hlast).2 e he).1 (Nat.le_of_lt (hl q hlast))

/-- Inserting the runs of consecutive positions of a buffer keeps the form, and leaves the last anchor below the
next position (R84, R88, R97, R114). -/
theorem Trie.addRuns_wf {S : Nat → Byte} {n cap : Nat} (hn : n ≤ 2 ^ 32) (h1 : 1 ≤ cap) (h2 : cap ≤ Config.trieMaxRun)
    (count k : Nat) {t : Trie} (h : t.wf) (hl : ∀ q, t.last = some q → q < k) (hk : count = 0 ∨ k + count ≤ n) :
    (Trie.addRuns S n cap count k t).wf ∧ ∀ q, (Trie.addRuns S n cap count k t).last = some q → q < k + count := by
  induction count generalizing k t with
  | zero => exact ⟨h, hl⟩
  | succ count ih =>
    have hkn : k + (count + 1) ≤ n := by omega
    have hlen : (bytesOf S k (min cap (n - k))).length = min cap (n - k) := bytesOf_length _ _ _
    obtain ⟨hw, hq⟩ := ih (k + 1) (t := t.add k (bytesOf S k (min cap (n - k))))
      (Trie.add_wf h hl (by omega) (by omega) (by omega)) (fun q hq => by simp at hq; omega) (by omega)
    exact ⟨hw, fun q h => by have := hq q h; omega⟩

@[simp] theorem Trie.addRuns_window (S : Nat → Byte) (n cap count k : Nat) (t : Trie) :
    (Trie.addRuns S n cap count k t).window = t.window := by
  induction count generalizing k t with
  | zero => rfl
  | succ count ih => rw [Trie.addRuns, ih, Trie.add_window]

/-- Inserting the runs one after another (R84). -/
theorem Trie.addRuns_eq_inserts (S : Nat → Byte) (n cap count k : Nat) (t : Trie) :
    Trie.addRuns S n cap count k t = t.inserts S n cap k count := by
  induction count generalizing k t with
  | zero => rfl
  | succ count ih =>
    rw [Trie.addRuns, ih, Trie.inserts, Trie.inserts, List.range_succ_eq_map, List.foldl_cons, List.foldl_map]
    simp only [Nat.add_zero, Nat.succ_eq_add_one, Nat.add_comm 1, Nat.add_assoc]

@[simp] theorem Trie.withWindow_reaches (w : Nat) : (Trie.withWindow w).reaches 0 := rfl

/-- After inserting the runs from `k` on, the anchors reach past the last of them (R84, R88, R97, R114). -/
theorem Trie.addRuns_reaches {S : Nat → Byte} {n cap : Nat} (count k : Nat) {t : Trie} (h : t.reaches k) :
    (Trie.addRuns S n cap count k t).reaches (k + count) := by
  induction count generalizing k t with
  | zero => exact h
  | succ count ih =>
    rw [show k + (count + 1) = k + 1 + count by omega]
    exact ih (k + 1) rfl

/-- Every anchor is below the next one. -/
theorem Trie.last_lt_of_reaches {t : Trie} {k q : Nat} (h : t.reaches k) (hq : t.last = some q) : q < k := by
  simp only [Trie.reaches, hq] at h
  omega

/-! ### The search -/

/-- What `matchLength` counts: as many leading bytes as agree, at most `m` (R83). -/
theorem matchLength_spec (S : Nat → Byte) (m s : Nat) (e : List Byte) :
    matchLength S m s e ≤ m ∧ Agrees S s e (matchLength S m s e)
      ∧ ∀ l, l ≤ m → Agrees S s e l → l ≤ matchLength S m s e := by
  induction m generalizing s e with
  | zero => exact ⟨Nat.le_refl 0, ⟨Nat.zero_le _, fun k hk => absurd hk (Nat.not_lt_zero k)⟩, fun l hl _ => hl⟩
  | succ m ih =>
    cases e with
    | nil =>
      exact ⟨Nat.zero_le _, ⟨Nat.le_refl 0, fun k hk => absurd hk (Nat.not_lt_zero k)⟩, fun l _ hl => hl.1⟩
    | cons b e =>
      simp only [matchLength]
      split
      · next hb =>
        obtain ⟨h1, ⟨h2, h3⟩, h4⟩ := ih (s + 1) e
        refine ⟨by omega, ⟨by simpa using h2, fun k hk => ?_⟩, fun l hl ha => ?_⟩
        · cases k with
          | zero => simp [hb]
          | succ k =>
            rw [List.getElem?_cons_succ, h3 k (by omega)]
            congr 2
            omega
        · cases l with
          | zero => omega
          | succ l =>
            refine Nat.succ_le_succ (h4 l (by omega) ⟨by simpa using ha.1, fun k hk => ?_⟩)
            have := ha.2 (k + 1) (by omega)
            rw [List.getElem?_cons_succ] at this
            rw [this]
            congr 2
            omega
      · next hb =>
        refine ⟨Nat.zero_le _, ⟨Nat.zero_le _, fun k hk => absurd hk (Nat.not_lt_zero k)⟩, fun l _ ha => ?_⟩
        cases l with
        | zero => exact Nat.le_refl 0
        | succ l => exact absurd (by simpa using ha.2 0 (Nat.succ_pos l)) hb

/-- A search matches at most as many bytes as it may (R83). -/
theorem Trie.search_le (t : Trie) (S : Nat → Byte) (s m : Nat) : (t.search S s m).2 ≤ m := by
  suffices h : ∀ (es : List (Nat × List Byte)) (best : Nat × Nat), best.2 ≤ m →
      (es.foldl (betterMatch S s m) best).2 ≤ m from h t.entries (0, 0) (Nat.zero_le _)
  intro es
  induction es with
  | nil => exact fun _ h => h
  | cons e es ih =>
    intro best h
    refine ih _ ?_
    unfold betterMatch
    dsimp only
    split
    · exact (matchLength_spec S m s e.2).1
    · exact h

/-- A match's anchor is an entry's (R83). -/
theorem Trie.search_mem {t : Trie} {S : Nat → Byte} {s m q l : Nat} (h : t.search S s m = (q, l)) (hl : 0 < l) :
    ∃ e, (q, e) ∈ t.entries := by
  suffices hs : ∀ (es : List (Nat × List Byte)) (best : Nat × Nat),
      es.foldl (betterMatch S s m) best = best ∨ ∃ e, ((es.foldl (betterMatch S s m) best).1, e) ∈ es by
    rcases hs t.entries (0, 0) with h0 | h1
    · rw [Trie.search, h0] at h
      cases h
      omega
    · rw [show t.entries.foldl (betterMatch S s m) (0, 0) = (q, l) from h] at h1
      exact h1
  intro es
  induction es with
  | nil => exact fun _ => Or.inl rfl
  | cons d es ih =>
    intro best
    rcases ih (betterMatch S s m best d) with h | ⟨e, h⟩
    · rw [List.foldl_cons, h]
      unfold betterMatch
      dsimp only
      split
      · exact Or.inr ⟨d.2, List.mem_cons_self⟩
      · exact Or.inl rfl
    · exact Or.inr ⟨e, List.mem_cons_of_mem _ h⟩

/-- In a trie whose anchors reach `k`, a match's anchor lies before `k`, inside the window (R82, R88, R97, R114). -/
theorem Trie.search_anchor {t : Trie} {S : Nat → Byte} {s m q l k : Nat} (hw : t.wf) (hk : t.reaches k)
    (h : t.search S s m = (q, l)) (hl : 0 < l) : q < k ∧ k ≤ q + t.window := by
  obtain ⟨e, he⟩ := Trie.search_mem h hl
  obtain ⟨-, -, -, -, noLast, anchors⟩ := hw
  cases hlast : t.last with
  | none => simp [noLast hlast] at he
  | some o =>
    have := (anchors o hlast).2 _ he
    simp only [Trie.reaches, hlast] at hk
    omega

end Sys2Proof.Machine
end

