-- ==== Sys2Proof/Laws/Encoders.lean ====
section
/-! SUPPORT. What the compressors' parts write, as the bytes the rules give: each part of Machine/Lob, Machine/Xlob
and Machine/Tlob against its term of Safety. -/

namespace Sys2Proof.Machine

/-! ### Bytes as numbers -/

theorem byte_eq {b : Byte} {v : Nat} (h : b.toNat = v % 256) : b = BitVec.ofNat 8 v :=
  BitVec.eq_of_toNat_eq (by rw [h, BitVec.toNat_ofNat])

/-- The two bytes of a 16-bit token whose value is known. -/
theorem bytesOfHalf_eq {w : Half} {v : Nat} (h : w.toNat = v) :
    bytesOfHalf w = [BitVec.ofNat 8 (v / 256), BitVec.ofNat 8 v] := by
  have := w.isLt
  simp only [bytesOfHalf]
  rw [byte_eq (b := highByte w) (v := v / 256) (by rw [highByte_toNat]; omega),
    byte_eq (b := lowByte w) (v := v) (by rw [lowByte_toNat]; omega)]

/-- Setting the low nibble of a byte in the output (R101, R115). -/
theorem modify_eq_orAt (out : List Byte) (k : Nat) (x : Byte) (v : Nat) (h : x.toNat = v % 256) :
    out.modify k (fun b => b ||| x) = orAt out k v := by
  obtain rfl := byte_eq h
  refine List.ext_getElem? fun j => ?_
  rw [List.getElem?_modify, orAt, List.getElem?_set]
  by_cases hj : k = j
  · subst hj
    by_cases hk : k < out.length <;> simp [hk]
  · simp [hj]

/-! ### Lob -/

/-- `put(literal(v))` (R89). -/
theorem LobEnc.putLiteral_eq (w : LobEnc) (v : Byte) : w.putLiteral v = w.afterItem true [v] := by
  have hbit (c : Nat) : ((0x80 : Byte) >>> c).toNat = 128 / 2 ^ c % 256 := by
    have := Nat.div_le_self 128 (2 ^ c)
    rw [BitVec.toNat_ushiftRight, Nat.shiftRight_eq_div_pow, Nat.mod_eq_of_lt (by omega)]
    rfl
  unfold LobEnc.putLiteral LobEnc.openBlock LobEnc.afterItem
  by_cases h : w.ci = none ∨ w.cnt = 8
  · simp only [h, if_true, decide_true, Option.getD_some]
    rw [modify_eq_orAt _ _ _ _ (hbit 0)]
    rfl
  · obtain ⟨c, hc⟩ : ∃ c, w.ci = some c := Option.ne_none_iff_exists'.1 fun hn => h (Or.inl hn)
    rw [hc] at h
    simp only [hc, h, if_false, if_true, decide_false, Bool.false_eq_true, Option.getD_some]
    rw [modify_eq_orAt _ _ _ _ (hbit w.cnt)]
    rfl

/-- `put(match(d, L))` (R62, R89). -/
theorem LobEnc.putMatch_eq (w : LobEnc) {d l : Nat} (hd : d ≤ 4095) (hl : l ≤ 18) :
    w.putMatch d l = w.afterItem false (lobMatchBytes d l) := by
  have ht : tokenBytes (.lobMatch (BitVec.ofNat 4 (l - 3)) (BitVec.ofNat 12 d)) = lobMatchBytes d l :=
    bytesOfHalf_eq (by rw [lobMatchWord_toNat]; simp; omega)
  unfold LobEnc.putMatch LobEnc.openBlock LobEnc.afterItem
  rw [ht]
  by_cases h : w.ci = none ∨ w.cnt = 8
  · simp [h]
  · obtain ⟨c, hc⟩ : ∃ c, w.ci = some c := Option.ne_none_iff_exists'.1 fun hn => h (Or.inl hn)
    rw [hc] at h
    simp only [hc, h, if_false, decide_false, Bool.false_eq_true, Option.getD_some]

/-- `pad()` (R90). -/
theorem LobEnc.pad_eq (w : LobEnc) : w.pad = w.padded := by
  unfold LobEnc.pad LobEnc.padded
  rw [LobEnc.putLiteral_eq]
  by_cases h : w.out.length % 2 = 0
  · rw [if_neg (by omega), if_pos h]
  · rw [if_pos (by omega), if_neg h]

/-! ### ExtendedLob -/

/-- `flush()` (R99), for the groups it is used on. -/
theorem XlobEnc.flush_eq (w : XlobEnc) (h : w.lits.length ≤ 127) :
    w.flush = { w with out := w.out ++ xlobLiterals w.lits, lits := [] } := by
  obtain ⟨p, out, lits, pend⟩ := w
  simp only at h
  have hrun : (0 : BitVec 1) ++ BitVec.ofNat 7 lits.length = BitVec.ofNat 8 lits.length :=
    byte_eq (by rw [toNat_append_eq]; simp; omega)
  have hsmall (x : Byte) (hx : x.toNat ≤ 31) : tokenBytes (.xlobSlit (BitVec.ofNat 5 x.toNat)) = [0xE0 ||| x] := by
    have hb : ∀ y : BitVec 5, (7 : BitVec 3) ++ y = (0xE0 : Byte) ||| BitVec.ofNat 8 y.toNat := by decide
    simp only [tokenBytes, encode, hb]
    congr 2
    exact (byte_eq (by simp; omega)).symm
  unfold XlobEnc.flush xlobLiterals
  by_cases he : lits = []
  · simp [he]
  · by_cases ha : lits.all (fun x => decide (x.toNat ≤ 31)) = true
    · have : lits.flatMap (fun x => tokenBytes (.xlobSlit (BitVec.ofNat 5 x.toNat)))
          = lits.map (fun x => 0xE0 ||| x) := by
        clear he hrun h
        induction lits with
        | nil => rfl
        | cons x xs ih =>
          simp only [List.all_cons, Bool.and_eq_true, decide_eq_true_eq] at ha
          rw [List.flatMap_cons, hsmall x ha.1, ih ha.2]
          rfl
      simp only [he, ha, if_true, if_false, this]
    · simp only [he, ha, if_false, Bool.false_eq_true]
      rw [tokenBytes, encode, hrun, List.append_assoc, List.singleton_append]

/-- `flush()`, then `runtok(v, r)` (R98). -/
theorem XlobEnc.putRun_eq (w : XlobEnc) (v : Byte) {r : Nat} (h : w.lits.length ≤ 127) (h3 : 3 ≤ r)
    (hr : r ≤ if v = 0 then 258 else 34) : w.flush.putRun v r = w.afterRun v r := by
  have hlong (hv : r ≤ 34) : (6 : BitVec 3) ++ BitVec.ofNat 5 (r - 3) = BitVec.ofNat 8 (192 + (r - 3)) :=
    byte_eq (by rw [toNat_append_eq]; simp; omega)
  rw [XlobEnc.flush_eq w h]
  unfold XlobEnc.putRun XlobEnc.afterRun
  by_cases hv : v = 0
  · rw [if_pos hv, if_pos hv]
    rfl
  · rw [if_neg hv] at hr
    rw [if_neg hv, if_neg hv, tokenBytes, encode, hlong hr]

theorem largeMatchValue_toNat {d l : Nat} (hd : d ≤ 1023) (hl : l ≤ 130) :
    (largeMatchValue d l).toNat = (l - 3) * 1024 + d := by
  rw [largeMatchValue, toNat_append_eq]
  simp
  omega

/-- The bytes of a large match: its class with the high five bits, the middle eight, the low four (R67, R101). -/
theorem largeMatch_fields {d l : Nat} (hd : d ≤ 1023) (hl : l ≤ 130) :
    (5 : BitVec 3) ++ (largeMatchValue d l).extractLsb' 12 5 = BitVec.ofNat 8 (160 + ((l - 3) * 1024 + d) / 4096)
      ∧ (largeMatchValue d l).extractLsb' 4 8 = BitVec.ofNat 8 (((l - 3) * 1024 + d) / 16)
      ∧ (largeMatchValue d l).extractLsb' 0 4 ++ (0 : BitVec 4) = BitVec.ofNat 8 (((l - 3) * 1024 + d) % 16 * 16)
      ∧ ((0 : BitVec 4) ++ (largeMatchValue d l).extractLsb' 0 4).toNat = ((l - 3) * 1024 + d) % 16 % 256 := by
  have hv := largeMatchValue_toNat hd hl
  refine ⟨byte_eq ?_, byte_eq ?_, byte_eq ?_, ?_⟩ <;>
    simp only [toNat_append_eq, BitVec.extractLsb'_toNat, Nat.shiftRight_eq_div_pow, hv, BitVec.reduceToNat] <;> omega

/-- The bytes of a small match (R66, R100). -/
theorem smallMatch_bytes {d l : Nat} (hd : d ≤ 511) (hl : l ≤ 18) :
    tokenBytes (.xlobSmatch (BitVec.ofNat 4 (l - 3)) (BitVec.ofNat 9 d))
      = [BitVec.ofNat 8 (128 + (l - 3) * 2 + d / 256), BitVec.ofNat 8 d] := by
  have hn : ((4 : BitVec 3) ++ BitVec.ofNat 4 (l - 3) ++ BitVec.ofNat 9 d : Half).toNat
      = 32768 + (l - 3) * 512 + d := by
    rw [smatchWord_toNat, BitVec.toNat_ofNat, BitVec.toNat_ofNat]
    omega
  have hlow : BitVec.ofNat 8 (32768 + (l - 3) * 512 + d) = BitVec.ofNat 8 d :=
    byte_eq (by rw [BitVec.toNat_ofNat]; omega)
  rw [tokenBytes, encode, bytesOfHalf_eq hn, hlow,
    show (32768 + (l - 3) * 512 + d) / 256 = 128 + (l - 3) * 2 + d / 256 by omega]

/-- `flush()`, then `matchtok(d, L)` (R100, R101). -/
theorem XlobEnc.putMatch_eq (w : XlobEnc) {d l : Nat} (h : w.lits.length ≤ 127) (hd : d ≤ 1023) (hl : l ≤ 130) :
    w.flush.putMatch d l = w.afterMatch d l := by
  obtain ⟨h1, h2, h3, h4⟩ := largeMatch_fields hd hl
  rw [XlobEnc.flush_eq w h]
  unfold XlobEnc.putMatch XlobEnc.afterMatch
  by_cases hs : d ≤ 511 ∧ l ≤ 18
  · rw [if_pos (show d ≤ Config.xlobSmallMaxOffset ∧ l ≤ Config.xlobSmallMaxMatch from hs), if_pos hs,
      XlobEnc.putSmallMatch, smallMatch_bytes hs.1 hs.2]
  · rw [if_neg (show ¬ (d ≤ Config.xlobSmallMaxOffset ∧ l ≤ Config.xlobSmallMaxMatch) from hs), if_neg hs]
    unfold XlobEnc.putLargeMatch
    cases w.pend with
    | none => simp only [tokenBytes, encode, h1, h2, h3, List.append_assoc, List.cons_append, List.nil_append]
    | some k =>
      simp only [tokenBytes, encode, h1, h2]
      rw [modify_eq_orAt _ _ _ _ h4]

/-- `addlit(v)` (R99). -/
theorem XlobEnc.addLiteral_eq (w : XlobEnc) (v : Byte) : w.addLiteral v = w.afterLiteral v := by
  unfold XlobEnc.addLiteral XlobEnc.afterLiteral
  by_cases h : w.lits.length + 1 = 127
  · rw [if_pos h, if_pos (by simpa [Config.xlobMaxLitrun] using h), XlobEnc.flush_eq _ (by simp; omega)]
  · rw [if_neg h, if_neg (by simpa [Config.xlobMaxLitrun] using h)]

/-- The output once its parse is done (R96, R102). -/
theorem XlobEnc.finish_eq (w : XlobEnc) (h : w.lits.length ≤ 127) :
    w.finish = evened (w.out ++ xlobLiterals w.lits) := by
  unfold XlobEnc.finish evened
  rw [XlobEnc.flush_eq w h]
  dsimp only
  split
  · rw [if_neg (by omega)]
  · rw [if_pos (by omega)]

/-- How many bytes agree before the first that does not (R97). -/
theorem runLength_spec (S : Nat → Byte) (v : Byte) (k a : Nat) :
    runLength S v k a ≤ k ∧ (∀ j, j < runLength S v k a → S (a + j) = v)
      ∧ (runLength S v k a < k → S (a + runLength S v k a) ≠ v) := by
  induction k generalizing a with
  | zero => exact ⟨Nat.le_refl 0, fun j hj => absurd hj (Nat.not_lt_zero j), fun h => absurd h (Nat.lt_irrefl 0)⟩
  | succ k ih =>
    simp only [runLength]
    split
    · next ha =>
      obtain ⟨h1, h2, h3⟩ := ih (a + 1)
      refine ⟨by omega, fun j hj => ?_, fun h => ?_⟩
      · cases j with
        | zero => exact ha
        | succ j =>
          rw [show a + (j + 1) = a + 1 + j by omega]
          exact h2 j (by omega)
      · rw [show a + (runLength S v k (a + 1) + 1) = a + 1 + runLength S v k (a + 1) by omega]
        exact h3 (by omega)
    · next ha => exact ⟨by omega, fun j hj => absurd hj (Nat.not_lt_zero j), fun _ => ha⟩

/-- The parse finds the run at its position (R97). -/
theorem xlobRunAt_isRunAt (S : Nat → Byte) {n p : Nat} (hp : p < n) : IsRunAt S n p (xlobRunAt S n p) := by
  have hr : xlobRunAt S n p
      = 1 + runLength S (S p) (min ((if S p = 0 then 258 else 34) - 1) (n - p - 1)) (p + 1) := rfl
  have hpos : 34 ≤ if S p = 0 then 258 else 34 := by split <;> omega
  unfold IsRunAt
  rw [hr]
  generalize (if S p = 0 then 258 else 34) = cap at hpos ⊢
  obtain ⟨h1, h2, h3⟩ := runLength_spec S (S p) (min (cap - 1) (n - p - 1)) (p + 1)
  refine ⟨by omega, by omega, by omega, fun k hk => ?_, fun hc hn => ?_⟩
  · cases k with
    | zero => rfl
    | succ k =>
      rw [show p + (k + 1) = p + 1 + k by omega]
      exact h2 k (by omega)
  · rw [← Nat.add_assoc]
    exact h3 (by omega)

/-- A position has one run length (R97). -/
theorem IsRunAt.unique {S : Nat → Byte} {n p r r' : Nat} (h : IsRunAt S n p r) (h' : IsRunAt S n p r') : r = r' := by
  obtain ⟨h1, h2, h3, h4, h5⟩ := h
  obtain ⟨g1, g2, g3, g4, g5⟩ := h'
  rcases Nat.lt_trichotomy r r' with hlt | heq | hgt
  · exact absurd (g4 r hlt) (h5 (by omega) (by omega))
  · exact heq
  · exact absurd (h4 r' hgt) (g5 (by omega) (by omega))

/-! ### TextLob -/

/-- `longtok(d, L)` (R73, R115). -/
theorem TlobEnc.putLong_eq (w : TlobEnc) {d l : Nat} (hd : d ≤ 482) (hl : l ≤ 10) :
    w.putLong d l = w.afterLong d l := by
  have hn : ((1 : BitVec 4) ++ BitVec.ofNat 9 (d - 3) ++ BitVec.ofNat 3 (l - 3) : Half).toNat
      = 4096 + (d - 3) * 8 + (l - 3) := by
    rw [longWord_toNat, BitVec.toNat_ofNat, BitVec.toNat_ofNat]
    omega
  have hlow : BitVec.ofNat 8 (4096 + (d - 3) * 8 + (l - 3)) = BitVec.ofNat 8 ((d - 3) % 32 * 8 + (l - 3)) :=
    byte_eq (by rw [BitVec.toNat_ofNat]; omega)
  unfold TlobEnc.putLong TlobEnc.afterLong
  rw [tokenBytes, encode, bytesOfHalf_eq hn, hlow,
    show (4096 + (d - 3) * 8 + (l - 3)) / 256 = 16 + (d - 3) / 32 by omega]

/-- `shorttok(d)` (R72, R115). -/
theorem TlobEnc.putShort_eq (w : TlobEnc) {d : Nat} (hd : d ≤ 258) : w.putShort d = w.afterShort d := by
  have hf : (BitVec.ofNat 8 (d - 3)).toNat = d - 3 := by rw [BitVec.toNat_ofNat]; omega
  obtain ⟨h1, h2, h3⟩ : (0 : BitVec 4) ++ (BitVec.ofNat 8 (d - 3)).extractLsb' 4 4 = BitVec.ofNat 8 ((d - 3) / 16)
      ∧ (BitVec.ofNat 8 (d - 3)).extractLsb' 0 4 ++ (0 : BitVec 4) = BitVec.ofNat 8 ((d - 3) % 16 * 16)
      ∧ ((0 : BitVec 4) ++ (BitVec.ofNat 8 (d - 3)).extractLsb' 0 4).toNat = (d - 3) % 16 % 256 := by
    refine ⟨byte_eq ?_, byte_eq ?_, ?_⟩ <;>
      simp only [toNat_append_eq, BitVec.extractLsb'_toNat, Nat.shiftRight_eq_div_pow, hf, BitVec.reduceToNat] <;> omega
  unfold TlobEnc.putShort TlobEnc.afterShort
  cases w.pend with
  | none => simp only [tokenBytes, encode, h1, h2]
  | some k =>
    simp only [tokenBytes, encode, h1]
    rw [modify_eq_orAt _ _ _ _ h3]

/-- `littok(v)` (R71, R116). -/
theorem TlobEnc.putLiteral_eq (w : TlobEnc) (v : Byte) : w.putLiteral v = w.afterLiteral v := by
  unfold TlobEnc.putLiteral TlobEnc.afterLiteral
  by_cases h : v = 0
  · rw [if_pos h, if_pos h]
    rfl
  · rw [if_neg h, if_neg h]
    rfl

/-- The output once its parse is done (R111, R117). -/
theorem TlobEnc.finish_eq (w : TlobEnc) : w.finish = evened w.out := by
  unfold TlobEnc.finish evened
  split
  · rw [if_neg (by omega)]
  · rw [if_pos (by omega)]

end Sys2Proof.Machine
end

