-- ==== Sys2Proof/Laws/Engine.lean ====
section
/-! SUPPORT. The laws of the engine: which turn a step takes, what settling a turn leaves, and what fetching one token
or one prefix code answers. -/

namespace Sys2Proof.Machine

/-! ### The step -/

theorem step_input {s : State} {i : Input} {rest : List Input} (h : s.inputs = i :: rest) :
    step s = takeInput i { s with inputs := rest } := by
  simp [step, machineStep, h]

theorem step_engine {s : State} (h : s.inputs = []) : step s = engineTurn s := by
  simp [step, machineStep, h]

/-- The engine rests while reset is low or no command is accepted. -/
theorem engineTurn_idle {s : State} (h : s.rstLow = true ∨ s.status.busy = false) : engineTurn s = .next s := by
  unfold engineTurn
  rw [if_pos (by rcases h with h | h <;> simp [h])]

/-- An accepted command that has not begun runs (R53). -/
theorem engineTurn_accepted {s : State} (h : Accepted s) : engineTurn s = runCommand s := by
  obtain ⟨⟨-, hr, hb⟩, hw⟩ := h
  simp [engineTurn, hr, hb, State.resting, hw]

/-- A command that has begun goes on by one token (R60). -/
theorem engineTurn_running {s : State} (h : EngineNext s) (hw : s.work ≠ .none) : engineTurn s = runRunning s := by
  obtain ⟨-, hr, hb⟩ := h
  simp [engineTurn, hr, hb, State.resting, hw]

/-- A part of a running command's rule that no token stands for is the whole step: a compressor's turn (R88, R97,
R114), a Deplode literal run (R132). -/
theorem step_internal {s t : State} (h : EngineNext s) (hw : s.work ≠ .none) (ht : fetchRunning s = .internal t) :
    step s = .next t := by
  rw [step_engine h.1, engineTurn_running h hw, runRunning, ht]

/-- A command that begins goes no further than its checks (log entry 4). -/
theorem step_beginning {s : State} {i : Instr} {rest : List Input} (h : Beginning s i rest) :
    step s = beginInstr i { s with inputs := rest, response := .none } := by
  obtain ⟨hi, hr, hb, hw, hd⟩ := h
  rw [step_input hi]
  simp [takeInput, engineBegin, State.resting, beginCommand, hr, hb, hw, hd]

theorem runCommand_token {s : State} {i : Instr} (h : decodeCommand s.cmd = .token i) : runCommand s = exec i s := by
  simp [runCommand, h]

/-- A word that names no command ends in error entry (R53, R56). -/
theorem runCommand_rejected {s : State} {r : Reject} (h : decodeCommand s.cmd = .rejected r) :
    runCommand s = .next s.illegalCommand := by
  simp [runCommand, h]

/-! ### Settling a turn -/

@[simp] theorem State.settle_raised (s : State) (op : Byte) (r : Raise) :
    s.settle op (.raised r) = s.raiseError op r := rfl

@[simp] theorem State.settle_finished (s : State) (op : Byte) (out : List Byte) :
    s.settle op (.finished out) = s.succeed op out false := rfl

@[simp] theorem State.settle_running (s : State) (op : Byte) (w : Work) :
    s.settle op (.running w) = { s with work := w } := rfl

/-- Settling does not depend on the working state before it. -/
theorem State.settle_work (s : State) (w : Work) (op : Byte) (p : Progress) :
    State.settle { s with work := w } op p = s.settle op p := by
  cases p <;> rfl

/-! ### Fetching a byte token -/

/-- A token whose bytes the stream has, none of whose proper prefixes decodes, is what a fetch answers. -/
theorem fetchToken_token {f : Format} {S : Nat → Byte} {n : Nat} {t : Instr} (bs pre : List Byte) (fuel i : Nat)
    (hne : bs ≠ []) (hfuel : bs.length ≤ fuel) (hn : i + bs.length ≤ n) (hS : ∀ j b, bs[j]? = some b → S (i + j) = b)
    (hmore : ∀ k, 0 < k → k < bs.length → decodeBytes f (pre ++ bs.take k) = .more)
    (htok : decodeBytes f (pre ++ bs) = .token t) :
    fetchToken f S n fuel pre i = .ok (some (t, i + bs.length)) := by
  induction bs generalizing pre fuel i with
  | nil => exact absurd rfl hne
  | cons b bs ih =>
    simp only [List.length_cons] at hfuel hn
    obtain ⟨fuel, rfl⟩ : ∃ m, fuel = m + 1 := ⟨fuel - 1, by omega⟩
    have hb : S i = b := by simpa using hS 0 b (by simp)
    simp only [fetchToken]
    rw [if_neg (by omega), hb]
    cases bs with
    | nil => rw [htok]; rfl
    | cons c bs =>
      rw [show decodeBytes f (pre ++ [b]) = .more by simpa using hmore 1 (by omega) (by simp)]
      refine (ih (pre ++ [b]) fuel (i + 1) (by simp) (by omega) (by simp only [List.length_cons] at *; omega)
        (fun j d hj => ?_) (fun k h0 hk => ?_) (by simpa using htok)).trans ?_
      · rw [← hS (j + 1) d (by simpa using hj)]
        congr 1
        omega
      · simpa using hmore (k + 1) (by omega) (by simpa using hk)
      · congr 3
        simp only [List.length_cons]
        omega

/-- A fetch that answers has read at least one byte, all of them the stream's. -/
theorem fetchToken_advances {f : Format} {S : Nat → Byte} {n : Nat} (fuel : Nat) (pre : List Byte) (i : Nat) {t : Instr}
    {j : Nat} (h : fetchToken f S n fuel pre i = .ok (some (t, j))) : i < j ∧ j ≤ n := by
  induction fuel generalizing pre i with
  | zero => simp [fetchToken] at h
  | succ fuel ih =>
    simp only [fetchToken] at h
    split at h
    · simp at h
    · split at h
      · simp at h
        omega
      · obtain ⟨h1, h2⟩ := ih _ _ h
        exact ⟨by omega, h2⟩
      · simp at h

/-- A fetch raises only FORMAT, at the stream's end. -/
theorem fetchToken_error {f : Format} {S : Nat → Byte} {n : Nat} (fuel : Nat) (pre : List Byte) (i : Nat) {r : Raise}
    (hi : i ≤ n) (h : fetchToken f S n fuel pre i = .error r) : r = ⟨.format, n⟩ := by
  induction fuel generalizing pre i with
  | zero => simp [fetchToken] at h
  | succ fuel ih =>
    simp only [fetchToken] at h
    split at h
    · next hn =>
      have : i = n := by omega
      simp at h
      rw [← h, this]
    · split at h
      · simp at h
      · exact ih _ _ (by omega) h
      · simp at h

/-! ### Deplode's bits -/

@[simp] theorem Dep.afterBits_zero (w : Dep) : w.afterBits 0 = w := by
  simp [Dep.afterBits]

@[simp] theorem Dep.afterBits_prepared (w : Dep) (k : Nat) : (w.afterBits k).prepared = w.prepared := by
  unfold Dep.afterBits; split <;> rfl

@[simp] theorem Dep.afterBits_table (w : Dep) (k : Nat) : (w.afterBits k).table = w.table := by
  unfold Dep.afterBits; split <;> rfl

@[simp] theorem Dep.afterBits_size (w : Dep) (k : Nat) : (w.afterBits k).size = w.size := by
  unfold Dep.afterBits; split <;> rfl

@[simp] theorem Dep.afterBits_lit (w : Dep) (k : Nat) : (w.afterBits k).lit = w.lit := by
  unfold Dep.afterBits; split <;> rfl

@[simp] theorem Dep.afterBits_out (w : Dep) (k : Nat) : (w.afterBits k).out = w.out := by
  unfold Dep.afterBits; split <;> rfl

@[simp] theorem Dep.afterBits_phase (w : Dep) (k : Nat) : (w.afterBits k).phase = w.phase := by
  unfold Dep.afterBits; split <;> rfl

/-- One bit from a buffer that has one. -/
theorem Dep.afterBits_one_of_pos {w : Dep} (h : 0 < w.bc) :
    w.afterBits 1 = { w with bb := w.bb <<< 1, bc := w.bc - 1 } := by
  rw [Dep.afterBits, if_pos (show 1 ≤ w.bc from h)]

/-- One bit from an empty buffer: it is refilled from the byte before the cursor. -/
theorem Dep.afterBits_one_of_empty {w : Dep} (h : w.bc = 0) :
    w.afterBits 1
      = { w with cur := w.cur - 1, bb := w.prepared.getD (w.cur - 1) 0 <<< 1, bc := 7 } := by
  simp [Dep.afterBits, h]

/-- Taking one bit and then `k` is taking `k + 1`. -/
theorem Dep.afterBits_succ (w : Dep) (k : Nat) : (w.afterBits 1).afterBits k = w.afterBits (k + 1) := by
  rcases Nat.eq_zero_or_pos w.bc with h | h
  · rw [Dep.afterBits_one_of_empty h]
    unfold Dep.afterBits
    simp only [h]
    rw [if_neg (Nat.not_succ_le_zero k)]
    split
    · rw [show (k + 1 - 0 + 7) / 8 = 1 by omega, ← BitVec.shiftLeft_add,
        show k + 1 - 0 - 8 * (1 - 1) = 1 + k by omega, show 0 + 8 * 1 - (k + 1) = 7 - k by omega]
    · rw [show (k + 1 - 0 + 7) / 8 = (k - 7 + 7) / 8 + 1 by omega,
        show w.cur - 1 - (k - 7 + 7) / 8 = w.cur - ((k - 7 + 7) / 8 + 1) by omega,
        show k - 7 - 8 * ((k - 7 + 7) / 8 - 1) = k + 1 - 0 - 8 * ((k - 7 + 7) / 8 + 1 - 1) by omega,
        show 7 + 8 * ((k - 7 + 7) / 8) - k = 0 + 8 * ((k - 7 + 7) / 8 + 1) - (k + 1) by omega]
  · rw [Dep.afterBits_one_of_pos h]
    unfold Dep.afterBits
    dsimp only
    by_cases hk : k ≤ w.bc - 1
    · rw [if_pos hk, if_pos (by omega), ← BitVec.shiftLeft_add, Nat.add_comm 1 k,
        show w.bc - 1 - k = w.bc - (k + 1) by omega]
    · rw [if_neg hk, if_neg (by omega), show k + 1 - w.bc = k - (w.bc - 1) by omega,
        show w.bc - 1 + 8 * ((k - (w.bc - 1) + 7) / 8) - k
          = w.bc + 8 * ((k - (w.bc - 1) + 7) / 8) - (k + 1) by omega]

/-- A bit read takes the first of the bits ahead, or raises FORMAT(0) when there is none (R129). -/
theorem Dep.getbit_spec {w : Dep} (hw : w.ready) :
    match w.bitsAhead with
    | [] => w.getbit = .error ⟨.format, 0⟩
    | b :: rest =>
      w.getbit = .ok (b, w.afterBits 1) ∧ (w.afterBits 1).ready ∧ (w.afterBits 1).bitsAhead = rest := by
  obtain ⟨hbc, hcur⟩ := hw
  have shl : ∀ b : Byte, bitsOfByte (b <<< 1) = (bitsOfByte b).tail ++ [false] := fun b => by
    simp [bitsOfByte]
  have len : ∀ b : Byte, (bitsOfByte b).length = 8 := fun _ => rfl
  have head : ∀ b : Byte, bitsOfByte b = b.getLsbD 7 :: (bitsOfByte b).tail := fun _ => rfl
  rcases Nat.eq_zero_or_pos w.bc with h0 | h0
  · rcases Nat.eq_zero_or_pos w.cur with h1 | h1
    · simp [Dep.bitsAhead, h0, h1, Dep.getbit]
    · have hlt : w.cur - 1 < w.prepared.length := by omega
      have htake : w.prepared.take w.cur = w.prepared.take (w.cur - 1) ++ [w.prepared.getD (w.cur - 1) 0] := by
        have hc : w.cur = (w.cur - 1) + 1 := by omega
        rw [hc, List.take_add_one, Nat.add_sub_cancel, List.getElem?_eq_getElem hlt, List.getD,
          List.getElem?_eq_getElem hlt]
        rfl
      have hbits : w.bitsAhead = bitsOfByte (w.prepared.getD (w.cur - 1) 0)
          ++ (w.prepared.take (w.cur - 1)).reverse.flatMap bitsOfByte := by
        rw [Dep.bitsAhead, h0, htake]
        simp
      rw [hbits, head, Dep.afterBits_one_of_empty h0]
      refine ⟨?_, ⟨by dsimp only; omega, by dsimp only; omega⟩, ?_⟩
      · rw [Dep.getbit, if_pos h0, if_neg (by omega)]
      · rw [Dep.bitsAhead]
        dsimp only
        rw [shl, List.take_append_of_le_length (by simp [len]), List.take_of_length_le (by simp [len])]
        rfl
  · obtain ⟨k, hk⟩ : ∃ k, w.bc = k + 1 := ⟨w.bc - 1, by omega⟩
    have hbits : w.bitsAhead = w.bb.getLsbD 7
        :: ((bitsOfByte w.bb).tail.take k ++ (w.prepared.take w.cur).reverse.flatMap bitsOfByte) := by
      rw [Dep.bitsAhead, hk, head]
      rfl
    rw [hbits, Dep.afterBits_one_of_pos h0]
    refine ⟨?_, ⟨by dsimp only; omega, hcur⟩, ?_⟩
    · rw [Dep.getbit, if_neg (by omega)]
    · rw [Dep.bitsAhead]
      dsimp only
      rw [hk, Nat.add_sub_cancel, shl, List.take_append_of_le_length (by simp [len]; omega)]

/-- Reading `k` bits takes the first `k` of the bits ahead, most significant first, or raises FORMAT(0) when there
are fewer (R129). -/
theorem Dep.getbits_spec (k v : Nat) {w : Dep} (hw : w.ready) :
    (k ≤ w.bitsAhead.length →
        Dep.getbits k v w = .ok ((w.bitsAhead.take k).foldl (fun v b => 2 * v + b.toNat) v, w.afterBits k)
          ∧ (w.afterBits k).ready ∧ (w.afterBits k).bitsAhead = w.bitsAhead.drop k)
      ∧ (w.bitsAhead.length < k → Dep.getbits k v w = .error ⟨.format, 0⟩) := by
  induction k generalizing v w with
  | zero => exact ⟨fun _ => by simp [Dep.getbits, hw], fun h => absurd h (Nat.not_lt_zero _)⟩
  | succ k ih =>
    have hb := Dep.getbit_spec hw
    split at hb
    · next h0 => exact ⟨fun h => by simp [h0] at h, fun _ => by rw [Dep.getbits, hb]⟩
    · next b rest h0 =>
      obtain ⟨hget, hr, hrest⟩ := hb
      obtain ⟨hok, herr⟩ := ih (2 * v + b.toNat) hr
      rw [hrest, Dep.afterBits_succ] at hok
      rw [hrest] at herr
      refine ⟨fun h => ?_, fun h => ?_⟩
      · rw [Dep.getbits, hget, h0]
        exact hok (by simpa [h0] using h)
      · rw [Dep.getbits, hget]
        exact herr (by simpa [h0] using h)

/-! ### Deplode's literal run -/

/-- What a literal run answers (R132): its bytes moved from before the cursor to the output, or the error that it
meets first, the declared size or the cursor at 0. -/
theorem Dep.literalRun_spec (n : Nat) {w : Dep} (hcur : w.cur ≤ w.prepared.length) (hout : w.out.length ≤ w.size) :
    Dep.literalRun n w =
      if n ≤ w.cur ∧ w.out.length + n ≤ w.size then
        .ok { w with cur := w.cur - n, out := w.out ++ ((w.prepared.take w.cur).drop (w.cur - n)).reverse }
      else if w.size - w.out.length ≤ w.cur then .error ⟨.dataIntegrity, w.size⟩
      else .error ⟨.format, 0⟩ := by
  induction n generalizing w with
  | zero => simp [Dep.literalRun, hout]
  | succ n ih =>
    rw [Dep.literalRun]
    by_cases hs : w.out.length = w.size
    · rw [if_pos hs, if_neg (by omega), if_pos (by omega)]
    · rw [if_neg hs, Dep.rawByte]
      by_cases hc : w.cur = 0
      · rw [if_pos hc, if_neg (by omega), if_neg (by omega)]
      · rw [if_neg hc]
        dsimp only
        rw [ih (by dsimp only; omega) (by simp; omega)]
        simp only [List.length_append, List.length_singleton]
        have hlt : w.cur - 1 < w.prepared.length := by omega
        by_cases hok : n + 1 ≤ w.cur ∧ w.out.length + (n + 1) ≤ w.size
        · rw [if_pos hok, if_pos (by omega)]
          have htake : w.prepared.take w.cur = w.prepared.take (w.cur - 1) ++ [w.prepared.getD (w.cur - 1) 0] := by
            obtain ⟨c, hc'⟩ : ∃ c, w.cur = c + 1 := ⟨w.cur - 1, by omega⟩
            rw [hc', Nat.add_sub_cancel] at hlt ⊢
            rw [List.take_add_one, List.getElem?_eq_getElem hlt, List.getD, List.getElem?_eq_getElem hlt]
            rfl
          rw [htake, List.drop_append_of_le_length (by simp; omega), List.reverse_append,
            show w.cur - (n + 1) = w.cur - 1 - n by omega, List.append_assoc]
          rfl
        · rw [if_neg hok, if_neg (by omega)]
          by_cases hr : w.size - w.out.length ≤ w.cur
          · rw [if_pos hr, if_pos (by omega)]
          · rw [if_neg hr, if_neg (by omega)]

/-- A literal run that succeeds is the one of the statements (R132). -/
theorem Dep.literalRun_afterRun {w : Dep} (hcur : w.cur ≤ w.prepared.length) (hout : w.out.length ≤ w.size) :
    Dep.literalRun w.lit w =
      match w.afterRun with
      | some v => .ok v
      | none => if w.size - w.out.length ≤ w.cur then .error ⟨.dataIntegrity, w.size⟩ else .error ⟨.format, 0⟩ := by
  rw [Dep.literalRun_spec _ hcur hout, Dep.afterRun]
  split <;> rfl

end Sys2Proof.Machine
end

