-- ==== Sys2Proof/Laws/PerInstr.lean ====
section
/-! SUPPORT. Per instruction: a token's units decode to nothing before the last one. A reader that takes one unit
at a time, as the engine does (R60, R129), therefore stops exactly at the token's end. -/

namespace Sys2Proof.Laws.ProperPrefixPending

/-- Every proper prefix of a token's units needs one more unit; a command word is one unit, whose reserved bits are
zero (R53). -/
def Statement (i : Instr) : Prop :=
  i.wellFormed = true →
    match encode i with
    | .word w => w.extractLsb' 8 24 = 0
    | .bytes bs => ∀ k, k < bs.length → decodeBytes (formatOf i) (bs.take k) = .more
    | .bits bs => ∀ k, k < bs.length → decodeBits (formatOf i) (bs.take k) = .more

/-- A header of class 4 to 6 alone needs one more byte (R63). -/
theorem xlob_header_pending {h : Byte} {p : BitVec 3} (reserved : Bool) (hp : h.extractLsb' 5 3 = p)
    (h4 : p.getLsbD 2 = true) (h7 : p ≠ 7) : decodeXlob reserved [h] = .more := by
  obtain ⟨h0, hs⟩ := class_large hp h4
  subst hp
  simp only [decodeXlob]
  rw [if_neg h0, if_neg hs, if_neg h7]

/-- Two bytes of a large match without a reservation need the reserve byte (R67). -/
theorem xlob_large_pending {h : Byte} (b : Byte) (hp : h.extractLsb' 5 3 = 5) :
    decodeXlob false [h, b] = .more := by
  obtain ⟨h0, -⟩ := class_large hp (by decide)
  simp only [decodeXlob]
  rw [if_neg h0, hp]
  rfl

/-- A long match's first byte alone needs one more byte (R73). -/
theorem tlob_long_pending {b : Byte} (reserved : Bool) (h1 : b.extractLsb' 4 4 = 1) (h15 : b.extractLsb' 0 4 ≠ 15) :
    decodeTlob reserved [b] = .more := by
  simp only [decodeTlob]
  rw [h1, if_neg (by decide), if_pos rfl, if_neg h15]

/-- Whether every proper prefix of a Deplode code needs one more bit. -/
def bitsPending (f : Format) (bs : List Bool) : Bool :=
  (List.range bs.length).all (fun k => decodeBits f (bs.take k) == .more)

theorem of_bitsPending {i : Instr} {bs : List Bool} (hi : encode i = .bits bs)
    (h : bitsPending (formatOf i) bs = true) : Statement i := by
  intro _
  rw [hi]
  intro k hk
  simpa using List.all_eq_true.1 h k (List.mem_range.2 hk)

theorem trieInit : Statement .trieInit := by
  intro _; rfl

theorem trieAdd : Statement .trieAdd := by
  intro _; rfl

theorem trieMatch : Statement .trieMatch := by
  intro _; rfl

theorem lobCompress : Statement .lobCompress := by
  intro _; rfl

theorem lobDecompress : Statement .lobDecompress := by
  intro _; rfl

theorem xlobCompress : Statement .xlobCompress := by
  intro _; rfl

theorem xlobDecompress : Statement .xlobDecompress := by
  intro _; rfl

theorem tlobCompress : Statement .tlobCompress := by
  intro _; rfl

theorem tlobDecompress : Statement .tlobDecompress := by
  intro _; rfl

theorem deplode : Statement .deplode := by
  intro _; rfl

theorem jhCrypt : Statement .jhCrypt := by
  intro _; rfl

theorem reservedAdvlobCompress : Statement .reservedAdvlobCompress := by
  intro _; rfl

theorem reservedAdvlobDecompress : Statement .reservedAdvlobDecompress := by
  intro _; rfl

theorem lobCtrl (c : Byte) : Statement (.lobCtrl c) := by
  intro _ k hk
  obtain rfl : k = 0 := by simpa [encode] using hk
  rfl

theorem lobLit (v : Byte) : Statement (.lobLit v) := by
  intro _ k hk
  obtain rfl : k = 0 := by simpa [encode] using hk
  rfl

theorem lobMatch (l : BitVec 4) (d : BitVec 12) : Statement (.lobMatch l d) := by
  intro _ k hk
  match k, hk with
  | 0, _ => rfl
  | 1, _ => rfl
  | k + 2, hk => simp [bytesOfHalf] at hk

theorem xlobZrle (c : Byte) : Statement (.xlobZrle c) := by
  intro _ k hk
  match k, hk with
  | 0, _ => rfl
  | 1, _ => rfl
  | k + 2, hk => simp at hk

theorem xlobLitrun (n : BitVec 7) : Statement (.xlobLitrun n) := by
  intro _ k hk
  obtain rfl : k = 0 := by simpa [encode] using hk
  rfl

theorem xlobSmatch (l : BitVec 4) (d : BitVec 9) : Statement (.xlobSmatch l d) := by
  intro _ k hk
  match k, hk with
  | 0, _ => rfl
  | 1, _ => exact xlob_header_pending false (class_smatch l d) (by decide) (by decide)
  | k + 2, hk => simp [bytesOfHalf] at hk

theorem xlobLmatchFirst (h : BitVec 5) (b : Byte) (n : BitVec 4) (r : BitVec 4) :
    Statement (.xlobLmatchFirst h b n r) := by
  intro _ k hk
  match k, hk with
  | 0, _ => rfl
  | 1, _ => exact xlob_header_pending false (class_header 5 h) (by decide) (by decide)
  | 2, _ => exact xlob_large_pending b (class_header 5 h)
  | k + 3, hk => simp at hk

theorem xlobLmatchSecond (h : BitVec 5) (b : Byte) : Statement (.xlobLmatchSecond h b) := by
  intro _ k hk
  match k, hk with
  | 0, _ => rfl
  | 1, _ => exact xlob_header_pending true (class_header 5 h) (by decide) (by decide)
  | k + 2, hk => simp at hk

theorem xlobLrle (c : BitVec 5) (v : Byte) : Statement (.xlobLrle c v) := by
  intro _ k hk
  match k, hk with
  | 0, _ => rfl
  | 1, _ => exact xlob_header_pending false (class_header 6 c) (by decide) (by decide)
  | k + 2, hk => simp at hk

theorem xlobSlit (v : BitVec 5) : Statement (.xlobSlit v) := by
  intro _ k hk
  obtain rfl : k = 0 := by simpa [encode] using hk
  rfl

theorem tlobSkip (k : Byte) : Statement (.tlobSkip k) := by
  intro _ k hk
  obtain rfl : k = 0 := by simpa [encode] using hk
  rfl

theorem tlobLit (v : Byte) : Statement (.tlobLit v) := by
  intro _ k hk
  obtain rfl : k = 0 := by simpa [encode] using hk
  rfl

theorem tlobZero : Statement .tlobZero := by
  intro _ k hk
  obtain rfl : k = 0 := by simpa [encode] using hk
  rfl

theorem tlobShortFirst (f : BitVec 4) (g : BitVec 4) (r : BitVec 4) : Statement (.tlobShortFirst f g r) := by
  intro _ k hk
  match k, hk with
  | 0, _ => rfl
  | 1, _ => simp [formatOf, decodeBytes, decodeTlob, nibbles]
  | k + 2, hk => simp at hk

theorem tlobShortSecond (f : BitVec 4) : Statement (.tlobShortSecond f) := by
  intro _ k hk
  obtain rfl : k = 0 := by simpa [encode] using hk
  rfl

theorem tlobLong (f : BitVec 9) (l : BitVec 3) : Statement (.tlobLong f l) := by
  intro hw k hk
  match k, hk with
  | 0, _ => rfl
  | 1, _ =>
    have hf : f.toNat ≤ 479 := by simpa [Instr.wellFormed] using hw
    exact tlob_long_pending false (class_long f l) (long_ne_escape f l hf)
  | k + 2, hk => simp [bytesOfHalf] at hk

theorem depSellen0 : Statement .depSellen0 := of_bitsPending rfl (by decide)

theorem depSellen10 : Statement .depSellen10 := of_bitsPending rfl (by decide)

theorem depSellen110 : Statement .depSellen110 := of_bitsPending rfl (by decide)

theorem depSellen1110 : Statement .depSellen1110 := of_bitsPending rfl (by decide)

/-- Whatever its three extra bits are (R76). -/
theorem depSellen11110 (x : BitVec 3) : Statement (.depSellen11110 x) :=
  have extra : ∀ a b c : Bool, bitsPending .depSelLen [true, true, true, true, false, a, b, c] = true := by decide
  of_bitsPending rfl (extra _ _ _)

theorem depSellen11111 : Statement .depSellen11111 := of_bitsPending rfl (by decide)

theorem depLitlen0 : Statement .depLitlen0 := of_bitsPending rfl (by decide)

theorem depLitlen10 : Statement .depLitlen10 := of_bitsPending rfl (by decide)

theorem depLitlen11 : Statement .depLitlen11 := of_bitsPending rfl (by decide)

theorem depDist0 : Statement .depDist0 := of_bitsPending rfl (by decide)

theorem depDist10 : Statement .depDist10 := of_bitsPending rfl (by decide)

theorem depDist11 : Statement .depDist11 := of_bitsPending rfl (by decide)

theorem jhWord (w : Half) : Statement (.jhWord w) := by
  intro _ k hk
  match k, hk with
  | 0, _ => rfl
  | 1, _ => rfl
  | k + 2, hk => simp [bytesOfHalf] at hk

end Sys2Proof.Laws.ProperPrefixPending
end

