-- ==== Sys2Proof/Tests/Slice0.lean ====
section
/-! SUPPORT. Tests of the model. Every expected result is spec/95_test_vectors.md's, or is worked by hand from the
encoding tables of spec/30_encoding.md. -/

open Sys2Proof Sys2Proof.Machine

namespace Sys2Proof.Tests

/-! ### Ill-formed terms are refused -/

/-- A literal-run header of 0 is the zero-RLE token (R65). -/
theorem test_wf_literal_run : (Instr.xlobLitrun 0).wellFormed = false ∧ (Instr.xlobLitrun 1).wellFormed = true := by
  decide

/-- No TextLob literal stands for a byte below 0x20 (R71). -/
theorem test_wf_text_literal : (Instr.tlobLit 0x1F).wellFormed = false ∧ (Instr.tlobLit 0x20).wellFormed = true := by
  decide

/-- A long match with `f = 480` would begin with the zero escape (R73). -/
theorem test_wf_text_long : (Instr.tlobLong 480 0).wellFormed = false ∧ (Instr.tlobLong 479 0).wellFormed = true := by
  decide

/-! ### Words written out from the encoding tables -/

/-- The thirteen command words (R54, R56). -/
theorem test_decode_commands :
    [0x01, 0x02, 0x03, 0x10, 0x11, 0x12, 0x13, 0x14, 0x15, 0x16, 0x17, 0x21, 0x30].map decodeCommand
      = ([.trieInit, .trieAdd, .trieMatch, .lobCompress, .lobDecompress, .xlobCompress, .xlobDecompress,
          .tlobCompress, .tlobDecompress, .reservedAdvlobCompress, .reservedAdvlobDecompress, .deplode,
          .jhCrypt] : List Instr).map Decoded.token := by
  decide

/-- Words that are no command: opcodes 0x00 and 0x31, and TRIE_INIT with bit 8 set (R53, R56). -/
theorem test_decode_illegal_words :
    decodeCommand 0x00 = .rejected .undefinedOpcode ∧ decodeCommand 0x31 = .rejected .undefinedOpcode
      ∧ decodeCommand 0x101 = .rejected .reservedBits := by
  decide

/-- Lob: control byte E7, literal 41, and V-LOB-2's match `F0 03` = 1111 000000000011: L 18, d 3 (R61, R62). -/
theorem test_decode_lob :
    decodeBytes .lobControl [0xE7] = .token (.lobCtrl 0xE7) ∧ decodeBytes .lobLiteral [0x41] = .token (.lobLit 0x41)
      ∧ decodeBytes .lobMatch [0xF0, 0x03] = .token (.lobMatch 15 3) := by
  decide

/-- ExtendedLob, V-XLOB-1, V-XLOB-2 and V-XLOB-4: `00 02`, `29`, `84 0A` = 100 0010 000001010,
`A9 42 99` = 101 01001 01000010 1001 1001, `A9 42`, `C1 07` = 110 00001 00000111, `E1` = 111 00001 (R64 to R69). -/
theorem test_decode_xlob :
    decodeBytes (.xlob false) [0x00, 0x02] = .token (.xlobZrle 2)
      ∧ decodeBytes (.xlob false) [0x29] = .token (.xlobLitrun 41)
      ∧ decodeBytes (.xlob false) [0x84, 0x0A] = .token (.xlobSmatch 2 10)
      ∧ decodeBytes (.xlob false) [0xA9, 0x42, 0x99] = .token (.xlobLmatchFirst 9 0x42 9 9)
      ∧ decodeBytes (.xlob true) [0xA9, 0x42] = .token (.xlobLmatchSecond 9 0x42)
      ∧ decodeBytes (.xlob false) [0xC1, 0x07] = .token (.xlobLrle 1 7)
      ∧ decodeBytes (.xlob false) [0xE1] = .token (.xlobSlit 1) := by
  decide

/-- TextLob, V-TLOB-1, V-TLOB-4 and V-TLOB-6: skip count 2, `74`, `1F`, `00 33` = 0000 0000 0011 0011, the second
of the pair `00`, and `10 2F` = 0001 000000101 111 (R70 to R73). -/
theorem test_decode_tlob :
    decodeBytes .tlobSkip [0x02] = .token (.tlobSkip 2)
      ∧ decodeBytes (.tlob false) [0x74] = .token (.tlobLit 0x74)
      ∧ decodeBytes (.tlob false) [0x1F] = .token .tlobZero
      ∧ decodeBytes (.tlob false) [0x00, 0x33] = .token (.tlobShortFirst 0 3 3)
      ∧ decodeBytes (.tlob true) [0x00] = .token (.tlobShortSecond 0)
      ∧ decodeBytes (.tlob false) [0x10, 0x2F] = .token (.tlobLong 5 7) := by
  decide

/-- Deplode's match-length codes, the fifth as V-DEP-1 reads it: 11110 100 (R76). -/
theorem test_decode_deplode_selectors :
    decodeBits .depSelLen [false] = .token .depSellen0
      ∧ decodeBits .depSelLen [true, false] = .token .depSellen10
      ∧ decodeBits .depSelLen [true, true, false] = .token .depSellen110
      ∧ decodeBits .depSelLen [true, true, true, false] = .token .depSellen1110
      ∧ decodeBits .depSelLen [true, true, true, true, false, true, false, false] = .token (.depSellen11110 4)
      ∧ decodeBits .depSelLen [true, true, true, true, true] = .token .depSellen11111 := by
  decide

/-- Deplode's literal-length and distance codes (R77, R78). -/
theorem test_decode_deplode_groups :
    decodeBits .depLitLen [false] = .token .depLitlen0 ∧ decodeBits .depLitLen [true, false] = .token .depLitlen10
      ∧ decodeBits .depLitLen [true, true] = .token .depLitlen11
      ∧ decodeBits .depDist [false] = .token .depDist0 ∧ decodeBits .depDist [true, false] = .token .depDist10
      ∧ decodeBits .depDist [true, true] = .token .depDist11 := by
  decide

/-- A JH word is big-endian (R79). -/
theorem test_decode_jh : decodeBytes .jhWord [0x12, 0x34] = .token (.jhWord 0x1234) := by decide

/-! ### Small states -/

/-- Data memory of 64 KiB that begins with the given bytes. -/
def memOf (bs : List Byte) : Memory := Memory.fill (fun _ => true) (fun x => bs.getD x 0) 0 bs.length []

/-- A command accepted on a source region that is the given bytes at address 0 and a destination at 4096. -/
def accepted (word : Word) (bs : List Byte) (dcap p0 p1 : Nat) : State :=
  { State.reset with
    memTop := 0xFFFF
    mem := memOf bs
    cmd := word
    status := { Status.reset with busy := true }
    ctx :=
      { src := 0, slen := BitVec.ofNat 32 bs.length, dst := 0x1000, dcap := BitVec.ofNat 32 dcap
        p0 := BitVec.ofNat 32 p0, p1 := BitVec.ofNat 32 p1, op := word.extractLsb' 0 8 } }

/-- What a test looks at: ERRCODE, ERR_POS, STORED and OUT_LEN. -/
def seen (o : Host.Outcome State Fault Refusal) : Option (ErrCode × Word × Bool × Word) :=
  match o with
  | .next t => some (t.status.errCode, t.errPos, t.status.stored, t.outLen)
  | .fault _ => none
  | .refused _ => none

/-- The first bytes of the destination region. -/
def written (o : Host.Outcome State Fault Refusal) (n : Nat) : List Byte :=
  match o with
  | .next t => bytesOf t.readByte 0x1000 n
  | .fault _ => []
  | .refused _ => []

/-- MATCH_OFF and MATCH_LEN. -/
def matched (o : Host.Outcome State Fault Refusal) : Option (Word × Word) :=
  match o with
  | .next t => some (t.matchOff, t.matchLen)
  | .fault _ => none
  | .refused _ => none

/-- The working state. -/
def workOf (o : Host.Outcome State Fault Refusal) : Option Work :=
  match o with
  | .next t => some t.work
  | .fault _ => none
  | .refused _ => none

/-! ### Commands -/

/-- V-TRIE-4: `P0 = 4096` gives MISUSE(0), `P0 = 1` a window of 1. -/
theorem test_trieInit :
    seen (exec .trieInit (accepted 0x01 [] 0 4096 0)) = some (.misuse, 0, false, 0)
      ∧ (match exec .trieInit (accepted 0x01 [] 0 1 0) with
          | .next t => t.trie.window
          | _ => 0) = 1 := by
  decide

/-- V-TRIE-2's buffer with window 3: after anchor 3 is inserted, anchor 0 is evicted. -/
theorem test_trieAdd :
    (match exec .trieAdd
        { accepted 0x02 [0x61, 0x62, 0x63, 0x64, 0x61, 0x62, 0x63, 0x64] 0 3 4 with
          trie := { window := 3, entries := [(0, [0x61]), (1, [0x62]), (2, [0x63])], last := some 2 } } with
      | .next t => t.trie
      | _ => Trie.initial)
      = { window := 3, entries := [(1, [0x62]), (2, [0x63]), (3, [0x64, 0x61, 0x62, 0x63])], last := some 3 } := by
  decide

/-- V-TRIE-3: both entries match 2 bytes, and the larger anchor wins. -/
theorem test_trieMatch :
    matched (exec .trieMatch
      { accepted 0x03 [0x61, 0x62, 0x61, 0x62] 0 0 2 with
        trie := { window := 4095, entries := [(0, [0x61, 0x62]), (2, [0x61, 0x62])], last := some 2 } })
      = some (2, 2) := by
  decide

/-- V-LOB-7: 20 zeros give `B0 00 F0 01 00 00`. -/
theorem test_lobCompress :
    written (exec .lobCompress (accepted 0x10 (List.replicate 20 0) 6 0 0)) 6
      = [0xB0, 0x00, 0xF0, 0x01, 0x00, 0x00] := by
  decide

/-- V-LOB-1: a short input is stored. -/
theorem test_lobCompress_stored :
    seen (exec .lobCompress (accepted 0x10 [0x48, 0x45, 0x4C, 0x4C, 0x4F] 5 0 0)) = some (.none, 0, true, 5) := by
  decide

/-- V-LOB-12: the second match is cut at `N`. -/
theorem test_lobDecompress :
    written (exec .lobDecompress (accepted 0x11 [0x80, 0x41, 0xF0, 0x01, 0xF0, 0x01] 20 20 0)) 20
      = List.replicate 20 0x41 := by
  decide

/-- V-LOB-10: a distance beyond the output is FORMAT at the token's first byte. -/
theorem test_lobDecompress_distance :
    seen (exec .lobDecompress (accepted 0x11 [0x80, 0x41, 0x00, 0x05] 20 20 0)) = some (.format, 2, false, 0) := by
  decide

/-- V-XLOB-1: runs, a literal run, small matches and a pad byte. -/
theorem test_xlobCompress :
    written (exec .xlobCompress
      (accepted 0x12 [0, 0, 0, 0, 0, 7, 7, 7, 7, 0x48, 0x69, 0x21, 1, 2, 3, 0x48, 0x69, 0x21, 0x48, 0x69, 0x21] 16 0 0))
      16
      = [0x00, 0x02, 0xC1, 0x07, 0x06, 0x48, 0x69, 0x21, 0x01, 0x02, 0x03, 0x80, 0x06, 0x80, 0x03, 0x00] := by
  decide

/-- V-XLOB-12: two large matches share one reserve byte. -/
theorem test_xlobDecompress :
    written (exec .xlobDecompress
      (accepted 0x13 [0x03, 0x41, 0x42, 0x43, 0xA0, 0x00, 0x33, 0xA0, 0x00] 9 9 0)) 9
      = [0x41, 0x42, 0x43, 0x41, 0x42, 0x43, 0x41, 0x42, 0x43] := by
  decide

/-- V-XLOB-13: the second large match gets distance 0. -/
theorem test_xlobDecompress_distance :
    seen (exec .xlobDecompress (accepted 0x13 [0x03, 0x41, 0x42, 0x43, 0xA0, 0x00, 0x30, 0xA0, 0x00] 9 9 0))
      = some (.format, 7, false, 0) := by
  decide

/-- V-TLOB-4: two short matches share one reserved nibble. -/
theorem test_tlobCompress :
    written (exec .tlobCompress
      (accepted 0x14 [0x61, 0x62, 0x58, 0x63, 0x64, 0x59, 0x61, 0x62, 0x5A, 0x63, 0x64, 0x57] 12 0 0)) 12
      = [0x00, 0x61, 0x62, 0x58, 0x63, 0x64, 0x59, 0x00, 0x33, 0x5A, 0x00, 0x57] := by
  decide

/-- V-TLOB-7: a byte 5 outside the skip region is FORMAT at its index. -/
theorem test_tlobCompress_byte :
    seen (exec .tlobCompress (accepted 0x14 [0x61, 0x62, 0x05, 0x63, 0x64] 0 0 0)) = some (.format, 2, false, 0) := by
  decide

/-- V-TLOB-14: the stream of V-TLOB-4 decodes to its input. -/
theorem test_tlobDecompress :
    written (exec .tlobDecompress
      (accepted 0x15 [0x00, 0x61, 0x62, 0x58, 0x63, 0x64, 0x59, 0x00, 0x33, 0x5A, 0x00, 0x57] 12 12 0)) 12
      = [0x61, 0x62, 0x58, 0x63, 0x64, 0x59, 0x61, 0x62, 0x5A, 0x63, 0x64, 0x57] := by
  decide

/-- V-TLOB-13: even `N = 0` needs the skip-count byte. -/
theorem test_tlobDecompress_empty :
    seen (exec .tlobDecompress (accepted 0x15 [] 0 0 0)) = some (.format, 0, false, 0) := by
  decide

/-- The file of V-DEP-1. -/
def depFile : List Byte :=
  [0x49, 0x4D, 0x50, 0x21, 0x00, 0x00, 0x00, 0x16, 0x00, 0x00, 0x00, 0x0F, 0x43, 0x42, 0x41, 0x47, 0x46, 0x45, 0x44,
    0x56, 0x55, 0xC0, 0x90, 0x5A, 0x59, 0x58, 0x57, 0x00, 0x00, 0x00, 0x07, 0x00]
  ++ [0xF4, 0x01, 0x00, 0x01, 0x00, 0x02, 0x00, 0x04, 0x00, 0x02, 0x02, 0x03, 0x04, 0x04, 0x05, 0x06, 0x07, 0x08,
    0x08, 0x09, 0x0A]

/-- V-DEP-1: "ABCDEFGABCDEFGABUVWXYZ". -/
theorem test_deplode :
    written (exec .deplode (accepted 0x21 depFile 22 0 0)) 22
      = [0x41, 0x42, 0x43, 0x44, 0x45, 0x46, 0x47, 0x41, 0x42, 0x43, 0x44, 0x45, 0x46, 0x47, 0x41, 0x42, 0x55, 0x56,
          0x57, 0x58, 0x59, 0x5A] := by
  decide

/-- V-DEP-7: capacity 21 is CAPACITY(21). -/
theorem test_deplode_capacity :
    seen (exec .deplode (accepted 0x21 depFile 21 0 0)) = some (.capacity, 21, false, 0) := by
  decide

/-- What JH_CRYPT leaves in the first `n` bytes of its region at address 0. -/
def inPlace (o : Host.Outcome State Fault Refusal) (n : Nat) : List Byte :=
  match o with
  | .next t => bytesOf t.readByte 0 n
  | .fault _ => []
  | .refused _ => []

/-- V-JH-7: key 0x1234 with `P0[31:16]` ignored; the odd byte takes the key word's high byte. -/
theorem test_jhCrypt :
    inPlace (exec .jhCrypt (accepted 0x30 [0x12, 0x34, 0x56, 0x78, 0x9A] 0 0xFFFF1234 0)) 5
      = [0x00, 0x00, 0x63, 0xB3, 0x08] := by
  decide

/-- V-CMD-2: the reserved opcodes end with MISUSE(0). -/
theorem test_reserved :
    seen (exec .reservedAdvlobCompress (accepted 0x16 [] 0 0 0)) = some (.misuse, 0, false, 0)
      ∧ seen (exec .reservedAdvlobDecompress (accepted 0x17 [] 0 0 0)) = some (.misuse, 0, false, 0) := by
  decide

/-- V-CMD-4: overlapping regions end with MISUSE(0). -/
theorem test_overlap :
    seen (exec .lobCompress
      { accepted 0x10 [] 0 0 0 with
        ctx := { src := 0x1000, slen := 27, dst := 0x1010, dcap := 64, p0 := 0, p1 := 0, op := 0x10 } })
      = some (.misuse, 0, false, 0) := by
  decide

/-! ### The register port -/

/-- V-CMD-1, with P1's register writes: CMD 0 ends with MISUSE(0), STATUS 0x406, and CMD reads 0. -/
theorem test_commandSession :
    (match Sys2Proof.core.run 3
        { State.reset with inputs := [.regWrite 32 0x0C 0x1000, .regWrite 32 0x08 0, .engineTurn] } with
      | .next t => (t.register 0x04, t.register 0x08, t.register 0x0C)
      | _ => (0, 0, 0))
      = (0x406, 0, 0x1000) := by
  decide

/-- The host overwrites both source bytes of an accepted TRIE_ADD: the entry holds the bytes as they stood at
acceptance (R48 item 1), and the command, whose operands are right, does not set ERR (R148, R164). -/
theorem test_disturbedTrieAdd :
    (match Sys2Proof.core.run 4
        { accepted 0x02 [1, 2] 0 0 2 with inputs := [.memWrite 0 8, .memWrite 1 9, .memWrite 1 10, .engineTurn] } with
      | .next t => (t.trie.entries, t.status.err, t.status.done, t.srcOld)
      | _ => ([], true, false, []))
      = ([(0, [1, 2])], false, true, []) := by
  decide

/-- A run length of 0 sets ERR, whatever the host wrote (R81, R146). -/
theorem test_disturbedTrieAdd_refused :
    (match Sys2Proof.core.run 2 { accepted 0x02 [1, 2] 0 0 0 with inputs := [.memWrite 0 8, .engineTurn] } with
      | .next t => (t.trie.entries, t.status.err)
      | _ => ([], false))
      = ([], true) := by
  decide

/-- Writing 0x16 to STATUS clears DONE, ERR, ERRCODE and OVR, and nothing else (R12). -/
theorem test_statusWrite :
    ({ busy := true, done := true, err := true, stored := true, ovr := true, errCode := .misuse : Status }.writeOnes
      0x16).word = 0x09 := by
  decide

/-! ### Tokens on a running command -/

/-- A running decompressor over a stream at address 0, with output still to come. -/
def running (op : Byte) (bs : List Byte) (n : Nat) (w : Work) : State :=
  { accepted (commandWord op) bs n n 0 with work := w }

/-- V-LOB-12's first two items: the literal 41, then `F0 01` copies it, cut at `N`. -/
theorem test_lob_items :
    workOf (exec (.lobCtrl 0x80)
        (running opLobDecompress [0x80] 9 (.lobDec { i := 1, tok := 0, out := [], ctl := 0, k := 8 })))
      = some (.lobDec { i := 1, tok := 0, out := [], ctl := 0x80, k := 0 })
    ∧ workOf (exec (.lobLit 0x41)
        (running opLobDecompress [0x80] 9 (.lobDec { i := 2, tok := 1, out := [], ctl := 0x80, k := 0 })))
      = some (.lobDec { i := 2, tok := 1, out := [0x41], ctl := 0x80, k := 1 })
    ∧ written (exec (.lobMatch 15 1)
        (running opLobDecompress [0x80] 4 (.lobDec { i := 4, tok := 2, out := [0x41], ctl := 0x80, k := 1 }))) 4
      = [0x41, 0x41, 0x41, 0x41] := by
  decide

/-- V-XLOB-8's tokens: 5 zeros, then four 07; V-XLOB-11: the literal run needs a byte at index 3. -/
theorem test_xlob_runs :
    workOf (exec (.xlobZrle 2)
        (running opXlobDecompress [0, 2] 9 (.xlobDec { i := 2, tok := 0, out := [], res := none })))
      = some (.xlobDec { i := 2, tok := 0, out := [0, 0, 0, 0, 0], res := none })
    ∧ written (exec (.xlobLrle 1 7)
        (running opXlobDecompress [0, 2] 4 (.xlobDec { i := 2, tok := 0, out := [], res := none }))) 4 = [7, 7, 7, 7]
    ∧ seen (exec (.xlobLitrun 5)
        (running opXlobDecompress [5, 0x41, 0x42] 5 (.xlobDec { i := 1, tok := 0, out := [], res := none })))
      = some (.format, 3, false, 0)
    ∧ written (exec (.xlobSlit 4)
        (running opXlobDecompress [0xE4] 1 (.xlobDec { i := 1, tok := 0, out := [], res := none }))) 1 = [4] := by
  decide

/-- V-XLOB-12's two large matches: the first keeps nibble 3, the second takes it. V-XLOB-10: `d = 0` is FORMAT(1). -/
theorem test_xlob_matches :
    workOf (exec (.xlobLmatchFirst 0 0 3 3)
        (running opXlobDecompress [] 9 (.xlobDec { i := 7, tok := 4, out := [0x41, 0x42, 0x43], res := none })))
      = some (.xlobDec { i := 7, tok := 4, out := [0x41, 0x42, 0x43, 0x41, 0x42, 0x43], res := some 3 })
    ∧ workOf (exec (.xlobLmatchSecond 0 0)
        (running opXlobDecompress [] 9 (.xlobDec { i := 9, tok := 7, out := [0x41, 0x42, 0x43], res := some 3 })))
      = some (.xlobDec { i := 9, tok := 7, out := [0x41, 0x42, 0x43, 0x41, 0x42, 0x43], res := none })
    ∧ seen (exec (.xlobSmatch 0 0)
        (running opXlobDecompress [] 4 (.xlobDec { i := 3, tok := 1, out := [1], res := none })))
      = some (.format, 1, false, 0) := by
  decide

/-- V-TLOB-15's skip region, V-TLOB-6's escape and V-TLOB-10's literals. -/
theorem test_tlob_bytes :
    workOf (exec (.tlobSkip 2)
        (running opTlobDecompress [2, 5, 1, 0x48] 3
          (.tlobDec { i := 1, tok := 0, out := [], res := none, skipped := false })))
      = some (.tlobDec { i := 3, tok := 0, out := [5, 1], res := none, skipped := true })
    ∧ written (exec (.tlobLit 0x48)
        (running opTlobDecompress [] 1 (.tlobDec { i := 4, tok := 3, out := [], res := none, skipped := true }))) 1
      = [0x48]
    ∧ written (exec .tlobZero
        (running opTlobDecompress [] 1 (.tlobDec { i := 4, tok := 3, out := [], res := none, skipped := true }))) 1
      = [0] := by
  decide

/-- V-TLOB-4's pair of short matches at distance 6, and V-TLOB-11's long match beyond the output. -/
theorem test_tlob_matches :
    workOf (exec (.tlobShortFirst 0 3 3)
        (running opTlobDecompress [] 12
          (.tlobDec { i := 9, tok := 7, out := [1, 2, 3, 4, 5, 6], res := none, skipped := true })))
      = some (.tlobDec { i := 9, tok := 7, out := [1, 2, 3, 4, 5, 6, 1, 2], res := some 3, skipped := true })
    ∧ workOf (exec (.tlobShortSecond 0)
        (running opTlobDecompress [] 12
          (.tlobDec { i := 9, tok := 7, out := [1, 2, 3, 4, 5, 6], res := some 3, skipped := true })))
      = some (.tlobDec { i := 9, tok := 7, out := [1, 2, 3, 4, 5, 6, 1, 2], res := none, skipped := true })
    ∧ seen (exec (.tlobLong 0 0)
        (running opTlobDecompress [] 5 (.tlobDec { i := 4, tok := 2, out := [0x41], res := none, skipped := true })))
      = some (.format, 2, false, 0) := by
  decide

/-- The distance table of the V-DEP files. -/
def depT : List Byte := [1, 0, 1, 0, 2, 0, 4, 0, 2, 2, 3, 4, 4, 5, 6, 7, 8, 8, 9, 10]

/-- A running DEPLODE with eight unread bits, a given prepared buffer and output, at a phase. -/
def depAt (bb : Byte) (prepared out : List Byte) (phase : DepPhase) : Dep :=
  { prepared := prepared, table := depT, size := 64, cur := prepared.length, bb := bb, bc := 8, lit := 0, out := out
    phase := phase }

def runningDep (w : Dep) : State := running opDeplode [] 64 (.dep w)

/-- V-DEP-1's `11110 100` is match length 9 with selector 3; V-DEP-2's `11111` with raw byte 15 is length 20. -/
theorem test_dep_selectors :
    workOf (exec (.depSellen11110 4) (runningDep (depAt 0 [] [] .selLen)))
      = some (.dep (depAt 0 [] [] (.litLen 3 9)))
    ∧ workOf (exec .depSellen11111 (runningDep (depAt 0 [0x15] [] .selLen)))
      = some (.dep { depAt 0 [0x15] [] (.litLen 3 20) with cur := 0 })
    ∧ workOf (exec .depSellen0 (runningDep (depAt 0 [] [] .selLen))) = some (.dep (depAt 0 [] [] (.litLen 0 1)))
    ∧ workOf (exec .depSellen10 (runningDep (depAt 0 [] [] .selLen))) = some (.dep (depAt 0 [] [] (.litLen 1 2)))
    ∧ workOf (exec .depSellen110 (runningDep (depAt 0 [] [] .selLen))) = some (.dep (depAt 0 [] [] (.litLen 2 3)))
    ∧ workOf (exec .depSellen1110 (runningDep (depAt 0 [] [] .selLen)))
      = some (.dep (depAt 0 [] [] (.litLen 3 4))) := by
  decide

/-- V-DEP-1's group 1 with bits `0100` is 2 + 4 = 6; group 0 with bit 1 is 1; group 2 of selector 0 with bits 0100
is 6 + 4 = 10. -/
theorem test_dep_literal_lengths :
    workOf (exec .depLitlen10 (runningDep (depAt 0x40 [] [] (.litLen 3 9))))
      = some (.dep { depAt 0x00 [] [] (.dist 3 9) with bc := 4, lit := 6 })
    ∧ workOf (exec .depLitlen0 (runningDep (depAt 0x80 [] [] (.litLen 0 1))))
      = some (.dep { depAt 0x00 [] [] (.dist 0 1) with bc := 7, lit := 1 })
    ∧ workOf (exec .depLitlen11 (runningDep (depAt 0x40 [] [] (.litLen 0 1))))
      = some (.dep { depAt 0x00 [] [] (.dist 0 1) with bc := 4, lit := 10 }) := by
  decide

/-- Selector 0: group 0 with bits 01 is distance 2; group 1 with bits 0000 is distance 4 + 0 + 1 = 5, beyond an
output of 3; group 2 with bits 0 is distance 0x0100 + 1, FORMAT at the cursor. -/
theorem test_dep_distances :
    workOf (exec .depDist0 (runningDep (depAt 0x40 [] [1, 2, 3] (.dist 0 1))))
      = some (.dep { depAt 0x00 [] [1, 2, 3, 2] .run with bc := 6 })
    ∧ seen (exec .depDist10 (runningDep (depAt 0x00 [7] [1, 2, 3] (.dist 0 1)))) = some (.format, 1, false, 0)
    ∧ seen (exec .depDist11 (runningDep (depAt 0x00 [] [1, 2, 3] (.dist 0 1)))) = some (.format, 0, false, 0) := by
  decide

/-- V-JH-2's first word: `1234 ^ 1234` is 0, and the next key word is 35CB. -/
theorem test_jhWord :
    workOf (exec (.jhWord 0x1234)
        (running opJhCrypt [0x12, 0x34, 0x56, 0x78, 0x9A] 0 (.jh { j := 0, d0 := 0x1234, d1 := 0 })))
      = some (.jh { j := 2, d0 := 0x35CB, d1 := 0x1234 }) := by
  decide

/-! ### States and operands that meet the statements' hypotheses

One theorem per statement of Certificates/Slice0/Obligations.lean that has hypotheses, with a case at the boundary of
each clause. -/

/-- The state a next outcome holds. -/
def next (o : Host.Outcome State Fault Refusal) : State :=
  match o with
  | .next t => t
  | .fault _ => State.reset
  | .refused _ => State.reset

/-- A command accepted with the given regions, in a memory of 64 KiB. -/
def regions (word : Word) (src slen dst dcap : Word) : State :=
  { accepted word [] 0 0 0 with
    ctx := { src := src, slen := slen, dst := dst, dcap := dcap, p0 := 0, p1 := 0, op := word.extractLsb' 0 8 } }

theorem witness_DecodeUndoesEncode :
    (Instr.tlobLong 479 7).wellFormed = true ∧ formatOf (.tlobLong 479 7) = .tlob false
      ∧ (Instr.xlobSmatch 15 511).wellFormed = true ∧ formatOf (.xlobSmatch 15 511) = .xlob false := by
  decide

theorem witness_EncodeUndoesDecode : decode (.tlob false) (.bytes [0x1E, 0xFF]) = .token (.tlobLong 479 7) := by
  decide

theorem witness_StepRunsTheAcceptedCommand :
    (Accepted (accepted 0x30 [] 0 0 0) ∧ decodeCommand (accepted 0x30 [] 0 0 0).cmd = .token .jhCrypt)
      ∧ { accepted 0x30 [] 0 0 0 with inputs := [.engineTurn] }.inputs = .engineTurn :: [] := by
  unfold Accepted EngineNext
  decide

/-- The last byte of the stream is the next token's. -/
theorem witness_StepRunsTheNextStreamToken :
    let s := running opXlobDecompress [0xE1] 1 (.xlobDec { i := 0, tok := 0, out := [], res := none })
    EngineNext s ∧ s.streamAt = some (.xlob false, 0) ∧ decodeBytes (.xlob false) [0xE1] = .token (.xlobSlit 1)
      ∧ (∀ j b, [(0xE1 : Byte)][j]? = some b → s.srcByte (0 + j) = b) ∧ 0 + [(0xE1 : Byte)].length ≤ s.slen := by
  refine ⟨by unfold EngineNext; decide, by decide, by decide, fun j b h => ?_, by decide⟩
  match j with
  | 0 =>
    obtain rfl : 0xE1 = b := by simpa using h
    decide
  | j + 1 => simp at h

/-- The code's last bit is the last bit of the buffer. -/
theorem witness_StepRunsTheNextDeplodeCode :
    let w : Dep := { depAt 0x80 [] [] .selLen with bc := 2 }
    EngineNext (runningDep w) ∧ (runningDep w).work = .dep w ∧ w.ready ∧ w.phase.format = some .depSelLen
      ∧ decodeBits .depSelLen [true, false] = .token .depSellen10 ∧ w.bitsAhead = [true, false] ++ [] := by
  unfold EngineNext Dep.ready
  decide

/-- Two bytes left, and one. -/
theorem witness_StepRunsTheNextJhWord :
    let s (j : Nat) := running opJhCrypt [1, 2, 3] 0 (.jh { j := j, d0 := 0, d1 := 0 })
    (EngineNext (s 1) ∧ 1 + 1 < (s 1).slen) ∧ EngineNext (s 2) ∧ (s 2).slen ≤ 2 + 1 := by
  unfold EngineNext
  decide

/-- Bit 8 is set; opcode 0x31 has no row. -/
theorem witness_IllegalAndReservedWordsEndInMisuse :
    (Accepted (accepted 0x101 [] 0 0 0) ∧ Undisturbed (accepted 0x101 [] 0 0 0)
        ∧ (accepted 0x101 [] 0 0 0).cmd.extractLsb' 8 24 ≠ 0)
      ∧ (Accepted (accepted 0x31 [] 0 0 0) ∧ Undisturbed (accepted 0x31 [] 0 0 0)
        ∧ instrOfOpcode ((accepted 0x31 [] 0 0 0).cmd.extractLsb' 0 8) = none)
      ∧ Undisturbed (accepted 0x16 [] 0 0 0) := by
  unfold Accepted EngineNext Undisturbed
  decide

theorem witness_ResetLeavesTheBlockIdle :
    { State.reset with inputs := [.resetLow] }.inputs = .resetLow :: []
      ∧ { State.reset.resetLow with inputs := [.resetHigh] }.inputs = .resetHigh :: [] := by
  decide

theorem witness_ResetCutsACommandShort :
    let s := { accepted 0x10 [1] 1 0 0 with inputs := [.resetLow] }
    s.inputs = .resetLow :: [] ∧ s.inActiveDest 0xFFF = false ∧ s.inActiveDest 0x1000 = true := by
  decide

theorem witness_EveryStepKeepsTheInvariant :
    (accepted 0x01 [] 0 4095 0).Inv ∧ ∃ t, step (accepted 0x01 [] 0 4095 0) = .next t := by
  refine ⟨⟨⟨.nil, by decide⟩, by decide, ⟨by decide, by decide, .nil, by decide, fun _ => rfl, fun o h => ?_⟩, trivial,
    fun _ => ⟨rfl, rfl, rfl⟩, by decide, by decide⟩, _, rfl⟩
  cases h

theorem witness_EveryCommandCompletes : isCommand .trieInit = true ∧ isCommand .jhCrypt = true := by decide

theorem witness_TokenByTokenRunAgrees :
    let s := accepted 0x11 [0x80, 0x41, 0xF0, 0x01, 0xF0, 0x01] 20 20 0
    Accepted s ∧ s.response = .none ∧ decodeCommand s.cmd = .token .lobDecompress := by
  unfold Accepted EngineNext
  decide

theorem witness_CommandsWriteOnlyTheirRegions :
    (∃ t, exec .trieAdd (accepted 0x02 [1] 0 0 1) = .next t)
      ∧ (∃ t, exec .lobCompress (accepted 0x10 [1] 1 0 0) = .next t)
      ∧ (∃ t, exec .jhCrypt (accepted 0x30 [1] 0 0 0) = .next t)
      ∧ ∃ t, exec (.lobCtrl 0)
          (running opLobDecompress [0] 1 (.lobDec { i := 1, tok := 0, out := [], ctl := 0, k := 8 })) = .next t :=
  ⟨⟨_, rfl⟩, ⟨_, rfl⟩, ⟨_, rfl⟩, ⟨_, rfl⟩⟩

/-- A TRIE_ADD whose second source byte the host is about to overwrite, and has overwritten. -/
theorem witness_SourceIsReadAsAccepted :
    let s : State := { accepted 0x02 [1, 2] 0 0 2 with inputs := [.memWrite 1 9] }
    (s.inputs = .memWrite 1 9 :: [] ∧ (∃ t, step s = .next t) ∧ s.activeOp = some opTrieAdd
        ∧ readsSource opTrieAdd = true)
      ∧ isCommand .trieAdd = true
      ∧ ∀ k, k < s.slen → Memory.read [(0, 1), (1, 2)] (s.src + k) = (next (step s)).srcByte k :=
  ⟨⟨rfl, ⟨_, rfl⟩, by decide, by decide⟩, rfl, by decide⟩

/-- A command of which the host has overwritten the destination region alone. -/
theorem witness_SourceIsReadAsAccepted_dest :
    let s : State := { accepted 0x10 [7] 1 0 0 with inputs := [.memWrite 0x1000 9] }
    isCommand .lobCompress = true ∧ (next (step s)).srcDirty = false ∧ (next (step s)).dstDirty = true
      ∧ ∀ k, k < s.slen → Memory.read [(0, 7)] (s.src + k) = (next (step s)).srcByte k := by
  decide

/-- Memory that differs just past the source region. -/
theorem witness_ResultDependsOnlyOnTheSource :
    let s := accepted 0x10 [7] 1 0 0
    isCommand .lobCompress = true ∧ Undisturbed s
      ∧ (∀ x, inRegion s.src s.slen x = true → Memory.read [(0, 7), (1, 9)] x = Memory.read s.mem x)
      ∧ s.mem = [(0, 7)] := by
  refine ⟨rfl, ⟨rfl, rfl⟩, fun x hx => ?_, by decide⟩
  obtain rfl : x = 0 := by
    have : 0 ≤ x ∧ x < 0 + 1 := of_decide_eq_true hx
    omega
  decide

/-- Regions that end one byte past memory, and regions that share one byte. -/
theorem witness_BadRegionsEndInMisuse :
    (Undisturbed (regions 0x10 0xFFFF 2 0 1) ∧ ¬ RegionsOk (regions 0x10 0xFFFF 2 0 1))
      ∧ ¬ RegionsOk (regions 0x10 0 1 0xFFFF 2) ∧ ¬ RegionsOk (regions 0x10 0 5 4 1)
      ∧ RegionsOk (regions 0x10 0xFFFF 1 0 1) ∧ RegionsOk (regions 0x10 0 5 5 1)
      ∧ (regions 0x30 0xFFFF 2 0 0).validRegion (regions 0x30 0xFFFF 2 0 0).src (regions 0x30 0xFFFF 2 0 0).slen
          = false := by
  unfold Undisturbed RegionsOk
  decide

theorem witness_DecompressChecksCapacityFirst :
    let s := accepted 0x11 [1] 19 20 0
    Undisturbed s ∧ RegionsOk s ∧ s.dcap < s.p0 := by
  unfold Undisturbed RegionsOk
  decide

/-- No byte left; V-LOB-16's match cut after one byte; a zero header without its count; a code cut after two bits. -/
theorem witness_StreamEndRaisesFormat :
    let s := running opLobDecompress [0] 1 (.lobDec { i := 1, tok := 0, out := [], ctl := 0, k := 8 })
    let u := running opLobDecompress [0x80, 0x41, 0xF0] 20
      (.lobDec { i := 2, tok := 1, out := [0x41], ctl := 0x80, k := 1 })
    let v := running opXlobDecompress [0] 3 (.xlobDec { i := 0, tok := 0, out := [], res := none })
    let w : Dep := { depAt 0xC0 [] [] .selLen with bc := 2 }
    (EngineNext s ∧ Undisturbed s ∧ s.streamAt = some (.lobControl, 1) ∧ s.slen ≤ 1)
      ∧ (EngineNext u ∧ Undisturbed u ∧ u.streamAt = some (.lobMatch, 2) ∧ 2 ≤ u.slen
        ∧ decodeBytes .lobMatch (bytesOf u.srcByte 2 (u.slen - 2)) = .more)
      ∧ (EngineNext v ∧ v.streamAt = some (.xlob false, 0)
        ∧ decodeBytes (.xlob false) (bytesOf v.srcByte 0 (v.slen - 0)) = .more)
      ∧ EngineNext (runningDep w) ∧ Undisturbed (runningDep w) ∧ w.ready ∧ w.phase.format = some .depSelLen
        ∧ decodeBits .depSelLen w.bitsAhead = .more := by
  unfold EngineNext Undisturbed Dep.ready
  decide

theorem witness_TrieInitSetsTheWindow :
    (accepted 0x01 [] 0 0 0).p0 = 0 ∧ Undisturbed (accepted 0x01 [] 0 4095 0)
      ∧ (accepted 0x01 [] 0 4095 0).p0 ≤ 4095
      ∧ Undisturbed (accepted 0x01 [] 0 4096 0) ∧ 4095 < (accepted 0x01 [] 0 4096 0).p0 := by
  unfold Undisturbed
  decide

/-- A run of one byte at the buffer's end, right above the last anchor. -/
theorem witness_TrieAddInsertsAndEvicts :
    let s : State :=
      { accepted 0x02 [1, 2] 0 1 1 with trie := { window := 1, entries := [(0, [1])], last := some 0 } }
    Undisturbed s ∧ s.validRegion s.src s.slen = true ∧ 1 ≤ s.p1 ∧ s.p1 ≤ 130 ∧ s.p0 + s.p1 ≤ s.slen
      ∧ ∀ q, s.trie.last = some q → q < s.p0 := by
  refine ⟨⟨rfl, rfl⟩, by decide, by decide, by decide, by decide, fun q h => ?_⟩
  obtain rfl : 0 = q := by simpa using h
  decide

theorem witness_TrieAddInsertsAndEvicts_refused :
    let t : Trie := { window := 4095, entries := [(1, [2])], last := some 1 }
    Undisturbed (accepted 0x02 [1, 2] 0 0 0) ∧ (accepted 0x02 [1, 2] 0 0 0).p1 < 1
      ∧ 130 < (accepted 0x02 [1, 2] 0 0 131).p1
      ∧ (accepted 0x02 [1, 2] 0 1 2).slen < (accepted 0x02 [1, 2] 0 1 2).p0 + (accepted 0x02 [1, 2] 0 1 2).p1
      ∧ { accepted 0x02 [1, 2] 0 1 1 with trie := t }.trie.last = some 1
      ∧ (accepted 0x02 [1, 2] 0 1 1).p0 ≤ 1 := by
  unfold Undisturbed
  decide

theorem witness_TrieMatchReportsTheSearch :
    let s := accepted 0x03 [1, 2] 0 1 1
    Undisturbed s ∧ s.validRegion s.src s.slen = true ∧ s.p1 ≤ 130 ∧ s.p0 + s.p1 ≤ s.slen
      ∧ 130 < (accepted 0x03 [1, 2] 0 1 131).p1
      ∧ (accepted 0x03 [1, 2] 0 2 1).slen < (accepted 0x03 [1, 2] 0 2 1).p0 + (accepted 0x03 [1, 2] 0 2 1).p1 := by
  unfold Undisturbed
  decide

theorem witness_SearchFindsTheLongestMatch :
    Trie.search { window := 4095, entries := [(0, [1, 2]), (2, [1, 3])], last := some 2 }
      (fun x => if x % 2 = 0 then 1 else 2) 4 2 = (0, 2) := by
  decide

/-- A run of ones: the entry of anchor 0 overlaps the search position 1. -/
theorem witness_MatchReproducesThePrefix :
    let t : Trie := { window := 4095, entries := [(0, [1, 1, 1])], last := some 0 }
    let S : Nat → Byte := fun _ => 1
    (∀ q' e', (q', e') ∈ t.entries → ∀ k b, e'[k]? = some b → b = S (q' + k)) ∧ t.search S 1 3 = (0, 3) ∧ 0 < 3 := by
  refine ⟨fun q' e' h k b hb => ?_, by decide, by decide⟩
  obtain ⟨rfl, rfl⟩ : q' = 0 ∧ e' = [1, 1, 1] := by simpa using h
  match k with
  | 0 | 1 | 2 => simpa using hb.symm
  | k + 3 => simp at hb

theorem witness_LobCompressStoresShortInputs :
    let s := accepted 0x10 (List.replicate 19 1) 19 0 0
    let u := accepted 0x10 (List.replicate 19 1) 18 0 0
    (Undisturbed s ∧ RegionsOk s ∧ s.slen < 20 ∧ s.slen ≤ s.dcap) ∧ Undisturbed u ∧ RegionsOk u ∧ u.slen < 20
      ∧ u.dcap < u.slen := by
  unfold Undisturbed RegionsOk
  decide

theorem witness_LobCompressWritesAnEvenStream :
    let s := accepted 0x10 (List.replicate 20 1) 26 0 0
    Undisturbed s ∧ RegionsOk s ∧ 20 ≤ s.slen ∧ s.slen + s.slen / 8 + 4 ≤ s.dcap := by
  unfold Undisturbed RegionsOk
  decide

/-- The invariant of a running command, its trie's last anchor given. -/
theorem inv_running {s : State} (hb : s.status = { Status.reset with busy := true }) (hr : s.rstLow = false)
    (hm : Memory.wf s.mem ∧ ∀ c ∈ s.mem, c.1 < s.memSize)
    (ht : 1 ≤ s.trie.window ∧ s.trie.window ≤ Config.trieMaxWindow ∧ s.trie.entries.Pairwise (fun d e => d.1 < e.1)
      ∧ (∀ e ∈ s.trie.entries, 1 ≤ e.2.length ∧ e.2.length ≤ Config.trieMaxRun)
      ∧ (s.trie.last = none → s.trie.entries = [])
      ∧ ∀ o ∈ s.trie.last.toList, o < 2 ^ 32 ∧ ∀ e ∈ s.trie.entries, e.1 ≤ o ∧ o + 1 ≤ e.1 + s.trie.window)
    (he : WorkInStep s) : s.Inv := by
  obtain ⟨h1, h2, h3, h4, h5, h6⟩ := ht
  exact ⟨hm.1, hm.2, ⟨h1, h2, h3, h4, h5, fun o ho => h6 o (by simp [ho])⟩, he, fun h => by simp [hb] at h,
    fun h => by simp [hr] at h, fun _ => by simp [hb, Status.reset]⟩

/-- A compressor running over a source at address 0, its trie the runs of the positions before `k`. -/
def encoding (op : Byte) (bs : List Byte) (window cap k : Nat) (w : Work) : State :=
  { accepted (commandWord op) bs 64 0 0 with
    trie := (Trie.withWindow window).inserts (fun x => bs.getD x 0) bs.length cap 0 k
    work := w }

theorem witness_LobCompressWritesAnEvenStream_begin :
    let s := { accepted 0x10 (List.replicate 20 1) 26 0 0 with inputs := [.engineBegin] }
    Beginning s .lobCompress [] ∧ RegionsOk s ∧ 20 ≤ s.slen := by
  unfold Beginning RegionsOk
  decide

/-- A match of 3 bytes, and one of 2, at position 3; the parse's end. -/
theorem witness_LobCompressWritesAnEvenStream_items :
    let w : LobEnc := { p := 3, out := [0xE0, 1, 2, 3], ci := some 0, cnt := 3 }
    let s (bs : List Byte) := encoding opLobCompress bs 4095 18 3 (.lobEnc w)
    (EngineNext (s [1, 2, 3, 1, 2, 3]) ∧ (s [1, 2, 3, 1, 2, 3]).Inv ∧ w.p < (s [1, 2, 3, 1, 2, 3]).slen
        ∧ (s [1, 2, 3, 1, 2, 3]).trie.search (s [1, 2, 3, 1, 2, 3]).srcByte w.p (min 18 (6 - w.p)) = (0, 3))
      ∧ (EngineNext (s [1, 2, 3, 1, 2]) ∧ (s [1, 2, 3, 1, 2]).Inv
        ∧ (s [1, 2, 3, 1, 2]).trie.search (s [1, 2, 3, 1, 2]).srcByte w.p (min 18 (5 - w.p)) = (0, 2))
      ∧ EngineNext (s [1, 2, 3]) ∧ Undisturbed (s [1, 2, 3]) ∧ RegionsOk (s [1, 2, 3]) ∧ (s [1, 2, 3]).slen ≤ w.p := by
  refine ⟨⟨by unfold EngineNext; decide, ?_, by decide, by decide⟩, ⟨by unfold EngineNext; decide, ?_, by decide⟩, ?_⟩
  · exact inv_running rfl rfl (by decide) (by decide) ⟨rfl, rfl⟩
  · exact inv_running rfl rfl (by decide) (by decide) ⟨rfl, rfl⟩
  · unfold EngineNext Undisturbed RegionsOk
    decide

theorem witness_CompressFailsOnlyForCapacity :
    let s (dcap : Nat) := accepted 0x10 (List.replicate 20 1) dcap 0 0
    (Undisturbed (s 0) ∧ RegionsOk (s 0) ∧ 20 ≤ (s 0).slen) ∧ isCompress (opcodeOf .lobCompress) = true
      ∧ RegionsOk (s 6) ∧ RegionsOk (s 5) ∧ (next (exec .lobCompress (s 26))).status.err = false
      ∧ (next (exec .lobCompress (s 26))).outLen.toNat ≤ (s 6).dcap
      ∧ (s 5).dcap < (next (exec .lobCompress (s 26))).outLen.toNat := by
  unfold Undisturbed RegionsOk
  decide

/-- V-LOB-12's stream: its control byte, a literal, and a match that passes `N`. -/
def lobUnits : List (Instr × List Byte) :=
  [(.lobCtrl 0x80, []), (.lobLit 0x41, []), (.lobMatch 15 1, []), (.lobMatch 15 1, [])]

theorem test_stream_lob :
    streamOf lobUnits = [0x80, 0x41, 0xF0, 0x01, 0xF0, 0x01]
      ∧ decoded lobAppends 20 (0, 8) [] lobUnits = some (List.replicate 20 0x41) := by
  decide

/-- The source region begins with a stream that fills it. -/
theorem sourceBegins_of {s : State} {bs : List Byte} (hl : bs.length ≤ s.slen)
    (h : bytesOf s.srcByte 0 bs.length = bs) : s.sourceBegins bs := by
  refine ⟨hl, fun j b hj => ?_⟩
  have hlt : j < bs.length := (List.getElem?_eq_some_iff.1 hj).1
  rw [← h] at hj
  simpa [bytesOf, hlt] using hj

theorem witness_LobDecompressDecodesItsStream_items :
    let s := accepted 0x11 [0x80, 0x41, 0xF0, 0x01, 0xF0, 0x01] 20 20 0
    Undisturbed s ∧ RegionsOk s ∧ s.p0 ≤ s.dcap ∧ 20 ≤ s.p0 ∧ s.sourceBegins (streamOf lobUnits)
      ∧ decoded lobAppends s.p0 (0, 8) [] lobUnits = some (List.replicate 20 0x41) := by
  refine ⟨⟨rfl, rfl⟩, ?_, by decide, by decide, sourceBegins_of (by decide) (by decide), by decide⟩
  unfold RegionsOk
  decide

theorem witness_LobDecompressDecodesItsStream :
    let s := accepted 0x11 (List.replicate 19 1) 19 19 0
    let u := accepted 0x11 (List.replicate 18 1) 19 19 0
    (Undisturbed s ∧ RegionsOk s ∧ s.p0 ≤ s.dcap ∧ s.p0 < 20 ∧ s.p0 ≤ s.slen)
      ∧ Undisturbed u ∧ RegionsOk u ∧ u.p0 ≤ u.dcap ∧ u.p0 < 20 ∧ u.slen < u.p0 := by
  unfold Undisturbed RegionsOk
  decide

/-- The last byte of the output is still to come; the last item of a block. -/
theorem witness_LobControlAndLiteralItems :
    let w (k : Nat) : LobDec := { i := 1, tok := 0, out := [1], ctl := 1, k := k }
    let s (k : Nat) := running opLobDecompress [1] 2 (.lobDec (w k))
    ((s 8).work = .lobDec (w 8) ∧ Decoding (s 8) (w 8).out ∧ (w 8).k = 8)
      ∧ (s 7).work = .lobDec (w 7) ∧ Decoding (s 7) (w 7).out ∧ (w 7).k < 8
        ∧ (w 7).ctl.getLsbD (7 - (w 7).k) = true := by
  unfold Decoding Undisturbed
  decide

/-- The distance reaches the first byte; it is 0; it is one too many. -/
theorem witness_LobMatchItemCopies :
    let w : LobDec := { i := 3, tok := 1, out := [1, 2], ctl := 0, k := 7 }
    let s := running opLobDecompress [0, 0, 2] 3 (.lobDec w)
    s.work = .lobDec w ∧ Decoding s w.out ∧ w.k < 8 ∧ w.ctl.getLsbD (7 - w.k) = false
      ∧ (1 ≤ (2 : BitVec 12).toNat ∧ (2 : BitVec 12).toNat ≤ w.out.length) ∧ (0 : BitVec 12).toNat = 0
      ∧ w.out.length < (3 : BitVec 12).toNat := by
  unfold Decoding Undisturbed
  decide

theorem witness_LobDecompressUndoesCompress :
    let s := accepted 0x10 [7] 1 0 0
    let t := next (exec .lobCompress s)
    let v : State :=
      { accepted 0x11 [] 0 0 0 with
        mem := t.mem
        ctx := { src := 0x1000, slen := 1, dst := 0x2000, dcap := 1, p0 := 1, p1 := 0, op := 0x11 } }
    Undisturbed s ∧ RegionsOk s ∧ exec .lobCompress s = .next t ∧ t.status.err = false ∧ Undisturbed v
      ∧ RegionsOk v ∧ v.mem = t.mem ∧ v.src = s.dst ∧ v.slen = t.outLen.toNat ∧ v.p0 = s.slen ∧ s.slen ≤ v.dcap := by
  refine ⟨⟨rfl, rfl⟩, ?_, rfl, by decide, ⟨rfl, rfl⟩, ?_, rfl, by decide, by decide, by decide, by decide⟩ <;>
    (unfold RegionsOk; decide)

theorem witness_XlobCompressWritesAnEvenStream :
    let s := accepted 0x12 [1] 4 0 0
    Undisturbed s ∧ RegionsOk s ∧ 2 * s.slen + 2 ≤ s.dcap := by
  unfold Undisturbed RegionsOk
  decide

theorem witness_XlobCompressWritesAnEvenStream_begin :
    let s := { accepted 0x12 [1] 4 0 0 with inputs := [.engineBegin] }
    Beginning s .xlobCompress [] ∧ RegionsOk s := by
  unfold Beginning RegionsOk
  decide

/-- A run of 3 with no match; a run of 3 and a match of 4; a run and a match of 2; the parse's end. -/
theorem witness_XlobCompressWritesAnEvenStream_tokens :
    let w (p : Nat) (lits : List Byte) : XlobEnc := { p := p, out := [], lits := lits, pend := none }
    let s (bs : List Byte) (p : Nat) (lits : List Byte) := encoding opXlobCompress bs 1023 130 p (.xlobEnc (w p lits))
    let a := s [7, 7, 7] 0 []
    let b := s [7, 7, 7, 1, 7, 7, 7, 1] 4 []
    let c := s [1, 1, 2, 1, 1] 3 [1, 1, 2]
    let d := s [7, 7, 7] 3 []
    (EngineNext a ∧ a.Inv ∧ 0 < a.slen ∧ IsRunAt a.srcByte a.slen 0 3
        ∧ a.trie.search a.srcByte 0 (min 130 (a.slen - 0)) = (0, 0))
      ∧ (EngineNext b ∧ b.Inv ∧ 4 < b.slen ∧ IsRunAt b.srcByte b.slen 4 3
        ∧ b.trie.search b.srcByte 4 (min 130 (b.slen - 4)) = (0, 4))
      ∧ (EngineNext c ∧ c.Inv ∧ 3 < c.slen ∧ IsRunAt c.srcByte c.slen 3 2
        ∧ c.trie.search c.srcByte 3 (min 130 (c.slen - 3)) = (0, 2))
      ∧ EngineNext d ∧ d.Inv ∧ Undisturbed d ∧ RegionsOk d ∧ d.slen ≤ 3 := by
  refine ⟨⟨?_, inv_running rfl rfl ?_ ?_ ⟨rfl, rfl, ?_⟩, ?_⟩, ⟨?_, inv_running rfl rfl ?_ ?_ ⟨rfl, rfl, ?_⟩, ?_⟩,
    ⟨?_, inv_running rfl rfl ?_ ?_ ⟨rfl, rfl, ?_⟩, ?_⟩, ?_, inv_running rfl rfl ?_ ?_ ⟨rfl, rfl, ?_⟩, ?_⟩ <;>
    (try unfold EngineNext) <;> (try unfold IsRunAt) <;> (try unfold Undisturbed RegionsOk) <;> decide

/-- V-XLOB-12's stream: a literal run, then two large matches that share a reserve byte. -/
def xlobUnits : List (Instr × List Byte) :=
  [(.xlobLitrun 3, [0x41, 0x42, 0x43]), (.xlobLmatchFirst 0 0 3 3, []), (.xlobLmatchSecond 0 0, [])]

theorem test_stream_xlob :
    streamOf xlobUnits = [0x03, 0x41, 0x42, 0x43, 0xA0, 0x00, 0x33, 0xA0, 0x00]
      ∧ decoded xlobAppends 9 none [] xlobUnits
        = some [0x41, 0x42, 0x43, 0x41, 0x42, 0x43, 0x41, 0x42, 0x43] := by
  decide

theorem witness_XlobDecompressDecodesItsStream_tokens :
    let s := accepted 0x13 [0x03, 0x41, 0x42, 0x43, 0xA0, 0x00, 0x33, 0xA0, 0x00] 9 9 0
    Undisturbed s ∧ RegionsOk s ∧ s.p0 ≤ s.dcap ∧ s.sourceBegins (streamOf xlobUnits)
      ∧ (decoded xlobAppends s.p0 none [] xlobUnits).isSome = true := by
  refine ⟨⟨rfl, rfl⟩, ?_, by decide, sourceBegins_of (by decide) (by decide), by decide⟩
  unfold RegionsOk
  decide

theorem witness_XlobDecompressUndoesCompress :
    let s := accepted 0x12 [7] 2 0 0
    let t := next (exec .xlobCompress s)
    let v : State :=
      { accepted 0x13 [] 0 0 0 with
        mem := t.mem
        ctx := { src := 0x1000, slen := t.outLen, dst := 0x2000, dcap := 1, p0 := 1, p1 := 0, op := 0x13 } }
    Undisturbed s ∧ RegionsOk s ∧ exec .xlobCompress s = .next t ∧ t.status.err = false ∧ Undisturbed v
      ∧ RegionsOk v ∧ v.mem = t.mem ∧ v.src = s.dst ∧ v.slen = t.outLen.toNat ∧ v.p0 = s.slen ∧ s.slen ≤ v.dcap := by
  refine ⟨⟨rfl, rfl⟩, ?_, rfl, by decide, ⟨rfl, rfl⟩, ?_, rfl, by decide, by decide, by decide, by decide⟩ <;>
    (unfold RegionsOk; decide)

theorem witness_XlobDecompressDecodesItsStream :
    let s := accepted 0x13 [0, 2] 5 5 0
    (Undisturbed s ∧ RegionsOk s ∧ s.p0 ≤ s.dcap ∧ 0 < s.p0 ∧ 2 ≤ s.slen ∧ s.srcByte 0 = 0
        ∧ s.p0 ≤ (s.srcByte 1).toNat + 3)
      ∧ RegionsOk (accepted 0x13 [] 0 0 0) ∧ (accepted 0x13 [] 0 0 0).p0 = 0 := by
  unfold Undisturbed RegionsOk
  decide

theorem witness_XlobRunTokensAppend :
    let w : XlobDec := { i := 2, tok := 0, out := [1], res := none }
    let s := running opXlobDecompress [0, 2] 2 (.xlobDec w)
    s.work = .xlobDec w ∧ Decoding s w.out := by
  unfold Decoding Undisturbed
  decide

/-- The run ends at the stream's end; it is one byte longer. -/
theorem witness_XlobLiteralRunCopiesTheStream :
    let w : XlobDec := { i := 1, tok := 0, out := [], res := none }
    let s := running opXlobDecompress [2, 7, 8] 9 (.xlobDec w)
    s.work = .xlobDec w ∧ Decoding s w.out
      ∧ w.i + min (2 : BitVec 7).toNat (s.p0 - w.out.length) ≤ s.slen
      ∧ w.i ≤ s.slen ∧ s.slen < w.i + min (3 : BitVec 7).toNat (s.p0 - w.out.length) := by
  unfold Decoding Undisturbed
  decide

/-- Each of the three tokens at a distance that reaches the first byte; distances 0 and one too many. -/
theorem witness_XlobMatchTokensCopy :
    let w (res : Option (BitVec 4)) : XlobDec := { i := 3, tok := 1, out := [1, 2], res := res }
    let s (res : Option (BitVec 4)) := running opXlobDecompress [0xE1, 0, 0] 3 (.xlobDec (w res))
    ((s none).work = .xlobDec (w none) ∧ Decoding (s none) (w none).out ∧ (2 : BitVec 9).toNat = (w none).out.length
        ∧ (0 : BitVec 9).toNat = 0 ∧ (w none).out.length < (3 : BitVec 9).toNat)
      ∧ (0 * 4096 + 0 * 16 + (2 : BitVec 4).toNat) % 1024 = (w none).out.length
      ∧ (s (some 2)).work = .xlobDec (w (some 2)) ∧ Decoding (s (some 2)) (w (some 2)).out
      ∧ (w (some 2)).res = some 2 := by
  unfold Decoding Undisturbed
  decide

/-- Skip counts 256 and one past the input; a byte 31 right at the skip region's end; room for exactly the worst
case. -/
theorem witness_TlobCompressChecksThenWrites :
    let s := accepted 0x14 [0x41, 0x1F] 0 0 1
    let u := accepted 0x14 [0x1F, 0x20] 4 0 1
    (Undisturbed s ∧ RegionsOk s ∧ 255 < (accepted 0x14 [0x41] 0 0 256).p1)
      ∧ ((accepted 0x14 [0x41] 0 0 2).p1 ≤ 255
          ∧ (accepted 0x14 [0x41] 0 0 2).slen < (accepted 0x14 [0x41] 0 0 2).p1)
      ∧ (s.p1 ≤ 255 ∧ s.p1 ≤ 1 ∧ 1 < s.slen ∧ 1 ≤ (s.srcByte 1).toNat ∧ (s.srcByte 1).toNat ≤ 31)
      ∧ Undisturbed u ∧ RegionsOk u ∧ u.p1 ≤ 255 ∧ u.p1 ≤ u.slen
      ∧ (∀ k, k < u.slen → u.p1 ≤ k → ¬ (1 ≤ (u.srcByte k).toNat ∧ (u.srcByte k).toNat ≤ 31))
      ∧ u.slen + 2 ≤ u.dcap := by
  unfold Undisturbed RegionsOk
  decide

theorem witness_TlobCompressChecksThenWrites_begin :
    let s := { accepted 0x14 [0x1F, 0x20] 4 0 1 with inputs := [.engineBegin] }
    Beginning s .tlobCompress [] ∧ RegionsOk s ∧ s.p1 ≤ 255 ∧ s.p1 ≤ s.slen
      ∧ ∀ k, k < s.slen → s.p1 ≤ k → ¬ (1 ≤ (s.srcByte k).toNat ∧ (s.srcByte k).toNat ≤ 31) := by
  unfold Beginning RegionsOk
  decide

/-- A TLOB_COMPRESS at position `p` of a source that ends in "ab" and repeats the "ab" at its start. -/
def textAt (p : Nat) : State :=
  { encoding opTlobCompress [] 480 10 0 (.tlobEnc { p := p, out := [0], pend := none, nxt := p - 2 }) with
    mem := [(p, 0x61), (p + 1, 0x62)]
    ctx := { (accepted 0x14 [] 64 0 0).ctx with slen := BitVec.ofNat 32 (p + 2) }
    trie := { window := 480, entries := [(0, [0x61, 0x62])], last := some (p - 3) } }

/-- A match of 3 bytes found by an anchor inserted at once; matches of 2 bytes at distances 258 and 259; one of 1
byte; the parse's end. -/
theorem witness_TlobCompressChecksThenWrites_tokens :
    let w : TlobEnc := { p := 3, out := [0, 0x61, 0x62, 0x63], pend := none, nxt := 0 }
    let s (bs : List Byte) := encoding opTlobCompress bs 480 10 0 (.tlobEnc w)
    let a := s [0x61, 0x62, 0x63, 0x61, 0x62, 0x63]
    let b := s [0x61, 0x62, 0x63, 0x61]
    let e := s [0x61, 0x62, 0x63]
    let found (s : State) (p nxt : Nat) := (s.trie.inserts s.srcByte s.slen 10 nxt (p - 2 - nxt)).search s.srcByte p
      (min 10 (s.slen - p))
    (EngineNext a ∧ a.Inv ∧ w.p < a.slen ∧ found a 3 0 = (0, 3))
      ∧ (EngineNext (textAt 258) ∧ (textAt 258).Inv ∧ 258 < (textAt 258).slen ∧ found (textAt 258) 258 256 = (0, 2))
      ∧ (EngineNext (textAt 259) ∧ (textAt 259).Inv ∧ 259 < (textAt 259).slen ∧ found (textAt 259) 259 257 = (0, 2))
      ∧ (EngineNext b ∧ b.Inv ∧ w.p < b.slen ∧ found b 3 0 = (0, 1))
      ∧ EngineNext e ∧ Undisturbed e ∧ RegionsOk e ∧ e.slen ≤ w.p := by
  refine ⟨⟨?_, inv_running rfl rfl ?_ ?_ ⟨rfl, rfl, ?_⟩, ?_⟩, ⟨?_, inv_running rfl rfl ?_ ?_ ⟨rfl, rfl, ?_⟩, ?_⟩,
    ⟨?_, inv_running rfl rfl ?_ ?_ ⟨rfl, rfl, ?_⟩, ?_⟩, ⟨?_, inv_running rfl rfl ?_ ?_ ⟨rfl, rfl, ?_⟩, ?_⟩, ?_⟩ <;>
    (try unfold EngineNext) <;> (try unfold Undisturbed RegionsOk) <;> decide

/-- V-TLOB-4's stream after its skip count of 0: two short matches share one reserved nibble. -/
def tlobUnits : List (Instr × List Byte) :=
  ([.tlobLit 0x61, .tlobLit 0x62, .tlobLit 0x58, .tlobLit 0x63, .tlobLit 0x64, .tlobLit 0x59, .tlobShortFirst 0 3 3,
    .tlobLit 0x5A, .tlobShortSecond 0, .tlobLit 0x57] : List Instr).map (fun i => (i, []))

theorem test_stream_tlob :
    streamOf tlobUnits = [0x61, 0x62, 0x58, 0x63, 0x64, 0x59, 0x00, 0x33, 0x5A, 0x00, 0x57]
      ∧ decoded tlobAppends 12 none [] tlobUnits
        = some [0x61, 0x62, 0x58, 0x63, 0x64, 0x59, 0x61, 0x62, 0x5A, 0x63, 0x64, 0x57] := by
  decide

theorem witness_TlobDecompressDecodesItsStream_tokens :
    let s := accepted 0x15 [0x00, 0x61, 0x62, 0x58, 0x63, 0x64, 0x59, 0x00, 0x33, 0x5A, 0x00, 0x57] 12 12 0
    Undisturbed s ∧ RegionsOk s ∧ s.p0 ≤ s.dcap ∧ ([] : List Byte).length = (0 : Byte).toNat ∧ (0 : Byte).toNat ≤ s.p0
      ∧ s.sourceBegins (0 :: [] ++ streamOf tlobUnits)
      ∧ (decoded tlobAppends s.p0 none [] tlobUnits).isSome = true := by
  refine ⟨⟨rfl, rfl⟩, ?_, by decide, rfl, by decide, sourceBegins_of (by decide) (by decide), by decide⟩
  unfold RegionsOk
  decide

theorem witness_TlobDecompressUndoesCompress :
    let s := accepted 0x14 [0x41] 3 0 0
    let t := next (exec .tlobCompress s)
    let v : State :=
      { accepted 0x15 [] 0 0 0 with
        mem := t.mem
        ctx := { src := 0x1000, slen := t.outLen, dst := 0x2000, dcap := 1, p0 := 1, p1 := 0, op := 0x15 } }
    Undisturbed s ∧ RegionsOk s ∧ exec .tlobCompress s = .next t ∧ t.status.err = false ∧ Undisturbed v
      ∧ RegionsOk v ∧ v.mem = t.mem ∧ v.src = s.dst ∧ v.slen = t.outLen.toNat ∧ v.p0 = s.slen ∧ s.slen ≤ v.dcap := by
  refine ⟨⟨rfl, rfl⟩, ?_, rfl, by decide, ⟨rfl, rfl⟩, ?_, rfl, by decide, by decide, by decide, by decide⟩ <;>
    (unfold RegionsOk; decide)

theorem witness_TlobDecompressDecodesItsStream :
    let s := accepted 0x15 [1, 7] 1 1 0
    let u := accepted 0x15 [2, 7] 1 1 0
    (Undisturbed s ∧ RegionsOk s ∧ s.p0 ≤ s.dcap ∧ 1 ≤ s.slen ∧ (s.srcByte 0).toNat = s.p0 ∧ s.p0 + 1 ≤ s.slen)
      ∧ (RegionsOk (accepted 0x15 [] 1 1 0) ∧ (accepted 0x15 [] 1 1 0).slen = 0)
      ∧ Undisturbed u ∧ RegionsOk u ∧ u.p0 ≤ u.dcap ∧ 1 ≤ u.slen ∧ u.p0 < (u.srcByte 0).toNat := by
  unfold Undisturbed RegionsOk
  decide

/-- The skip count equals `N` and the rest of the stream; it is one more than `N`; the stream is one byte short. -/
theorem witness_TlobSkipTokenCopies :
    let w : TlobDec := { i := 1, tok := 0, out := [], res := none, skipped := false }
    let s := running opTlobDecompress [2, 7, 8] 2 (.tlobDec w)
    let u := running opTlobDecompress [2, 7] 2 (.tlobDec w)
    (s.work = .tlobDec w ∧ w.skipped = false ∧ w.out = [] ∧ Undisturbed s ∧ s.validRegion s.dst s.dcap = true
        ∧ s.p0 ≤ s.dcap)
      ∧ ((2 : Byte).toNat ≤ s.p0 ∧ w.i + (2 : Byte).toNat ≤ s.slen) ∧ s.p0 < (3 : Byte).toNat
      ∧ Undisturbed u ∧ u.validRegion u.dst u.dcap = true ∧ (2 : Byte).toNat ≤ u.p0 ∧ w.i ≤ u.slen
      ∧ u.slen < w.i + (2 : Byte).toNat := by
  unfold Undisturbed
  decide

theorem witness_TlobLiteralTokensAppend :
    let w : TlobDec := { i := 2, tok := 1, out := [1], res := none, skipped := true }
    let s := running opTlobDecompress [0, 0x41] 2 (.tlobDec w)
    s.work = .tlobDec w ∧ w.skipped = true ∧ Decoding s w.out := by
  unfold Decoding Undisturbed
  decide

/-- Distance 3, the least, on an output of 3 bytes and on one of 2. -/
theorem witness_TlobMatchTokensCopy :
    let w (out : List Byte) (res : Option (BitVec 4)) : TlobDec :=
      { i := 3, tok := 1, out := out, res := res, skipped := true }
    let s (out : List Byte) (res : Option (BitVec 4)) := running opTlobDecompress [0, 0, 0] 4 (.tlobDec (w out res))
    ((s [1, 2, 3] none).work = .tlobDec (w [1, 2, 3] none) ∧ Decoding (s [1, 2, 3] none) [1, 2, 3]
        ∧ (0 : BitVec 9).toNat + 3 ≤ [1, 2, 3].length ∧ (0 : BitVec 4).toNat * 16 + (0 : BitVec 4).toNat + 3 ≤ 3)
      ∧ (Decoding (s [1, 2, 3] (some 0)) [1, 2, 3] ∧ (w [1, 2, 3] (some 0)).res = some 0)
      ∧ Decoding (s [1, 2] none) [1, 2] ∧ [1, 2].length < (0 : BitVec 9).toNat + 3 := by
  unfold Decoding Undisturbed
  decide

theorem witness_PreparedBufferReordersTheInitialData :
    12 ≤ sizeField (fun x => if x = 11 then (12 : Byte) else 0) 8 := by
  decide

/-- The file of V-DEP-4: literals only, "HELLO WORLD!". -/
def literalFile : List Byte :=
  [0x49, 0x4D, 0x50, 0x21, 0x00, 0x00, 0x00, 0x0C, 0x00, 0x00, 0x00, 0x0C, 0x4C, 0x4C, 0x45, 0x48, 0x4F, 0x57, 0x20,
    0x4F, 0x21, 0x44, 0x4C, 0x52, 0x00, 0x00, 0x00, 0x0C, 0x00, 0x00] ++ depT

/-- V-DEP-1's one match: `11110 100`, length 9 with selector 3; group 1 with bits 0100, a next run of 6; distance
group 0 with bits 0110, distance 7. -/
def depItems : List DepItem :=
  [{ selCode := .depSellen11110 4, litCode := .depLitlen10, litBits := [false, true, false, false]
     distCode := .depDist0, distBits := [false, true, true, false] }]

theorem witness_DeplodeDecodesItsFile_items :
    let s := accepted 0x21 depFile 22 0 0
    (Undisturbed s ∧ RegionsOk s ∧ bytesOf s.srcByte 0 4 = [0x49, 0x4D, 0x50, 0x21] ∧ 12 ≤ sizeField s.srcByte 8
        ∧ sizeField s.srcByte 8 + 38 ≤ s.slen
        ∧ (∀ j, j < 12 → (s.srcByte (sizeField s.srcByte 8 + 26 + j)).toNat ≤ 16) ∧ sizeField s.srcByte 4 ≤ s.dcap)
      ∧ exploded (depStart s.srcByte) depItems
        = some [0x41, 0x42, 0x43, 0x44, 0x45, 0x46, 0x47, 0x41, 0x42, 0x43, 0x44, 0x45, 0x46, 0x47, 0x41, 0x42, 0x55,
            0x56, 0x57, 0x58, 0x59, 0x5A] := by
  unfold Undisturbed RegionsOk
  decide

/-- The file of V-DEP-2, whose odd-data byte is not 0: `P[14]` is never read. -/
def oddFile : List Byte :=
  [0x49, 0x4D, 0x50, 0x21, 0x00, 0x00, 0x00, 0x20, 0x00, 0x00, 0x00, 0x0F, 0x31, 0x30, 0x00, 0x35, 0x34, 0x33, 0x32,
    0x39, 0x38, 0x37, 0x36, 0x3F, 0x21, 0x09, 0x15, 0x00, 0x00, 0x00, 0x0A, 0x01, 0xFC] ++ depT

/-- V-DEP-2: "012345678901234567890123456789!?". -/
theorem test_deplode_odd :
    (depStart (fun x => oddFile.getD x 0)).cur = 14
      ∧ written (exec .deplode (accepted 0x21 oddFile 32 0 0)) 32
        = (List.range 30).map (fun k => BitVec.ofNat 8 (0x30 + k % 10)) ++ [0x21, 0x3F] := by
  decide

theorem witness_DeplodeDecodesItsFile :
    let s := accepted 0x21 literalFile 12 0 0
    Undisturbed s ∧ RegionsOk s ∧ bytesOf s.srcByte 0 4 = [0x49, 0x4D, 0x50, 0x21] ∧ sizeField s.srcByte 8 = 12
      ∧ 12 + 38 ≤ s.slen ∧ (∀ j, j < 12 → (s.srcByte (12 + 26 + j)).toNat ≤ 16) ∧ sizeField s.srcByte 4 = 12
      ∧ be32At s.srcByte (12 + 12) = BitVec.ofNat 32 12 ∧ s.srcByte (12 + 16) = 0 ∧ 12 ≤ s.dcap := by
  unfold Undisturbed RegionsOk
  decide

/-- V-DEP-11 and V-DEP-5; V-DEP-8; V-DEP-9's count of 17 as the first and as the last of the table; V-DEP-7. -/
theorem witness_DeplodeChecksInOrder :
    let s := accepted 0x21 literalFile 11 0 0
    let bad (j : Nat) := accepted 0x21 (literalFile.set (38 + j) 17) 12 0 0
    (Undisturbed s ∧ RegionsOk s ∧ (accepted 0x21 (literalFile.take 11) 12 0 0).slen < 12
        ∧ bytesOf (accepted 0x21 (literalFile.set 0 0) 12 0 0).srcByte 0 4 ≠ [0x49, 0x4D, 0x50, 0x21])
      ∧ (sizeField (accepted 0x21 (literalFile.set 11 11) 12 0 0).srcByte 8 < 12
        ∧ (accepted 0x21 (literalFile.take 49) 12 0 0).slen
            < sizeField (accepted 0x21 (literalFile.take 49) 12 0 0).srcByte 8 + 38)
      ∧ (12 ≤ sizeField s.srcByte 8 ∧ sizeField s.srcByte 8 + 38 ≤ s.slen)
      ∧ (16 < ((bad 0).srcByte (12 + 26 + 0)).toNat ∧ 16 < ((bad 11).srcByte (12 + 26 + 11)).toNat
        ∧ ∀ k, k < 11 → ((bad 11).srcByte (12 + 26 + k)).toNat ≤ 16)
      ∧ (∀ j, j < 12 → (s.srcByte (12 + 26 + j)).toNat ≤ 16) ∧ s.dcap < sizeField s.srcByte 4 := by
  unfold Undisturbed RegionsOk
  decide

theorem witness_DeplodeChecksInOrder_begin :
    let s := { accepted 0x21 literalFile 12 0 0 with inputs := [.engineBegin] }
    Beginning s .deplode [] ∧ RegionsOk s ∧ bytesOf s.srcByte 0 4 = [0x49, 0x4D, 0x50, 0x21]
      ∧ 12 ≤ sizeField s.srcByte 8 ∧ sizeField s.srcByte 8 + 38 ≤ s.slen
      ∧ (∀ j, j < 12 → (s.srcByte (sizeField s.srcByte 8 + 26 + j)).toNat ≤ 16) ∧ sizeField s.srcByte 4 ≤ s.dcap := by
  unfold Beginning RegionsOk
  decide

/-- Runs of 2: the declared size and the cursor at 0 meet the second byte together; the cursor alone does. Runs of
1 that leave one byte, and none, of the prepared buffer, the output then one byte short, and complete. -/
theorem witness_DeplodeChecksInOrder_runs :
    let w (prepared : List Byte) (size lit : Nat) : Dep := { depAt 0 prepared [] .run with size := size, lit := lit }
    let at_ (w : Dep) : Prop := EngineNext (runningDep w) ∧ Undisturbed (runningDep w) ∧ w.ready ∧ w.phase = .run
      ∧ w.out.length ≤ w.size
    (at_ (w [5] 1 2) ∧ 1 - 0 < 2 ∧ 1 - 0 ≤ (w [5] 1 2).cur)
      ∧ (at_ (w [5] 2 2) ∧ (w [5] 2 2).cur < 2 ∧ (w [5] 2 2).cur < 2 - 0)
      ∧ (at_ (w [6, 5] 2 1) ∧ (w [6, 5] 2 1).afterRun = some { w [6, 5] 2 1 with cur := 1, out := [5] })
      ∧ (at_ (w [5] 2 1) ∧ (w [5] 2 1).afterRun = some { w [5] 2 1 with cur := 0, out := [5] })
      ∧ at_ (w [5] 1 1) ∧ (w [5] 1 1).afterRun = some { w [5] 1 1 with cur := 0, out := [5] }
      ∧ (runningDep (w [5] 1 1)).validRegion (runningDep (w [5] 1 1)).dst (runningDep (w [5] 1 1)).dcap = true
      ∧ 1 ≤ (runningDep (w [5] 1 1)).dcap := by
  unfold EngineNext Undisturbed Dep.ready
  decide

/-- The errors that end a literal run and the loop, each at its position. -/
theorem test_deplode_run_errors :
    let run (size lit : Nat) := seen (step (runningDep { depAt 0 [5] [] .run with size := size, lit := lit }))
    run 1 2 = some (.dataIntegrity, 1, false, 0) ∧ run 2 2 = some (.format, 0, false, 0)
      ∧ run 2 1 = some (.dataIntegrity, 1, false, 0) ∧ run 1 1 = some (.none, 0, false, 1) := by
  decide

/-- A raw byte of 1, the least; of 0; and none left. -/
theorem witness_DeplodeSelectorLengthCodes :
    let w (p : List Byte) := depAt 0 p [] .selLen
    (runningDep (w [1])).work = .dep (w [1]) ∧ (w [1]).phase = .selLen ∧ Undisturbed (runningDep (w [1]))
      ∧ (w [1]).prepared[(w [1]).cur - 1]? = some 1 ∧ 0 < (w [1]).cur
      ∧ (w [0]).prepared[(w [0]).cur - 1]? = some 0 ∧ (w []).cur = 0 := by
  unfold Undisturbed
  decide

/-- The three codes with exactly their extra bits ahead, and one fewer. -/
theorem witness_DeplodeLiteralLengthCodes :
    let w (n : Nat) : Dep := { depAt 0 [] [] (.litLen 0 1) with bc := n }
    (runningDep (w 1)).work = .dep (w 1) ∧ (w 1).ready ∧ (w 1).phase = .litLen 0 1 ∧ Undisturbed (runningDep (w 1))
      ∧ 1 ≤ (w 1).bitsAhead.length ∧ (w 0).ready ∧ (w 0).bitsAhead.length < 1
      ∧ [2, 3, 3, 4][(0 : Fin 4).val]? = some 2 ∧ 2 ≤ (w 2).bitsAhead.length ∧ (w 1).bitsAhead.length < 2
      ∧ [6, 10, 10, 18][(0 : Fin 4).val]? = some 6 ∧ [4, 5, 7, 14][(0 : Fin 4).val]? = some 4
      ∧ 4 ≤ (w 4).bitsAhead.length ∧ (w 3).bitsAhead.length < 4 := by
  unfold Undisturbed Dep.ready
  decide

/-- The extra-bit counts of `depT` for selector 0. -/
def extraOf (g : Nat) : Nat := if g = 0 then 2 else if g = 1 then 4 else 8

/-- Group 0 of selector 0, bits 00: distance 1. One bit is too few; an output of 0 bytes is too short; a copy of one
byte fills the declared size, or passes it. The other groups' bases are 4 and 256. -/
theorem witness_DeplodeDistanceCodes :
    let w (n : Nat) (out : List Byte) (size : Nat) : Dep :=
      { depAt 0 [] out (.dist 0 1) with bc := n, size := size }
    ((runningDep (w 2 [7] 2)).work = .dep (w 2 [7] 2) ∧ (w 2 [7] 2).ready ∧ (w 2 [7] 2).phase = .dist 0 1
        ∧ Undisturbed (runningDep (w 2 [7] 2)) ∧ (w 2 [7] 2).table.length = 20)
      ∧ (∀ g b, (w 2 [7] 2).table[8 + 4 * g + (0 : Fin 4).val]? = some b → extraOf g = b.toNat)
      ∧ ((w 1 [7] 2).bitsAhead.length < 2 ∧ 2 ≤ (w 2 [7] 2).bitsAhead.length)
      ∧ ((w 2 [] 2).out.length < 0 + natOfBits ((w 2 [] 2).bitsAhead.take 2) + 1)
      ∧ (0 + natOfBits ((w 2 [7] 2).bitsAhead.take 2) + 1 ≤ (w 2 [7] 2).out.length
        ∧ (w 2 [7] 2).out.length + 1 ≤ (w 2 [7] 2).size)
      ∧ ((w 2 [7] 1).out.length ≤ (w 2 [7] 1).size ∧ (w 2 [7] 1).size < (w 2 [7] 1).out.length + 1)
      ∧ depT[2 * (0 : Fin 4).val]? = some 1 ∧ depT[2 * (0 : Fin 4).val + 1]? = some 0 := by
  refine ⟨?_, fun g b h => ?_, by decide, by decide, by decide, by decide, by decide, by decide⟩
  · unfold Undisturbed Dep.ready
    decide
  · match g with
    | 0 | 1 | 2 =>
      simp [depAt, depT] at h
      subst h
      decide
    | g + 3 =>
      have hlen : 8 + 4 * (g + 3) + 0 < 20 := (List.getElem?_eq_some_iff.1 h).1
      omega

/-- A region that ends at the last byte of memory. -/
theorem witness_JhCryptXorsTheKeystream :
    let s := regions 0x30 0xFFFF 1 0 0
    Undisturbed s ∧ s.validRegion s.src s.slen = true := by
  unfold Undisturbed
  decide

theorem witness_JhCryptTwiceRestores :
    let s := accepted 0x30 [0x12, 0x34, 0x56] 0 0x1234 0
    let t := next (exec .jhCrypt s)
    let v : State := { accepted 0x30 [0, 0, 0] 0 0xFFFF1234 0 with mem := t.mem }
    Undisturbed s ∧ exec .jhCrypt s = .next t ∧ Undisturbed v ∧ v.mem = t.mem ∧ v.memTop = s.memTop ∧ v.src = s.src
      ∧ v.slen = s.slen ∧ v.p0 % 65536 = s.p0 % 65536 :=
  ⟨⟨rfl, rfl⟩, rfl, ⟨rfl, rfl⟩, rfl, rfl, by decide, by decide, by decide⟩

/-- A word with more after it, the last word, and an odd tail. -/
theorem witness_JhWordXorsAndAdvances :
    let w (j : Nat) : Jh := { j := j, d0 := 0, d1 := 0 }
    let s (j : Nat) := running opJhCrypt [1, 2, 3] 0 (.jh (w j))
    ((s 0).work = .jh (w 0) ∧ Undisturbed (s 0) ∧ (s 0).validRegion (s 0).src (s 0).slen = true ∧ (w 0).j < (s 0).slen
        ∧ (w 0).j + 2 < (s 0).slen)
      ∧ ((w 1).j + 1 < (s 1).slen ∧ (s 1).slen ≤ (w 1).j + 2) ∧ (w 2).j < (s 2).slen ∧ (s 2).slen ≤ (w 2).j + 1 := by
  unfold Undisturbed
  decide

theorem witness_AcceptanceLatchesTheContext :
    let s := { State.reset with inputs := [.regWrite 32 0x08 0x10] }
    s.inputs = .regWrite 32 0x08 0x10 :: [] ∧ s.rstLow = false ∧ s.status.busy = false := by
  decide

theorem witness_CmdWhileBusySetsOvr :
    let s := { accepted 0x10 [] 0 0 0 with inputs := [.regWrite 32 0x08 0x10] }
    s.inputs = .regWrite 32 0x08 0x10 :: [] ∧ s.rstLow = false ∧ s.status.busy = true := by
  decide

/-- The first and the last operand register, busy and idle, in and out of reset. -/
theorem witness_OperandWritesNeedAnIdleBlock :
    ({ State.reset with inputs := [.regWrite 32 0x20 1] }.inputs = .regWrite 32 0x20 1 :: []
        ∧ (0x20 : Byte).toNat % 4 = 0 ∧ State.reset.rstLow = false ∧ State.reset.resetLow.rstLow = true)
      ∧ ((0x0C : Byte) ≠ 0x00 ∧ (0x0C : Byte) ≠ 0x04 ∧ (0x0C : Byte) ≠ 0x08 ∧ (0x20 : Byte) ≠ 0x08)
      ∧ (accepted 0x10 [] 0 0 0).status.busy = true ∧ State.reset.status.busy = false := by
  decide

theorem witness_InterruptFollowsDone :
    (isCommand .trieInit = true ∧ ∃ t, exec .trieInit { accepted 0x01 [] 0 0 0 with ie := true } = .next t)
      ∧ State.reset.rstLow = false ∧ (2 : Word).getLsbD 1 = true ∧ (2 : Word).getLsbD 0 = false
      ∧ State.reset.status.busy = false :=
  ⟨⟨rfl, _, rfl⟩, rfl, by decide, by decide, rfl⟩

/-- A 16-bit access, one at offset 2, the first unmapped offset, and a result register read while idle. -/
theorem witness_PortAccessesThatChangeNothing :
    16 ≠ 32 ∧ (2 : Byte).toNat % 4 ≠ 0 ∧ 0x38 ≤ (0x38 : Byte).toNat ∧ (0x30 : Byte).toNat % 4 = 0
      ∧ State.reset.rstLow = false ∧ State.reset.status.busy = false
      ∧ { State.reset with inputs := [.regRead 32 0x34] }.inputs = .regRead 32 0x34 :: []
      ∧ { State.reset with inputs := [.regWrite 16 0x08 1] }.inputs = .regWrite 16 0x08 1 :: [] := by
  decide

/-- The last address of memory and the first past it. -/
theorem witness_HostMemoryAccesses :
    (0xFFFF : Word).toNat < (accepted 0x10 [] 0 0 0).memSize
      ∧ (accepted 0x10 [] 0 0 0).memSize ≤ (0x10000 : Word).toNat
      ∧ { accepted 0x10 [] 0 0 0 with status := Status.reset }.status.busy = false
      ∧ (accepted 0x10 [7] 1 0 0).inActiveSource 1 = false ∧ (accepted 0x10 [7] 1 0 0).inActiveDest 1 = false
      ∧ { State.reset with inputs := [.memWrite 5 1] }.inputs = .memWrite 5 1 :: []
      ∧ { State.reset with inputs := [.memRead 5] }.inputs = .memRead 5 :: [] := by
  decide

end Sys2Proof.Tests
end

/-! ### What a command reads of its source -/

namespace Sys2Proof.Machine

section
variable {S S' : Nat → Byte} {n : Nat}

theorem bytesOf_congr (h : ∀ k, k < n → S' k = S k) {a l : Nat} (hl : a + l ≤ n) : bytesOf S' a l = bytesOf S a l :=
  List.map_congr_left fun j hj => h (a + j) (by have := List.mem_range.1 hj; omega)

/-- A run cut at the buffer's end reads only the buffer. -/
theorem bytesOf_cut_congr (h : ∀ k, k < n → S' k = S k) (k cap : Nat) :
    bytesOf S' k (min cap (n - k)) = bytesOf S k (min cap (n - k)) := by
  rcases Nat.le_total k n with hk | hk
  · exact bytesOf_congr h (by omega)
  · rw [show min cap (n - k) = 0 by omega, bytesOf_zero, bytesOf_zero]

theorem Trie.addRuns_congr (h : ∀ k, k < n → S' k = S k) (cap count k : Nat) (t : Trie) :
    Trie.addRuns S' n cap count k t = Trie.addRuns S n cap count k t := by
  induction count generalizing k t with
  | zero => rfl
  | succ count ih => rw [Trie.addRuns, Trie.addRuns, bytesOf_cut_congr h, ih]

theorem matchLength_congr (h : ∀ k, k < n → S' k = S k) (m s : Nat) (e : List Byte) (hs : s + m ≤ n) :
    matchLength S' m s e = matchLength S m s e := by
  induction m generalizing s e with
  | zero => rfl
  | succ m ih =>
    cases e with
    | nil => rfl
    | cons b e => rw [matchLength, matchLength, h s (by omega), ih (s + 1) e (by omega)]

theorem Trie.search_congr (h : ∀ k, k < n → S' k = S k) (t : Trie) {s m : Nat} (hs : s + m ≤ n) :
    t.search S' s m = t.search S s m := by
  have hb : betterMatch S' s m = betterMatch S s m := by
    funext best e
    rw [betterMatch, betterMatch, matchLength_congr h m s e.2 hs]
  rw [Trie.search, Trie.search, hb]

theorem runLength_congr (h : ∀ k, k < n → S' k = S k) (v : Byte) (k a : Nat) (ha : a + k ≤ n) :
    runLength S' v k a = runLength S v k a := by
  induction k generalizing a with
  | zero => rfl
  | succ k ih => rw [runLength, runLength, h a (by omega), ih (a + 1) (by omega)]

theorem xlobRunAt_congr (h : ∀ k, k < n → S' k = S k) {p : Nat} (hp : p < n) :
    xlobRunAt S' n p = xlobRunAt S n p := by
  rw [xlobRunAt, xlobRunAt, h p hp, runLength_congr h _ _ _ (by omega)]

theorem firstControlByte_congr (h : ∀ k, k < n → S' k = S k) (count j : Nat) (hj : j + count ≤ n) :
    firstControlByte S' count j = firstControlByte S count j := by
  induction count generalizing j with
  | zero => rfl
  | succ count ih => rw [firstControlByte, firstControlByte, h j (by omega), ih (j + 1) (by omega)]

theorem tlobCheck_congr (h : ∀ k, k < n → S' k = S k) (k : Nat) : tlobCheck S' n k = tlobCheck S n k := by
  unfold tlobCheck
  split
  · rfl
  · split
    · rfl
    · rw [firstControlByte_congr h _ _ (by omega)]

theorem tlobHeader_congr (h : ∀ k, k < n → S' k = S k) {k : Nat} (hk : k ≤ n) : tlobHeader S' k = tlobHeader S k := by
  rw [tlobHeader, tlobHeader, bytesOf_congr h (by omega)]

theorem fetchToken_congr (h : ∀ k, k < n → S' k = S k) (f : Format) (fuel : Nat) (pre : List Byte) (i : Nat) :
    fetchToken f S' n fuel pre i = fetchToken f S n fuel pre i := by
  induction fuel generalizing pre i with
  | zero => rfl
  | succ fuel ih =>
    rw [fetchToken, fetchToken]
    split
    · rfl
    · rw [h i (by omega), ih]

theorem readBytes_congr (h : ∀ k, k < n → S' k = S k) (limit k i : Nat) (out : List Byte) :
    readBytes S' n limit k i out = readBytes S n limit k i out := by
  induction k generalizing i out with
  | zero => rfl
  | succ k ih =>
    rw [readBytes, readBytes]
    split
    · rfl
    · split
      · rfl
      · rw [h i (by omega), ih]

/-! ### The compressors' items -/

theorem lobEncItem_congr (h : ∀ k, k < n → S' k = S k) (t : Trie) {w : LobEnc} (hp : w.p < n) :
    lobEncItem S' n t w = lobEncItem S n t w := by
  simp only [lobEncItem, Trie.search_congr h t (show w.p + min Config.lobMaxMatch (n - w.p) ≤ n by omega), h w.p hp,
    Trie.addRuns_congr h]

theorem xlobEncItem_congr (h : ∀ k, k < n → S' k = S k) (t : Trie) {w : XlobEnc} (hp : w.p < n) :
    xlobEncItem S' n t w = xlobEncItem S n t w := by
  simp only [xlobEncItem, Trie.search_congr h t (show w.p + min Config.xlobMaxMatch (n - w.p) ≤ n by omega), h w.p hp,
    Trie.addRuns_congr h, xlobRunAt_congr h hp]

theorem tlobEncItem_congr (h : ∀ k, k < n → S' k = S k) (t : Trie) {w : TlobEnc} (hp : w.p < n) :
    tlobEncItem S' n t w = tlobEncItem S n t w := by
  simp only [tlobEncItem, h w.p hp, Trie.addRuns_congr h,
    fun t => Trie.search_congr h t (show w.p + min Config.tlobMaxMatch (n - w.p) ≤ n by omega)]

/-! ### The decompressors' tokens -/

theorem LobDec.fetch_congr (h : ∀ k, k < n → S' k = S k) (w : LobDec) : w.fetch S' n = w.fetch S n := by
  rw [LobDec.fetch, LobDec.fetch, fetchToken_congr h]

theorem XlobDec.fetch_congr (h : ∀ k, k < n → S' k = S k) (w : XlobDec) : w.fetch S' n = w.fetch S n := by
  rw [XlobDec.fetch, XlobDec.fetch, fetchToken_congr h]

theorem TlobDec.fetch_congr (h : ∀ k, k < n → S' k = S k) (w : TlobDec) : w.fetch S' n = w.fetch S n := by
  rw [TlobDec.fetch, TlobDec.fetch, fetchToken_congr h]

/-- Of the ExtendedLob tokens, only the literal run reads on in the stream (R105). -/
theorem XlobDec.apply_congr (h : ∀ k, k < n → S' k = S k) (limit : Nat) (w : XlobDec) (i : Instr) :
    w.apply limit S' n i = w.apply limit S n i := by
  cases i with
  | xlobLitrun c => simp only [XlobDec.apply, XlobDec.literalRun, readBytes_congr h]
  | _ => rfl

/-- Of the TextLob tokens, only the skip count reads on in the stream (R119). -/
theorem TlobDec.apply_congr (h : ∀ k, k < n → S' k = S k) (limit : Nat) (w : TlobDec) (i : Instr) :
    w.apply limit S' n i = w.apply limit S n i := by
  cases i with
  | tlobSkip k => simp only [TlobDec.apply, TlobDec.skip, readBytes_congr h]
  | _ => rfl

/-! ### DEPLODE's file -/

theorem be32At_congr (h : ∀ k, k < n → S' k = S k) {a : Nat} (ha : a + 4 ≤ n) : be32At S' a = be32At S a := by
  rw [be32At, be32At, h a (by omega), h (a + 1) (by omega), h (a + 2) (by omega), h (a + 3) (by omega)]

theorem sizeField_congr (h : ∀ k, k < n → S' k = S k) {a : Nat} (ha : a + 4 ≤ n) : sizeField S' a = sizeField S a := by
  rw [sizeField, sizeField, be32At_congr h ha]

theorem depHeaderCheck_congr (h : ∀ k, k < n → S' k = S k) : depHeaderCheck S' n = depHeaderCheck S n := by
  unfold depHeaderCheck
  split
  · rfl
  · rw [bytesOf_congr h (by omega), sizeField_congr h (by omega)]

/-- A header that passes gives a compressed size for which the file has a payload and a footer (R125). -/
theorem depHeaderCheck_ok {u : Unit} (h : depHeaderCheck S n = .ok u) :
    12 ≤ n ∧ 12 ≤ sizeField S 8 ∧ sizeField S 8 + 38 ≤ n := by
  unfold depHeaderCheck at h
  split at h
  · cases h
  · split at h
    · cases h
    · split at h
      · cases h
      · next h3 =>
        simp only [Config.deplodeFooterSize] at h3
        omega

theorem depTable_congr (h : ∀ k, k < n → S' k = S k) {u : Unit} (hc : depHeaderCheck S n = .ok u) :
    depTable S' = depTable S := by
  obtain ⟨h12, -, hf⟩ := depHeaderCheck_ok hc
  rw [depTable, depTable, sizeField_congr h (by omega), bytesOf_congr h (by omega)]

theorem depFooterCheck_congr (h : ∀ k, k < n → S' k = S k) {u : Unit} (hc : depHeaderCheck S n = .ok u) :
    depFooterCheck S' = depFooterCheck S := by
  obtain ⟨h12, -, -⟩ := depHeaderCheck_ok hc
  rw [depFooterCheck, depFooterCheck, depTable_congr h hc, sizeField_congr h (by omega)]

theorem depPrepared_congr (h : ∀ k, k < n → S' k = S k) {u : Unit} (hc : depHeaderCheck S n = .ok u) :
    depPrepared S' = depPrepared S := by
  obtain ⟨h12, hc12, hf⟩ := depHeaderCheck_ok hc
  rw [depPrepared, depPrepared, sizeField_congr h (by omega), bytesOf_congr h (by omega), bytesOf_congr h (by omega),
    bytesOf_congr h (by omega), bytesOf_congr h (by omega)]

theorem depStart_congr (h : ∀ k, k < n → S' k = S k) {u : Unit} (hc : depHeaderCheck S n = .ok u) :
    depStart S' = depStart S := by
  obtain ⟨h12, -, hf⟩ := depHeaderCheck_ok hc
  rw [depStart, depStart, depPrepared_congr h hc, depTable_congr h hc, sizeField_congr h (by omega),
    sizeField_congr h (by omega), h (sizeField S 8 + 16) (by omega), h (sizeField S 8 + 17) (by omega),
    be32At_congr h (by omega)]

/-! ### A JH word -/

theorem Jh.word_congr (h : ∀ k, k < n → S' k = S k) {w : Jh} (hj : w.j < n) : w.word S' n = w.word S n := by
  rw [Jh.word, Jh.word, h w.j hj]
  split
  · next hj1 => rw [h (w.j + 1) hj1]
  · rfl

end

end Sys2Proof.Machine

/-! ### Every stream token decodes -/

namespace Sys2Proof.Machine

/-- The decoders of byte tokens that the decompressors use (R60). -/
def isStreamFormat : Format → Bool
  | .lobControl | .lobLiteral | .lobMatch | .xlob _ | .tlobSkip | .tlob _ => true
  | .command | .depSelLen | .depLitLen | .depDist | .jhWord => false

/-- A first byte with bit 7 set is of one of the classes 4 to 7 (R63). -/
theorem xlob_class_of_bit7 (h : Byte) (h7 : h.extractLsb' 7 1 ≠ 0) :
    h.extractLsb' 5 3 = 4 ∨ h.extractLsb' 5 3 = 5 ∨ h.extractLsb' 5 3 = 6 ∨ h.extractLsb' 5 3 = 7 := by
  revert h
  decide

/-- Unfinished ExtendedLob tokens go on to a token within three bytes (R63 to R69). -/
theorem decodeXlob_more {reserved : Bool} {pre : List Byte} (h : decodeXlob reserved pre = .more) (b : Byte) :
    pre.length < maxTokenBytes ∧ ∀ r, decodeXlob reserved (pre ++ [b]) ≠ .rejected r := by
  match pre with
  | [] =>
    refine ⟨by decide, fun r => ?_⟩
    simp only [List.nil_append, decodeXlob]
    split_ifs <;> simp
  | [c] =>
    refine ⟨by simp [maxTokenBytes], fun r => ?_⟩
    have hc := xlob_class_of_bit7 c
    simp only [decodeXlob, List.singleton_append] at h ⊢
    split_ifs at h ⊢ <;> simp_all
  | [c, d] =>
    refine ⟨by simp [maxTokenBytes], fun r => ?_⟩
    simp only [decodeXlob, List.cons_append, List.nil_append] at h ⊢
    split_ifs at h ⊢ <;> simp_all
  | [c, d, e] =>
    simp only [decodeXlob] at h
    split_ifs at h
  | c :: d :: e :: f :: l => simp [decodeXlob] at h

/-- Unfinished TextLob tokens go on to a token within two bytes (R70 to R73). -/
theorem decodeTlob_more {reserved : Bool} {pre : List Byte} (h : decodeTlob reserved pre = .more) (b : Byte) :
    pre.length < maxTokenBytes ∧ ∀ r, decodeTlob reserved (pre ++ [b]) ≠ .rejected r := by
  match pre with
  | [] =>
    refine ⟨by decide, fun r => ?_⟩
    simp only [List.nil_append, decodeTlob]
    split_ifs <;> simp
  | [c] =>
    refine ⟨by simp [maxTokenBytes], fun r => ?_⟩
    simp only [decodeTlob, List.singleton_append] at h ⊢
    split_ifs at h ⊢ <;> simp_all
  | [c, d] =>
    simp only [decodeTlob] at h
    split_ifs at h
  | c :: d :: e :: l => simp [decodeTlob] at h

theorem decodeOneByte_more {mk : Byte → Instr} {pre : List Byte} (h : decodeOneByte mk pre = .more) (b : Byte) :
    pre.length < maxTokenBytes ∧ ∀ r, decodeOneByte mk (pre ++ [b]) ≠ .rejected r := by
  match pre with
  | [] => exact ⟨by decide, fun r => by simp [decodeOneByte]⟩
  | [c] => simp [decodeOneByte] at h
  | c :: d :: l => simp [decodeOneByte] at h

theorem decodeTwoBytes_more {mk : Half → Instr} {pre : List Byte} (h : decodeTwoBytes mk pre = .more) (b : Byte) :
    pre.length < maxTokenBytes ∧ ∀ r, decodeTwoBytes mk (pre ++ [b]) ≠ .rejected r := by
  match pre with
  | [] => exact ⟨by decide, fun r => by simp [decodeTwoBytes]⟩
  | [c] => exact ⟨by simp [maxTokenBytes], fun r => by simp [decodeTwoBytes]⟩
  | [c, d] => simp [decodeTwoBytes] at h
  | c :: d :: e :: l => simp [decodeTwoBytes] at h

/-- An unfinished token of a decompressor's stream goes on: no next byte is rejected (R63, R70). -/
theorem decodeBytes_more {f : Format} (hf : isStreamFormat f = true) {pre : List Byte} (h : decodeBytes f pre = .more)
    (b : Byte) : pre.length < maxTokenBytes ∧ ∀ r, decodeBytes f (pre ++ [b]) ≠ .rejected r := by
  cases f with
  | lobControl => exact decodeOneByte_more h b
  | lobLiteral => exact decodeOneByte_more h b
  | lobMatch => exact decodeTwoBytes_more (mk := fun t => .lobMatch (t.extractLsb' 12 4) (t.extractLsb' 0 12)) h b
  | xlob reserved => exact decodeXlob_more h b
  | tlobSkip => exact decodeOneByte_more h b
  | tlob reserved => exact decodeTlob_more h b
  | command | depSelLen | depLitLen | depDist | jhWord => cases hf

theorem decodeBytes_nil {f : Format} (hf : isStreamFormat f = true) : decodeBytes f [] = .more := by
  cases f with
  | lobControl | lobLiteral | lobMatch | xlob _ | tlobSkip | tlob _ => rfl
  | command | depSelLen | depLitLen | depDist | jhWord => cases hf

/-- A fetch that goes on from an unfinished token, with enough bytes left to look at, has an answer (R60). -/
theorem fetchToken_ne_none {f : Format} (hf : isStreamFormat f = true) (S : Nat → Byte) (n fuel : Nat) (pre : List Byte)
    (i : Nat) (hm : decodeBytes f pre = .more) (hfuel : maxTokenBytes ≤ pre.length + fuel) :
    fetchToken f S n fuel pre i ≠ .ok none := by
  induction fuel generalizing pre i with
  | zero =>
    have := (decodeBytes_more hf hm 0).1
    omega
  | succ fuel ih =>
    rw [fetchToken]
    split
    · simp
    · split
      · simp
      · next hm' => exact ih _ _ hm' (by simp; omega)
      · next hr => exact absurd hr ((decodeBytes_more hf hm (S i)).2 _)

/-- What a decompressor's fetch answers: FORMAT, or a token of its format and an index further on in the stream. -/
theorem fetchToken_cases {f : Format} (hf : isStreamFormat f = true) (S : Nat → Byte) (n i : Nat) :
    (∃ r, fetchToken f S n maxTokenBytes [] i = .error r)
      ∨ ∃ t j, fetchToken f S n maxTokenBytes [] i = .ok (some (t, j)) ∧ i < j ∧ j ≤ n := by
  have hne := fetchToken_ne_none hf S n maxTokenBytes [] i (decodeBytes_nil hf) (Nat.le_refl _)
  cases hr : fetchToken f S n maxTokenBytes [] i with
  | error r => exact .inl ⟨r, rfl⟩
  | ok o =>
    cases o with
    | none => exact absurd hr hne
    | some q => exact .inr ⟨q.1, q.2, rfl, fetchToken_advances _ _ _ hr⟩

/-- A fetched token is what the decoder read from some bytes. -/
theorem fetchToken_decodes {f : Format} {S : Nat → Byte} {n fuel : Nat} {pre : List Byte} {i j : Nat} {t : Instr}
    (h : fetchToken f S n fuel pre i = .ok (some (t, j))) : ∃ bs, decodeBytes f bs = .token t := by
  induction fuel generalizing pre i with
  | zero => cases h
  | succ fuel ih =>
    rw [fetchToken] at h
    split at h
    · cases h
    · split at h
      · next ht =>
        cases h
        exact ⟨_, ht⟩
      · exact ih h
      · cases h

end Sys2Proof.Machine

/-! ### What DEPLODE's reads consume -/

namespace Sys2Proof.Machine

/-- The bits that DEPLODE has not read yet: those of the bit buffer and those of the bytes before the cursor (R129). -/
def Dep.bitsLeft (w : Dep) : Nat := w.bc + 8 * w.cur

/-- In step with its buffer, DEPLODE has as many bits left as lie ahead of it (R129). -/
theorem Dep.bitsLeft_eq {w : Dep} (hw : w.ready) : w.bitsLeft = w.bitsAhead.length := by
  obtain ⟨hbc, hcur⟩ := hw
  have hlen : ∀ b : Byte, (bitsOfByte b).length = 8 := fun _ => rfl
  simp [Dep.bitsLeft, Dep.bitsAhead, hlen, hbc, hcur, Nat.mul_comm]

/-- `v` is `w` after reads of at least `k` bits: the declared size is as it was. -/
def Dep.ReadsTo (k : Nat) (w v : Dep) : Prop := v.size = w.size ∧ v.bitsLeft + k ≤ w.bitsLeft

theorem Dep.ReadsTo.trans {j k : Nat} {u v w : Dep} (h : Dep.ReadsTo j u v) (h' : Dep.ReadsTo k v w) :
    Dep.ReadsTo (j + k) u w :=
  ⟨h'.1.trans h.1, by have := h.2; have := h'.2; omega⟩

theorem Dep.ReadsTo.refl (w : Dep) : Dep.ReadsTo 0 w w := ⟨rfl, Nat.le_refl _⟩

theorem Dep.ReadsTo.weaken {j k : Nat} {v w : Dep} (h : Dep.ReadsTo k w v) (hj : j ≤ k) : Dep.ReadsTo j w v :=
  ⟨h.1, by have := h.2; omega⟩

theorem Dep.getbit_readsTo {w : Dep} {q : Bool × Dep} (h : w.getbit = .ok q) :
    Dep.ReadsTo 1 w q.2 ∧ q.2.phase = w.phase := by
  unfold Dep.getbit at h
  split at h
  · split at h
    · cases h
    · cases h
      exact ⟨⟨rfl, by simp only [Dep.bitsLeft]; omega⟩, rfl⟩
  · cases h
    exact ⟨⟨rfl, by simp only [Dep.bitsLeft]; omega⟩, rfl⟩

theorem Dep.getbits_readsTo {k v : Nat} {w : Dep} {q : Nat × Dep} (h : Dep.getbits k v w = .ok q) :
    Dep.ReadsTo k w q.2 := by
  induction k generalizing v w with
  | zero =>
    cases h
    exact .refl w
  | succ k ih =>
    rw [Dep.getbits] at h
    split at h
    · cases h
    · next hb => exact ((Dep.getbit_readsTo hb).1.trans (ih h)).weaken (by omega)

theorem Dep.rawByte_readsTo {w : Dep} {q : Byte × Dep} (h : w.rawByte = .ok q) : Dep.ReadsTo 8 w q.2 := by
  unfold Dep.rawByte at h
  split at h
  · cases h
  · cases h
    exact ⟨rfl, by simp only [Dep.bitsLeft]; omega⟩

/-- A code takes at least one bit, and is what the decoder reads from some bits. -/
theorem Dep.readCode_readsTo {f : Format} {fuel : Nat} {pre : List Bool} {w v : Dep} {i : Instr}
    (h : Dep.readCode f fuel pre w = .ok (some (i, v))) :
    Dep.ReadsTo 1 w v ∧ v.phase = w.phase ∧ ∃ bs, decodeBits f bs = .token i := by
  induction fuel generalizing pre w with
  | zero => cases h
  | succ fuel ih =>
    rw [Dep.readCode] at h
    split at h
    · cases h
    · next q hq =>
      obtain ⟨hread, hphase⟩ := Dep.getbit_readsTo hq
      split at h
      · next ht =>
        cases h
        exact ⟨hread, hphase, _, ht⟩
      · obtain ⟨hread', hphase', ht⟩ := ih h
        exact ⟨(hread.trans hread').weaken (by omega), hphase'.trans hphase, ht⟩
      · cases h

theorem Dep.literalRun_readsTo {n : Nat} {w v : Dep} (h : Dep.literalRun n w = .ok v) : Dep.ReadsTo 0 w v := by
  induction n generalizing w with
  | zero =>
    cases h
    exact .refl _
  | succ n ih =>
    rw [Dep.literalRun] at h
    split at h
    · cases h
    · split at h
      · cases h
      · next q hq =>
        have hstep : Dep.ReadsTo 8 w { q.2 with out := q.2.out ++ [q.1] } := Dep.rawByte_readsTo hq
        exact (hstep.trans (ih h)).weaken (by omega)

theorem Dep.copyBytes_readsTo {d l : Nat} {w v : Dep} (h : Dep.copyBytes d l w = .ok v) : Dep.ReadsTo 0 w v := by
  induction l generalizing w with
  | zero =>
    cases h
    exact .refl _
  | succ l ih =>
    rw [Dep.copyBytes] at h
    split at h
    · cases h
    · obtain ⟨hsize, hbits⟩ := ih h
      exact ⟨hsize, hbits⟩

/-! ### Every code decodes, and has its effect -/

/-- An unfinished match-length code goes on to a code within eight bits (R76). -/
theorem decodeSelLen_more {pre : List Bool} (h : decodeSelLen pre = .more) (b : Bool) :
    pre.length < maxCodeBits ∧ ∀ r, decodeSelLen (pre ++ [b]) ≠ .rejected r := by
  unfold decodeSelLen at h
  split at h <;> cases h
  all_goals exact ⟨by simp [maxCodeBits], fun r => by cases b <;> simp [decodeSelLen]⟩

/-- An unfinished three-way code goes on to a code within two bits (R77, R78). -/
theorem decodeThreeWay_more {i0 i10 i11 : Instr} {pre : List Bool} (h : decodeThreeWay i0 i10 i11 pre = .more)
    (b : Bool) : pre.length < maxCodeBits ∧ ∀ r, decodeThreeWay i0 i10 i11 (pre ++ [b]) ≠ .rejected r := by
  unfold decodeThreeWay at h
  split at h <;> cases h
  all_goals exact ⟨by simp [maxCodeBits], fun r => by cases b <;> simp [decodeThreeWay]⟩

/-- An unfinished code at one of DEPLODE's phases goes on: no next bit is rejected (R76 to R78). -/
theorem decodeBits_more {p : DepPhase} {f : Format} (hf : p.format = some f) {pre : List Bool}
    (h : decodeBits f pre = .more) (b : Bool) :
    pre.length < maxCodeBits ∧ ∀ r, decodeBits f (pre ++ [b]) ≠ .rejected r := by
  cases p <;> cases hf
  case selLen => exact decodeSelLen_more h b
  case litLen => exact decodeThreeWay_more h b
  case dist => exact decodeThreeWay_more h b

theorem decodeBits_nil {p : DepPhase} {f : Format} (hf : p.format = some f) : decodeBits f [] = .more := by
  cases p <;> cases hf <;> rfl

theorem Dep.readCode_ne_none {p : DepPhase} {f : Format} (hf : p.format = some f) (fuel : Nat) (pre : List Bool)
    (w : Dep) (hm : decodeBits f pre = .more) (hfuel : maxCodeBits ≤ pre.length + fuel) :
    Dep.readCode f fuel pre w ≠ .ok none := by
  induction fuel generalizing pre w with
  | zero =>
    have := (decodeBits_more hf hm false).1
    omega
  | succ fuel ih =>
    rw [Dep.readCode]
    split
    · simp
    · next q _ =>
      split
      · simp
      · next hm' => exact ih _ _ hm' (by simp; omega)
      · next hr => exact absurd hr ((decodeBits_more hf hm q.1).2 _)

/-- The effect of a code answers, and reads on or raises. -/
def Dep.Answers (w : Dep) (o : Option (Result Dep)) : Prop :=
  ∃ r, o = some r ∧ ∀ v, r = .ok v → Dep.ReadsTo 0 w v

theorem Dep.selLenCode_answers {w : Dep} (hp : w.phase = .selLen) {f : Dep → Result Dep}
    (hf : ∀ v, f w = .ok v → Dep.ReadsTo 0 w v) : w.Answers (w.selLenCode f) :=
  ⟨f w, by rw [Dep.selLenCode, hp], hf⟩

theorem Dep.setSelLen_readsTo (sel : Fin 4) (ml : Nat) {w v : Dep} (h : Dep.setSelLen sel ml w = .ok v) :
    Dep.ReadsTo 0 w v := by
  cases h
  exact .refl w

theorem Dep.rawSelLen_readsTo {w v : Dep} (h : w.rawSelLen = .ok v) : Dep.ReadsTo 0 w v := by
  unfold Dep.rawSelLen at h
  split at h
  · cases h
  · next hq =>
    split at h
    · cases h
    · exact ((Dep.rawByte_readsTo hq).trans (Dep.setSelLen_readsTo _ _ h)).weaken (by omega)

theorem Dep.setLitLen_readsTo {base extra : Nat} {sel : Fin 4} {ml : Nat} {w v : Dep}
    (h : w.setLitLen base extra sel ml = .ok v) : Dep.ReadsTo 0 w v := by
  unfold Dep.setLitLen at h
  split at h
  · cases h
  · next hq =>
    cases h
    exact (Dep.getbits_readsTo hq).weaken (Nat.zero_le _)

theorem Dep.matchAt_readsTo {base extra ml : Nat} {w v : Dep} (h : w.matchAt base extra ml = .ok v) :
    Dep.ReadsTo 0 w v := by
  unfold Dep.matchAt at h
  split at h
  · cases h
  · next hq =>
    split at h
    · cases h
    · split at h
      · cases h
      · next hc =>
        cases h
        exact ((Dep.getbits_readsTo hq).trans (Dep.copyBytes_readsTo hc)).weaken (Nat.zero_le _)

theorem Dep.litLenCode_answers {w : Dep} {sel : Fin 4} {ml : Nat} (hp : w.phase = .litLen sel ml)
    (base extra : Fin 4 → Nat) : w.Answers (w.litLenCode base extra) :=
  ⟨_, by rw [Dep.litLenCode, hp]; rfl, fun _ hv => Dep.setLitLen_readsTo hv⟩

theorem Dep.distCode_answers {w : Dep} {sel : Fin 4} {ml : Nat} (hp : w.phase = .dist sel ml)
    (base : Fin 4 → Nat) (g : Nat) : w.Answers (w.distCode base g) :=
  ⟨_, by rw [Dep.distCode, hp]; rfl, fun _ hv => Dep.matchAt_readsTo hv⟩

theorem decodeSelLen_token {bs : List Bool} {i : Instr} (h : decodeSelLen bs = .token i) :
    i = .depSellen0 ∨ i = .depSellen10 ∨ i = .depSellen110 ∨ i = .depSellen1110 ∨ i = .depSellen11111
      ∨ ∃ x, i = .depSellen11110 x := by
  unfold decodeSelLen at h
  split at h <;> cases h <;> simp

theorem decodeThreeWay_token {i0 i10 i11 i : Instr} {bs : List Bool} (h : decodeThreeWay i0 i10 i11 bs = .token i) :
    i = i0 ∨ i = i10 ∨ i = i11 := by
  unfold decodeThreeWay at h
  split at h <;> cases h <;> simp

/-- A match-length code that decodes has its effect at its phase (R133). -/
theorem Dep.apply_selLen {w : Dep} (hp : w.phase = .selLen) {bs : List Bool} {i : Instr}
    (h : decodeSelLen bs = .token i) : w.Answers (w.apply i) := by
  have hset (sel : Fin 4) (ml : Nat) : w.Answers (w.selLenCode (Dep.setSelLen sel ml)) :=
    Dep.selLenCode_answers hp fun _ hv => Dep.setSelLen_readsTo sel ml hv
  rcases decodeSelLen_token h with rfl | rfl | rfl | rfl | rfl | ⟨x, rfl⟩
  · exact hset 0 1
  · exact hset 1 2
  · exact hset 2 3
  · exact hset 3 4
  · exact Dep.selLenCode_answers hp fun _ hv => Dep.rawSelLen_readsTo hv
  · exact hset 3 (5 + x.toNat)

/-- A code read at its phase has its effect there (R131). -/
theorem Dep.apply_answers {w : Dep} {f : Format} (hf : w.phase.format = some f) {bs : List Bool} {i : Instr}
    (h : decodeBits f bs = .token i) : w.Answers (w.apply i) := by
  cases hp : w.phase with
  | run => rw [hp] at hf; cases hf
  | selLen =>
    rw [hp] at hf
    cases hf
    exact Dep.apply_selLen hp h
  | litLen sel ml =>
    rw [hp] at hf
    cases hf
    rcases decodeThreeWay_token h with rfl | rfl | rfl
    · exact Dep.litLenCode_answers hp (fun _ => 0) litExtra0
    · exact Dep.litLenCode_answers hp (fun _ => 2) litExtra1
    · exact Dep.litLenCode_answers hp litBase2 litExtra2
  | dist sel ml =>
    rw [hp] at hf
    cases hf
    rcases decodeThreeWay_token h with rfl | rfl | rfl
    · exact Dep.distCode_answers hp (fun _ => 0) 0
    · exact Dep.distCode_answers hp (fun sel => 2 ^ w.extra 0 sel) 1
    · exact Dep.distCode_answers hp w.base 2

end Sys2Proof.Machine

/-! ### Commands that read the same operands and source run alike -/

namespace Sys2Proof.Machine

/-- Both states hold the same bytes in their source regions, as those stood at acceptance (R48 item 1). -/
structure SameSource (s x : State) : Prop where
  slen : x.slen = s.slen
  byte : ∀ k, k < s.slen → x.srcByte k = s.srcByte k

/-- Both states have latched the same context on the same platform, and hold the same bytes in the source region. -/
structure SameOperands (s x : State) : Prop where
  ctx : x.ctx = s.ctx
  memTop : x.memTop = s.memTop
  byte : ∀ k, k < s.slen → x.srcByte k = s.srcByte k

theorem SameSource.refl (s : State) : SameSource s s := ⟨rfl, fun _ _ => rfl⟩

theorem SameOperands.refl (s : State) : SameOperands s s := ⟨rfl, rfl, fun _ _ => rfl⟩

section
variable {s x : State} (h : SameOperands s x)
include h

theorem SameOperands.slen : x.slen = s.slen := by rw [State.slen, h.ctx, State.slen]

theorem SameOperands.src : x.src = s.src := by rw [State.src, h.ctx, State.src]

theorem SameOperands.dcap : x.dcap = s.dcap := by rw [State.dcap, h.ctx, State.dcap]

theorem SameOperands.p0 : x.p0 = s.p0 := by rw [State.p0, h.ctx, State.p0]

theorem SameOperands.p1 : x.p1 = s.p1 := by rw [State.p1, h.ctx, State.p1]

theorem SameOperands.jhKey : x.jhKey = s.jhKey := by rw [State.jhKey, h.ctx, State.jhKey]

theorem SameOperands.sameSource : SameSource s x := ⟨h.slen, h.byte⟩

theorem SameOperands.validRegion (a l : Nat) : x.validRegion a l = s.validRegion a l := by
  rw [State.validRegion, State.memSize, h.memTop, State.validRegion, State.memSize]

theorem SameOperands.hasAddress (a : Nat) : x.hasAddress a = s.hasAddress a := by
  rw [State.hasAddress, State.memSize, h.memTop, State.hasAddress, State.memSize]

theorem SameOperands.regionsOk (hr : RegionsOk s) : RegionsOk x := by
  unfold RegionsOk State.overlapping State.src State.dst at *
  simpa only [h.validRegion, h.slen, h.dcap, h.ctx] using hr

end

/-! ### The engine's loop, from many states at once -/

/-- Let `f x` stand for the state that a run from `x` has reached. If each turn, from every `x` that is `same`, leads
on to one such `g`, which ends the run or has fewer turns to go, then the loop ends alike from all of them. -/
theorem takeTurns_uniform {same : State → Prop} {turn : State → State} {Ends : (State → State) → Prop}
    {Runs : Nat → (State → State) → Prop} (hend : ∀ f, Ends f → ∀ x, (f x).work = .none)
    (hrun : ∀ n f, Runs n f → ∀ x, (f x).work ≠ .none)
    (hturn : ∀ n f, Runs n f → ∃ g, (Ends g ∨ ∃ m, m < n ∧ Runs m g) ∧ ∀ x, same x → turn (f x) = g x)
    (fuel : Nat) (f : State → State) (hf : Ends f ∨ ∃ m, m < fuel ∧ Runs m f) :
    ∃ g, Ends g ∧ ∀ x, same x → takeTurns State.resting turn fuel (f x) = g x := by
  induction fuel generalizing f with
  | zero =>
    obtain hf | ⟨m, hm, -⟩ := hf
    · exact ⟨f, hf, fun _ _ => rfl⟩
    · omega
  | succ fuel ih =>
    obtain hf | ⟨m, hm, hf⟩ := hf
    · exact ⟨f, hf, fun x _ => takeTurns_stopped ((f x).resting_iff.2 (hend f hf x)) _⟩
    · obtain ⟨g, hg, hfg⟩ := hturn m f hf
      obtain ⟨e, he, hge⟩ := ih g (hg.imp_right fun ⟨k, hk, hr⟩ => ⟨k, by omega, hr⟩)
      refine ⟨e, he, fun x hx => ?_⟩
      rw [takeTurns_succ, if_neg (mt (f x).resting_iff.1 (hrun m f hf x)), hfg x hx, hge x hx]

/-- A command that ends as it begins. -/
theorem takeTurns_ended {turn : State → State} {fuel : Nat} {b t : State} (hb : b = t) (ht : t.work = .none) :
    takeTurns State.resting turn fuel b = t := by
  rw [hb, takeTurns_stopped (t.resting_iff.2 ht)]

/-! ### Compressors -/

/-- The end of a compress command does not depend on its trie, which it resets, nor on its working state (R84). -/
theorem State.settle_parsed (x : State) (t : Trie) (w : Work) {op : Byte} (hop : isCompress op = true)
    {p : Progress} (hp : ∀ w, p ≠ .running w) :
    State.settle { x with trie := t, work := w } op p = x.settle op p := by
  rw [State.settle_work { x with trie := t } w]
  cases p with
  | raised r =>
    simp only [State.settle_raised, State.raiseError, State.errorEntry, hop, if_true]
    rfl
  | finished out =>
    simp only [State.settle_finished, State.succeed, hop, if_true]
    rfl
  | running w => exact absurd rfl (hp w)

theorem State.checkCapacity_ne_running (x : State) (out : List Byte) (w : Work) : x.checkCapacity out ≠ .running w := by
  unfold State.checkCapacity
  split <;> simp

/-- A compress command with the output `out`: it ends with that output if it fits, else with CAPACITY(DCAP) (R144). -/
def State.compressed (s : State) (op : Byte) (out : List Byte) (stored : Bool) : State :=
  if s.dcap < out.length then s.raiseError op ⟨.capacity, s.dcap⟩ else s.succeed op out stored

theorem State.settle_eq_compressed (s : State) (op : Byte) (out : List Byte) :
    s.settle op (s.checkCapacity out) = s.compressed op out false := by
  unfold State.checkCapacity State.compressed
  split <;> rfl

theorem State.compressed_of_lt {s : State} {op : Byte} {out : List Byte} {stored : Bool} (h : s.dcap < out.length) :
    s.compressed op out stored = s.raiseError op ⟨.capacity, s.dcap⟩ :=
  if_pos h

theorem State.compressed_of_le {s : State} {op : Byte} {out : List Byte} {stored : Bool} (h : out.length ≤ s.dcap) :
    s.compressed op out stored = s.succeed op out stored :=
  if_neg (Nat.not_lt.2 h)

theorem State.compressed_work (s : State) (op : Byte) (out : List Byte) (stored : Bool) :
    (s.compressed op out stored).work = .none := by
  unfold State.compressed
  split <;> simp

/-- The parse of a compress command: one item a turn from a position that only rises, then the finished output. -/
structure Parse (W : Type) where
  op : Byte
  turn : State → State
  work : W → Work
  pos : W → Nat
  item : (Nat → Byte) → Nat → Trie → W → Trie × W
  finish : W → List Byte
  op_isCompress : isCompress op = true
  work_ne_none : ∀ w, work w ≠ .none
  turn_item : ∀ (x : State) t w, pos w < x.slen →
    turn { x with trie := t, work := work w }
      = { x with trie := (item x.srcByte x.slen t w).1, work := work (item x.srcByte x.slen t w).2 }
  turn_finish : ∀ (x : State) t w, ¬ pos w < x.slen →
    turn { x with trie := t, work := work w }
      = State.settle { x with trie := t, work := work w } op (x.checkCapacity (finish w))
  item_congr : ∀ {S S' : Nat → Byte} {n : Nat}, (∀ k, k < n → S' k = S k) → ∀ t {w}, pos w < n →
    item S' n t w = item S n t w
  pos_item : ∀ S n t w, pos w < pos (item S n t w).2

/-- What a parse writes depends on the source region alone: neither memory outside it nor the capacity matters. -/
theorem Parse.output_uniform {W : Type} (P : Parse W) (s : State) (t : Trie) (w : W) :
    ∃ out, ∀ x b, SameSource s x → b = { x with trie := t, work := P.work w } →
      takeTurns State.resting P.turn (x.slen + 1) b = x.compressed P.op out false := by
  obtain ⟨_, ⟨out, rfl⟩, hout⟩ := takeTurns_uniform (same := SameSource s) (turn := P.turn)
    (Ends := fun f => ∃ out, f = fun x => x.compressed P.op out false)
    (Runs := fun n f => ∃ t w, s.slen - P.pos w = n ∧ f = fun x => { x with trie := t, work := P.work w })
    (by
      rintro _ ⟨out, rfl⟩ x
      exact x.compressed_work P.op out false)
    (by
      rintro _ _ ⟨t, w, -, rfl⟩ x
      exact P.work_ne_none w)
    (by
      rintro _ _ ⟨t, w, rfl, rfl⟩
      by_cases hp : P.pos w < s.slen
      · refine ⟨_, .inr ⟨_, ?_, (P.item s.srcByte s.slen t w).1, (P.item s.srcByte s.slen t w).2, rfl, rfl⟩,
          fun x hx => ?_⟩
        · have := P.pos_item s.srcByte s.slen t w
          omega
        · rw [P.turn_item x t w (hx.slen ▸ hp), hx.slen, P.item_congr hx.byte t hp]
      · exact ⟨_, .inl ⟨P.finish w, rfl⟩, fun x hx =>
          (P.turn_finish x t w (hx.slen ▸ hp)).trans
            ((x.settle_parsed t _ P.op_isCompress (x.checkCapacity_ne_running _)).trans (x.settle_eq_compressed _ _))⟩)
    (s.slen + 1) (fun x => { x with trie := t, work := P.work w }) (.inr ⟨_, by omega, t, w, rfl, rfl⟩)
  refine ⟨out, ?_⟩
  rintro x _ hx rfl
  rw [hx.slen]
  exact hout x hx

/-- LOB_COMPRESS's parse (R88). -/
def lobParse : Parse LobEnc where
  op := opLobCompress
  turn := lobEncTurn
  work := .lobEnc
  pos := LobEnc.p
  item := lobEncItem
  finish := LobEnc.pad
  op_isCompress := rfl
  work_ne_none _ := nofun
  turn_item x t w hp := if_pos hp
  turn_finish x t w hp := if_neg hp
  item_congr h t _ hp := lobEncItem_congr h t hp
  pos_item S n t w := by
    simp only [lobEncItem]
    split <;> omega

/-- XLOB_COMPRESS's parse (R97). -/
def xlobParse : Parse XlobEnc where
  op := opXlobCompress
  turn := xlobEncTurn
  work := .xlobEnc
  pos := XlobEnc.p
  item := xlobEncItem
  finish := XlobEnc.finish
  op_isCompress := rfl
  work_ne_none _ := nofun
  turn_item x t w hp := if_pos hp
  turn_finish x t w hp := if_neg hp
  item_congr h t _ hp := xlobEncItem_congr h t hp
  pos_item S n t w := by
    simp only [xlobEncItem]
    split
    · omega
    · split <;> omega

/-- TLOB_COMPRESS's parse (R114). -/
def tlobParse : Parse TlobEnc where
  op := opTlobCompress
  turn := tlobEncTurn
  work := .tlobEnc
  pos := TlobEnc.p
  item := tlobEncItem
  finish := TlobEnc.finish
  op_isCompress := rfl
  work_ne_none _ := nofun
  turn_item x t w hp := if_pos hp
  turn_finish x t w hp := if_neg hp
  item_congr h t _ hp := tlobEncItem_congr h t hp
  pos_item S n t w := by
    simp only [tlobEncItem]
    split
    · dsimp only
      omega
    · split
      · exact Nat.lt_add_of_pos_right (by decide)
      · exact Nat.lt_succ_self _

end Sys2Proof.Machine

/-! ### The compress commands -/

namespace Sys2Proof.Machine

/-- LOB_COMPRESS of fewer than 20 bytes: the stored form (R87). -/
theorem exec_lobCompress_stored {s : State} (hr : RegionsOk s) (h : s.slen < 20) :
    exec .lobCompress s = .next (s.compressed opLobCompress (bytesOf s.srcByte 0 s.slen) true) := by
  have hb : lobCompressBegin s = s.compressed opLobCompress (bytesOf s.srcByte 0 s.slen) true := by
    simp only [lobCompressBegin, State.checkRegions_ok hr, State.compressed, bytesOf_length]
    exact if_pos h
  exact congrArg Host.Outcome.next (takeTurns_ended hb (State.compressed_work ..))

/-- The stream of LOB_COMPRESS depends on the source region alone. -/
theorem exec_lobCompress_uniform {s : State} (h : 20 ≤ s.slen) :
    ∃ out, ∀ x, SameSource s x → RegionsOk x → exec .lobCompress x = .next (x.compressed opLobCompress out false) := by
  obtain ⟨out, hout⟩ := lobParse.output_uniform s (Trie.withWindow Config.lobWindow)
    { p := 0, out := [], ci := none, cnt := 0 }
  refine ⟨out, fun x hx hr => ?_⟩
  have hb : lobCompressBegin x
      = { x with
          trie := Trie.withWindow Config.lobWindow
          work := .lobEnc { p := 0, out := [], ci := none, cnt := 0 } } := by
    simp only [lobCompressBegin, State.checkRegions_ok hr]
    exact if_neg (by rw [hx.slen, Config.lobMinCompress]; omega)
  exact congrArg Host.Outcome.next (hout x _ hx hb)

/-- The stream of XLOB_COMPRESS depends on the source region alone. -/
theorem exec_xlobCompress_uniform (s : State) :
    ∃ out, ∀ x, SameSource s x → RegionsOk x →
      exec .xlobCompress x = .next (x.compressed opXlobCompress out false) := by
  obtain ⟨out, hout⟩ := xlobParse.output_uniform s (Trie.withWindow Config.xlobWindow)
    { p := 0, out := [], lits := [], pend := none }
  refine ⟨out, fun x hx hr => ?_⟩
  have hb : xlobCompressBegin x
      = { x with
          trie := Trie.withWindow Config.xlobWindow
          work := .xlobEnc { p := 0, out := [], lits := [], pend := none } } := by
    simp only [xlobCompressBegin, State.checkRegions_ok hr]
  exact congrArg Host.Outcome.next (hout x _ hx hb)

/-- A TextLob skip count that passes the check lies in the source region (R112). -/
theorem tlobCheck_ok {S : Nat → Byte} {n k : Nat} {u : Unit} (h : tlobCheck S n k = .ok u) : k ≤ n := by
  unfold tlobCheck at h
  split at h
  · cases h
  · split at h
    · cases h
    · omega

/-- TLOB_COMPRESS refuses its input, or gives a stream, by the source region and the skip count alone. -/
theorem exec_tlobCompress_uniform (s : State) :
    (∃ r, ∀ x, SameSource s x → x.p1 = s.p1 → RegionsOk x →
        exec .tlobCompress x = .next (x.raiseError opTlobCompress r))
      ∨ ∃ out, ∀ x, SameSource s x → x.p1 = s.p1 → RegionsOk x →
        exec .tlobCompress x = .next (x.compressed opTlobCompress out false) := by
  cases hc : tlobCheck s.srcByte s.slen s.p1 with
  | error r =>
    refine .inl ⟨r, fun x hx hp hr => ?_⟩
    have hb : tlobCompressBegin x = x.raiseError opTlobCompress r := by
      simp only [tlobCompressBegin, State.checkRegions_ok hr, hx.slen, hp, tlobCheck_congr hx.byte, hc]
    exact congrArg Host.Outcome.next (takeTurns_ended hb (State.raiseError_work ..))
  | ok u =>
    obtain ⟨out, hout⟩ := tlobParse.output_uniform s (Trie.withWindow Config.tlobWindow)
      { p := s.p1, out := tlobHeader s.srcByte s.p1, pend := none, nxt := 0 }
    refine .inr ⟨out, fun x hx hp hr => ?_⟩
    have hb : tlobCompressBegin x
        = { x with
            trie := Trie.withWindow Config.tlobWindow
            work := .tlobEnc { p := s.p1, out := tlobHeader s.srcByte s.p1, pend := none, nxt := 0 } } := by
      simp only [tlobCompressBegin, State.checkRegions_ok hr, hx.slen, hp, tlobCheck_congr hx.byte, hc,
        tlobHeader_congr hx.byte (tlobCheck_ok hc)]
    exact congrArg Host.Outcome.next (hout x _ hx hb)

/-- A compress command refuses its input, or gives an output, by the source region and the skip count alone: where its
regions lie, and how much room it has, decide only whether that output fits (R8, R144). -/
theorem exec_compress_uniform {i : Instr} (hi : isCompress (opcodeOf i) = true) (s : State) :
    (∃ r, ∀ x, SameSource s x → x.p1 = s.p1 → RegionsOk x → exec i x = .next (x.raiseError (opcodeOf i) r))
      ∨ ∃ out, ∀ x, SameSource s x → x.p1 = s.p1 → RegionsOk x →
        exec i x = .next (x.compressed (opcodeOf i) out (decide (i = .lobCompress ∧ s.slen < 20))) := by
  cases i with
  | lobCompress =>
    right
    by_cases h : s.slen < 20
    · refine ⟨bytesOf s.srcByte 0 s.slen, fun x hx _ hr => ?_⟩
      rw [exec_lobCompress_stored hr (hx.slen ▸ h), hx.slen, bytesOf_congr hx.byte (Nat.zero_add _).le,
        decide_eq_true ⟨rfl, h⟩]
      rfl
    · obtain ⟨out, hout⟩ := exec_lobCompress_uniform (Nat.le_of_not_lt h)
      refine ⟨out, fun x hx _ hr => ?_⟩
      rw [hout x hx hr, decide_eq_false fun hd => h hd.2]
      rfl
  | xlobCompress =>
    obtain ⟨out, hout⟩ := exec_xlobCompress_uniform s
    exact .inr ⟨out, fun x hx _ hr => hout x hx hr⟩
  | tlobCompress => exact exec_tlobCompress_uniform s
  | _ => cases hi

theorem writesDest_of_isCompress {op : Byte} (h : isCompress op = true) : writesDest op = true := by
  unfold isCompress at h
  unfold writesDest
  grind

/-- No compress command is TRIE_MATCH. -/
theorem ne_opTrieMatch_of_isCompress {op : Byte} (h : isCompress op = true) : op ≠ opTrieMatch := by
  rintro rfl
  cases h

/-- A compress command without the room fails with CAPACITY(DCAP), and leaves the trie reset (R84, R144). -/
theorem State.compressed_commandFails {s : State} {op : Byte} {out : List Byte} (stored : Bool) (hu : Undisturbed s)
    (hop : isCompress op = true) (h : s.dcap < out.length) :
    CommandFails s (s.compressed op out stored) .capacity s.dcap Trie.initial := by
  rw [State.compressed_of_lt h]
  simpa only [hop, if_true] using
    State.raiseError_commandFails op ⟨.capacity, s.dcap⟩ hu (ne_opTrieMatch_of_isCompress hop)

/-- A compress command that has not failed had the room, so OUT_LEN is the output's length (R144, R148). -/
theorem State.compressed_outLen {s : State} {op : Byte} {out : List Byte} {stored : Bool} (hu : Undisturbed s)
    (h : (s.compressed op out stored).status.err = false) :
    out.length ≤ s.dcap ∧ s.compressed op out stored = s.succeed op out stored
      ∧ (s.compressed op out stored).outLen.toNat = out.length := by
  by_cases hc : s.dcap < out.length
  · rw [State.compressed_of_lt hc] at h
    simp at h
  · have hlt : s.dcap < 2 ^ 32 := s.ctx.dcap.isLt
    have he : s.compressed op out stored = s.succeed op out stored := State.compressed_of_le (by omega)
    refine ⟨by omega, he, ?_⟩
    rw [he, State.succeed_outLen s op out stored hu.1, BitVec.toNat_ofNat, Nat.mod_eq_of_lt (by omega)]

/-- Settles O28. The output is a function of the source region and the skip count (`exec_compress_uniform`), so two
runs on the same source differ only in whether it fits. -/
theorem compressFailsOnlyForCapacity : Obligations.CompressFailsOnlyForCapacity := by
  refine ⟨fun i s hi hu hr => ?_, fun i s u v hi hus hrs huu hru hslen hp1 hbyte hv herr => ?_⟩
  · obtain ⟨op, out, hop, he⟩ : ∃ op out, (op = opLobCompress ∨ op = opXlobCompress ∨ op = opTlobCompress)
        ∧ exec i s = .next (s.settle op (s.checkCapacity out)) := by
      simp only [State.settle_eq_compressed]
      obtain ⟨rfl, h20⟩ | rfl := hi
      · obtain ⟨out, hout⟩ := exec_lobCompress_uniform h20
        exact ⟨_, out, .inl rfl, hout s (.refl s) hr⟩
      · obtain ⟨out, hout⟩ := exec_xlobCompress_uniform s
        exact ⟨_, out, .inr (.inl rfl), hout s (.refl s) hr⟩
    obtain ⟨htrie, hends⟩ := State.settle_checkCapacity op out hu hr hop
    refine ⟨_, he, htrie, ?_⟩
    split at hends
    · next hfit => exact .inl ⟨out, hends, hfit⟩
    · exact .inr hends
  · obtain ⟨r, hrefused⟩ | ⟨out, hout⟩ := exec_compress_uniform hi s
    · rw [hrefused u ⟨hslen, hbyte⟩ hp1 hru] at hv
      cases hv
      simp at herr
    · rw [hout u ⟨hslen, hbyte⟩ hp1 hru] at hv
      cases hv
      obtain ⟨hfit, hsucceeds, hlen⟩ := State.compressed_outLen huu herr
      have hdest := writesDest_of_isCompress hi
      rw [hlen]
      refine ⟨fun hroom => ⟨_, hout s (.refl s) rfl hrs, ?_⟩, fun hroom =>
        ⟨_, hout s (.refl s) rfl hrs, State.compressed_commandFails _ hus hi hroom⟩⟩
      rw [hsucceeds, State.compressed_of_le hroom]
      refine ⟨State.succeed_succeedsWith _ out _ hus.1, ⟨by simp [hus.1], by simp [hus.1]⟩, by simp [hi],
        fun k hk => ?_, fun x hx => State.succeed_readByte_outside hus.1 x hx⟩
      have hbyte := List.getElem?_eq_getElem hk
      rw [State.succeed_readByte_output hus hdest hrs.2.1 hroom hbyte,
        State.succeed_readByte_output huu hdest hru.2.1 hfit hbyte]

end Sys2Proof.Machine

/-! ### Decompressors -/

namespace Sys2Proof.Machine

/-- A command has ended, with at most `limit` bytes of output if it succeeded. -/
def Progress.Ends (limit : Nat) : Progress → Prop
  | .raised _ => True
  | .finished out => out.length ≤ limit
  | .running _ => False

/-- A command has ended, or runs on with fewer than `n` turns to go. -/
def Progress.Goes (limit : Nat) (Runs : Nat → Work → Prop) (n : Nat) : Progress → Prop
  | .raised _ => True
  | .finished out => out.length ≤ limit
  | .running w => ∃ m, m < n ∧ Runs m w

theorem Progress.Ends.ne_running {limit : Nat} {p : Progress} (h : p.Ends limit) (w : Work) : p ≠ .running w := by
  rintro rfl
  exact h

theorem State.settle_work_none {x : State} (op : Byte) {p : Progress} (hp : ∀ w, p ≠ .running w) :
    (x.settle op p).work = .none := by
  cases p with
  | raised r => simp
  | finished out => simp
  | running w => exact absurd rfl (hp w)

/-- Where the start and every turn of a command settle alike from every `same` state, so does the whole command. -/
theorem takeTurns_settles {same : State → Prop} {begins turn : State → State} {op : Byte} {limit fuel : Nat}
    {Runs : Nat → Work → Prop} (hruns : ∀ m w, Runs m w → w ≠ .none)
    (hbegins : ∃ p, p.Goes limit Runs fuel ∧ ∀ x, same x → begins x = x.settle op p)
    (hturn : ∀ m w, Runs m w →
      ∃ p, p.Goes limit Runs m ∧ ∀ x, same x → turn { x with work := w } = x.settle op p) :
    ∃ p, p.Ends limit ∧ ∀ x, same x → takeTurns State.resting turn fuel (begins x) = x.settle op p := by
  have goes {n : Nat} {p : Progress} (hp : p.Goes limit Runs n) :
      (∃ q : Progress, q.Ends limit ∧ (fun x : State => x.settle op p) = fun x => x.settle op q)
        ∨ ∃ m, m < n ∧ ∃ w, Runs m w ∧ (fun x : State => x.settle op p) = fun x => { x with work := w } := by
    cases p with
    | raised r => exact .inl ⟨.raised r, trivial, rfl⟩
    | finished out => exact .inl ⟨.finished out, hp, rfl⟩
    | running w =>
      obtain ⟨m, hm, hw⟩ := hp
      exact .inr ⟨m, hm, w, hw, rfl⟩
  obtain ⟨p, hp, hpb⟩ := hbegins
  obtain ⟨_, ⟨q, hq, rfl⟩, hrun⟩ := takeTurns_uniform (same := same) (turn := turn)
    (Ends := fun f => ∃ q : Progress, q.Ends limit ∧ f = fun x => x.settle op q)
    (Runs := fun n f => ∃ w, Runs n w ∧ f = fun x => { x with work := w })
    (by
      rintro _ ⟨q, hq, rfl⟩ x
      exact State.settle_work_none op hq.ne_running)
    (by
      rintro n _ ⟨w, hw, rfl⟩ x
      exact hruns n w hw)
    (by
      rintro n _ ⟨w, hw, rfl⟩
      obtain ⟨p, hp, hpt⟩ := hturn n w hw
      exact ⟨_, goes hp, hpt⟩)
    fuel (fun x => x.settle op p) (goes hp)
  exact ⟨q, hq, fun x hx => (hpb x hx).symm ▸ hrun x hx⟩

/-! #### The output's length -/

theorem copyMatch_length_le {limit d : Nat} (l : Nat) (out : List Byte) (h : out.length ≤ limit) :
    (copyMatch limit d l out).length ≤ limit := by
  induction l generalizing out with
  | zero => exact h
  | succ l ih =>
    rw [copyMatch]
    split
    · exact h
    · exact ih _ (by simp; omega)

theorem putBytes_length_le {limit : Nat} {out : List Byte} (bs : List Byte) (h : out.length ≤ limit) :
    (putBytes limit out bs).length ≤ limit := by
  simp only [putBytes, List.length_append, List.length_take]
  omega

/-- A read moves on inside the stream, and keeps the output within its limit. -/
theorem readBytes_bounds {S : Nat → Byte} {n limit k i : Nat} {out : List Byte} {q : Nat × List Byte}
    (h : readBytes S n limit k i out = .ok q) (hi : i ≤ n) (hl : out.length ≤ limit) :
    i ≤ q.1 ∧ q.1 ≤ n ∧ q.2.length ≤ limit := by
  induction k generalizing i out with
  | zero =>
    cases h
    exact ⟨Nat.le_refl _, hi, hl⟩
  | succ k ih =>
    rw [readBytes] at h
    split at h
    · cases h
      exact ⟨Nat.le_refl _, hi, hl⟩
    · split at h
      · cases h
      · obtain ⟨h1, h2, h3⟩ := ih h (by omega) (by simp; omega)
        exact ⟨by omega, h2, h3⟩

/-! #### LOB_DECOMPRESS -/

theorem LobDec.fetch_cases (S : Nat → Byte) (n : Nat) (w : LobDec) :
    (∃ r, w.fetch S n = .error r)
      ∨ ∃ t j, w.fetch S n = .ok (some (t, { w with i := j, tok := w.i })) ∧ w.i < j ∧ j ≤ n := by
  have hf : isStreamFormat w.format = true := by
    unfold LobDec.format
    split
    · rfl
    · split <;> rfl
  obtain ⟨r, h⟩ | ⟨t, j, h, hij, hj⟩ := fetchToken_cases hf S n w.i
  · exact .inl ⟨⟨.format, w.i⟩, by rw [LobDec.fetch, h]⟩
  · exact .inr ⟨t, j, by rw [LobDec.fetch, h], hij, hj⟩

/-- No Lob token passes the output's limit or reads on in the stream (R91 to R94). -/
theorem LobDec.apply_bounds {limit : Nat} {w v : LobDec} {t : Instr} (h : w.apply limit t = .ok v)
    (hl : w.out.length < limit) : v.i = w.i ∧ v.out.length ≤ limit := by
  cases t with
  | lobLit b =>
    cases h
    exact ⟨rfl, by simp; omega⟩
  | lobMatch l d =>
    simp only [LobDec.apply, LobDec.copy] at h
    split at h
    · cases h
    · cases h
      exact ⟨rfl, copyMatch_length_le _ _ hl.le⟩
  | _ =>
    cases h
    exact ⟨rfl, hl.le⟩

/-- A running LOB_DECOMPRESS with output still to come and `m` bytes of its stream to read. -/
def LobDecRuns (s : State) (m : Nat) (w : Work) : Prop :=
  ∃ v : LobDec, w = .lobDec v ∧ v.out.length < s.p0 ∧ s.p0 ≤ s.dcap ∧ v.i + m = s.slen

/-- What one turn of LOB_DECOMPRESS gives: the next token's effect, or the stream's end. -/
def LobDec.turnProgress (limit : Nat) (S : Nat → Byte) (n : Nat) (w : LobDec) : Progress :=
  match w.fetch S n with
  | .error r => .raised r
  | .ok none => .running (.lobDec w)
  | .ok (some (t, v)) => LobDec.progress limit (v.apply limit t)

theorem lobDecTurn_eq {x : State} {w : LobDec} (h : x.work = .lobDec w) :
    lobDecTurn x = x.settle opLobDecompress (w.turnProgress x.p0 x.srcByte x.slen) := by
  simp only [lobDecTurn, h, LobDec.turnProgress]
  cases w.fetch x.srcByte x.slen with
  | error r => rfl
  | ok o =>
    cases o with
    | none =>
      rw [State.settle_running, ← h]
    | some q => rfl

theorem LobDec.turnProgress_congr {S S' : Nat → Byte} {n : Nat} (h : ∀ k, k < n → S' k = S k) (limit : Nat)
    (w : LobDec) : w.turnProgress limit S' n = w.turnProgress limit S n := by
  simp only [LobDec.turnProgress, LobDec.fetch_congr h]

theorem LobDecRuns.turnProgress_goes {s : State} {m : Nat} {v : LobDec} (hv : LobDecRuns s m (.lobDec v)) :
    (v.turnProgress s.p0 s.srcByte s.slen).Goes s.dcap (LobDecRuns s) m := by
  obtain ⟨_, ⟨⟩, hl, hcap, hi⟩ := hv
  obtain ⟨r, hr⟩ | ⟨t, j, ht, hij, hj⟩ := v.fetch_cases s.srcByte s.slen
  · rw [LobDec.turnProgress, hr]
    trivial
  · simp only [LobDec.turnProgress, ht]
    cases ha : LobDec.apply s.p0 { v with i := j, tok := v.i } t with
    | error r => trivial
    | ok v' =>
      obtain ⟨hi', hl'⟩ := LobDec.apply_bounds ha hl
      have hi' : v'.i = j := hi'
      rw [LobDec.progress]
      split
      · exact hl'.trans hcap
      · exact ⟨s.slen - j, by omega, v', rfl, by omega, hcap, by omega⟩

/-- The start of LOB_DECOMPRESS on valid regions (R91). -/
theorem lobDecompressBegin_uniform {s : State} (hr : RegionsOk s) :
    ∃ p : Progress, p.Goes s.dcap (LobDecRuns s) (s.slen + 1)
      ∧ ∀ x, SameOperands s x → lobDecompressBegin x = x.settle opLobDecompress p := by
  have hbegin {x : State} (hx : SameOperands s x) : lobDecompressBegin x =
      if s.dcap < s.p0 then x.raiseError opLobDecompress ⟨.capacity, s.dcap⟩
      else if s.p0 < 20 then
        if s.slen < s.p0 then x.raiseError opLobDecompress ⟨.format, s.slen⟩
        else x.succeed opLobDecompress (bytesOf x.srcByte 0 s.p0) false
      else { x with work := .lobDec { i := 0, tok := 0, out := [], ctl := 0, k := 8 } } := by
    simp only [lobDecompressBegin, State.checkRegions_ok (hx.regionsOk hr), hx.dcap, hx.p0, hx.slen]
    rfl
  by_cases hcap : s.dcap < s.p0
  · exact ⟨.raised ⟨.capacity, s.dcap⟩, trivial, fun x hx => by rw [hbegin hx, if_pos hcap]; rfl⟩
  · by_cases hn : s.p0 < 20
    · by_cases hs : s.slen < s.p0
      · exact ⟨.raised ⟨.format, s.slen⟩, trivial, fun x hx => by
          rw [hbegin hx, if_neg hcap, if_pos hn, if_pos hs]; rfl⟩
      · refine ⟨.finished (bytesOf s.srcByte 0 s.p0), ?_, fun x hx => ?_⟩
        · rw [Progress.Goes, bytesOf_length]
          omega
        · rw [hbegin hx, if_neg hcap, if_pos hn, if_neg hs, bytesOf_congr hx.byte (by omega)]
          rfl
    · refine ⟨.running (.lobDec { i := 0, tok := 0, out := [], ctl := 0, k := 8 }),
        ⟨s.slen, by omega, _, rfl, ?_, by omega, by simp⟩, fun x hx => ?_⟩
      · simp only [List.length_nil]
        omega
      · rw [hbegin hx, if_neg hcap, if_neg hn]
        rfl

theorem exec_lobDecompress_uniform {s : State} (hr : RegionsOk s) :
    ∃ p : Progress, p.Ends s.dcap
      ∧ ∀ x, SameOperands s x → exec .lobDecompress x = .next (x.settle opLobDecompress p) := by
  obtain ⟨p, hp, hrun⟩ := takeTurns_settles (by rintro _ _ ⟨v, rfl, -⟩; nofun) (lobDecompressBegin_uniform hr)
    (turn := lobDecTurn) (by
      rintro m _ ⟨v, rfl, hv⟩
      exact ⟨_, LobDecRuns.turnProgress_goes ⟨v, rfl, hv⟩, fun x hx => by
        rw [← hx.p0, ← LobDec.turnProgress_congr hx.byte, ← hx.slen]
        exact (lobDecTurn_eq rfl).trans (x.settle_work ..)⟩)
  exact ⟨p, hp, fun x hx => congrArg Host.Outcome.next (hx.slen ▸ hrun x hx)⟩

/-! #### XLOB_DECOMPRESS -/

theorem XlobDec.fetch_cases (S : Nat → Byte) (n : Nat) (w : XlobDec) :
    (∃ r, w.fetch S n = .error r)
      ∨ ∃ t j, w.fetch S n = .ok (some (t, { w with i := j, tok := w.i })) ∧ w.i < j ∧ j ≤ n := by
  obtain ⟨r, h⟩ | ⟨t, j, h, hij, hj⟩ := fetchToken_cases (f := .xlob w.res.isSome) rfl S n w.i
  · exact .inl ⟨r, by rw [XlobDec.fetch, h]⟩
  · exact .inr ⟨t, j, by rw [XlobDec.fetch, h], hij, hj⟩

/-- What every ExtendedLob token keeps: the index only moves on inside the stream, and the output stays within its
limit (R103, R110). -/
def XlobDec.Bounded (limit n : Nat) (w v : XlobDec) : Prop := w.i ≤ v.i ∧ v.i ≤ n ∧ v.out.length ≤ limit

theorem XlobDec.put_bounded {limit n : Nat} {w v : XlobDec} {bs : List Byte} (h : w.put limit bs = .ok v)
    (hi : w.i ≤ n) (hl : w.out.length ≤ limit) : XlobDec.Bounded limit n w v := by
  cases h
  exact ⟨Nat.le_refl _, hi, putBytes_length_le _ hl⟩

theorem XlobDec.copy_bounded {limit n d l : Nat} {w v : XlobDec} (h : w.copy limit d l = .ok v)
    (hi : w.i ≤ n) (hl : w.out.length ≤ limit) : XlobDec.Bounded limit n w v := by
  unfold XlobDec.copy at h
  split at h
  · cases h
  · cases h
    exact ⟨Nat.le_refl _, hi, copyMatch_length_le _ _ hl⟩

theorem XlobDec.literalRun_bounded {limit n : Nat} {S : Nat → Byte} {c : BitVec 7} {w v : XlobDec}
    (h : w.literalRun limit S n c = .ok v) (hi : w.i ≤ n) (hl : w.out.length ≤ limit) :
    XlobDec.Bounded limit n w v := by
  unfold XlobDec.literalRun at h
  split at h
  · cases h
  · next hq =>
    cases h
    exact readBytes_bounds hq hi hl

theorem XlobDec.apply_bounded {limit n : Nat} {S : Nat → Byte} {w v : XlobDec} {t : Instr}
    (h : w.apply limit S n t = .ok v) (hi : w.i ≤ n) (hl : w.out.length ≤ limit) : XlobDec.Bounded limit n w v := by
  cases t with
  | xlobZrle c => exact XlobDec.put_bounded h hi hl
  | xlobLitrun c => exact XlobDec.literalRun_bounded h hi hl
  | xlobSmatch l d => exact XlobDec.copy_bounded h hi hl
  | xlobLmatchFirst a b q r => exact XlobDec.copy_bounded (w := { w with res := some r }) h hi hl
  | xlobLmatchSecond a b => exact XlobDec.copy_bounded (w := { w with res := none }) h hi hl
  | xlobLrle c b => exact XlobDec.put_bounded h hi hl
  | xlobSlit b => exact XlobDec.put_bounded h hi hl
  | _ =>
    cases h
    exact ⟨Nat.le_refl _, hi, hl⟩

/-- A running XLOB_DECOMPRESS with output still to come and `m` bytes of its stream to read. -/
def XlobDecRuns (s : State) (m : Nat) (w : Work) : Prop :=
  ∃ v : XlobDec, w = .xlobDec v ∧ v.out.length < s.p0 ∧ s.p0 ≤ s.dcap ∧ v.i + m = s.slen

/-- What one turn of XLOB_DECOMPRESS gives: the next token's effect, or the stream's end. -/
def XlobDec.turnProgress (limit : Nat) (S : Nat → Byte) (n : Nat) (w : XlobDec) : Progress :=
  match w.fetch S n with
  | .error r => .raised r
  | .ok none => .running (.xlobDec w)
  | .ok (some (t, v)) => XlobDec.progress limit (v.apply limit S n t)

theorem xlobDecTurn_eq {x : State} {w : XlobDec} (h : x.work = .xlobDec w) :
    xlobDecTurn x = x.settle opXlobDecompress (w.turnProgress x.p0 x.srcByte x.slen) := by
  simp only [xlobDecTurn, h, XlobDec.turnProgress]
  cases w.fetch x.srcByte x.slen with
  | error r => rfl
  | ok o =>
    cases o with
    | none =>
      rw [State.settle_running, ← h]
    | some q => rfl

theorem XlobDec.turnProgress_congr {S S' : Nat → Byte} {n : Nat} (h : ∀ k, k < n → S' k = S k) (limit : Nat)
    (w : XlobDec) : w.turnProgress limit S' n = w.turnProgress limit S n := by
  simp only [XlobDec.turnProgress, XlobDec.fetch_congr h, XlobDec.apply_congr h]

theorem XlobDecRuns.turnProgress_goes {s : State} {m : Nat} {v : XlobDec} (hv : XlobDecRuns s m (.xlobDec v)) :
    (v.turnProgress s.p0 s.srcByte s.slen).Goes s.dcap (XlobDecRuns s) m := by
  obtain ⟨_, ⟨⟩, hl, hcap, hi⟩ := hv
  obtain ⟨r, hr⟩ | ⟨t, j, ht, hij, hj⟩ := v.fetch_cases s.srcByte s.slen
  · rw [XlobDec.turnProgress, hr]
    trivial
  · simp only [XlobDec.turnProgress, ht]
    cases ha : XlobDec.apply s.p0 s.srcByte s.slen { v with i := j, tok := v.i } t with
    | error r => trivial
    | ok v' =>
      obtain ⟨hj', hn', hl'⟩ := XlobDec.apply_bounded ha hj hl.le
      have hj' : j ≤ v'.i := hj'
      rw [XlobDec.progress]
      split
      · exact hl'.trans hcap
      · exact ⟨s.slen - v'.i, by omega, v', rfl, by omega, hcap, by omega⟩

/-- The start of XLOB_DECOMPRESS on valid regions (R103). -/
theorem xlobDecompressBegin_uniform {s : State} (hr : RegionsOk s) :
    ∃ p : Progress, p.Goes s.dcap (XlobDecRuns s) (s.slen + 1)
      ∧ ∀ x, SameOperands s x → xlobDecompressBegin x = x.settle opXlobDecompress p := by
  have hbegin {x : State} (hx : SameOperands s x) : xlobDecompressBegin x =
      if s.dcap < s.p0 then x.raiseError opXlobDecompress ⟨.capacity, s.dcap⟩
      else x.settle opXlobDecompress (XlobDec.progress s.p0 (.ok { i := 0, tok := 0, out := [], res := none })) := by
    simp only [xlobDecompressBegin, State.checkRegions_ok (hx.regionsOk hr), hx.dcap, hx.p0]
  by_cases hcap : s.dcap < s.p0
  · exact ⟨.raised ⟨.capacity, s.dcap⟩, trivial, fun x hx => by rw [hbegin hx, if_pos hcap]; rfl⟩
  · refine ⟨XlobDec.progress s.p0 (.ok { i := 0, tok := 0, out := [], res := none }), ?_, fun x hx => by
      rw [hbegin hx, if_neg hcap]⟩
    rw [XlobDec.progress]
    split
    · exact Nat.zero_le _
    · exact ⟨s.slen, by omega, _, rfl, by omega, by omega, by simp⟩

theorem exec_xlobDecompress_uniform {s : State} (hr : RegionsOk s) :
    ∃ p : Progress, p.Ends s.dcap
      ∧ ∀ x, SameOperands s x → exec .xlobDecompress x = .next (x.settle opXlobDecompress p) := by
  obtain ⟨p, hp, hrun⟩ := takeTurns_settles (by rintro _ _ ⟨v, rfl, -⟩; nofun) (xlobDecompressBegin_uniform hr)
    (turn := xlobDecTurn) (by
      rintro m _ ⟨v, rfl, hv⟩
      exact ⟨_, XlobDecRuns.turnProgress_goes ⟨v, rfl, hv⟩, fun x hx => by
        rw [← hx.p0, ← XlobDec.turnProgress_congr hx.byte, ← hx.slen]
        exact (xlobDecTurn_eq rfl).trans (x.settle_work ..)⟩)
  exact ⟨p, hp, fun x hx => congrArg Host.Outcome.next (hx.slen ▸ hrun x hx)⟩

/-! #### TLOB_DECOMPRESS -/

theorem TlobDec.fetch_cases (S : Nat → Byte) (n : Nat) (w : TlobDec) :
    (∃ r, w.fetch S n = .error r)
      ∨ ∃ t j, w.fetch S n = .ok (some (t, { w with i := j, tok := w.i })) ∧ w.i < j ∧ j ≤ n
        ∧ ∃ bs, decodeBytes w.format bs = .token t := by
  have hf : isStreamFormat w.format = true := by
    unfold TlobDec.format
    split <;> rfl
  obtain ⟨r, h⟩ | ⟨t, j, h, hij, hj⟩ := fetchToken_cases hf S n w.i
  · exact .inl ⟨r, by rw [TlobDec.fetch, h]⟩
  · exact .inr ⟨t, j, by rw [TlobDec.fetch, h], hij, hj, fetchToken_decodes h⟩

/-- What every TextLob token keeps (R118, R123). -/
def TlobDec.Bounded (limit n : Nat) (w v : TlobDec) : Prop := w.i ≤ v.i ∧ v.i ≤ n ∧ v.out.length ≤ limit

theorem TlobDec.literal_bounded {limit n : Nat} {w v : TlobDec} {b : Byte} (h : w.literal b = .ok v) (hi : w.i ≤ n)
    (hl : w.out.length < limit) : TlobDec.Bounded limit n w v := by
  cases h
  exact ⟨Nat.le_refl _, hi, by simp; omega⟩

theorem TlobDec.copy_bounded {limit n d l : Nat} {w v : TlobDec} (h : TlobDec.copy limit d l w = .ok v)
    (hi : w.i ≤ n) (hl : w.out.length ≤ limit) : TlobDec.Bounded limit n w v := by
  unfold TlobDec.copy at h
  split at h
  · cases h
  · cases h
    exact ⟨Nat.le_refl _, hi, copyMatch_length_le _ _ hl⟩

theorem TlobDec.skip_bounded {limit n : Nat} {S : Nat → Byte} {k : Byte} {w v : TlobDec}
    (h : w.skip limit S n k = .ok v) (hi : w.i ≤ n) (hl : w.out.length ≤ limit) : TlobDec.Bounded limit n w v := by
  unfold TlobDec.skip at h
  split at h
  · cases h
  · split at h
    · cases h
    · next hq =>
      cases h
      exact readBytes_bounds hq hi hl

/-- Before the skip region has been read, the decoder reads the skip count (R70). -/
theorem TlobDec.token_skip {w : TlobDec} (hs : w.skipped = false) {bs : List Byte} {t : Instr}
    (h : decodeBytes w.format bs = .token t) : ∃ k, t = .tlobSkip k := by
  rw [TlobDec.format, hs] at h
  match bs with
  | [] => cases h
  | [b] =>
    cases h
    exact ⟨b, rfl⟩
  | _ :: _ :: _ => cases h

/-- After the skip region, and with output still to come, no token passes the limit; the skip count does not, either
(R118, R119, R123). -/
theorem TlobDec.apply_bounded {limit n : Nat} {S : Nat → Byte} {w v : TlobDec} {t : Instr}
    (h : w.apply limit S n t = .ok v) (hi : w.i ≤ n) (hl : w.out.length ≤ limit)
    (ht : w.out.length < limit ∨ ∃ k, t = .tlobSkip k) : TlobDec.Bounded limit n w v := by
  cases t with
  | tlobSkip k => exact TlobDec.skip_bounded h hi hl
  | tlobLit b => exact TlobDec.literal_bounded h hi (by simpa using ht)
  | tlobZero => exact TlobDec.literal_bounded h hi (by simpa using ht)
  | tlobShortFirst f g r => exact TlobDec.copy_bounded (w := { w with res := some r }) h hi hl
  | tlobShortSecond f => exact TlobDec.copy_bounded (w := { w with res := none }) h hi hl
  | tlobLong f l => exact TlobDec.copy_bounded h hi hl
  | _ =>
    cases h
    exact ⟨Nat.le_refl _, hi, hl⟩

/-- A running TLOB_DECOMPRESS, its skip region or output still to come, with `m` bytes of its stream to read. -/
def TlobDecRuns (s : State) (m : Nat) (w : Work) : Prop :=
  ∃ v : TlobDec, w = .tlobDec v ∧ v.out.length ≤ s.p0 ∧ (v.skipped = true → v.out.length < s.p0) ∧ s.p0 ≤ s.dcap
    ∧ v.i + m = s.slen

/-- What one turn of TLOB_DECOMPRESS gives: the next token's effect, or the stream's end. -/
def TlobDec.turnProgress (limit : Nat) (S : Nat → Byte) (n : Nat) (w : TlobDec) : Progress :=
  match w.fetch S n with
  | .error r => .raised r
  | .ok none => .running (.tlobDec w)
  | .ok (some (t, v)) => TlobDec.progress limit (v.apply limit S n t)

theorem tlobDecTurn_eq {x : State} {w : TlobDec} (h : x.work = .tlobDec w) :
    tlobDecTurn x = x.settle opTlobDecompress (w.turnProgress x.p0 x.srcByte x.slen) := by
  simp only [tlobDecTurn, h, TlobDec.turnProgress]
  cases w.fetch x.srcByte x.slen with
  | error r => rfl
  | ok o =>
    cases o with
    | none =>
      rw [State.settle_running, ← h]
    | some q => rfl

theorem TlobDec.turnProgress_congr {S S' : Nat → Byte} {n : Nat} (h : ∀ k, k < n → S' k = S k) (limit : Nat)
    (w : TlobDec) : w.turnProgress limit S' n = w.turnProgress limit S n := by
  simp only [TlobDec.turnProgress, TlobDec.fetch_congr h, TlobDec.apply_congr h]

theorem TlobDecRuns.turnProgress_goes {s : State} {m : Nat} {v : TlobDec} (hv : TlobDecRuns s m (.tlobDec v)) :
    (v.turnProgress s.p0 s.srcByte s.slen).Goes s.dcap (TlobDecRuns s) m := by
  obtain ⟨_, ⟨⟩, hle, hl, hcap, hi⟩ := hv
  obtain ⟨r, hr⟩ | ⟨t, j, ht, hij, hj, bs, hbs⟩ := v.fetch_cases s.srcByte s.slen
  · rw [TlobDec.turnProgress, hr]
    trivial
  · simp only [TlobDec.turnProgress, ht]
    cases ha : TlobDec.apply s.p0 s.srcByte s.slen { v with i := j, tok := v.i } t with
    | error r => trivial
    | ok v' =>
      have htok : v.out.length < s.p0 ∨ ∃ k, t = .tlobSkip k := by
        cases hs : v.skipped with
        | true => exact .inl (hl hs)
        | false => exact .inr (TlobDec.token_skip hs hbs)
      obtain ⟨hj', hn', hl'⟩ := TlobDec.apply_bounded ha hj hle htok
      have hj' : j ≤ v'.i := hj'
      rw [TlobDec.progress]
      split
      · exact hl'.trans hcap
      · next hrun =>
        exact ⟨s.slen - v'.i, by omega, v', rfl, hl', fun hs => by simpa [hs] using hrun, hcap, by omega⟩

/-- The start of TLOB_DECOMPRESS on valid regions (R118). -/
theorem tlobDecompressBegin_uniform {s : State} (hr : RegionsOk s) :
    ∃ p : Progress, p.Goes s.dcap (TlobDecRuns s) (s.slen + 1)
      ∧ ∀ x, SameOperands s x → tlobDecompressBegin x = x.settle opTlobDecompress p := by
  have hbegin {x : State} (hx : SameOperands s x) : tlobDecompressBegin x =
      if s.dcap < s.p0 then x.raiseError opTlobDecompress ⟨.capacity, s.dcap⟩
      else { x with work := .tlobDec { i := 0, tok := 0, out := [], res := none, skipped := false } } := by
    simp only [tlobDecompressBegin, State.checkRegions_ok (hx.regionsOk hr), hx.dcap, hx.p0]
  by_cases hcap : s.dcap < s.p0
  · exact ⟨.raised ⟨.capacity, s.dcap⟩, trivial, fun x hx => by rw [hbegin hx, if_pos hcap]; rfl⟩
  · exact ⟨.running (.tlobDec { i := 0, tok := 0, out := [], res := none, skipped := false }),
      ⟨s.slen, by omega, _, rfl, Nat.zero_le _, nofun, by omega, by simp⟩,
      fun x hx => by rw [hbegin hx, if_neg hcap]; rfl⟩

theorem exec_tlobDecompress_uniform {s : State} (hr : RegionsOk s) :
    ∃ p : Progress, p.Ends s.dcap
      ∧ ∀ x, SameOperands s x → exec .tlobDecompress x = .next (x.settle opTlobDecompress p) := by
  obtain ⟨p, hp, hrun⟩ := takeTurns_settles (by rintro _ _ ⟨v, rfl, -⟩; nofun) (tlobDecompressBegin_uniform hr)
    (turn := tlobDecTurn) (by
      rintro m _ ⟨v, rfl, hv⟩
      exact ⟨_, TlobDecRuns.turnProgress_goes ⟨v, rfl, hv⟩, fun x hx => by
        rw [← hx.p0, ← TlobDec.turnProgress_congr hx.byte, ← hx.slen]
        exact (tlobDecTurn_eq rfl).trans (x.settle_work ..)⟩)
  exact ⟨p, hp, fun x hx => congrArg Host.Outcome.next (hx.slen ▸ hrun x hx)⟩

end Sys2Proof.Machine

/-! #### DEPLODE -/

namespace Sys2Proof.Machine

/-- What one turn of DEPLODE gives: a literal run, or one code with what follows it (R131). -/
def Dep.turnProgress (w : Dep) : Progress :=
  match w.phase.format with
  | none => w.runProgress
  | some f =>
    match Dep.readCode f maxCodeBits [] w with
    | .error r => .raised r
    | .ok none => .running (.dep w)
    | .ok (some (i, v)) =>
      match v.apply i with
      | none => .running (.dep w)
      | some r => Dep.progress r

theorem depTurn_eq {x : State} {w : Dep} (h : x.work = .dep w) : depTurn x = x.settle opDeplode w.turnProgress := by
  have hsame : x = { x with work := .dep w } := by rw [← h]
  simp only [depTurn, h, Dep.turnProgress]
  cases w.phase.format with
  | none => rfl
  | some f =>
    dsimp only
    cases Dep.readCode f maxCodeBits [] w with
    | error r => rfl
    | ok o =>
      cases o with
      | none => exact hsame
      | some q =>
        obtain ⟨i, v⟩ := q
        dsimp only
        cases v.apply i with
        | none => exact hsame
        | some r => rfl

/-- More turns than a running DEPLODE still takes: each code takes a bit or more, and a literal run comes only after
a distance code (R131). -/
def Dep.turnsLeft (w : Dep) : Nat := 2 * w.bitsLeft + (if w.phase = .run then 1 else 0)

/-- A running DEPLODE whose declared size fits, with fewer than `m` turns to take after this one. -/
def DepRuns (s : State) (m : Nat) (w : Work) : Prop :=
  ∃ v : Dep, w = .dep v ∧ v.size ≤ s.dcap ∧ v.turnsLeft = m

theorem DepRuns.of_readsTo {s : State} {m k : Nat} {w v : Dep} (hw : w.size ≤ s.dcap) (h : Dep.ReadsTo k w v)
    (hv : v.turnsLeft < m) : (Progress.running (.dep v)).Goes s.dcap (DepRuns s) m :=
  ⟨v.turnsLeft, hv, v, rfl, h.1 ▸ hw, rfl⟩

theorem DepPhase.eq_run_of_format {p : DepPhase} (h : p.format = none) : p = .run := by
  cases p with
  | run => rfl
  | selLen | litLen _ _ | dist _ _ => cases h

theorem Dep.runProgress_goes {s : State} {w : Dep} (hp : w.phase = .run) (hw : w.size ≤ s.dcap) :
    w.runProgress.Goes s.dcap (DepRuns s) w.turnsLeft := by
  unfold Dep.runProgress
  split
  · trivial
  · next v hv =>
    have hread := Dep.literalRun_readsTo hv
    obtain ⟨hsize, hbits⟩ := hread
    split
    · split
      · next hlen =>
        rw [hsize] at hlen
        exact hlen.trans_le hw
      · trivial
    · refine DepRuns.of_readsTo (v := { v with phase := .selLen }) hw ⟨hsize, hbits⟩ ?_
      have hb : Dep.bitsLeft { v with phase := .selLen } = v.bitsLeft := rfl
      rw [Dep.turnsLeft, Dep.turnsLeft, hp, hb, if_pos rfl, if_neg nofun]
      omega

theorem DepRuns.turnProgress_goes {s : State} {m : Nat} {v : Dep} (hv : DepRuns s m (.dep v)) :
    v.turnProgress.Goes s.dcap (DepRuns s) m := by
  obtain ⟨_, ⟨⟩, hsize, rfl⟩ := hv
  rw [Dep.turnProgress]
  cases hf : v.phase.format with
  | none => exact Dep.runProgress_goes (DepPhase.eq_run_of_format hf) hsize
  | some f =>
    have hsome := Dep.readCode_ne_none hf maxCodeBits [] v (decodeBits_nil hf) (Nat.le_refl _)
    dsimp only
    cases hc : Dep.readCode f maxCodeBits [] v with
    | error r => trivial
    | ok o =>
      cases o with
      | none => exact absurd hc hsome
      | some q =>
        obtain ⟨i, w⟩ := q
        obtain ⟨hread, hphase, bs, hbs⟩ := Dep.readCode_readsTo hc
        obtain ⟨r, hr, heffect⟩ := Dep.apply_answers (hphase ▸ hf) hbs
        dsimp only
        rw [hr]
        cases r with
        | error r => trivial
        | ok u =>
          have hdone := hread.trans (heffect u rfl)
          refine DepRuns.of_readsTo hsize hdone ?_
          have := hdone.2
          rw [Dep.turnsLeft, Dep.turnsLeft]
          split <;> omega

/-- The start of DEPLODE on valid regions (R124). -/
theorem deplodeBegin_uniform {s : State} (hr : RegionsOk s) :
    ∃ p : Progress, p.Goes s.dcap (DepRuns s) (depFuel s)
      ∧ ∀ x, SameOperands s x → deplodeBegin x = x.settle opDeplode p := by
  cases hh : depHeaderCheck s.srcByte s.slen with
  | error r =>
    refine ⟨.raised r, trivial, fun x hx => ?_⟩
    simp only [deplodeBegin, State.checkRegions_ok (hx.regionsOk hr), hx.slen, depHeaderCheck_congr hx.byte, hh]
    rfl
  | ok u =>
    have hfile := depHeaderCheck_ok hh
    cases hf : depFooterCheck s.srcByte with
    | error r =>
      refine ⟨.raised r, trivial, fun x hx => ?_⟩
      simp only [deplodeBegin, State.checkRegions_ok (hx.regionsOk hr), hx.slen, depHeaderCheck_congr hx.byte, hh,
        depFooterCheck_congr hx.byte hh, hf]
      rfl
    | ok _ =>
      have hbegin {x : State} (hx : SameOperands s x) : deplodeBegin x =
          if s.dcap < sizeField s.srcByte 4 then x.raiseError opDeplode ⟨.capacity, s.dcap⟩
          else { x with work := .dep (depStart s.srcByte) } := by
        simp only [deplodeBegin, State.checkRegions_ok (hx.regionsOk hr), hx.slen, depHeaderCheck_congr hx.byte, hh,
          depFooterCheck_congr hx.byte hh, hf, hx.dcap, sizeField_congr hx.byte (show 4 + 4 ≤ s.slen by omega),
          depStart_congr hx.byte hh]
      by_cases hcap : s.dcap < sizeField s.srcByte 4
      · exact ⟨.raised ⟨.capacity, s.dcap⟩, trivial, fun x hx => (hbegin hx).trans (if_pos hcap)⟩
      · refine ⟨.running (.dep (depStart s.srcByte)), ⟨_, ?_, _, rfl, Nat.le_of_not_lt hcap, rfl⟩,
          fun x hx => (hbegin hx).trans (if_neg hcap)⟩
        simp only [Dep.turnsLeft, Dep.bitsLeft, depStart, depFuel, if_true]
        omega

theorem exec_deplode_uniform {s : State} (hr : RegionsOk s) :
    ∃ p : Progress, p.Ends s.dcap ∧ ∀ x, SameOperands s x → exec .deplode x = .next (x.settle opDeplode p) := by
  obtain ⟨p, hp, hrun⟩ := takeTurns_settles (by rintro _ _ ⟨v, rfl, -⟩; nofun) (deplodeBegin_uniform hr)
    (turn := depTurn) (by
      rintro m _ ⟨v, rfl, hv⟩
      exact ⟨_, DepRuns.turnProgress_goes ⟨v, rfl, hv⟩, fun x hx => (depTurn_eq rfl).trans (x.settle_work ..)⟩)
  refine ⟨p, hp, fun x hx => ?_⟩
  rw [← hrun x hx, depFuel, ← hx.slen]
  rfl

end Sys2Proof.Machine

/-! ### JH_CRYPT -/

namespace Sys2Proof.Machine

/-- `g x` is a memory for each state `x`; from states that read the same operands and source, these memories agree on
the source region. -/
def AgreeOnSource (s : State) (g : State → Memory) : Prop :=
  ∀ x, SameOperands s x → x.srcDirty = false → ∀ k, k < s.slen →
    Memory.read (g x) (s.src + k) = Memory.read (g s) (s.src + k)

/-- An undisturbed command reads its source from memory. -/
theorem State.srcByte_with_mem_work {x : State} (hx : x.srcDirty = false) (m : Memory) (w : Work) (k : Nat) :
    State.srcByte { x with mem := m, work := w } k = Memory.read m (x.src + k) :=
  State.srcByte_undisturbed (s := { x with mem := m, work := w }) hx k

theorem agreeOnSource_mem {s : State} (hs : s.srcDirty = false) : AgreeOnSource s State.mem := by
  intro x hx hd k hk
  have h := hx.byte k hk
  rwa [State.srcByte_undisturbed hd, State.srcByte_undisturbed hs, hx.src] at h

/-- Writing back the same word keeps the memories in agreement (R138, R140). -/
theorem AgreeOnSource.jhStore {s : State} {g : State → Memory} (h : AgreeOnSource s g) (w : Jh) (data : Half) :
    AgreeOnSource s fun x => jhStore { x with mem := g x } w data := by
  intro x hx hd k hk
  have hsrc : State.src { x with mem := g x } = s.src := hx.src
  have hslen : State.slen { x with mem := g x } = s.slen := hx.slen
  have haddr (a : Nat) : State.hasAddress { x with mem := g x } a = s.hasAddress a := hx.hasAddress a
  simp only [Machine.jhStore, Memory.read_fill, hsrc, hslen, haddr, h x hx hd k hk]
  rfl

/-- A running JH_CRYPT with `m` bytes of its region left, on memories that agree on the source region. -/
def JhRuns (s : State) (m : Nat) (f : State → State) : Prop :=
  ∃ w : Jh, ∃ g : State → Memory, w.j < s.slen ∧ s.slen - w.j = m ∧ AgreeOnSource s g
    ∧ f = fun x => { x with mem := g x, work := .jh w }

/-- A JH_CRYPT that has succeeded, on memories that agree on the source region. -/
def JhEnds (s : State) (f : State → State) : Prop :=
  ∃ g : State → Memory, AgreeOnSource s g ∧ f = fun x => State.succeed { x with mem := g x } opJhCrypt [] false

theorem JhRuns.turn_uniform {s : State} {m : Nat} {f : State → State} (hf : JhRuns s m f) :
    ∃ g, (JhEnds s g ∨ ∃ k, k < m ∧ JhRuns s k g)
      ∧ ∀ x, SameOperands s x ∧ x.srcDirty = false → jhTurn (f x) = g x := by
  obtain ⟨w, g, hj, rfl, hg, rfl⟩ := hf
  obtain ⟨data, hword⟩ : ∃ data, ∀ x, SameOperands s x ∧ x.srcDirty = false →
      w.word (State.srcByte { x with mem := g x, work := .jh w }) s.slen = data :=
    ⟨w.word (fun k => Memory.read (g s) (s.src + k)) s.slen, fun x hx => Jh.word_congr
      (fun k hk => by rw [State.srcByte_with_mem_work hx.2, hx.1.src, hg x hx.1 hx.2 k hk]) hj⟩
  have hturn (x : State) (hx : SameOperands s x ∧ x.srcDirty = false) :
      jhTurn { x with mem := g x, work := .jh w } = jhWordStep { x with mem := g x, work := .jh w } w data := by
    rw [← hword x hx, ← hx.1.slen]
    rfl
  have hstep := hg.jhStore w data
  by_cases hlast : s.slen ≤ w.j + 2
  · refine ⟨_, .inl ⟨_, hstep, rfl⟩, fun x hx => ?_⟩
    rw [hturn x hx, jhWordStep, if_pos (hx.1.slen ▸ hlast)]
    rfl
  · refine ⟨_, .inr ⟨_, ?_, { j := w.j + 2, d0 := jhNextKey w.d0, d1 := w.d0 }, _, ?_, rfl, hstep, rfl⟩,
      fun x hx => ?_⟩
    · dsimp only
      omega
    · exact Nat.lt_of_not_le hlast
    · rw [hturn x hx, jhWordStep, if_neg (hx.1.slen ▸ hlast)]
      rfl

/-- JH_CRYPT is refused alike, or leaves source regions that agree. -/
theorem exec_jhCrypt_uniform {s : State} (hs : s.srcDirty = false) :
    (∀ x, SameOperands s x → exec .jhCrypt x = .next (x.raiseError opJhCrypt ⟨.misuse, 0⟩))
      ∨ ∃ g : State → Memory, AgreeOnSource s g ∧ ∀ x, SameOperands s x → x.srcDirty = false →
        exec .jhCrypt x = .next (State.succeed { x with mem := g x } opJhCrypt [] false) := by
  cases hv : s.validRegion s.src s.slen with
  | false =>
    refine .inl fun x hx => congrArg Host.Outcome.next (takeTurns_ended ?_ (State.raiseError_work ..))
    have hvx : x.validRegion x.src x.slen = false := by rw [hx.src, hx.slen, hx.validRegion, hv]
    rw [jhCryptBegin, State.checkSource_error hvx]
  | true =>
    have hcheck {x : State} (hx : SameOperands s x) : x.checkSource = .ok () :=
      State.checkSource_ok (by rw [hx.src, hx.slen, hx.validRegion, hv])
    right
    by_cases h0 : s.slen = 0
    · refine ⟨State.mem, agreeOnSource_mem hs, fun x hx _ =>
        congrArg Host.Outcome.next (takeTurns_ended ?_ (State.succeed_work ..))⟩
      simp only [jhCryptBegin, hcheck hx, hx.slen, if_pos h0]
    · have hbegin {x : State} (hx : SameOperands s x) :
          jhCryptBegin x = { x with mem := x.mem, work := .jh { j := 0, d0 := s.jhKey, d1 := 0 } } := by
        simp only [jhCryptBegin, hcheck hx, hx.slen, if_neg h0, hx.jhKey]
      obtain ⟨_, ⟨g, hg, rfl⟩, hrun⟩ := takeTurns_uniform (turn := jhTurn) (Ends := JhEnds s) (Runs := JhRuns s)
        (by
          rintro _ ⟨g, -, rfl⟩ x
          exact State.succeed_work ..)
        (by
          rintro _ _ ⟨w, g, -, -, -, rfl⟩ x
          nofun)
        (fun _ _ hf => hf.turn_uniform)
        (s.slen + 1) _ (.inr ⟨s.slen, Nat.lt_succ_self _, { j := 0, d0 := s.jhKey, d1 := 0 }, State.mem,
          Nat.pos_of_ne_zero h0, rfl, agreeOnSource_mem hs, rfl⟩)
      refine ⟨g, hg, fun x hx hd => congrArg Host.Outcome.next ?_⟩
      rw [hbegin hx, hx.slen]
      exact hrun x ⟨hx, hd⟩

/-! ### Results that depend on the source alone -/

/-- The states differ in memory only, and hold the same output of a command on `s`. -/
def SameResult (s t u : State) : Prop :=
  u = { t with mem := u.mem } ∧ ∀ k, k < t.outLen.toNat → u.readByte (s.dst + k) = t.readByte (s.dst + k)

theorem State.retire_with_mem (s : State) (m : Memory) :
    State.retire { s with mem := m } = { s.retire with mem := m } := by
  cases h : s.srcDirty with
  | false => rw [State.retire_undisturbed s h, State.retire_undisturbed { s with mem := m } h]
  | true => rw [State.retire_disturbed s h, State.retire_disturbed { s with mem := m } h]

/-- States that differ in memory only still do at the end of the command. -/
theorem State.retire_eq_with_mem {s t : State} (h : t = { s with mem := t.mem }) :
    t.retire = { s.retire with mem := t.retire.mem } := by
  rw [State.retire_mem]
  conv_lhs => rw [h]
  exact s.retire_with_mem t.mem

/-- Error entry leaves the same registers and trie, whatever memory held. -/
theorem State.raiseError_with_mem (s : State) (m : Memory) (op : Byte) (r : Raise) :
    State.raiseError { s with mem := m } op r
      = { s.raiseError op r with mem := (State.raiseError { s with mem := m } op r).mem } :=
  State.retire_eq_with_mem rfl

/-- Completion leaves the same registers and trie, whatever memory held. -/
theorem State.succeed_with_mem (s : State) (m : Memory) (op : Byte) (out : List Byte) (stored : Bool) :
    State.succeed { s with mem := m } op out stored
      = { s.succeed op out stored with mem := (State.succeed { s with mem := m } op out stored).mem } :=
  State.retire_eq_with_mem rfl

theorem State.raiseError_sameResult {s : State} (hd : s.srcDirty = false) (m : Memory) (op : Byte) (r : Raise) :
    SameResult s (s.raiseError op r) (State.raiseError { s with mem := m } op r) := by
  refine ⟨s.raiseError_with_mem m op r, fun k hk => ?_⟩
  rw [State.raiseError_outLen s op r hd] at hk
  cases hk

/-- A command whose output fits in its destination region leaves it there, whatever memory held. -/
theorem State.succeed_sameResult {s : State} (hu : Undisturbed s) (m : Memory) {op : Byte} {out : List Byte}
    (stored : Bool) (hop : writesDest op = true) (hv : s.validRegion s.dst s.dcap = true) (hl : out.length ≤ s.dcap) :
    SameResult s (s.succeed op out stored) (State.succeed { s with mem := m } op out stored) := by
  refine ⟨s.succeed_with_mem m op out stored, fun k hk => ?_⟩
  rw [State.succeed_outLen s op out stored hu.1, BitVec.toNat_ofNat] at hk
  have hb := List.getElem?_eq_getElem (hk.trans_le (Nat.mod_le _ _))
  rw [State.succeed_readByte_output hu hop hv hl hb]
  exact State.succeed_readByte_output (s := { s with mem := m }) hu hop hv hl hb

theorem State.succeed_nil_sameResult {s : State} (hd : s.srcDirty = false) (m : Memory) (op : Byte) (stored : Bool) :
    SameResult s (s.succeed op [] stored) (State.succeed { s with mem := m } op [] stored) := by
  refine ⟨s.succeed_with_mem m op [] stored, fun k hk => ?_⟩
  rw [State.succeed_outLen s op [] stored hd] at hk
  cases hk

theorem State.settle_sameResult {s : State} (hu : Undisturbed s) (m : Memory) {op : Byte} {p : Progress}
    (hop : writesDest op = true) (hv : s.validRegion s.dst s.dcap = true) (hp : p.Ends s.dcap) :
    SameResult s (s.settle op p) (State.settle { s with mem := m } op p) := by
  cases p with
  | raised r => exact State.raiseError_sameResult hu.1 m op r
  | finished out => exact State.succeed_sameResult hu m false hop hv hp
  | running w => exact hp.elim

theorem State.compressed_sameResult {s : State} (hu : Undisturbed s) (m : Memory) {op : Byte} (out : List Byte)
    (stored : Bool) (hop : writesDest op = true) (hv : s.validRegion s.dst s.dcap = true) :
    SameResult s (s.compressed op out stored) (State.compressed { s with mem := m } op out stored) := by
  by_cases h : s.dcap < out.length
  · rw [State.compressed_of_lt h, State.compressed_of_lt (s := { s with mem := m }) h]
    exact State.raiseError_sameResult hu.1 m op _
  · have h := Nat.le_of_not_lt h
    rw [State.compressed_of_le h, State.compressed_of_le (s := { s with mem := m }) h]
    exact State.succeed_sameResult hu m stored hop hv h

/-- A memory that agrees with a state's on the source region gives a state with the same operands and source. -/
theorem SameOperands.with_mem {s : State} (hd : s.srcDirty = false) {m : Memory}
    (hm : ∀ x, inRegion s.src s.slen x = true → Memory.read m x = Memory.read s.mem x) :
    SameOperands s { s with mem := m } :=
  ⟨rfl, rfl, fun k hk => by
    rw [State.srcByte_undisturbed hd, State.srcByte_undisturbed (s := { s with mem := m }) hd]
    exact hm (s.src + k) (by simp [hk])⟩

/-- A command with a destination region checks its regions before anything else (R37, R38, R145). -/
theorem exec_of_not_regionsOk {i : Instr} {s : State} (hi : writesDest (opcodeOf i) = true) (hr : ¬ RegionsOk s) :
    exec i s = .next (s.raiseError (opcodeOf i) ⟨.misuse, 0⟩) := by
  have hc := State.checkRegions_error hr
  have ended {begins turn : State → State} {fuel : Nat} (op : Byte) (hb : begins s = s.raiseError op ⟨.misuse, 0⟩) :
      (Host.Outcome.next (takeTurns State.resting turn fuel (begins s)) : Host.Outcome State Fault Refusal)
        = .next (s.raiseError op ⟨.misuse, 0⟩) :=
    congrArg Host.Outcome.next (takeTurns_ended hb (State.raiseError_work ..))
  cases i with
  | lobCompress => exact ended opLobCompress (by rw [lobCompressBegin, hc])
  | lobDecompress => exact ended opLobDecompress (by rw [lobDecompressBegin, hc])
  | xlobCompress => exact ended opXlobCompress (by rw [xlobCompressBegin, hc])
  | xlobDecompress => exact ended opXlobDecompress (by rw [xlobDecompressBegin, hc])
  | tlobCompress => exact ended opTlobCompress (by rw [tlobCompressBegin, hc])
  | tlobDecompress => exact ended opTlobDecompress (by rw [tlobDecompressBegin, hc])
  | deplode => exact ended opDeplode (by rw [deplodeBegin, hc])
  | _ => cases hi

/-! #### The trie commands -/

/-- A TRIE_ADD that passes its checks takes its run from the source region (R81). -/
theorem trieAddCheck_ok {s : State} {u : Unit} (h : trieAddCheck s = .ok u) : s.p0 + s.p1 ≤ s.slen := by
  unfold trieAddCheck at h
  split at h
  · cases h
  · split at h
    · cases h
    · split at h
      · cases h
      · omega

/-- A TRIE_MATCH that passes its checks searches the source region (R83). -/
theorem trieMatchCheck_ok {s : State} {u : Unit} (h : trieMatchCheck s = .ok u) : s.p0 + s.p1 ≤ s.slen := by
  unfold trieMatchCheck at h
  split at h
  · cases h
  · split at h
    · cases h
    · split at h
      · cases h
      · omega

theorem trieInitRun_of_lt {s : State} (h : Config.trieMaxWindow < s.p0) :
    trieInitRun s = s.raiseError opTrieInit ⟨.misuse, 0⟩ :=
  if_pos h

theorem trieInitRun_of_le {s : State} (h : s.p0 ≤ Config.trieMaxWindow) :
    trieInitRun s
      = State.succeed { s with trie := Trie.withWindow (if s.p0 = 0 then Config.trieDefaultWindow else s.p0) }
          opTrieInit [] false :=
  if_neg (Nat.not_lt.2 h)

theorem trieInitRun_sameResult {s : State} (hd : s.srcDirty = false) (m : Memory) :
    SameResult s (trieInitRun s) (trieInitRun { s with mem := m }) := by
  by_cases h : Config.trieMaxWindow < s.p0
  · rw [trieInitRun_of_lt h, trieInitRun_of_lt (s := { s with mem := m }) h]
    exact State.raiseError_sameResult hd m opTrieInit _
  · have h := Nat.le_of_not_lt h
    rw [trieInitRun_of_le h, trieInitRun_of_le (s := { s with mem := m }) h]
    exact State.succeed_nil_sameResult 
      (s := { s with trie := Trie.withWindow (if s.p0 = 0 then Config.trieDefaultWindow else s.p0) }) hd m opTrieInit
      false

theorem trieAddRun_sameResult {s : State} (hd : s.srcDirty = false) {m : Memory}
    (hm : SameOperands s { s with mem := m }) : SameResult s (trieAddRun s) (trieAddRun { s with mem := m }) := by
  have hcheck : trieAddCheck { s with mem := m } = trieAddCheck s := rfl
  unfold trieAddRun
  rw [hcheck]
  cases hc : trieAddCheck s with
  | error r => exact State.raiseError_sameResult hd m opTrieAdd r
  | ok _ =>
    have hrun : bytesOf (State.srcByte { s with mem := m }) s.p0 s.p1 = bytesOf s.srcByte s.p0 s.p1 :=
      bytesOf_congr hm.byte (trieAddCheck_ok hc)
    have hsame := State.succeed_nil_sameResult
      (s := { s with trie := s.trie.add s.p0 (bytesOf s.srcByte s.p0 s.p1) }) hd m opTrieAdd false
    rw [← hrun] at hsame ⊢
    exact hsame

theorem trieMatchRun_sameResult {s : State} (hd : s.srcDirty = false) {m : Memory}
    (hm : SameOperands s { s with mem := m }) : SameResult s (trieMatchRun s) (trieMatchRun { s with mem := m }) := by
  have hcheck : trieMatchCheck { s with mem := m } = trieMatchCheck s := rfl
  unfold trieMatchRun
  rw [hcheck]
  cases hc : trieMatchCheck s with
  | error r => exact State.raiseError_sameResult hd m opTrieMatch r
  | ok _ =>
    have hfound : s.trie.search (State.srcByte { s with mem := m }) s.p0 s.p1 = s.trie.search s.srcByte s.p0 s.p1 :=
      Trie.search_congr hm.byte s.trie (trieMatchCheck_ok hc)
    have hsame := State.succeed_nil_sameResult
      (s := { s with
        matchOff := BitVec.ofNat 32 (s.trie.search s.srcByte s.p0 s.p1).1
        matchLen := BitVec.ofNat 32 (s.trie.search s.srcByte s.p0 s.p1).2 }) hd m opTrieMatch false
    rw [← hfound] at hsame ⊢
    exact hsame

/-! #### Every command -/

/-- A command with a destination region gives one result on the same operands and source. -/
theorem exec_sameResult_of_writesDest {i : Instr} {s : State} {m : Memory} (hi : writesDest (opcodeOf i) = true)
    (hu : Undisturbed s) (hm : SameOperands s { s with mem := m }) :
    ∃ t u, exec i s = .next t ∧ exec i { s with mem := m } = .next u ∧ SameResult s t u := by
  by_cases hr : RegionsOk s
  · have decoder (hp : ∃ p : Progress, p.Ends s.dcap
        ∧ ∀ x, SameOperands s x → exec i x = .next (x.settle (opcodeOf i) p)) :
        ∃ t u, exec i s = .next t ∧ exec i { s with mem := m } = .next u ∧ SameResult s t u := by
      obtain ⟨p, hp, hx⟩ := hp
      exact ⟨_, _, hx s (.refl s), hx _ hm, State.settle_sameResult hu m hi hr.2.1 hp⟩
    have compressor (hc : isCompress (opcodeOf i) = true) :
        ∃ t u, exec i s = .next t ∧ exec i { s with mem := m } = .next u ∧ SameResult s t u := by
      obtain ⟨r, hx⟩ | ⟨out, hx⟩ := exec_compress_uniform hc s
      · exact ⟨_, _, hx s (.refl s) rfl hr, hx _ hm.sameSource rfl (hm.regionsOk hr),
          State.raiseError_sameResult hu.1 m _ r⟩
      · exact ⟨_, _, hx s (.refl s) rfl hr, hx _ hm.sameSource rfl (hm.regionsOk hr),
          State.compressed_sameResult hu m out _ hi hr.2.1⟩
    cases i with
    | lobCompress => exact compressor rfl
    | lobDecompress => exact decoder (exec_lobDecompress_uniform hr)
    | xlobCompress => exact compressor rfl
    | xlobDecompress => exact decoder (exec_xlobDecompress_uniform hr)
    | tlobCompress => exact compressor rfl
    | tlobDecompress => exact decoder (exec_tlobDecompress_uniform hr)
    | deplode => exact decoder (exec_deplode_uniform hr)
    | _ => cases hi
  · exact ⟨_, _, exec_of_not_regionsOk hi hr, exec_of_not_regionsOk (s := { s with mem := m }) hi hr,
      State.raiseError_sameResult hu.1 m _ _⟩

/-- JH_CRYPT gives one result on the same operands and source: its output is its source region. -/
theorem exec_jhCrypt_sameResult {s : State} {m : Memory} (hd : s.srcDirty = false)
    (hm : SameOperands s { s with mem := m }) :
    ∃ t u, exec .jhCrypt s = .next t ∧ exec .jhCrypt { s with mem := m } = .next u ∧ SameResult s t u
      ∧ ∀ k, k < s.slen → u.readByte (s.src + k) = t.readByte (s.src + k) := by
  obtain hx | ⟨g, hg, hx⟩ := exec_jhCrypt_uniform hd
  · refine ⟨_, _, hx s (.refl s), hx _ hm, State.raiseError_sameResult hd m opJhCrypt _, fun k hk => ?_⟩
    have hsource := agreeOnSource_mem hd _ hm hd k hk
    rw [State.readByte, State.readByte, State.raiseError_mem_same hd (by rfl),
      State.raiseError_mem_same (s := { s with mem := m }) hd (by rfl)]
    exact hsource
  · refine ⟨_, _, hx s (.refl s) hd, hx _ hm hd,
      State.succeed_nil_sameResult (s := { s with mem := g s }) hd _ opJhCrypt false, fun k hk => ?_⟩
    have hkeep (mem : Memory) : (State.succeed { s with mem := mem } opJhCrypt [] false).mem = mem := by
      rw [State.succeed_mem, State.memSucceeded]
      simp only [State.srcDirty_with_mem, hd, Bool.and_false]
      rfl
    rw [State.readByte, State.readByte, hkeep (g s)]
    exact (congrArg (Memory.read · _) (hkeep _)).trans (hg _ hm hd k hk)

/-- Settles O16. Each command reads memory only through its source region, so that from two memories which agree
there it ends alike (`exec_sameResult_of_writesDest`, `exec_jhCrypt_sameResult`, and the trie commands' lemmas). -/
theorem resultDependsOnlyOnTheSource : Obligations.ResultDependsOnlyOnTheSource := by
  intro i s m hi hu hagree
  have hm := SameOperands.with_mem hu.1 hagree
  have of_sameResult (hne : i ≠ .jhCrypt)
      (h : ∃ t u, exec i s = .next t ∧ exec i { s with mem := m } = .next u ∧ SameResult s t u) :
      ∃ t u, exec i s = .next t ∧ exec i { s with mem := m } = .next u ∧ u = { t with mem := u.mem }
        ∧ (∀ k, k < t.outLen.toNat → u.readByte (s.dst + k) = t.readByte (s.dst + k))
        ∧ (i = .jhCrypt → ∀ k, k < s.slen → u.readByte (s.src + k) = t.readByte (s.src + k)) := by
    obtain ⟨t, u, ht, hu, hmem, hout⟩ := h
    exact ⟨t, u, ht, hu, hmem, hout, fun hjh => absurd hjh hne⟩
  cases i with
  | trieInit => exact of_sameResult nofun ⟨_, _, rfl, rfl, trieInitRun_sameResult hu.1 m⟩
  | trieAdd => exact of_sameResult nofun ⟨_, _, rfl, rfl, trieAddRun_sameResult hu.1 hm⟩
  | trieMatch => exact of_sameResult nofun ⟨_, _, rfl, rfl, trieMatchRun_sameResult hu.1 hm⟩
  | jhCrypt =>
    obtain ⟨t, u, ht, hu', ⟨hmem, hout⟩, hsource⟩ := exec_jhCrypt_sameResult hu.1 hm
    exact ⟨t, u, ht, hu', hmem, hout, fun _ => hsource⟩
  | lobCompress | lobDecompress | xlobCompress | xlobDecompress | tlobCompress | tlobDecompress | deplode =>
    exact of_sameResult nofun (exec_sameResult_of_writesDest rfl hu hm)
  | _ => cases hi

end Sys2Proof.Machine

/-! ### The invariant, part by part -/

namespace Sys2Proof.Machine

/-- Memory in canonical form, with no listed address at or past `n` (R34). -/
def Memory.Within (n : Nat) (m : Memory) : Prop := Memory.wf m ∧ ∀ c ∈ m, c.1 < n

theorem Memory.Within.write {n a : Nat} {m : Memory} (h : Memory.Within n m) (b : Byte) (ha : a < n) :
    Memory.Within n (Memory.write m a b) := by
  refine ⟨Memory.wf_write a b h.1, fun c hc => ?_⟩
  rcases Memory.mem_write hc with rfl | hc
  · exact ha
  · exact h.2 c hc

/-- A fill that is held to addresses of data memory stays inside it. -/
theorem Memory.Within.fill {s : State} {p : Nat → Bool} {m : Memory} (h : Memory.Within s.memSize m)
    (f : Nat → Byte) (a l : Nat) (hp : ∀ x, p x = true → s.hasAddress x = true) :
    Memory.Within s.memSize (Memory.fill p f a l m) := by
  refine ⟨Memory.wf_fill p f a l h.1, fun c hc => ?_⟩
  rcases Memory.mem_fill hc with hpc | hc
  · exact (s.hasAddress_eq_true c.1).1 (hp _ hpc)
  · exact h.2 c hc

section
variable {s : State} (h : s.Inv)
include h

theorem State.Inv.within : Memory.Within s.memSize s.mem := ⟨h.1, h.2.1⟩

theorem State.Inv.trie_wf : s.trie.wf := h.2.2.1

theorem State.Inv.workInStep : WorkInStep s := h.2.2.2.1

/-- Only a running command has working state (R29). -/
theorem State.Inv.busy_of_work (hw : s.work ≠ .none) : s.status.busy = true := by
  obtain ⟨-, -, -, -, hidle, -, -⟩ := h
  cases hb : s.status.busy with
  | true => rfl
  | false => exact absurd (hidle hb).1 hw

/-- A running command may change the trie and its working state together, in step (R29, R84). -/
theorem State.Inv.with_work (hb : s.status.busy = true) {t : Trie} {w : Work} (ht : t.wf)
    (hw : WorkInStep { s with trie := t, work := w }) : State.Inv { s with trie := t, work := w } := by
  obtain ⟨hm, ha, -, -, -, hrst, hflags⟩ := h
  exact ⟨hm, ha, ht, hw, fun hn => absurd hn (by simp [hb]), hrst, hflags⟩

theorem State.Inv.with_mem {m : Memory} (hm : Memory.Within s.memSize m) : State.Inv { s with mem := m } := by
  obtain ⟨-, -, hrest⟩ := h
  exact ⟨hm.1, hm.2, hrest⟩

end

/-- An idle block with canonical memory and a well-formed trie meets the invariant (R29). -/
theorem State.inv_of_idle {s : State} (hm : Memory.Within s.memSize s.mem) (ht : s.trie.wf) (hw : s.work = .none)
    (hb : s.status.busy = false) (hu : Undisturbed s) : s.Inv := by
  refine ⟨hm.1, hm.2, ht, ?_, fun _ => ⟨hw, hu⟩, fun _ => hb, fun h => absurd h (by simp [hb])⟩
  rw [WorkInStep, hw]
  trivial

/-! ### Completions keep the invariant -/

theorem State.Inv.anySource_within {s : State} (h : s.Inv) : Memory.Within s.memSize s.anySource :=
  h.within.fill _ _ _ fun _ hx => hx

theorem State.Inv.memFailed_within {s : State} (h : s.Inv) (op : Byte) :
    Memory.Within s.memSize (s.memFailed op) := by
  unfold State.memFailed
  split
  · exact h.within.fill _ _ _ fun _ hx => (Bool.and_eq_true_iff.1 hx).1
  · split
    · exact h.anySource_within
    · exact h.within

theorem State.Inv.memSucceeded_within {s : State} (h : s.Inv) (op : Byte) (out : List Byte) :
    Memory.Within s.memSize (s.memSucceeded op out) := by
  unfold State.memSucceeded
  split
  · exact h.within.fill _ _ _ fun _ hx => hx
  · split
    · exact h.anySource_within
    · exact h.within

theorem State.Inv.memReset_within {s : State} (h : s.Inv) : Memory.Within s.memSize s.memReset := by
  unfold State.memReset
  split
  · split
    · exact h.within.fill _ _ _ fun _ hx => hx
    · split
      · exact h.anySource_within
      · exact h.within
  · exact h.within

/-- The trie after a completion: reset by a compress command, else as it was (R84). -/
theorem Trie.wf_or_initial {t : Trie} (h : t.wf) (c : Bool) : (if c = true then Trie.initial else t).wf := by
  split
  · exact Trie.initial_wf
  · exact h

theorem State.Inv.raiseError {s : State} (h : s.Inv) (op : Byte) (r : Raise) : (s.raiseError op r).Inv := by
  refine State.inv_of_idle ?_ ?_ (by simp) (by simp) ⟨by simp, by simp⟩
  · rw [State.memSize, State.raiseError_memTop, State.raiseError_mem]
    exact h.memFailed_within op
  · rw [State.raiseError_trie]
    exact Trie.wf_or_initial h.trie_wf _

theorem State.Inv.illegalCommand {s : State} (h : s.Inv) : s.illegalCommand.Inv := by
  unfold State.illegalCommand
  refine State.inv_of_idle ?_ ?_ (by simp) (by simp [Status.failed]) ⟨by simp, by simp⟩
  · simpa [State.memSize] using h.within
  · simpa using Trie.wf_or_initial h.trie_wf (isCompress s.ctx.op)

theorem State.Inv.succeed {s : State} (h : s.Inv) (op : Byte) (out : List Byte) (stored : Bool) :
    (s.succeed op out stored).Inv := by
  refine State.inv_of_idle ?_ ?_ (by simp) (by simp) ⟨by simp, by simp⟩
  · rw [State.memSize, State.succeed_memTop, State.succeed_mem]
    exact h.memSucceeded_within op out
  · rw [State.succeed_trie]
    exact Trie.wf_or_initial h.trie_wf _

/-- A trie command may leave any well-formed trie, and any match (R80, R81, R83). -/
theorem State.Inv.succeed_trieCommand {s : State} (h : s.Inv) {t : Trie} (ht : t.wf) (op : Byte) (off len : Word) :
    (State.succeed { s with trie := t, matchOff := off, matchLen := len } op [] false).Inv := by
  refine State.inv_of_idle ?_ ?_ (by simp) (by simp) ⟨by simp, by simp⟩
  · rw [State.memSize, State.succeed_memTop, State.succeed_mem]
    exact h.memSucceeded_within op []
  · rw [State.succeed_trie]
    exact Trie.wf_or_initial ht _

/-- A turn that settles keeps the invariant if the working state it leaves is in step. -/
theorem State.Inv.settle {s : State} (h : s.Inv) (hb : s.status.busy = true) (op : Byte) {p : Progress}
    (hp : ∀ w, p = .running w → WorkInStep { s with work := w }) : (s.settle op p).Inv := by
  cases p with
  | raised r => exact h.raiseError op r
  | finished out => exact h.succeed op out false
  | running w => exact h.with_work hb h.trie_wf (hp w rfl)

/-! ### Trie commands keep the invariant -/

theorem State.Inv.trieInitRun {s : State} (h : s.Inv) : (trieInitRun s).Inv := by
  rcases Nat.lt_or_ge Config.trieMaxWindow s.p0 with hlt | hle
  · rw [trieInitRun_of_lt hlt]
    exact h.raiseError _ _
  · rw [trieInitRun_of_le hle]
    refine h.succeed_trieCommand (Trie.withWindow_wf ?_ ?_) opTrieInit s.matchOff s.matchLen
    · split
      · decide
      · omega
    · split
      · decide
      · exact hle

/-- TRIE_ADD's checks are what an insertion needs (R81). -/
theorem insertable_of_trieAddCheck_ok {s : State} {u : Unit} (h : trieAddCheck s = .ok u) :
    1 ≤ s.p1 ∧ s.p1 ≤ Config.trieMaxRun ∧ ∀ q, s.trie.last = some q → q < s.p0 := by
  unfold trieAddCheck at h
  split at h
  · cases h
  · split at h
    · cases h
    · split at h
      · cases h
      · split at h
        · next hlast =>
          split at h
          · cases h
          · refine ⟨by omega, by omega, fun q hq => ?_⟩
            rw [hlast] at hq
            cases hq
            omega
        · next hlast => exact ⟨by omega, by omega, fun q hq => by simp [hlast] at hq⟩

theorem State.Inv.trieAddRun {s : State} (h : s.Inv) : (trieAddRun s).Inv := by
  unfold Machine.trieAddRun
  split
  · exact h.raiseError _ _
  · next hc =>
    obtain ⟨h1, h2, hlast⟩ := insertable_of_trieAddCheck_ok hc
    have hrun : (bytesOf s.srcByte s.p0 s.p1).length = s.p1 := bytesOf_length ..
    exact h.succeed_trieCommand
      (Trie.add_wf h.trie_wf hlast s.ctx.p0.isLt (hrun.symm ▸ h1) (hrun.symm ▸ h2)) opTrieAdd s.matchOff s.matchLen

theorem State.Inv.trieMatchRun {s : State} (h : s.Inv) : (trieMatchRun s).Inv := by
  unfold Machine.trieMatchRun
  split
  · exact h.raiseError _ _
  · exact h.succeed_trieCommand h.trie_wf opTrieMatch _ _

/-! ### Compress commands keep the invariant -/

/-- Inserting consecutive positions keeps the trie's form and its last anchor in step (R84). -/
theorem Trie.addRuns_inStep {S : Nat → Byte} {n cap count k : Nat} {t : Trie} (ht : t.wf) (hk : t.reaches k)
    (hn : n < 2 ^ 32) (h1 : 1 ≤ cap) (h2 : cap ≤ Config.trieMaxRun) (hc : count = 0 ∨ k + count ≤ n) :
    (Trie.addRuns S n cap count k t).wf ∧ (Trie.addRuns S n cap count k t).window = t.window
      ∧ (Trie.addRuns S n cap count k t).reaches (k + count) :=
  ⟨(Trie.addRuns_wf hn.le h1 h2 count k ht (fun _ hq => Trie.last_lt_of_reaches hk hq) hc).1,
    Trie.addRuns_window .., Trie.addRuns_reaches count k hk⟩

/-- An item of LOB_COMPRESS inserts every position it covers (R88). -/
theorem lobEncItem_inStep {S : Nat → Byte} {n : Nat} {t : Trie} {w : LobEnc} (ht : t.wf) (hw : t.reaches w.p)
    (hn : n < 2 ^ 32) (hp : w.p < n) :
    (lobEncItem S n t w).1.wf ∧ (lobEncItem S n t w).1.window = t.window
      ∧ (lobEncItem S n t w).1.reaches (lobEncItem S n t w).2.p := by
  have hle := Trie.search_le t S w.p (min Config.lobMaxMatch (n - w.p))
  exact Trie.addRuns_inStep ht hw hn (by decide) (by decide) (.inr (by split <;> omega))

theorem State.Inv.lobEncTurn {s : State} (h : s.Inv) : (lobEncTurn s).Inv := by
  unfold Machine.lobEncTurn
  split
  · next w hw =>
    have hb := h.busy_of_work (by simp [hw])
    have hstep := h.workInStep
    rw [WorkInStep, hw] at hstep
    obtain ⟨hwin, hreach⟩ := hstep
    split
    · next hp =>
      obtain ⟨ht, hwin', hreach'⟩ := lobEncItem_inStep (S := s.srcByte) h.trie_wf hreach s.ctx.slen.isLt hp
      exact h.with_work hb ht ⟨hwin'.trans hwin, hreach'⟩
    · exact h.settle hb _ fun w hr => absurd hr (s.checkCapacity_ne_running _ w)
  · exact h

@[simp] theorem XlobEnc.flush_lits (w : XlobEnc) : w.flush.lits = [] := by
  unfold XlobEnc.flush
  split
  · assumption
  · split <;> rfl

@[simp] theorem XlobEnc.putRun_lits (w : XlobEnc) (v : Byte) (r : Nat) : (w.putRun v r).lits = w.lits := by
  unfold XlobEnc.putRun
  split <;> rfl

@[simp] theorem XlobEnc.putMatch_lits (w : XlobEnc) (d l : Nat) : (w.putMatch d l).lits = w.lits := by
  unfold XlobEnc.putMatch XlobEnc.putSmallMatch XlobEnc.putLargeMatch
  split
  · rfl
  · dsimp only
    split <;> rfl

/-- Pending literals are flushed before there are 127 of them (R99). -/
theorem XlobEnc.addLiteral_lits_lt {w : XlobEnc} (h : w.lits.length < 127) (v : Byte) :
    (w.addLiteral v).lits.length < 127 := by
  unfold XlobEnc.addLiteral
  dsimp only
  split
  · simp
  · next hne =>
    simp only [Config.xlobMaxLitrun, List.length_append, List.length_singleton] at hne ⊢
    omega

/-- An item of XLOB_COMPRESS inserts every position it covers, and leaves fewer than 127 literals pending (R97,
R99). -/
theorem xlobEncItem_inStep {S : Nat → Byte} {n : Nat} {t : Trie} {w : XlobEnc} (ht : t.wf) (hw : t.reaches w.p)
    (hn : n < 2 ^ 32) (hp : w.p < n) (hl : w.lits.length < 127) :
    (xlobEncItem S n t w).1.wf ∧ (xlobEncItem S n t w).1.window = t.window
      ∧ (xlobEncItem S n t w).1.reaches (xlobEncItem S n t w).2.p ∧ (xlobEncItem S n t w).2.lits.length < 127 := by
  have hle := Trie.search_le t S w.p (min Config.xlobMaxMatch (n - w.p))
  obtain ⟨-, -, hrun, -, -⟩ := xlobRunAt_isRunAt S hp
  obtain ⟨hwf, hwin, hreach⟩ : (xlobEncItem S n t w).1.wf ∧ (xlobEncItem S n t w).1.window = t.window
      ∧ (xlobEncItem S n t w).1.reaches (xlobEncItem S n t w).2.p :=
    Trie.addRuns_inStep ht hw hn (by decide) (by decide) (.inr (by
      split
      · omega
      · split <;> omega))
  refine ⟨hwf, hwin, hreach, ?_⟩
  simp only [xlobEncItem]
  split
  · simp
  · split
    · simp
    · exact XlobEnc.addLiteral_lits_lt hl _

theorem State.Inv.xlobEncTurn {s : State} (h : s.Inv) : (xlobEncTurn s).Inv := by
  unfold Machine.xlobEncTurn
  split
  · next w hw =>
    have hb := h.busy_of_work (by simp [hw])
    have hstep := h.workInStep
    rw [WorkInStep, hw] at hstep
    obtain ⟨hwin, hreach, hlits⟩ := hstep
    split
    · next hp =>
      obtain ⟨ht, hwin', hreach', hlits'⟩ :=
        xlobEncItem_inStep (S := s.srcByte) h.trie_wf hreach s.ctx.slen.isLt hp hlits
      exact h.with_work hb ht ⟨hwin'.trans hwin, hreach', hlits'⟩
    · exact h.settle hb _ fun w hr => absurd hr (s.checkCapacity_ne_running _ w)
  · exact h

@[simp] theorem TlobEnc.putShort_nxt (w : TlobEnc) (d : Nat) : (w.putShort d).nxt = w.nxt := by
  unfold TlobEnc.putShort
  dsimp only
  split <;> rfl

/-- What an item of TLOB_COMPRESS does to the trie and to the positions (R114). -/
theorem tlobEncItem_positions (S : Nat → Byte) (n : Nat) (t : Trie) (w : TlobEnc) :
    (tlobEncItem S n t w).1 = t.addRuns S n Config.tlobMaxMatch (w.p - 2 - w.nxt) w.nxt
      ∧ (tlobEncItem S n t w).2.nxt = w.nxt + (w.p - 2 - w.nxt) ∧ w.p ≤ (tlobEncItem S n t w).2.p := by
  simp only [tlobEncItem]
  split
  · exact ⟨rfl, rfl, Nat.le_add_right ..⟩
  · split
    · exact ⟨rfl, TlobEnc.putShort_nxt .., Nat.le_add_right ..⟩
    · exact ⟨rfl, rfl, Nat.le_add_right ..⟩

/-- An item of TLOB_COMPRESS leaves every position up to three before it inserted (R114). -/
theorem tlobEncItem_inStep {S : Nat → Byte} {n : Nat} {t : Trie} {w : TlobEnc} (ht : t.wf) (hw : t.reaches w.nxt)
    (hn : n < 2 ^ 32) (hp : w.p < n) (hlag : w.nxt ≤ w.p - 2) :
    (tlobEncItem S n t w).1.wf ∧ (tlobEncItem S n t w).1.window = t.window
      ∧ (tlobEncItem S n t w).1.reaches (tlobEncItem S n t w).2.nxt
      ∧ (tlobEncItem S n t w).2.nxt ≤ (tlobEncItem S n t w).2.p - 2 := by
  obtain ⟨htrie, hnxt, hpos⟩ := tlobEncItem_positions S n t w
  obtain ⟨hwf, hwin, hreach⟩ := Trie.addRuns_inStep (S := S) (cap := Config.tlobMaxMatch)
    (count := w.p - 2 - w.nxt) ht hw hn (by decide) (by decide) (by omega)
  rw [htrie, hnxt]
  exact ⟨hwf, hwin, hreach, by omega⟩

theorem State.Inv.tlobEncTurn {s : State} (h : s.Inv) : (tlobEncTurn s).Inv := by
  unfold Machine.tlobEncTurn
  split
  · next w hw =>
    have hb := h.busy_of_work (by simp [hw])
    have hstep := h.workInStep
    rw [WorkInStep, hw] at hstep
    obtain ⟨hwin, hreach, hlag⟩ := hstep
    split
    · next hp =>
      obtain ⟨ht, hwin', hreach', hlag'⟩ :=
        tlobEncItem_inStep (S := s.srcByte) h.trie_wf hreach s.ctx.slen.isLt hp hlag
      exact h.with_work hb ht ⟨hwin'.trans hwin, hreach', hlag'⟩
    · exact h.settle hb _ fun w hr => absurd hr (s.checkCapacity_ne_running _ w)
  · exact h

theorem State.Inv.lobCompressBegin {s : State} (h : s.Inv) (hb : s.status.busy = true) :
    (lobCompressBegin s).Inv := by
  unfold Machine.lobCompressBegin
  split
  · exact h.raiseError _ _
  · split
    · split
      · exact h.raiseError _ _
      · exact h.succeed _ _ _
    · exact h.with_work hb (Trie.withWindow_wf (by decide) (by decide)) ⟨rfl, Trie.withWindow_reaches _⟩

theorem State.Inv.xlobCompressBegin {s : State} (h : s.Inv) (hb : s.status.busy = true) :
    (xlobCompressBegin s).Inv := by
  unfold Machine.xlobCompressBegin
  split
  · exact h.raiseError _ _
  · exact h.with_work hb (Trie.withWindow_wf (by decide) (by decide))
      ⟨rfl, Trie.withWindow_reaches _, by decide⟩

theorem State.Inv.tlobCompressBegin {s : State} (h : s.Inv) (hb : s.status.busy = true) :
    (tlobCompressBegin s).Inv := by
  unfold Machine.tlobCompressBegin
  split
  · exact h.raiseError _ _
  · split
    · exact h.raiseError _ _
    · exact h.with_work hb (Trie.withWindow_wf (by decide) (by decide))
        ⟨rfl, Trie.withWindow_reaches _, Nat.zero_le _⟩

/-! ### Decompressors keep the invariant -/

/-- A decompressor goes on with working state of its own, of which the invariant asks nothing. -/
theorem LobDec.progress_inStep {s : State} {limit : Nat} {r : Result LobDec} {w : Work}
    (h : LobDec.progress limit r = .running w) : WorkInStep { s with work := w } := by
  unfold LobDec.progress at h
  split at h
  · cases h
  · split at h <;> cases h
    trivial

theorem XlobDec.progress_inStep {s : State} {limit : Nat} {r : Result XlobDec} {w : Work}
    (h : XlobDec.progress limit r = .running w) : WorkInStep { s with work := w } := by
  unfold XlobDec.progress at h
  split at h
  · cases h
  · split at h <;> cases h
    trivial

theorem TlobDec.progress_inStep {s : State} {limit : Nat} {r : Result TlobDec} {w : Work}
    (h : TlobDec.progress limit r = .running w) : WorkInStep { s with work := w } := by
  unfold TlobDec.progress at h
  split at h
  · cases h
  · split at h <;> cases h
    trivial

theorem State.Inv.lobDecTurn {s : State} (h : s.Inv) : (lobDecTurn s).Inv := by
  unfold Machine.lobDecTurn
  split
  · next w hw =>
    split
    · exact h.raiseError _ _
    · exact h
    · exact h.settle (h.busy_of_work (by simp [hw])) _ fun _ hr => LobDec.progress_inStep hr
  · exact h

theorem State.Inv.onLobDec {s t : State} (h : s.Inv) {here : LobDec → Bool} {f : LobDec → Result LobDec}
    (ht : onLobDec here f s = .next t) : t.Inv := by
  unfold Machine.onLobDec at ht
  split at ht
  · next w hw =>
    split at ht
    · cases ht
      exact h.settle (h.busy_of_work (by simp [hw])) _ fun _ hr => LobDec.progress_inStep hr
    · cases ht
  · cases ht

theorem State.Inv.xlobDecTurn {s : State} (h : s.Inv) : (xlobDecTurn s).Inv := by
  unfold Machine.xlobDecTurn
  split
  · next w hw =>
    split
    · exact h.raiseError _ _
    · exact h
    · exact h.settle (h.busy_of_work (by simp [hw])) _ fun _ hr => XlobDec.progress_inStep hr
  · exact h

theorem State.Inv.onXlobDec {s t : State} (h : s.Inv) {here : XlobDec → Bool} {f : XlobDec → Result XlobDec}
    (ht : onXlobDec here f s = .next t) : t.Inv := by
  unfold Machine.onXlobDec at ht
  split at ht
  · next w hw =>
    split at ht
    · cases ht
      exact h.settle (h.busy_of_work (by simp [hw])) _ fun _ hr => XlobDec.progress_inStep hr
    · cases ht
  · cases ht

theorem State.Inv.tlobDecTurn {s : State} (h : s.Inv) : (tlobDecTurn s).Inv := by
  unfold Machine.tlobDecTurn
  split
  · next w hw =>
    split
    · exact h.raiseError _ _
    · exact h
    · exact h.settle (h.busy_of_work (by simp [hw])) _ fun _ hr => TlobDec.progress_inStep hr
  · exact h

theorem State.Inv.onTlobDec {s t : State} (h : s.Inv) {here : TlobDec → Bool} {f : TlobDec → Result TlobDec}
    (ht : onTlobDec here f s = .next t) : t.Inv := by
  unfold Machine.onTlobDec at ht
  split at ht
  · next w hw =>
    split at ht
    · cases ht
      exact h.settle (h.busy_of_work (by simp [hw])) _ fun _ hr => TlobDec.progress_inStep hr
    · cases ht
  · cases ht

theorem State.Inv.lobDecompressBegin {s : State} (h : s.Inv) (hb : s.status.busy = true) :
    (lobDecompressBegin s).Inv := by
  unfold Machine.lobDecompressBegin
  split
  · exact h.raiseError _ _
  · split
    · exact h.raiseError _ _
    · split
      · split
        · exact h.raiseError _ _
        · exact h.succeed _ _ _
      · exact h.with_work hb h.trie_wf trivial

theorem State.Inv.xlobDecompressBegin {s : State} (h : s.Inv) (hb : s.status.busy = true) :
    (xlobDecompressBegin s).Inv := by
  unfold Machine.xlobDecompressBegin
  split
  · exact h.raiseError _ _
  · split
    · exact h.raiseError _ _
    · exact h.settle hb _ fun _ hr => XlobDec.progress_inStep hr

theorem State.Inv.tlobDecompressBegin {s : State} (h : s.Inv) (hb : s.status.busy = true) :
    (tlobDecompressBegin s).Inv := by
  unfold Machine.tlobDecompressBegin
  split
  · exact h.raiseError _ _
  · split
    · exact h.raiseError _ _
    · exact h.with_work hb h.trie_wf trivial

/-! ### DEPLODE keeps the invariant -/

/-- What the invariant asks of DEPLODE's working state: it is ready, and its output is within its declared size, which
is within the capacity (R124, R128, R132, R136). -/
def Dep.InStep (cap : Nat) (w : Dep) : Prop := w.ready ∧ w.out.length ≤ w.size ∧ w.size ≤ cap

theorem State.Inv.dep_inStep {s : State} (h : s.Inv) {w : Dep} (hw : s.work = .dep w) : w.InStep s.dcap := by
  have hstep := h.workInStep
  rwa [WorkInStep, hw] at hstep

theorem Dep.getbit_inStep {cap : Nat} {w : Dep} {q : Bool × Dep} (h : w.InStep cap) (hq : w.getbit = .ok q) :
    q.2.InStep cap := by
  obtain ⟨⟨hbc, hcur⟩, hout⟩ := h
  unfold Dep.getbit at hq
  split at hq
  · split at hq
    · cases hq
    · cases hq
      exact ⟨⟨show 7 ≤ 8 by decide, (Nat.sub_le ..).trans hcur⟩, hout⟩
  · cases hq
    exact ⟨⟨(Nat.sub_le ..).trans hbc, hcur⟩, hout⟩

theorem Dep.getbits_inStep {cap k v : Nat} {w : Dep} {q : Nat × Dep} (h : w.InStep cap)
    (hq : Dep.getbits k v w = .ok q) : q.2.InStep cap := by
  induction k generalizing v w with
  | zero =>
    cases hq
    exact h
  | succ k ih =>
    rw [Dep.getbits] at hq
    split at hq
    · cases hq
    · next hb => exact ih (Dep.getbit_inStep h hb) hq

theorem Dep.rawByte_inStep {cap : Nat} {w : Dep} {q : Byte × Dep} (h : w.InStep cap) (hq : w.rawByte = .ok q) :
    q.2.InStep cap ∧ q.2.out = w.out ∧ q.2.size = w.size := by
  obtain ⟨⟨hbc, hcur⟩, hout⟩ := h
  unfold Dep.rawByte at hq
  split at hq
  · cases hq
  · cases hq
    exact ⟨⟨⟨hbc, (Nat.sub_le ..).trans hcur⟩, hout⟩, rfl, rfl⟩

theorem Dep.readCode_inStep {cap : Nat} {f : Format} {fuel : Nat} {pre : List Bool} {w v : Dep} {i : Instr}
    (h : w.InStep cap) (hv : Dep.readCode f fuel pre w = .ok (some (i, v))) : v.InStep cap := by
  induction fuel generalizing pre w with
  | zero => cases hv
  | succ fuel ih =>
    rw [Dep.readCode] at hv
    split at hv
    · cases hv
    · next hq =>
      have hread := Dep.getbit_inStep h hq
      split at hv
      · cases hv
        exact hread
      · exact ih hread hv
      · cases hv

/-- One more byte of output, while the output is short of the declared size (R132, R136). -/
theorem Dep.InStep.push {cap : Nat} {w : Dep} (h : w.InStep cap) (hs : w.out.length ≠ w.size) (b : Byte) :
    Dep.InStep cap { w with out := w.out ++ [b] } := by
  obtain ⟨hready, hout, hcap⟩ := h
  exact ⟨hready, by simp only [List.length_append, List.length_singleton]; omega, hcap⟩

theorem Dep.literalRun_inStep {cap n : Nat} {w v : Dep} (h : w.InStep cap) (hv : Dep.literalRun n w = .ok v) :
    v.InStep cap := by
  induction n generalizing w with
  | zero =>
    cases hv
    exact h
  | succ n ih =>
    rw [Dep.literalRun] at hv
    split at hv
    · cases hv
    · next hs =>
      split at hv
      · cases hv
      · next q hq =>
        obtain ⟨hraw, hout, hsize⟩ := Dep.rawByte_inStep h hq
        exact ih (hraw.push (by rwa [hout, hsize]) q.1) hv

theorem Dep.copyBytes_inStep {cap d l : Nat} {w v : Dep} (h : w.InStep cap) (hv : Dep.copyBytes d l w = .ok v) :
    v.InStep cap := by
  induction l generalizing w with
  | zero =>
    cases hv
    exact h
  | succ l ih =>
    rw [Dep.copyBytes] at hv
    split at hv
    · cases hv
    · next hs => exact ih (h.push hs _) hv

/-- A code's effect keeps DEPLODE's working state in step, where it has one. -/
def Dep.KeepsStep (f : Dep → Option (Result Dep)) : Prop :=
  ∀ cap w v, Dep.InStep cap w → f w = some (.ok v) → v.InStep cap

theorem Dep.selLenCode_keepsStep {f : Dep → Result Dep}
    (hf : ∀ cap w v, Dep.InStep cap w → f w = .ok v → v.InStep cap) : Dep.KeepsStep (Dep.selLenCode f) := by
  intro cap w v h hv
  unfold Dep.selLenCode at hv
  split at hv
  · exact hf cap w v h (Option.some.inj hv)
  · cases hv

theorem Dep.setSelLen_keepsStep (sel : Fin 4) (ml : Nat) : Dep.KeepsStep (Dep.selLenCode (Dep.setSelLen sel ml)) := by
  refine Dep.selLenCode_keepsStep fun cap w v h hv => ?_
  cases hv
  exact h

theorem Dep.rawSelLen_keepsStep : Dep.KeepsStep (Dep.selLenCode Dep.rawSelLen) := by
  refine Dep.selLenCode_keepsStep fun cap w v h hv => ?_
  unfold Dep.rawSelLen at hv
  split at hv
  · cases hv
  · next hq =>
    split at hv
    · cases hv
    · cases hv
      exact (Dep.rawByte_inStep h hq).1

theorem Dep.litLenCode_keepsStep (base extra : Fin 4 → Nat) : Dep.KeepsStep (Dep.litLenCode base extra) := by
  intro cap w v h hv
  unfold Dep.litLenCode at hv
  split at hv
  · unfold Dep.setLitLen at hv
    split at hv
    · cases hv
    · next hq =>
      cases hv
      exact Dep.getbits_inStep h hq
  · cases hv

theorem Dep.distCode_keepsStep (base : Dep → Fin 4 → Nat) (g : Nat) :
    Dep.KeepsStep (fun w => w.distCode (base w) g) := by
  intro cap w v h hv
  dsimp only [Dep.distCode] at hv
  split at hv
  · unfold Dep.matchAt at hv
    split at hv
    · cases hv
    · next hq =>
      have hbits := Dep.getbits_inStep h hq
      split at hv
      · cases hv
      · split at hv
        · cases hv
        · next u hc =>
          cases hv
          exact (Dep.copyBytes_inStep hbits hc : u.InStep cap)
  · cases hv

theorem Dep.apply_keepsStep (i : Instr) : Dep.KeepsStep (fun w => w.apply i) := by
  cases i with
  | depSellen0 | depSellen10 | depSellen110 | depSellen1110 | depSellen11110 _ => exact Dep.setSelLen_keepsStep _ _
  | depSellen11111 => exact Dep.rawSelLen_keepsStep
  | depLitlen0 => exact Dep.litLenCode_keepsStep (fun _ => 0) litExtra0
  | depLitlen10 => exact Dep.litLenCode_keepsStep (fun _ => 2) litExtra1
  | depLitlen11 => exact Dep.litLenCode_keepsStep litBase2 litExtra2
  | depDist0 => exact Dep.distCode_keepsStep (fun _ _ => 0) 0
  | depDist10 => exact Dep.distCode_keepsStep (fun w sel => 2 ^ w.extra 0 sel) 1
  | depDist11 => exact Dep.distCode_keepsStep Dep.base 2
  | _ => nofun

/-- DEPLODE goes on in step after a code that has kept it so. -/
theorem Dep.progress_inStep {s : State} {r : Result Dep} {w : Work} (hr : ∀ v, r = .ok v → v.InStep s.dcap)
    (h : Dep.progress r = .running w) : WorkInStep { s with work := w } := by
  cases r with
  | error r => cases h
  | ok v =>
    cases h
    exact hr v rfl

theorem Dep.runProgress_inStep {s : State} {w : Dep} (hw : w.InStep s.dcap) {w' : Work}
    (h : w.runProgress = .running w') : WorkInStep { s with work := w' } := by
  unfold Dep.runProgress at h
  split at h
  · cases h
  · next v hv =>
    split at h
    · split at h <;> cases h
    · cases h
      exact (Dep.literalRun_inStep hw hv : v.InStep s.dcap)

theorem State.Inv.depTurn {s : State} (h : s.Inv) : (depTurn s).Inv := by
  unfold Machine.depTurn
  split
  · next w hw =>
    have hb := h.busy_of_work (by simp [hw])
    have hstep := h.dep_inStep hw
    split
    · exact h.settle hb _ fun _ hr => Dep.runProgress_inStep hstep hr
    · split
      · exact h.raiseError _ _
      · exact h
      · next i v hc =>
        have hread := Dep.readCode_inStep hstep hc
        split
        · exact h
        · next r ha =>
          exact h.settle hb _ fun _ hr =>
            Dep.progress_inStep (fun u hu => Dep.apply_keepsStep i _ v u hread (hu ▸ ha)) hr
  · exact h

/-- A code of DEPLODE's stream runs as its effect on a DEPLODE that stands before it (R133 to R136). -/
theorem exec_eq_onDep {i : Instr} (hi : formatOf i = .depSelLen ∨ formatOf i = .depLitLen ∨ formatOf i = .depDist)
    (s : State) : exec i s = onDep (fun w => w.apply i) s := by
  cases i with
  | depSellen0 | depSellen10 | depSellen110 | depSellen1110 | depSellen11110 _ | depSellen11111 | depLitlen0
  | depLitlen10 | depLitlen11 | depDist0 | depDist10 | depDist11 => rfl
  | _ => simp [formatOf] at hi

theorem State.Inv.onDep {s t : State} (h : s.Inv) {f : Dep → Option (Result Dep)} (hf : Dep.KeepsStep f)
    (ht : onDep f s = .next t) : t.Inv := by
  unfold Machine.onDep at ht
  split at ht
  · next w hw =>
    split at ht
    · next r hr =>
      cases ht
      exact h.settle (h.busy_of_work (by simp [hw])) _ fun _ hp =>
        Dep.progress_inStep (fun v hv => hf _ w v (h.dep_inStep hw) (hv ▸ hr)) hp
    · cases ht
  · cases ht

/-- DEPLODE starts in step, once its header and its capacity have been checked (R124, R128). -/
theorem depStart_inStep {F : Nat → Byte} {n cap : Nat} {u : Unit} (hh : depHeaderCheck F n = .ok u)
    (hcap : sizeField F 4 ≤ cap) : (depStart F).InStep cap := by
  obtain ⟨-, h12, -⟩ := depHeaderCheck_ok hh
  refine ⟨⟨Nat.le_refl 8, ?_⟩, Nat.zero_le _, hcap⟩
  simp only [depStart, depPrepared, List.length_append, bytesOf_length]
  omega

theorem State.Inv.deplodeBegin {s : State} (h : s.Inv) (hb : s.status.busy = true) : (deplodeBegin s).Inv := by
  unfold Machine.deplodeBegin
  split
  · exact h.raiseError _ _
  · split
    · exact h.raiseError _ _
    · next hh =>
      split
      · exact h.raiseError _ _
      · split
        · exact h.raiseError _ _
        · next hcap => exact h.with_work hb h.trie_wf (depStart_inStep hh (Nat.le_of_not_lt hcap))

/-! ### JH_CRYPT keeps the invariant -/

theorem State.Inv.jhStore_within {s : State} (h : s.Inv) (w : Jh) (data : Half) :
    Memory.Within s.memSize (jhStore s w data) :=
  h.within.fill _ _ _ fun _ hx => (Bool.and_eq_true_iff.1 hx).1

theorem State.Inv.jhWordStep {s : State} (h : s.Inv) (hb : s.status.busy = true) (w : Jh) (data : Half) :
    (jhWordStep s w data).Inv := by
  have hstored := h.with_mem (h.jhStore_within w data)
  unfold Machine.jhWordStep
  dsimp only
  split
  · exact hstored.succeed _ _ _
  · exact hstored.with_work hb h.trie_wf trivial

theorem State.Inv.jhTurn {s : State} (h : s.Inv) : (jhTurn s).Inv := by
  unfold Machine.jhTurn
  split
  · next hw => exact h.jhWordStep (h.busy_of_work (by simp [hw])) _ _
  · exact h

theorem State.Inv.jhCryptBegin {s : State} (h : s.Inv) (hb : s.status.busy = true) : (jhCryptBegin s).Inv := by
  unfold Machine.jhCryptBegin
  split
  · exact h.raiseError _ _
  · split
    · exact h.succeed _ _ _
    · exact h.with_work hb h.trie_wf trivial

/-! ### Every instruction keeps the invariant -/

/-- A command's run keeps the invariant if its turns do. -/
theorem State.Inv.takeTurns {turn : State → State} (hturn : ∀ s : State, s.Inv → (turn s).Inv) {s : State} (h : s.Inv)
    (fuel : Nat) : (takeTurns State.resting turn fuel s).Inv :=
  takeTurns_keeps (P := State.Inv) (fun s hs _ => hturn s hs) fuel h

/-- On a running command, whatever an instruction answers keeps the invariant. -/
theorem State.Inv.exec {s t : State} (h : s.Inv) (hb : s.status.busy = true) {i : Instr} (ht : exec i s = .next t) :
    t.Inv := by
  cases i with
  | trieInit =>
    cases ht
    exact h.trieInitRun
  | trieAdd =>
    cases ht
    exact h.trieAddRun
  | trieMatch =>
    cases ht
    exact h.trieMatchRun
  | lobCompress =>
    cases ht
    exact (h.lobCompressBegin hb).takeTurns (fun _ hs => hs.lobEncTurn) _
  | lobDecompress =>
    cases ht
    exact (h.lobDecompressBegin hb).takeTurns (fun _ hs => hs.lobDecTurn) _
  | xlobCompress =>
    cases ht
    exact (h.xlobCompressBegin hb).takeTurns (fun _ hs => hs.xlobEncTurn) _
  | xlobDecompress =>
    cases ht
    exact (h.xlobDecompressBegin hb).takeTurns (fun _ hs => hs.xlobDecTurn) _
  | tlobCompress =>
    cases ht
    exact (h.tlobCompressBegin hb).takeTurns (fun _ hs => hs.tlobEncTurn) _
  | tlobDecompress =>
    cases ht
    exact (h.tlobDecompressBegin hb).takeTurns (fun _ hs => hs.tlobDecTurn) _
  | deplode =>
    cases ht
    exact (h.deplodeBegin hb).takeTurns (fun _ hs => hs.depTurn) _
  | jhCrypt =>
    cases ht
    exact (h.jhCryptBegin hb).takeTurns (fun _ hs => hs.jhTurn) _
  | reservedAdvlobCompress | reservedAdvlobDecompress =>
    cases ht
    exact h.raiseError _ _
  | lobCtrl _ | lobLit _ | lobMatch _ _ => exact h.onLobDec ht
  | xlobZrle _ | xlobLitrun _ | xlobSmatch _ _ | xlobLmatchFirst _ _ _ _ | xlobLmatchSecond _ _ | xlobLrle _ _
  | xlobSlit _ => exact h.onXlobDec ht
  | tlobSkip _ | tlobLit _ | tlobZero | tlobShortFirst _ _ _ | tlobShortSecond _ | tlobLong _ _ =>
    exact h.onTlobDec ht
  | depSellen0 | depSellen10 | depSellen110 | depSellen1110 | depSellen11110 _ | depSellen11111 | depLitlen0
  | depLitlen10 | depLitlen11 | depDist0 | depDist10 | depDist11 =>
    rw [exec_eq_onDep (by simp [formatOf])] at ht
    exact h.onDep (Dep.apply_keepsStep _) ht
  | jhWord w =>
    simp only [Machine.exec, execJhWord] at ht
    split at ht
    · cases ht
      exact h.jhWordStep hb _ _
    · cases ht

/-! ### Every step keeps the invariant -/

theorem State.Inv.runCommand {s t : State} (h : s.Inv) (hb : s.status.busy = true) (ht : runCommand s = .next t) :
    t.Inv := by
  unfold Machine.runCommand at ht
  split at ht
  · exact h.exec hb ht
  · cases ht
    exact h.illegalCommand
  · cases ht
    exact h.illegalCommand

theorem State.Inv.beginInstr {s t : State} (h : s.Inv) (hb : s.status.busy = true) {i : Instr}
    (ht : beginInstr i s = .next t) : t.Inv := by
  unfold Machine.beginInstr at ht
  split at ht
  · cases ht
    exact h.lobCompressBegin hb
  · cases ht
    exact h.lobDecompressBegin hb
  · cases ht
    exact h.xlobCompressBegin hb
  · cases ht
    exact h.xlobDecompressBegin hb
  · cases ht
    exact h.tlobCompressBegin hb
  · cases ht
    exact h.tlobDecompressBegin hb
  · cases ht
    exact h.deplodeBegin hb
  · cases ht
    exact h.jhCryptBegin hb
  · exact h.exec hb ht

theorem State.Inv.beginCommand {s t : State} (h : s.Inv) (hb : s.status.busy = true)
    (ht : beginCommand s = .next t) : t.Inv := by
  unfold Machine.beginCommand at ht
  split at ht
  · exact h.beginInstr hb ht
  · cases ht
    exact h.illegalCommand
  · cases ht
    exact h.illegalCommand

/-- What a fetch leaves for the engine to go on from has the invariant. -/
def Fetched.KeepsInv : Fetched → Prop
  | .instr _ t => t.Inv ∧ t.status.busy = true
  | .internal t => t.Inv
  | .raised _ _ | .undecoded => True

theorem State.Inv.fetchRunning {s : State} (h : s.Inv) (hb : s.status.busy = true) : (fetchRunning s).KeepsInv := by
  unfold Machine.fetchRunning
  cases hw : s.work with
  | none => exact h
  | lobEnc w => exact h.lobEncTurn
  | xlobEnc w => exact h.xlobEncTurn
  | tlobEnc w => exact h.tlobEncTurn
  | lobDec w | xlobDec w | tlobDec w =>
    dsimp only
    split
    · trivial
    · trivial
    · exact ⟨h.with_work hb h.trie_wf trivial, hb⟩
  | dep w =>
    dsimp only
    split
    · exact h.depTurn
    · split
      · trivial
      · trivial
      · next hc => exact ⟨h.with_work hb h.trie_wf (Dep.readCode_inStep (h.dep_inStep hw) hc), hb⟩
  | jh w => exact ⟨h, hb⟩

theorem State.Inv.runRunning {s t : State} (h : s.Inv) (hb : s.status.busy = true) (ht : runRunning s = .next t) :
    t.Inv := by
  have hf := h.fetchRunning hb
  unfold Machine.runRunning at ht
  split at ht
  · next i u heq =>
    rw [heq] at hf
    exact hf.1.exec hf.2 ht
  · cases ht
    exact h.raiseError _ _
  · next u heq =>
    rw [heq] at hf
    cases ht
    exact hf
  · cases ht

theorem State.Inv.engineTurn {s t : State} (h : s.Inv) (ht : engineTurn s = .next t) : t.Inv := by
  unfold Machine.engineTurn at ht
  split at ht
  · cases ht
    exact h
  · next hrun =>
    have hb : s.status.busy = true := by simp at hrun; exact hrun.2
    split at ht
    · exact h.runCommand hb ht
    · exact h.runRunning hb ht

theorem State.Inv.engineBegin {s t : State} (h : s.Inv) (ht : engineBegin s = .next t) : t.Inv := by
  unfold Machine.engineBegin at ht
  split at ht
  · cases ht
    exact h
  · next hrun =>
    have hb : s.status.busy = true := by simp at hrun; exact hrun.2
    split at ht
    · exact h.beginCommand hb ht
    · exact h.runRunning hb ht

/-- Neither the pending inputs, nor the last answer, nor the count of free values is the invariant's concern. -/
theorem State.Inv.with_port {s : State} (h : s.Inv) (ins : List Input) (r : Response) (n : Nat) :
    State.Inv { s with inputs := ins, response := r, free := n } := h

theorem State.Inv.readRegister {s : State} (h : s.Inv) (width : Nat) (off : Byte) : (s.readRegister width off).Inv := by
  unfold State.readRegister
  split
  · split
    · exact h.with_port _ _ _
    · exact h.with_port _ _ _
  · exact h.with_port _ _ _

/-- A write to STATUS only clears flags (R12). -/
theorem State.Inv.with_writeOnes {s : State} (h : s.Inv) (v : Word) :
    State.Inv { s with status := s.status.writeOnes v } := by
  obtain ⟨hm, ha, ht, hw, hidle, hrst, hflags⟩ := h
  refine ⟨hm, ha, ht, hw, hidle, hrst, fun hb => ?_⟩
  obtain ⟨hdone, herr, hcode, hstored⟩ := hflags hb
  simp [Status.writeOnes, hdone, herr, hcode, hstored]

theorem State.Inv.accept {s : State} (h : s.Inv) (hr : s.rstLow = false) (v : Word) : (s.accept v).Inv := by
  obtain ⟨hm, ha, ht, -⟩ := h
  exact ⟨hm, ha, ht, trivial, fun hb => by simp [Status.accepted] at hb, fun hl => by simp [hr] at hl,
    fun _ => ⟨rfl, rfl, rfl, rfl⟩⟩

theorem State.Inv.writeCmd {s : State} (h : s.Inv) (hr : s.rstLow = false) (v : Word) : (s.writeCmd v).Inv := by
  unfold State.writeCmd
  split
  · exact h
  · exact h.accept hr v

theorem State.Inv.writeOperand {s : State} (h : s.Inv) (off : Byte) (v : Word) : (s.writeOperand off v).Inv := by
  unfold State.writeOperand
  split_ifs <;> exact h

theorem State.Inv.putRegister {s : State} (h : s.Inv) (hr : s.rstLow = false) (off : Byte) (v : Word) :
    (s.putRegister off v).Inv := by
  unfold State.putRegister
  split
  · exact h
  · split
    · exact h.with_writeOnes v
    · split
      · exact h.writeCmd hr v
      · exact h.writeOperand off v

theorem State.Inv.writeRegister {s : State} (h : s.Inv) (width : Nat) (off : Byte) (v : Word) :
    (s.writeRegister width off v).Inv := by
  unfold State.writeRegister
  split
  · split
    · exact h.with_port _ _ _
    · next hr => exact (h.putRegister (by simpa using hr) off v).with_port _ _ _
  · exact h.with_port _ _ _

/-- An idle block has no region for a host write to disturb. -/
theorem State.inActive_idle {s : State} (h : s.status.busy = false) (a : Nat) :
    s.inActiveSource a = false ∧ s.inActiveDest a = false := by
  have hop : s.activeOp = none := by simp [State.activeOp, h]
  simp [State.inActiveSource, State.inActiveDest, hop]

theorem State.Inv.hostWrite {s t : State} (h : s.Inv) {a : Word} {b : Byte} (ht : s.hostWrite a b = .next t) :
    t.Inv := by
  unfold State.hostWrite at ht
  split at ht
  · next ha =>
    cases ht
    obtain ⟨hm, hcells⟩ := h.within.write b ((s.hasAddress_eq_true _).1 ha)
    obtain ⟨-, -, htrie, hw, hidle, hrst, hflags⟩ := h
    refine ⟨hm, hcells, htrie, hw, fun hb => ?_, hrst, hflags⟩
    obtain ⟨hwork, hsrc, hdst⟩ := hidle hb
    obtain ⟨hnosrc, hnodst⟩ := State.inActive_idle (s := s) hb a.toNat
    refine ⟨hwork, ?_, by simp [hdst, hnodst]⟩
    rw [State.srcDirty_eq_false] at hsrc ⊢
    simp [State.keepOld, hnosrc, hsrc]
  · cases ht

theorem State.Inv.hostRead {s t : State} (h : s.Inv) {a : Word} (ht : s.hostRead a = .next t) : t.Inv := by
  unfold State.hostRead at ht
  split at ht
  · split at ht
    · cases ht
      exact h.with_port _ _ _
    · cases ht
      exact h.with_port _ _ _
  · cases ht

theorem State.Inv.resetLow {s : State} (h : s.Inv) : s.resetLow.Inv :=
  State.inv_of_idle h.memReset_within Trie.initial_wf rfl rfl ⟨rfl, rfl⟩

theorem State.Inv.resetHigh {s : State} (h : s.Inv) : s.resetHigh.Inv := by
  obtain ⟨hm, ha, ht, hw, hidle, -, hflags⟩ := h
  exact ⟨hm, ha, ht, hw, hidle, nofun, hflags⟩

theorem State.Inv.takeInput {s t : State} (h : s.Inv) {i : Input} (ht : takeInput i s = .next t) : t.Inv := by
  cases i with
  | regWrite width off v =>
    cases ht
    exact h.writeRegister width off v
  | regRead width off =>
    cases ht
    exact h.readRegister width off
  | memWrite a b => exact h.hostWrite ht
  | memRead a => exact h.hostRead ht
  | resetLow =>
    cases ht
    exact h.resetLow
  | resetHigh =>
    cases ht
    exact h.resetHigh
  | engineTurn => exact State.Inv.engineTurn (h.with_port _ _ _) ht
  | engineBegin => exact State.Inv.engineBegin (h.with_port _ _ _) ht

/-- Settles O11. -/
theorem invariantHoldsAtReset : Obligations.InvariantHoldsAtReset :=
  State.inv_of_idle ⟨⟨List.Pairwise.nil, by simp [State.reset]⟩, by simp [State.reset]⟩ Trie.initial_wf rfl rfl
    ⟨rfl, rfl⟩

/-- Settles O12, by what reaches the block: the host's operations change no trie and no working state, an engine turn
runs instructions, and every instruction keeps the invariant (`State.Inv.exec`). -/
theorem everyStepKeepsTheInvariant : Obligations.EveryStepKeepsTheInvariant := by
  intro s t h ht
  cases hi : s.inputs with
  | nil =>
    rw [step_engine hi] at ht
    exact h.engineTurn ht
  | cons i rest =>
    rw [step_input hi] at ht
    exact State.Inv.takeInput (h.with_port rest s.response s.free) ht

end Sys2Proof.Machine

/-! ### The ports and reset -/

namespace Sys2Proof.Machine

theorem step_regWrite {s : State} {width : Nat} {off : Byte} {v : Word} {rest : List Input}
    (h : s.inputs = .regWrite width off v :: rest) :
    step s = .next (State.writeRegister { s with inputs := rest } width off v) :=
  step_input h

theorem step_regRead {s : State} {width : Nat} {off : Byte} {rest : List Input}
    (h : s.inputs = .regRead width off :: rest) :
    step s = .next (State.readRegister { s with inputs := rest } width off) :=
  step_input h

theorem takesAccess_iff (width : Nat) (off : Byte) :
    takesAccess width off = true ↔ width = 32 ∧ off.toNat % 4 = 0 := by
  simp [takesAccess]

/-- A CMD write that the port takes outside reset (R53, R163). -/
theorem State.writeRegister_cmd {s : State} (hr : s.rstLow = false) (v : Word) :
    s.writeRegister 32 0x08 v = { s.writeCmd v with response := .none } := by
  rw [State.writeRegister, if_pos (by decide), if_neg (by simp [hr])]
  rfl

theorem State.writeCmd_idle {s : State} (hb : s.status.busy = false) (v : Word) : s.writeCmd v = s.accept v := by
  rw [State.writeCmd, if_neg (by simp [hb])]

/-- Settles O54. -/
theorem acceptanceLatchesTheContext : Obligations.AcceptanceLatchesTheContext := by
  intro s v rest hi hr hb
  refine ⟨{ State.accept { s with inputs := rest } v with response := .none }, ?_, rfl, rfl, rfl, rfl, rfl,
    ⟨rfl, rfl⟩, rfl, rfl, rfl⟩
  rw [step_regWrite hi, State.writeRegister_cmd (s := { s with inputs := rest }) hr,
    State.writeCmd_idle (s := { s with inputs := rest }) hb]

/-- Every register but ID reads as 0 at reset (R10, R158). -/
theorem State.reset_register (off : Byte) : State.reset.register off = if off = 0x34 then 0x414D4301 else 0 := by
  have hctrl : State.reset.ctrlWord = 0 := rfl
  have hstatus : State.reset.status.word = 0 := rfl
  by_cases h : off = 0x34
  · subst h
    rfl
  · unfold State.register
    rw [hctrl, hstatus, if_neg h, if_neg h]
    simp only [State.reset, ite_self]

/-- Settles O9. Every field that a register reads is at its reset value after both edges. -/
theorem resetLeavesTheBlockIdle : Obligations.ResetLeavesTheBlockIdle := by
  refine ⟨fun s rest => ⟨fun h => step_input h, fun h => step_input h⟩, State.reset_register,
    fun s off => State.reset_register off, fun s => ⟨rfl, rfl, rfl, rfl⟩, fun s => engineTurn_idle (.inr rfl),
    fun s v => ?_⟩
  rw [State.writeRegister_cmd rfl, State.writeCmd_idle rfl]
  rfl

/-- Where each field stands in STATUS's 32-bit view (R12): a check over the values that the fields can take. -/
theorem Status.word_fields (t : Status) :
    t.word.extractLsb' 12 20 = 0 ∧ t.word.extractLsb' 5 3 = 0 ∧ t.word.extractLsb' 8 4 = t.errCode.bits
      ∧ t.word.getLsbD 0 = t.busy ∧ t.word.getLsbD 1 = t.done ∧ t.word.getLsbD 2 = t.err
      ∧ t.word.getLsbD 3 = t.stored ∧ t.word.getLsbD 4 = t.ovr := by
  obtain ⟨busy, done, err, stored, ovr, code⟩ := t
  cases code <;> revert busy done err stored ovr <;> decide

/-- A flag after a write of the bit `b` that clears it (R150). -/
theorem cleared_eq_ite (flag b : Bool) : (flag && !b) = if b = true then false else flag := by
  cases b <;> simp

/-- Settles O57. -/
theorem statusWritesClearOnlyTheirBits : Obligations.StatusWritesClearOnlyTheirBits := by
  refine ⟨fun t v => ⟨cleared_eq_ite t.done _, cleared_eq_ite t.err _, rfl, cleared_eq_ite t.ovr _, rfl, rfl⟩,
    Status.word_fields, fun s => ?_⟩
  rw [State.ctrlWord]
  cases s.ie <;> rfl

/-- No register stands past ID (R25). -/
theorem State.register_unmapped {off : Byte} (h : 0x38 ≤ off.toNat) (s : State) : s.register off = 0 := by
  have hne (r : Byte) (hr : r.toNat < 0x38) : off ≠ r := by rintro rfl; omega
  simp [State.register, hne]

/-- Writes past ID are ignored (R25). -/
theorem State.putRegister_unmapped {off : Byte} (h : 0x38 ≤ off.toNat) (s : State) (v : Word) :
    s.putRegister off v = s := by
  have hne (r : Byte) (hr : r.toNat < 0x38) : off ≠ r := by rintro rfl; omega
  simp [State.putRegister, State.writeOperand, hne]

/-- A read of a register changes only the port's answer and the count of free values (R43). -/
theorem State.readRegister_frame (s : State) (width : Nat) (off : Byte) :
    s.readRegister width off
      = { s with response := (s.readRegister width off).response, free := (s.readRegister width off).free } := by
  unfold State.readRegister
  split
  · split <;> rfl
  · rfl

/-- A read outside reset, of a register that a running command does not hold, answers with it (R43, R165). -/
theorem State.readRegister_response {s : State} {off : Byte} (ho : off.toNat % 4 = 0) (hr : s.rstLow = false)
    (hb : s.status.busy = false ∨ isResultRegister off = false) :
    (s.readRegister 32 off).response = .data (s.register off) := by
  rw [State.readRegister, if_pos ((takesAccess_iff 32 off).2 ⟨rfl, ho⟩), if_neg]
  rcases hb with hb | hb <;> simp [hr, hb]

/-- A refused access leaves the port's answer alone changed (R41). -/
theorem State.refused_access {width : Nat} {off : Byte} (h : width ≠ 32 ∨ off.toNat % 4 ≠ 0) (s : State) (v : Word) :
    s.writeRegister width off v = { s with response := .refused }
      ∧ s.readRegister width off = { s with response := .refused } := by
  have hrefused : ¬ takesAccess width off = true := by
    rw [takesAccess_iff]
    omega
  exact ⟨if_neg hrefused, if_neg hrefused⟩

/-- Settles O59. -/
theorem portAccessesThatChangeNothing : Obligations.PortAccessesThatChangeNothing :=
  ⟨fun _ _ _ _ _ => ⟨step_regRead, step_regWrite⟩, fun s _ _ v h => State.refused_access h s v,
    fun s _ v h => ⟨State.register_unmapped h s, State.putRegister_unmapped h s v⟩,
    fun s off ho => ⟨s.readRegister_frame 32 off, fun hr hb => State.readRegister_response ho hr hb⟩⟩

end Sys2Proof.Machine

/-! ### Match copies in the output -/

namespace Sys2Proof.Machine

/-- A match copy's result is determined by R93, R106 and R121: each byte past the output repeats the one `d` before. -/
theorem CopiesFrom.unique {limit d l : Nat} {out a b : List Byte} (hd : 1 ≤ d) (hdo : d ≤ out.length)
    (ha : CopiesFrom limit d l out a) (hb : CopiesFrom limit d l out b) : a = b := by
  obtain ⟨hal, hat, har⟩ := ha
  obtain ⟨hbl, hbt, hbr⟩ := hb
  refine List.ext_getElem? fun k => ?_
  induction k using Nat.strong_induction_on with
  | h k ih =>
    rcases Nat.lt_or_ge k out.length with hlt | hge
    · have hcut : (a.take out.length)[k]? = (b.take out.length)[k]? := by rw [hat, hbt]
      simpa [List.getElem?_take, hlt] using hcut
    · rcases Nat.lt_or_ge k a.length with hka | hka
      · rw [har k hge hka, hbr k hge (by omega), ih (k - d) (by omega)]
      · rw [List.getElem?_eq_none hka, List.getElem?_eq_none (by omega)]

theorem CopiesFrom.length_le {limit d l : Nat} {out out' : List Byte} (h : CopiesFrom limit d l out out') :
    out'.length ≤ limit :=
  h.1 ▸ Nat.min_le_left ..

theorem copied_eq_some {out bs : List Byte} {d l : Nat} (h : copied out d l = some bs) :
    1 ≤ d ∧ d ≤ out.length ∧ bs = (List.range l).map fun j => out.getD (out.length - d + j % d) 0 := by
  unfold copied at h
  split at h
  · next hd => exact ⟨hd.1, hd.2, (Option.some.inj h).symm⟩
  · cases h

/-- The bytes of the statements, which repeat with period `d`, are what a copy from distance `d` appends. -/
theorem copied_copiesFrom {limit d l : Nat} {out bs : List Byte} (h : copied out d l = some bs)
    (hl : out.length ≤ limit) : CopiesFrom limit d l out ((out ++ bs).take limit) := by
  obtain ⟨hd, hdo, rfl⟩ := copied_eq_some h
  refine ⟨by simp, by rw [List.take_take, Nat.min_eq_left hl, List.take_left], fun k hk hkl => ?_⟩
  simp only [List.length_take, List.length_append, List.length_map, List.length_range] at hkl
  rw [List.getElem?_take_of_lt (by omega), List.getElem?_take_of_lt (by omega), List.getElem?_append_right hk]
  have hrow (j : Nat) (hj : j < l) : ((List.range l).map fun j => out.getD (out.length - d + j % d) 0)[j]?
      = some (out.getD (out.length - d + j % d) 0) := by simp [hj]
  rw [hrow _ (by omega)]
  rcases Nat.lt_or_ge (k - out.length) d with hlt | hge
  · have hx : k - d < out.length := by omega
    rw [List.getElem?_append_left hx, Nat.mod_eq_of_lt hlt, show out.length - d + (k - out.length) = k - d by omega,
      List.getD, List.getElem?_eq_getElem hx]
    rfl
  · rw [List.getElem?_append_right (by omega), hrow _ (by omega), Nat.mod_eq_sub_mod hge,
      show k - d - out.length = k - out.length - d by omega]

/-- A match copy appends the bytes of the statements, cut at the limit (R93, R106, R121). -/
theorem copyMatch_eq_copied {limit d l : Nat} {out bs : List Byte} (h : copied out d l = some bs)
    (hl : out.length ≤ limit) : copyMatch limit d l out = (out ++ bs).take limit := by
  obtain ⟨hd, hdo, -⟩ := copied_eq_some h
  exact (copyMatch_copiesFrom hd l out hdo hl).unique hd hdo (copied_copiesFrom h hl)

/-! ### A decoder's turn on one token -/

/-- A decoder that has appended to its output completes when it has all of it, and otherwise runs on (R91, R103,
R118). -/
theorem State.settle_decodesTo {s : State} {op : Byte} {out : List Byte} {w : Work} (hu : Undisturbed s)
    (hv : s.validRegion s.dst s.dcap = true) (hop : writesDest op = true) (hc : isCompress op = false)
    (hl : out.length ≤ s.dcap) :
    DecodesTo s (s.settle op (if s.p0 ≤ out.length then .finished out else .running w)) out w := by
  unfold DecodesTo
  split
  · exact ⟨s.succeed_writesOutput op out hu hop hv hl, by simp [hc]⟩
  · rfl

/-- A decoder that raises leaves the trie as it was (R146, R147). -/
theorem State.raiseError_decoderFails {s : State} {op : Byte} (hu : Undisturbed s) (hop : op ≠ opTrieMatch)
    (hc : isCompress op = false) (r : Raise) : CommandFails s (s.raiseError op r) r.code r.pos s.trie := by
  simpa [hc] using State.raiseError_commandFails op r hu hop

/-! #### ExtendedLob -/

theorem onXlobDec_eq {s : State} {w : XlobDec} {here : XlobDec → Bool} (f : XlobDec → Result XlobDec)
    (hw : s.work = .xlobDec w) (hh : here w = true) :
    onXlobDec here f s = .next (s.settle opXlobDecompress (XlobDec.progress s.p0 (f w))) := by
  rw [onXlobDec, hw]
  exact if_pos hh

theorem XlobDec.copy_of_le {w : XlobDec} {limit d l : Nat} (hd : 1 ≤ d) (hdo : d ≤ w.out.length) :
    w.copy limit d l = .ok { w with out := copyMatch limit d l w.out } :=
  if_neg (by omega)

theorem XlobDec.copy_of_bad {w : XlobDec} {limit d l : Nat} (h : d = 0 ∨ w.out.length < d) :
    w.copy limit d l = .error ⟨.format, w.tok⟩ :=
  if_pos h

/-- Distance and length of a large match, in plain arithmetic (R67). -/
theorem XlobDec.largeMatch_eq (limit : Nat) (w : XlobDec) (h : BitVec 5) (b : Byte) (n : BitVec 4) :
    w.largeMatch limit (h ++ b ++ n)
      = w.copy limit ((h.toNat * 4096 + b.toNat * 16 + n.toNat) % 1024)
          ((h.toNat * 4096 + b.toNat * 16 + n.toNat) / 1024 + 3) := by
  have hv : (h ++ b ++ n : BitVec 17).toNat = h.toNat * 4096 + b.toNat * 16 + n.toNat :=
    (toNat_append_eq _ n).trans (by rw [toNat_append_eq]; omega)
  have hlt := (h ++ b ++ n : BitVec 17).isLt
  rw [XlobDec.largeMatch, BitVec.extractLsb'_toNat, BitVec.extractLsb'_toNat, Nat.shiftRight_eq_div_pow,
    Nat.shiftRight_eq_div_pow, Nat.mod_eq_of_lt (by omega : _ / 2 ^ 10 < 2 ^ 7), hv, Nat.pow_zero, Nat.div_one]
  rfl

/-- Settles O37. Each of the three tokens is `XlobDec.copy` with the distance and length of its fields. -/
theorem xlobMatchTokensCopy : Obligations.XlobMatchTokensCopy := by
  intro s w w' i l d hw ⟨hu, hv, hout, hcap⟩ htoken
  obtain ⟨hexec, hsame, htok⟩ : exec i s
      = .next (s.settle opXlobDecompress (XlobDec.progress s.p0 (w'.copy s.p0 d l)))
      ∧ w'.out = w.out ∧ w'.tok = w.tok := by
    rcases htoken with ⟨ll, dd, rfl, rfl, rfl, rfl⟩ | ⟨h, b, n, r, rfl, hres, rfl, rfl, rfl⟩
      | ⟨h, b, n, rfl, hres, rfl, rfl, rfl⟩
    · exact ⟨onXlobDec_eq _ hw rfl, rfl, rfl⟩
    · refine ⟨?_, rfl, rfl⟩
      rw [← XlobDec.largeMatch_eq]
      exact onXlobDec_eq _ hw (by simp [hres])
    · refine ⟨?_, rfl, rfl⟩
      rw [← XlobDec.largeMatch_eq]
      refine (onXlobDec_eq _ hw (by simp [hres])).trans ?_
      rw [XlobDec.largeSecond, hres]
      rfl
  rw [hexec]
  refine ⟨fun hd hdo => ?_, fun hbad => ?_⟩
  · have hcopy := copyMatch_copiesFrom hd l w.out hdo hout.le
    rw [XlobDec.copy_of_le hd (hsame ▸ hdo), hsame]
    exact ⟨_, _, rfl, hcopy, State.settle_decodesTo hu hv rfl rfl (hcopy.length_le.trans hcap)⟩
  · rw [XlobDec.copy_of_bad (hsame ▸ hbad), htok]
    exact ⟨_, rfl, State.raiseError_decoderFails hu (by decide) rfl ⟨.format, w.tok⟩⟩

/-! #### TextLob -/

theorem onTlobDec_eq {s : State} {w : TlobDec} {here : TlobDec → Bool} (f : TlobDec → Result TlobDec)
    (hw : s.work = .tlobDec w) (hh : here w = true) :
    onTlobDec here f s = .next (s.settle opTlobDecompress (TlobDec.progress s.p0 (f w))) := by
  rw [onTlobDec, hw]
  exact if_pos hh

theorem TlobDec.copy_of_le {w : TlobDec} {limit d l : Nat} (hdo : d ≤ w.out.length) :
    w.copy limit d l = .ok { w with out := copyMatch limit d l w.out } :=
  if_neg (by omega)

theorem TlobDec.copy_of_lt {w : TlobDec} {limit d l : Nat} (h : w.out.length < d) :
    w.copy limit d l = .error ⟨.format, w.tok⟩ :=
  if_pos h

/-- Past the skip region, a decoder goes on until its output is complete (R123). -/
theorem TlobDec.progress_skipped {w : TlobDec} (hs : w.skipped = true) (limit : Nat) :
    TlobDec.progress limit (.ok w) = if limit ≤ w.out.length then .finished w.out else .running (.tlobDec w) := by
  simp [TlobDec.progress, hs]

/-- The distance of a 2-byte match, in plain arithmetic (R72). -/
theorem shortDistance_eq (f g : BitVec 4) : (f ++ g : BitVec 8).toNat + 3 = f.toNat * 16 + g.toNat + 3 := by
  rw [toNat_append_eq]
  rfl

/-- Settles O43. Each of the three tokens is `TlobDec.copy` with the distance and length of its fields. -/
theorem tlobMatchTokensCopy : Obligations.TlobMatchTokensCopy := by
  intro s w w' i l d hw hskip ⟨hu, hv, hout, hcap⟩ htoken
  obtain ⟨hexec, hsame, htok, hskip', hd⟩ : exec i s
      = .next (s.settle opTlobDecompress (TlobDec.progress s.p0 (w'.copy s.p0 d l)))
      ∧ w'.out = w.out ∧ w'.tok = w.tok ∧ w'.skipped = true ∧ 1 ≤ d := by
    rcases htoken with ⟨f, g, r, rfl, hres, rfl, rfl, rfl⟩ | ⟨f, g, rfl, hres, rfl, rfl, rfl⟩
      | ⟨f, ll, rfl, rfl, rfl, rfl⟩
    · refine ⟨?_, rfl, rfl, hskip, by omega⟩
      rw [← shortDistance_eq]
      exact onTlobDec_eq _ hw (by simp [hskip, hres])
    · refine ⟨?_, rfl, rfl, hskip, by omega⟩
      rw [← shortDistance_eq]
      refine (onTlobDec_eq _ hw (by simp [hskip, hres])).trans ?_
      rw [TlobDec.shortSecond, hres]
      rfl
    · exact ⟨onTlobDec_eq _ hw hskip, rfl, rfl, hskip, by omega⟩
  rw [hexec]
  refine ⟨fun hdo => ?_, fun hbad => ?_⟩
  · have hcopy := copyMatch_copiesFrom hd l w.out hdo hout.le
    rw [TlobDec.copy_of_le (hsame ▸ hdo), hsame,
      TlobDec.progress_skipped (w := { w' with out := copyMatch s.p0 d l w.out }) hskip']
    exact ⟨_, _, rfl, hcopy, State.settle_decodesTo hu hv rfl rfl (hcopy.length_le.trans hcap)⟩
  · rw [TlobDec.copy_of_lt (hsame ▸ hbad), htok]
    exact ⟨_, rfl, State.raiseError_decoderFails hu (by decide) rfl ⟨.format, w.tok⟩⟩

end Sys2Proof.Machine

/-! ### Reading a token's bytes -/

namespace Sys2Proof.Machine

/-- The bytes of a token, as its decoder reads them: pending up to the last of them, and then the token (R60). -/
structure ReadsAs (f : Format) (bs : List Byte) (t : Instr) : Prop where
  ne_nil : bs ≠ []
  length_le : bs.length ≤ maxTokenBytes
  pending : ∀ k, 0 < k → k < bs.length → decodeBytes f (bs.take k) = .more
  token : decodeBytes f bs = .token t

theorem ReadsAs.one {f : Format} {a : Byte} {t : Instr} (h : decodeBytes f [a] = .token t) : ReadsAs f [a] t :=
  ⟨by simp, by simp [maxTokenBytes], fun k h0 h1 => by simp at h1; omega, h⟩

theorem ReadsAs.two {f : Format} {a b : Byte} {t : Instr} (h1 : decodeBytes f [a] = .more)
    (h : decodeBytes f [a, b] = .token t) : ReadsAs f [a, b] t := by
  refine ⟨by simp, by simp [maxTokenBytes], fun k h0 hk => ?_, h⟩
  obtain rfl : k = 1 := by simp at hk; omega
  exact h1

theorem ReadsAs.three {f : Format} {a b c : Byte} {t : Instr} (h1 : decodeBytes f [a] = .more)
    (h2 : decodeBytes f [a, b] = .more) (h : decodeBytes f [a, b, c] = .token t) : ReadsAs f [a, b, c] t := by
  refine ⟨by simp, by simp [maxTokenBytes], fun k h0 hk => ?_, h⟩
  obtain rfl | rfl : k = 1 ∨ k = 2 := by simp at hk; omega
  · exact h1
  · exact h2

/-- The given bytes stand in the source region from index `i` on. -/
def State.sourceAt (s : State) (i : Nat) (bs : List Byte) : Prop :=
  i + bs.length ≤ s.slen ∧ ∀ j b, bs[j]? = some b → s.srcByte (i + j) = b

theorem State.sourceBegins_iff (s : State) (bs : List Byte) : s.sourceBegins bs ↔ s.sourceAt 0 bs := by
  simp [State.sourceBegins, State.sourceAt]

theorem State.sourceAt_append {s : State} {i : Nat} {bs cs : List Byte} (h : s.sourceAt i (bs ++ cs)) :
    s.sourceAt i bs ∧ s.sourceAt (i + bs.length) cs := by
  obtain ⟨hlen, hbyte⟩ := h
  rw [List.length_append] at hlen
  refine ⟨⟨by omega, fun j b hj => hbyte j b ?_⟩, ⟨by omega, fun j b hj => ?_⟩⟩
  · rwa [List.getElem?_append_left (List.getElem?_eq_some_iff.1 hj).1]
  · rw [Nat.add_assoc]
    refine hbyte (bs.length + j) b ?_
    rwa [List.getElem?_append_right (Nat.le_add_right ..), Nat.add_sub_cancel_left]

/-- The bytes that stand from an index on are those of the source region. -/
theorem State.sourceAt_eq_bytesOf {s : State} {i : Nat} {bs : List Byte} (h : s.sourceAt i bs) :
    bs = bytesOf s.srcByte i bs.length := by
  refine List.ext_getElem? fun j => ?_
  rcases Nat.lt_or_ge j bs.length with hj | hj
  · have hb := List.getElem?_eq_getElem hj
    rw [bytesOf_getElem? _ _ _ _ hj, h.2 j _ hb, hb]
  · rw [List.getElem?_eq_none hj, List.getElem?_eq_none (by simpa using hj)]

/-- A fetch finds a token whose bytes stand next in the stream (R60). -/
theorem ReadsAs.fetch {f : Format} {bs : List Byte} {t : Instr} (h : ReadsAs f bs t) {s : State} {i : Nat}
    (hs : s.sourceAt i bs) :
    fetchToken f s.srcByte s.slen maxTokenBytes [] i = .ok (some (t, i + bs.length)) :=
  fetchToken_token bs [] maxTokenBytes i h.ne_nil h.length_le hs.1 hs.2 h.pending h.token

/-! ### A decoder's run on a stream of tokens -/

/-- What a decoder gives is no longer than its limit. -/
theorem decoded_length_le {σ : Type} {appends : σ → List Byte → Instr → List Byte → Option (List Byte × σ)}
    {limit : Nat} {us : List (Instr × List Byte)} {q : σ} {out res : List Byte}
    (h : decoded appends limit q out us = some res) : res.length ≤ limit := by
  induction us generalizing q out with
  | nil =>
    rw [decoded] at h
    split at h
    · cases h
      simp
    · cases h
  | cons u us ih =>
    rw [decoded] at h
    split at h
    · split at h
      · exact ih h
      · cases h
    · cases h

/-- When the output has reached the limit, the stream's tokens are at their end. -/
theorem decoded_of_le {σ : Type} {appends : σ → List Byte → Instr → List Byte → Option (List Byte × σ)}
    {limit : Nat} {us : List (Instr × List Byte)} {q : σ} {out res : List Byte}
    (h : decoded appends limit q out us = some res) (hl : limit ≤ out.length) : res = out.take limit := by
  cases us with
  | nil =>
    rw [decoded, if_pos hl] at h
    exact (Option.some.inj h).symm
  | cons u us =>
    rw [decoded, if_neg (by omega)] at h
    cases h

/-- One more token of a stream that decodes. -/
theorem decoded_cons {σ : Type} {appends : σ → List Byte → Instr → List Byte → Option (List Byte × σ)}
    {limit : Nat} {u : Instr × List Byte} {us : List (Instr × List Byte)} {q : σ} {out res : List Byte}
    (h : decoded appends limit q out (u :: us) = some res) :
    u.1.wellFormed = true ∧ u.2.length = literalCount u.1
      ∧ ∃ r, appends q out u.1 u.2 = some r ∧ decoded appends limit r.2 (out ++ r.1) us = some res := by
  rw [decoded] at h
  split at h
  · next hu =>
    split at h
    · next r hr => exact ⟨hu.2.1, hu.2.2, r, hr, h⟩
    · cases h
  · cases h

/-- A decoder's turns follow the statements' token by token: where working state `stands q out i w`, the output is
`out`, the stream has been read up to index `i`, and `q` is what the next token's effect depends on. -/
structure FollowsStream {σ : Type} (appends : σ → List Byte → Instr → List Byte → Option (List Byte × σ))
    (s : State) (op : Byte) (turn : State → State) (stands : σ → List Byte → Nat → Work → Prop) : Prop where
  begun : ∀ {q out i w}, stands q out i w → w ≠ .none
  turn_token : ∀ {q out i w} {u : Instr × List Byte} {r}, stands q out i w → out.length < s.p0 →
    u.1.wellFormed = true → u.2.length = literalCount u.1 → appends q out u.1 u.2 = some r →
    s.sourceAt i (tokenBytes u.1 ++ u.2) →
    0 < (tokenBytes u.1).length ∧ ∃ w',
      turn { s with work := w }
        = s.settle op (if s.p0 ≤ (out ++ r.1).length then .finished ((out ++ r.1).take s.p0) else .running w')
      ∧ ((out ++ r.1).length < s.p0 → stands r.2 (out ++ r.1) (i + (tokenBytes u.1 ++ u.2).length) w')

/-- A decoder that stands before the tokens of a stream ends with what they decode to. -/
theorem FollowsStream.run {σ : Type} {appends : σ → List Byte → Instr → List Byte → Option (List Byte × σ)}
    {s : State} {op : Byte} {turn : State → State} {stands : σ → List Byte → Nat → Work → Prop}
    (h : FollowsStream appends s op turn stands) {us : List (Instr × List Byte)} {q : σ} {out res : List Byte}
    {i fuel : Nat} {w : Work} (hd : decoded appends s.p0 q out us = some res) (hw : stands q out i w)
    (hl : out.length < s.p0) (hs : s.sourceAt i (streamOf us)) (hfuel : s.slen < i + fuel) :
    takeTurns State.resting turn fuel { s with work := w } = s.succeed op res false := by
  induction us generalizing q out i w fuel with
  | nil =>
    rw [decoded, if_neg (by omega)] at hd
    cases hd
  | cons u us ih =>
    obtain ⟨hwf, hlits, r, hr, hrest⟩ := decoded_cons hd
    obtain ⟨hu, hus⟩ := State.sourceAt_append (bs := tokenBytes u.1 ++ u.2) (cs := streamOf us) hs
    obtain ⟨hpos, w', hturn, hstands⟩ := h.turn_token hw hl hwf hlits hr hu
    have hin := hu.1
    rw [List.length_append] at hin
    obtain ⟨fuel, rfl⟩ : ∃ m, fuel = m + 1 := ⟨fuel - 1, by omega⟩
    rw [takeTurns_succ, if_neg (mt (State.resting_iff _).1 (h.begun hw)), hturn]
    split
    · next hfull =>
      rw [decoded_of_le hrest hfull]
      exact takeTurns_stopped ((State.resting_iff _).2 (State.succeed_work ..)) _
    · next hmore =>
      exact ih hrest (hstands (by omega)) (by omega) hus (by rw [List.length_append]; omega)

/-! ### ExtendedLob's tokens -/

/-- The fields of a small match (R66). -/
theorem smatch_fields (l : BitVec 4) (d : BitVec 9) :
    (highByte ((4 : BitVec 3) ++ l ++ d)).extractLsb' 1 4 = l
      ∧ (highByte ((4 : BitVec 3) ++ l ++ d)).extractLsb' 0 1 ++ lowByte ((4 : BitVec 3) ++ l ++ d) = d := by
  have := l.isLt
  have := d.isLt
  refine ⟨BitVec.eq_of_toNat_eq ?_, BitVec.eq_of_toNat_eq ?_⟩
  · simp only [BitVec.extractLsb'_toNat, Nat.shiftRight_eq_div_pow, highByte_toNat, smatchWord_toNat]
    omega
  · rw [toNat_append_eq]
    simp only [BitVec.extractLsb'_toNat, Nat.shiftRight_eq_div_pow, highByte_toNat, lowByte_toNat, smatchWord_toNat]
    omega

/-- A two-byte token of class 4 to 6 is read from its header and one more byte (R63). -/
theorem ReadsAs.xlob_two {h b : Byte} {p : BitVec 3} {reserved : Bool} {t : Instr} (hp : h.extractLsb' 5 3 = p)
    (h4 : p.getLsbD 2 = true) (h7 : p ≠ 7) (ht : decodeXlob reserved [h, b] = .token t) :
    ReadsAs (.xlob reserved) [h, b] t :=
  .two (Laws.ProperPrefixPending.xlob_header_pending reserved hp h4 h7) ht

theorem xlobLitrun_readsAs {n : BitVec 7} (hn : n ≠ 0) (reserved : Bool) :
    ReadsAs (.xlob reserved) (tokenBytes (.xlobLitrun n)) (.xlobLitrun n) := by
  refine .one ?_
  have h7 : ((0 : BitVec 1) ++ n : Byte).extractLsb' 7 1 = 0 := BitVec.extractLsb'_append_eq_left
  have hfield : ((0 : BitVec 1) ++ n : Byte).extractLsb' 0 7 = n := BitVec.extractLsb'_append_eq_right
  have h0 : ((0 : BitVec 1) ++ n : Byte) ≠ 0 := by
    intro h
    rw [h] at hfield
    exact hn hfield.symm
  simp only [decodeBytes, decodeXlob]
  rw [if_neg h0, if_pos h7, hfield]

/-- A token with its literal bytes is read as what the encoder writes for it, whether a reservation is open or not
(R63 to R69). -/
theorem xlob_readsAs {res : Option (BitVec 4)} {out lits : List Byte} {t : Instr}
    {r : List Byte × Option (BitVec 4)} (h : xlobAppends res out t lits = some r) (hwf : t.wellFormed = true) :
    ReadsAs (.xlob res.isSome) (tokenBytes t) t := by
  cases t with
  | xlobZrle c => exact .two rfl rfl
  | xlobLitrun n => exact xlobLitrun_readsAs (by simpa [Instr.wellFormed] using hwf) _
  | xlobSmatch l d =>
    have hclass := class_smatch l d
    obtain ⟨h0, -⟩ := class_large hclass (by decide)
    obtain ⟨hl, hd⟩ := smatch_fields l d
    refine ReadsAs.xlob_two hclass (by decide) (by decide) ?_
    simp only [decodeXlob]
    rw [if_neg h0, if_pos hclass, hl, hd]
  | xlobLmatchFirst a b n q =>
    cases res with
    | some _ => cases h
    | none =>
      have hclass := class_header 5 a
      obtain ⟨hn, hq⟩ := nibbles n q
      refine .three (Laws.ProperPrefixPending.xlob_header_pending false hclass (by decide) (by decide))
        (Laws.ProperPrefixPending.xlob_large_pending b hclass) ?_
      simp only [Option.isSome_none, decodeBytes, decodeXlob]
      rw [if_pos ⟨hclass, trivial⟩, field_header, hn, hq]
  | xlobLmatchSecond a b =>
    cases res with
    | none => cases h
    | some _ =>
      have hclass := class_header 5 a
      obtain ⟨h0, -⟩ := class_large hclass (by decide)
      refine ReadsAs.xlob_two hclass (by decide) (by decide) ?_
      simp only [decodeXlob]
      rw [if_neg h0, hclass, field_header]
      rfl
  | xlobLrle c v =>
    have hclass := class_header 6 c
    obtain ⟨h0, -⟩ := class_large hclass (by decide)
    refine ReadsAs.xlob_two hclass (by decide) (by decide) ?_
    simp only [decodeXlob]
    rw [if_neg h0, hclass, field_header]
    rfl
  | xlobSlit v =>
    have hclass := class_header 7 v
    obtain ⟨h0, h7⟩ := class_large hclass (by decide)
    refine .one ?_
    simp only [decodeBytes, decodeXlob]
    rw [if_neg h0, if_neg h7, if_pos hclass, field_header]
  | _ => cases h

/-! ### XLOB_DECOMPRESS's run -/

theorem XlobDec.copy_of_copied {w : XlobDec} {limit d l : Nat} {bs : List Byte} (h : copied w.out d l = some bs)
    (hl : w.out.length ≤ limit) : w.copy limit d l = .ok { w with out := (w.out ++ bs).take limit } := by
  obtain ⟨hd, hdo, -⟩ := copied_eq_some h
  rw [XlobDec.copy_of_le hd hdo, copyMatch_eq_copied h hl]

theorem putBytes_eq_take {limit : Nat} {out bs : List Byte} (h : out.length ≤ limit) :
    putBytes limit out bs = (out ++ bs).take limit := by
  rw [putBytes, List.take_append, List.take_of_length_le h]

theorem bytesOf_take (S : Nat → Byte) (a l k : Nat) : (bytesOf S a l).take k = bytesOf S a (min l k) := by
  rw [bytesOf, ← List.map_take, List.take_range, Nat.min_comm, bytesOf]

/-- A read of bytes that stand next in the stream appends them, cut at the limit (R105, R119). -/
theorem readBytes_of_sourceAt {s : State} {i limit : Nat} {out bs : List Byte} (hs : s.sourceAt i bs)
    (hl : out.length ≤ limit) :
    readBytes s.srcByte s.slen limit bs.length i out
      = .ok (i + min bs.length (limit - out.length), (out ++ bs).take limit) := by
  have hin := hs.1
  rw [readBytes_ok _ _ _ _ _ _ (by omega), List.take_append, List.take_of_length_le hl, ← bytesOf_take,
    ← State.sourceAt_eq_bytesOf hs]

/-- Where the working state is after a token that appends `r.1`: at the limit the rest is not looked at. -/
def XlobDec.Appended (limit : Nat) (w : XlobDec) (lits : List Byte) (r : List Byte × Option (BitVec 4))
    (v : XlobDec) : Prop :=
  v.out = (w.out ++ r.1).take limit ∧ v.res = r.2 ∧ ((w.out ++ r.1).length < limit → v.i = w.i + lits.length)

theorem XlobDec.put_appended {limit : Nat} {w : XlobDec} (hl : w.out.length ≤ limit) (bs : List Byte) :
    ∃ v, w.put limit bs = .ok v ∧ XlobDec.Appended limit w [] (bs, w.res) v :=
  ⟨_, rfl, putBytes_eq_take hl, rfl, fun _ => rfl⟩

theorem XlobDec.copy_appended {limit d l : Nat} {w : XlobDec} {bs : List Byte} (h : copied w.out d l = some bs)
    (hl : w.out.length ≤ limit) (q : Option (BitVec 4)) :
    ∃ v, XlobDec.copy limit d l { w with res := q } = .ok v ∧ XlobDec.Appended limit w [] (bs, q) v :=
  ⟨_, XlobDec.copy_of_copied (w := { w with res := q }) h hl, rfl, rfl, fun _ => rfl⟩

theorem XlobDec.literalRun_appended {s : State} {w : XlobDec} {n : BitVec 7} {lits : List Byte}
    (hlits : lits.length = n.toNat) (hs : s.sourceAt w.i lits) (hl : w.out.length ≤ s.p0) :
    ∃ v, w.literalRun s.p0 s.srcByte s.slen n = .ok v ∧ XlobDec.Appended s.p0 w lits (lits, w.res) v := by
  rw [XlobDec.literalRun, ← hlits, readBytes_of_sourceAt hs hl]
  refine ⟨_, rfl, rfl, rfl, fun hmore => ?_⟩
  have hmore : (w.out ++ lits).length < s.p0 := hmore
  rw [List.length_append] at hmore
  dsimp only
  rw [Nat.min_eq_left (by omega)]

/-- A token's effect is what it appends, cut at the limit (R103 to R110). -/
theorem XlobDec.apply_appends {s : State} {w : XlobDec} {t : Instr} {lits : List Byte}
    {r : List Byte × Option (BitVec 4)} (h : xlobAppends w.res w.out t lits = some r)
    (hlits : lits.length = literalCount t) (hs : s.sourceAt w.i lits) (hl : w.out.length ≤ s.p0) :
    ∃ v, w.apply s.p0 s.srcByte s.slen t = .ok v ∧ XlobDec.Appended s.p0 w lits r v := by
  have hnil (h0 : lits.length = 0) : lits = [] := List.length_eq_zero_iff.1 h0
  cases t with
  | xlobZrle c =>
    cases h
    obtain rfl := hnil hlits
    exact XlobDec.put_appended hl _
  | xlobLitrun n =>
    cases h
    exact XlobDec.literalRun_appended hlits hs hl
  | xlobSmatch l d =>
    obtain rfl := hnil hlits
    obtain ⟨bs, hbs, rfl⟩ := Option.map_eq_some_iff.1 h
    exact XlobDec.copy_appended hbs hl w.res
  | xlobLmatchFirst a b n q =>
    obtain rfl := hnil hlits
    simp only [xlobAppends] at h
    split at h
    · obtain ⟨bs, hbs, rfl⟩ := Option.map_eq_some_iff.1 h
      simp only [XlobDec.apply, XlobDec.largeFirst, XlobDec.largeMatch_eq]
      exact XlobDec.copy_appended hbs hl (some q)
    · cases h
  | xlobLmatchSecond a b =>
    obtain rfl := hnil hlits
    obtain ⟨n, hn, hr⟩ := Option.bind_eq_some_iff.1 h
    obtain ⟨bs, hbs, rfl⟩ := Option.map_eq_some_iff.1 hr
    simp only [XlobDec.apply, XlobDec.largeSecond, hn, Option.getD_some, XlobDec.largeMatch_eq]
    exact XlobDec.copy_appended hbs hl none
  | xlobLrle c v =>
    cases h
    obtain rfl := hnil hlits
    exact XlobDec.put_appended hl _
  | xlobSlit v =>
    cases h
    obtain rfl := hnil hlits
    have hv : (0 : BitVec 3) ++ v = BitVec.ofNat 8 v.toNat := by
      have := v.isLt
      exact byte_eq (by rw [toNat_append_eq]; simp; omega)
    simp only [XlobDec.apply, XlobDec.smallLiteral, hv]
    exact XlobDec.put_appended hl _
  | _ => cases h

theorem le_length_take_iff {limit : Nat} {bs : List Byte} : limit ≤ (bs.take limit).length ↔ limit ≤ bs.length := by
  rw [List.length_take]
  omega

/-- XLOB_DECOMPRESS's turns follow the tokens of its stream (R103 to R110). -/
theorem xlobDec_follows (s : State) : FollowsStream xlobAppends s opXlobDecompress xlobDecTurn
    (fun q out i w => ∃ v : XlobDec, w = .xlobDec v ∧ v.res = q ∧ v.out = out ∧ v.i = i) where
  begun := by
    rintro _ _ _ _ ⟨v, rfl, -⟩
    nofun
  turn_token := by
    rintro _ _ _ _ ⟨t, lits⟩ r ⟨v, rfl, rfl, rfl, rfl⟩ hl hwf hlits hr hs
    obtain ⟨htoken, hslits⟩ := State.sourceAt_append hs
    have hreads := xlob_readsAs hr hwf
    have hfetch : v.fetch s.srcByte s.slen
        = .ok (some (t, { v with i := v.i + (tokenBytes t).length, tok := v.i })) := by
      rw [XlobDec.fetch, hreads.fetch htoken]
    obtain ⟨u, hu, hout, hres, hi⟩ := XlobDec.apply_appends
      (w := { v with i := v.i + (tokenBytes t).length, tok := v.i }) hr hlits hslits hl.le
    refine ⟨List.length_pos_iff.2 hreads.ne_nil, .xlobDec u, ?_, fun hmore => ⟨u, rfl, hres, ?_, ?_⟩⟩
    · rw [xlobDecTurn_eq rfl, State.settle_work]
      change s.settle _ (v.turnProgress s.p0 s.srcByte s.slen) = _
      simp only [XlobDec.turnProgress, hfetch, hu, XlobDec.progress, hout, le_length_take_iff]
    · rw [hout, List.take_of_length_le hmore.le]
    · rw [hi hmore, List.length_append, Nat.add_assoc]

/-- A decompressor that completes with an output that fits (R47, R148): no decompressor touches the trie. -/
theorem State.succeed_decoder {s : State} {op : Byte} {out : List Byte} (hu : Undisturbed s) (hr : RegionsOk s)
    (hop : writesDest op = true) (hc : isCompress op = false) (hl : out.length ≤ s.dcap) :
    WritesOutput s (s.succeed op out false) out ∧ (s.succeed op out false).trie = s.trie :=
  ⟨s.succeed_writesOutput op out hu hop hr.2.1 hl, by simp [hc]⟩

/-- XLOB_DECOMPRESS of a stream of tokens completes with what they decode to (R103 to R110). -/
theorem exec_xlobDecompress_decoded {s : State} {us : List (Instr × List Byte)} {out : List Byte} (hr : RegionsOk s)
    (hcap : s.p0 ≤ s.dcap) (hs : s.sourceBegins (streamOf us))
    (hd : decoded xlobAppends s.p0 none [] us = some out) :
    exec .xlobDecompress s = .next (s.succeed opXlobDecompress out false) := by
  have hbegin : xlobDecompressBegin s = s.settle opXlobDecompress (if s.p0 ≤ 0 then .finished []
      else .running (.xlobDec { i := 0, tok := 0, out := [], res := none })) := by
    simp only [xlobDecompressBegin, State.checkRegions_ok hr]
    exact if_neg (Nat.not_lt.2 hcap)
  refine congrArg Host.Outcome.next ?_
  rw [hbegin]
  split
  · next h0 =>
    rw [decoded_of_le hd h0, List.take_nil]
    exact takeTurns_stopped ((State.resting_iff _).2 (State.succeed_work ..)) _
  · next h0 =>
    exact (xlobDec_follows s).run hd ⟨_, rfl, rfl, rfl, rfl⟩ (Nat.lt_of_not_le h0) ((s.sourceBegins_iff _).1 hs)
      (by omega)

/-- Settles O34. The decoder follows its stream token by token (`xlobDec_follows`); the other two clauses are the
streams of no token and of one zero-RLE token. -/
theorem xlobDecompressDecodesItsStream : Obligations.XlobDecompressDecodesItsStream := by
  have hstream (s : State) (us : List (Instr × List Byte)) (out : List Byte) (hu : Undisturbed s) (hr : RegionsOk s)
      (hcap : s.p0 ≤ s.dcap) (hs : s.sourceBegins (streamOf us))
      (hd : decoded xlobAppends s.p0 none [] us = some out) :
      ∃ t, exec .xlobDecompress s = .next t ∧ WritesOutput s t out ∧ t.trie = s.trie :=
    ⟨_, exec_xlobDecompress_decoded hr hcap hs hd,
      State.succeed_decoder hu hr rfl rfl ((decoded_length_le hd).trans hcap)⟩
  refine ⟨hstream, fun s hu hr hcap => ⟨fun h0 => ?_, fun hpos hlen hzero hcover => ?_⟩⟩
  · exact hstream s [] [] hu hr hcap ⟨Nat.zero_le _, by simp [streamOf]⟩ (by simp [decoded, h0])
  · refine hstream s [(.xlobZrle (s.srcByte 1), [])] _ hu hr hcap ⟨hlen, fun j b hj => ?_⟩ ?_
    · have hj : [0, s.srcByte 1][j]? = some b := hj
      match j, hj with
      | 0, hj => simpa [hzero] using hj
      | 1, hj => simpa using hj
    · simp [decoded, xlobAppends, Instr.wellFormed, literalCount, hpos, hcover, List.take_replicate]

/-! ### TextLob's tokens -/

/-- A byte as its two nibbles. -/
theorem nibbles_toNat (b : Byte) :
    (b.extractLsb' 4 4).toNat = b.toNat / 16 ∧ (b.extractLsb' 0 4).toNat = b.toNat % 16 := by
  have := b.isLt
  simp only [BitVec.extractLsb'_toNat, Nat.shiftRight_eq_div_pow]
  omega

/-- The fields of a long match (R73). -/
theorem long_fields (f : BitVec 9) (l : BitVec 3) :
    (highByte ((1 : BitVec 4) ++ f ++ l)).extractLsb' 0 4 ++ (lowByte ((1 : BitVec 4) ++ f ++ l)).extractLsb' 3 5 = f
      ∧ (lowByte ((1 : BitVec 4) ++ f ++ l)).extractLsb' 0 3 = l := by
  have := f.isLt
  have := l.isLt
  refine ⟨BitVec.eq_of_toNat_eq ?_, BitVec.eq_of_toNat_eq ?_⟩
  · rw [toNat_append_eq]
    simp only [BitVec.extractLsb'_toNat, Nat.shiftRight_eq_div_pow, highByte_toNat, lowByte_toNat, longWord_toNat]
    omega
  · simp only [BitVec.extractLsb'_toNat, Nat.shiftRight_eq_div_pow, lowByte_toNat, longWord_toNat]
    omega

theorem tlobLit_readsAs {v : Byte} (hv : 0x20 ≤ v.toNat) (reserved : Bool) :
    ReadsAs (.tlob reserved) (tokenBytes (.tlobLit v)) (.tlobLit v) := by
  obtain ⟨hhigh, -⟩ := nibbles_toNat v
  have hne (x : BitVec 4) (hx : x.toNat < 2) : v.extractLsb' 4 4 ≠ x := by
    rintro rfl
    omega
  refine .one ?_
  simp only [decodeBytes, decodeTlob]
  rw [if_neg (hne 0 (by decide)), if_neg (hne 1 (by decide))]

/-- A token after the skip region is read as what the encoder writes for it, whether a reservation is open or not (R71
to R73). -/
theorem tlob_readsAs {res : Option (BitVec 4)} {out lits : List Byte} {t : Instr}
    {r : List Byte × Option (BitVec 4)} (h : tlobAppends res out t lits = some r) (hwf : t.wellFormed = true) :
    ReadsAs (.tlob res.isSome) (tokenBytes t) t := by
  cases t with
  | tlobLit v => exact tlobLit_readsAs (by simpa [Instr.wellFormed] using hwf) _
  | tlobZero => exact .one rfl
  | tlobShortFirst f g q =>
    cases res with
    | some _ => cases h
    | none =>
      obtain ⟨hzero, hf⟩ := nibbles 0 f
      obtain ⟨hg, hq⟩ := nibbles g q
      refine .two ?_ ?_
      · simp only [Option.isSome_none, decodeBytes, decodeTlob]
        rw [if_pos hzero]
        rfl
      · simp only [Option.isSome_none, decodeBytes, decodeTlob]
        rw [if_pos ⟨hzero, trivial⟩, hf, hg, hq]
  | tlobShortSecond f =>
    cases res with
    | none => cases h
    | some _ =>
      obtain ⟨hzero, hf⟩ := nibbles 0 f
      refine .one ?_
      simp only [Option.isSome_some, decodeBytes, decodeTlob]
      rw [if_pos hzero, hf]
      rfl
  | tlobLong f l =>
    have hclass := class_long f l
    have hescape := long_ne_escape f l (by simpa [Instr.wellFormed] using hwf)
    obtain ⟨hf, hl⟩ := long_fields f l
    refine .two (Laws.ProperPrefixPending.tlob_long_pending _ hclass hescape) ?_
    simp only [decodeBytes, decodeTlob]
    rw [if_neg (by rw [hclass]; exact fun hc => absurd hc.1 (by decide)), if_pos ⟨hclass, hescape⟩, hf, hl]
  | _ => cases h

/-! ### TLOB_DECOMPRESS's run -/

/-- Where the working state is after a token that appends `r.1`. -/
def TlobDec.Appended (limit : Nat) (w : TlobDec) (r : List Byte × Option (BitVec 4)) (v : TlobDec) : Prop :=
  v.out = (w.out ++ r.1).take limit ∧ v.res = r.2 ∧ v.i = w.i ∧ v.skipped = w.skipped

theorem TlobDec.literal_appended {limit : Nat} {w : TlobDec} (hl : w.out.length < limit) (b : Byte) :
    ∃ v, w.literal b = .ok v ∧ TlobDec.Appended limit w ([b], w.res) v :=
  ⟨_, rfl, (List.take_of_length_le (by simpa using hl)).symm, rfl, rfl, rfl⟩

theorem TlobDec.copy_appended {limit d l : Nat} {w : TlobDec} {bs : List Byte} (h : copied w.out d l = some bs)
    (hl : w.out.length ≤ limit) (q : Option (BitVec 4)) :
    ∃ v, TlobDec.copy limit d l { w with res := q } = .ok v ∧ TlobDec.Appended limit w (bs, q) v := by
  obtain ⟨-, hdo, -⟩ := copied_eq_some h
  refine ⟨_, TlobDec.copy_of_le (w := { w with res := q }) hdo, ?_, rfl, rfl, rfl⟩
  exact copyMatch_eq_copied h hl

/-- A token's effect is what it appends, cut at the limit (R120 to R123). -/
theorem TlobDec.apply_appends {limit n : Nat} {S : Nat → Byte} {w : TlobDec} {t : Instr} {lits : List Byte}
    {r : List Byte × Option (BitVec 4)} (h : tlobAppends w.res w.out t lits = some r) (hl : w.out.length < limit) :
    ∃ v, w.apply limit S n t = .ok v ∧ TlobDec.Appended limit w r v := by
  cases t with
  | tlobLit b =>
    cases h
    exact TlobDec.literal_appended hl b
  | tlobZero =>
    cases h
    exact TlobDec.literal_appended hl 0
  | tlobShortFirst f g q =>
    simp only [tlobAppends] at h
    split at h
    · obtain ⟨bs, hbs, rfl⟩ := Option.map_eq_some_iff.1 h
      simp only [TlobDec.apply, TlobDec.shortFirst, shortDistance_eq]
      exact TlobDec.copy_appended hbs hl.le (some q)
    · cases h
  | tlobShortSecond f =>
    obtain ⟨g, hg, hr⟩ := Option.bind_eq_some_iff.1 h
    obtain ⟨bs, hbs, rfl⟩ := Option.map_eq_some_iff.1 hr
    simp only [TlobDec.apply, TlobDec.shortSecond, hg, Option.getD_some, shortDistance_eq]
    exact TlobDec.copy_appended hbs hl.le none
  | tlobLong f l =>
    obtain ⟨bs, hbs, rfl⟩ := Option.map_eq_some_iff.1 h
    exact TlobDec.copy_appended hbs hl.le w.res
  | _ => cases h

/-- Only ExtendedLob's literal run has literal bytes after it. -/
theorem tlobAppends_literalCount {res : Option (BitVec 4)} {out lits : List Byte} {t : Instr}
    {r : List Byte × Option (BitVec 4)} (h : tlobAppends res out t lits = some r) : literalCount t = 0 := by
  cases t with
  | xlobLitrun n => cases h
  | _ => rfl

/-- Past the skip region, TLOB_DECOMPRESS's turns follow the tokens of its stream (R118, R120 to R123). -/
theorem tlobDec_follows (s : State) : FollowsStream tlobAppends s opTlobDecompress tlobDecTurn
    (fun q out i w => ∃ v : TlobDec, w = .tlobDec v ∧ v.skipped = true ∧ v.res = q ∧ v.out = out ∧ v.i = i) where
  begun := by
    rintro _ _ _ _ ⟨v, rfl, -⟩
    nofun
  turn_token := by
    rintro _ _ _ _ ⟨t, lits⟩ r ⟨v, rfl, hskip, rfl, rfl, rfl⟩ hl hwf hlits hr hs
    obtain rfl : lits = [] := List.length_eq_zero_iff.1 (hlits.trans (tlobAppends_literalCount hr))
    have hreads := tlob_readsAs hr hwf
    have hfetch : v.fetch s.srcByte s.slen
        = .ok (some (t, { v with i := v.i + (tokenBytes t).length, tok := v.i })) := by
      rw [TlobDec.fetch, TlobDec.format, if_pos hskip, hreads.fetch (State.sourceAt_append hs).1]
    obtain ⟨u, hu, hout, hres, hi, hskip'⟩ := TlobDec.apply_appends (S := s.srcByte) (n := s.slen)
      (w := { v with i := v.i + (tokenBytes t).length, tok := v.i }) hr hl
    refine ⟨List.length_pos_iff.2 hreads.ne_nil, .tlobDec u, ?_,
      fun hmore => ⟨u, rfl, hskip'.trans hskip, hres, ?_, ?_⟩⟩
    · rw [tlobDecTurn_eq rfl, State.settle_work]
      change s.settle _ (v.turnProgress s.p0 s.srcByte s.slen) = _
      simp only [TlobDec.turnProgress, hfetch, hu, TlobDec.progress_skipped (hskip'.trans hskip), hout,
        le_length_take_iff]
    · rw [hout, List.take_of_length_le hmore.le]
    · simp [hi]

/-- TLOB_DECOMPRESS's state before its skip count (R118). -/
def TlobDec.start : TlobDec := { i := 0, tok := 0, out := [], res := none, skipped := false }

theorem tlobDecompressBegin_eq {s : State} (hr : RegionsOk s) (hcap : s.p0 ≤ s.dcap) :
    tlobDecompressBegin s = { s with work := .tlobDec TlobDec.start } := by
  simp only [tlobDecompressBegin, State.checkRegions_ok hr]
  exact if_neg (Nat.not_lt.2 hcap)

/-- TLOB_DECOMPRESS takes its first turn, on the skip count and the skip region (R118, R119). -/
theorem exec_tlobDecompress_eq {s : State} (hr : RegionsOk s) (hcap : s.p0 ≤ s.dcap) :
    exec .tlobDecompress s = .next (takeTurns State.resting tlobDecTurn s.slen
      (s.settle opTlobDecompress (TlobDec.start.turnProgress s.p0 s.srcByte s.slen))) := by
  refine congrArg Host.Outcome.next ?_
  rw [tlobDecompressBegin_eq hr hcap, takeTurns_succ, if_neg (by simp [State.resting]), tlobDecTurn_eq rfl,
    State.settle_work]
  rfl

/-- A first turn that raises ends the command (R123). -/
theorem exec_tlobDecompress_raised {s : State} (hr : RegionsOk s) (hcap : s.p0 ≤ s.dcap) {r : Raise}
    (h : TlobDec.start.turnProgress s.p0 s.srcByte s.slen = .raised r) :
    exec .tlobDecompress s = .next (s.raiseError opTlobDecompress r) := by
  rw [exec_tlobDecompress_eq hr hcap, h]
  exact congrArg Host.Outcome.next (takeTurns_stopped ((State.resting_iff _).2 (State.raiseError_work ..)) _)

/-- The first fetch reads the skip count (R119). -/
theorem TlobDec.start_fetch {s : State} (h : 1 ≤ s.slen) :
    TlobDec.start.fetch s.srcByte s.slen = .ok (some (.tlobSkip (s.srcByte 0), { TlobDec.start with i := 1 })) := by
  have hread : ReadsAs .tlobSkip [s.srcByte 0] (.tlobSkip (s.srcByte 0)) := .one rfl
  have hs : s.sourceAt 0 [s.srcByte 0] := ⟨h, fun j b hj => by cases j <;> simp_all⟩
  rw [TlobDec.fetch, show TlobDec.start.format = .tlobSkip from rfl, show TlobDec.start.i = 0 from rfl, hread.fetch hs]
  rfl

/-- Without the skip-count byte the first turn raises FORMAT(0) (R123). -/
theorem TlobDec.start_turn_of_empty (limit : Nat) (S : Nat → Byte) :
    TlobDec.start.turnProgress limit S 0 = .raised ⟨.format, 0⟩ := rfl

/-- A skip count above the limit raises FORMAT(0) (R119). -/
theorem TlobDec.start_turn_of_lt {s : State} (h : 1 ≤ s.slen) (hk : s.p0 < (s.srcByte 0).toNat) :
    TlobDec.start.turnProgress s.p0 s.srcByte s.slen = .raised ⟨.format, 0⟩ := by
  simp only [TlobDec.turnProgress, TlobDec.start_fetch h, TlobDec.apply, TlobDec.skip, if_pos hk, TlobDec.progress]

/-- The first turn carries the skip region, all of which the stream has, into the output (R119). -/
theorem TlobDec.start_turn_of_le {s : State} {skipped : List Byte} (h : 1 ≤ s.slen)
    (hlen : skipped.length = (s.srcByte 0).toNat) (hk : (s.srcByte 0).toNat ≤ s.p0) (hs : s.sourceAt 1 skipped) :
    TlobDec.start.turnProgress s.p0 s.srcByte s.slen
      = if s.p0 ≤ skipped.length then .finished skipped
        else .running (.tlobDec { TlobDec.start with i := 1 + skipped.length, out := skipped, skipped := true }) := by
  have hfits : skipped.length ≤ s.p0 := hlen ▸ hk
  have hread : readBytes s.srcByte s.slen s.p0 (s.srcByte 0).toNat 1 [] = .ok (1 + skipped.length, skipped) := by
    rw [← hlen, readBytes_of_sourceAt hs (Nat.zero_le _), List.nil_append, List.take_of_length_le hfits,
      List.length_nil, Nat.sub_zero, Nat.min_eq_left hfits]
  simp only [TlobDec.turnProgress, TlobDec.start_fetch h, TlobDec.apply, TlobDec.skip, if_neg (Nat.not_lt.2 hk),
    show TlobDec.start.out = [] from rfl, hread]
  exact TlobDec.progress_skipped (w := { TlobDec.start with i := 1 + skipped.length, out := skipped, skipped := true })
    rfl s.p0

/-- TLOB_DECOMPRESS of a skip region and a stream of tokens completes with what they decode to (R118 to R123). -/
theorem exec_tlobDecompress_decoded {s : State} {k : Byte} {skipped : List Byte} {us : List (Instr × List Byte)}
    {out : List Byte} (hr : RegionsOk s) (hcap : s.p0 ≤ s.dcap) (hlen : skipped.length = k.toNat) (hk : k.toNat ≤ s.p0)
    (hs : s.sourceBegins (k :: skipped ++ streamOf us)) (hd : decoded tlobAppends s.p0 none skipped us = some out) :
    exec .tlobDecompress s = .next (s.succeed opTlobDecompress out false) := by
  obtain ⟨hcount, hrest⟩ := State.sourceAt_append (bs := [k]) (cs := skipped ++ streamOf us)
    ((s.sourceBegins_iff _).1 hs)
  obtain ⟨hskip, htokens⟩ := State.sourceAt_append hrest
  have hpos : 1 ≤ s.slen := hcount.1
  have hk0 : s.srcByte 0 = k := hcount.2 0 k rfl
  subst hk0
  rw [exec_tlobDecompress_eq hr hcap, TlobDec.start_turn_of_le hpos hlen hk hskip]
  refine congrArg Host.Outcome.next ?_
  split
  · next hfull =>
    rw [decoded_of_le hd hfull, List.take_of_length_le (hlen ▸ hk)]
    exact takeTurns_stopped ((State.resting_iff _).2 (State.succeed_work ..)) _
  · next hmore =>
    exact (tlobDec_follows s).run hd ⟨_, rfl, rfl, rfl, rfl, rfl⟩ (Nat.lt_of_not_le hmore)
      (i := 1 + skipped.length) htokens (by omega)

/-- Settles O40. After its first turn on the skip region the decoder follows its stream token by token
(`tlobDec_follows`); a skip region of `N` bytes is followed by no token. -/
theorem tlobDecompressDecodesItsStream : Obligations.TlobDecompressDecodesItsStream := by
  have hstream (s : State) (k : Byte) (skipped : List Byte) (us : List (Instr × List Byte)) (out : List Byte)
      (hu : Undisturbed s) (hr : RegionsOk s) (hcap : s.p0 ≤ s.dcap) (hlen : skipped.length = k.toNat)
      (hk : k.toNat ≤ s.p0) (hs : s.sourceBegins (k :: skipped ++ streamOf us))
      (hd : decoded tlobAppends s.p0 none skipped us = some out) :
      ∃ t, exec .tlobDecompress s = .next t ∧ WritesOutput s t out ∧ t.trie = s.trie :=
    ⟨_, exec_tlobDecompress_decoded hr hcap hlen hk hs hd,
      State.succeed_decoder hu hr rfl rfl ((decoded_length_le hd).trans hcap)⟩
  refine ⟨hstream, fun s hu hr hcap => ⟨fun hpos hk hlen => ?_, fun hbad => ?_⟩⟩
  · have hskip : (bytesOf s.srcByte 1 s.p0).length = s.p0 := bytesOf_length ..
    refine hstream s (s.srcByte 0) _ [] _ hu hr hcap (hskip.trans hk.symm) hk.le ?_ ?_
    · have hregion : s.srcByte 0 :: bytesOf s.srcByte 1 s.p0 ++ streamOf [] = bytesOf s.srcByte 0 (s.p0 + 1) := by
        rw [bytesOf_succ]
        exact List.append_nil _
      rw [hregion]
      refine ⟨by simpa using hlen, fun j b hj => ?_⟩
      have hj' := (List.getElem?_eq_some_iff.1 hj).1
      rw [bytesOf_getElem? _ _ _ _ (by simpa using hj'), Nat.zero_add] at hj
      exact Option.some.inj hj
    · rw [decoded, if_pos hskip.ge, List.take_of_length_le hskip.le]
  · have hraised : TlobDec.start.turnProgress s.p0 s.srcByte s.slen = .raised ⟨.format, 0⟩ := by
      obtain hempty | ⟨hpos, hk⟩ := hbad
      · rw [hempty]
        exact TlobDec.start_turn_of_empty _ _
      · exact TlobDec.start_turn_of_lt hpos hk
    exact ⟨_, exec_tlobDecompress_raised hr hcap hraised,
      State.raiseError_decoderFails hu (by decide) rfl ⟨.format, 0⟩⟩

end Sys2Proof.Machine

/-! ### The host's memory accesses -/

namespace Sys2Proof.Machine

theorem step_memWrite {s : State} {a : Word} {b : Byte} {rest : List Input} (h : s.inputs = .memWrite a b :: rest) :
    step s = State.hostWrite { s with inputs := rest } a b :=
  step_input h

theorem step_memRead {s : State} {a : Word} {rest : List Input} (h : s.inputs = .memRead a :: rest) :
    step s = State.hostRead { s with inputs := rest } a :=
  step_input h

/-- The state after the host has written a byte of data memory. -/
def State.afterHostWrite (s : State) (a : Word) (b : Byte) : State :=
  { s with
    mem := Memory.write s.mem a.toNat b
    srcOld := s.keepOld a.toNat
    dstDirty := s.dstDirty || s.inActiveDest a.toNat
    response := .none }

theorem State.hostWrite_of_lt {s : State} {a : Word} (ha : a.toNat < s.memSize) (b : Byte) :
    s.hostWrite a b = .next (s.afterHostWrite a b) :=
  if_pos ((s.hasAddress_eq_true _).2 ha)

theorem State.hostWrite_of_ge {s : State} {a : Word} (ha : s.memSize ≤ a.toNat) (b : Byte) :
    s.hostWrite a b = .fault (.absentAddress a.toNat) :=
  if_neg (mt (s.hasAddress_eq_true _).1 (Nat.not_lt.2 ha))

/-- A read in a running command's regions answers any value (R48 item 4, R164). -/
theorem State.hostRead_active {s : State} {a : Word} (ha : a.toNat < s.memSize)
    (hin : (s.inActiveSource a.toNat || s.inActiveDest a.toNat) = true) :
    s.hostRead a = .next { s with response := .byte (Config.freeByte s.free a.toNat), free := s.free + 1 } := by
  rw [State.hostRead, if_pos ((s.hasAddress_eq_true _).2 ha), if_pos hin]

/-- A read elsewhere answers the byte (R43). -/
theorem State.hostRead_outside {s : State} {a : Word} (ha : a.toNat < s.memSize)
    (hsrc : s.inActiveSource a.toNat = false) (hdst : s.inActiveDest a.toNat = false) :
    s.hostRead a = .next { s with response := .byte (s.readByte a.toNat) } := by
  rw [State.hostRead, if_pos ((s.hasAddress_eq_true _).2 ha), if_neg (by simp [hsrc, hdst])]
  rfl

theorem State.hostRead_of_ge {s : State} {a : Word} (ha : s.memSize ≤ a.toNat) :
    s.hostRead a = .fault (.absentAddress a.toNat) :=
  if_neg (mt (s.hasAddress_eq_true _).1 (Nat.not_lt.2 ha))

@[simp] theorem State.afterHostWrite_readByte (s : State) (a : Word) (b : Byte) (x : Nat) :
    (s.afterHostWrite a b).readByte x = if x = a.toNat then b else s.readByte x :=
  Memory.read_write ..

/-- Settles O60. A write is `State.afterHostWrite`; a read answers the byte except in a running command's regions. -/
theorem hostMemoryAccesses : Obligations.HostMemoryAccesses := by
  refine ⟨fun s a b rest => ⟨step_memWrite, step_memRead⟩, fun s a b => ⟨fun ha => ⟨?_, ?_⟩, fun ha =>
    ⟨State.hostWrite_of_ge ha b, State.hostRead_of_ge ha⟩⟩⟩
  · refine ⟨s.afterHostWrite a b, State.hostWrite_of_lt ha b, by simp, fun x hx => by simp [hx], rfl, fun hb => ?_⟩
    obtain ⟨hsrc, hdst⟩ := State.inActive_idle (s := s.afterHostWrite a b) hb a.toNat
    rw [State.hostRead_outside (s := s.afterHostWrite a b) ha hsrc hdst, State.afterHostWrite_readByte, if_pos rfl]
  · by_cases hin : (s.inActiveSource a.toNat || s.inActiveDest a.toNat) = true
    · exact ⟨_, State.hostRead_active ha hin, rfl, fun hsrc hdst => by simp [hsrc, hdst] at hin⟩
    · have hout : s.inActiveSource a.toNat = false ∧ s.inActiveDest a.toNat = false := by simpa using hin
      exact ⟨_, State.hostRead_outside ha hout.1 hout.2, rfl, fun _ _ => rfl⟩

end Sys2Proof.Machine

/-! ### How a command with a destination region ends -/

namespace Sys2Proof.Machine

theorem SameOperands.symm {s x : State} (h : SameOperands s x) : SameOperands x s :=
  ⟨h.ctx.symm, h.memTop.symm, fun k hk => (h.byte k (h.slen ▸ hk)).symm⟩

/-- From all states with the same operands and source, the command of `i` raises the same error or succeeds with the
same output. -/
def EndsAlike (i : Instr) (s : State) : Prop :=
  (∃ r, ∀ x, SameOperands s x → exec i x = .next (x.raiseError (opcodeOf i) r))
    ∨ ∃ out stored, ∀ x, SameOperands s x → exec i x = .next (x.succeed (opcodeOf i) out stored)

theorem EndsAlike.of_settles {i : Instr} {s : State}
    (h : ∃ p : Progress, p.Ends s.dcap ∧ ∀ x, SameOperands s x → exec i x = .next (x.settle (opcodeOf i) p)) :
    EndsAlike i s := by
  obtain ⟨p, hp, hx⟩ := h
  cases p with
  | raised r => exact .inl ⟨r, hx⟩
  | finished out => exact .inr ⟨out, false, hx⟩
  | running w => exact hp.elim

/-- A compress command's output fits or not, by the capacity alone (R144). -/
theorem EndsAlike.of_isCompress {i : Instr} {s : State} (hi : isCompress (opcodeOf i) = true) (hr : RegionsOk s) :
    EndsAlike i s := by
  obtain ⟨r, hx⟩ | ⟨out, hx⟩ := exec_compress_uniform hi s
  · exact .inl ⟨r, fun x h => hx x h.sameSource h.p1 (h.regionsOk hr)⟩
  · by_cases hfit : s.dcap < out.length
    · exact .inl ⟨⟨.capacity, s.dcap⟩, fun x h => by
        rw [hx x h.sameSource h.p1 (h.regionsOk hr), State.compressed_of_lt (h.dcap ▸ hfit), h.dcap]⟩
    · exact .inr ⟨out, _, fun x h => by
        rw [hx x h.sameSource h.p1 (h.regionsOk hr), State.compressed_of_le (h.dcap ▸ Nat.le_of_not_lt hfit)]⟩

/-- How a command with a destination region ends depends on its operands and its source alone. -/
theorem exec_endsAlike {i : Instr} (hi : writesDest (opcodeOf i) = true) (s : State) : EndsAlike i s := by
  by_cases hr : RegionsOk s
  · cases i with
    | lobCompress | xlobCompress | tlobCompress => exact .of_isCompress rfl hr
    | lobDecompress => exact .of_settles (exec_lobDecompress_uniform hr)
    | xlobDecompress => exact .of_settles (exec_xlobDecompress_uniform hr)
    | tlobDecompress => exact .of_settles (exec_tlobDecompress_uniform hr)
    | deplode => exact .of_settles (exec_deplode_uniform hr)
    | _ => cases hi
  · exact .inl ⟨⟨.misuse, 0⟩, fun x hx => exec_of_not_regionsOk hi (mt hx.symm.regionsOk hr)⟩

end Sys2Proof.Machine

/-! ### How JH_CRYPT ends -/

namespace Sys2Proof.Machine

/-- The bytes outside the source region are as they were. -/
def State.KeepsOutsideSource (s : State) (m : Memory) : Prop :=
  ∀ x, inRegion s.src s.slen x = false → Memory.read m x = Memory.read s.mem x

/-- A data word is written inside the source region (R44, R138, R140). -/
theorem State.jhStore_keepsOutsideSource (s : State) (w : Jh) (data : Half) :
    s.KeepsOutsideSource (jhStore s w data) := by
  intro x hx
  simp only [jhStore]
  rw [Memory.read_fill, if_neg]
  simp [hx]

/-- A data word ends the command, or leaves it running past that word (R138). -/
theorem jhWordStep_cases (s : State) (w : Jh) (data : Half) :
    (s.slen ≤ w.j + 2
        ∧ jhWordStep s w data = State.succeed { s with mem := jhStore s w data } opJhCrypt [] false)
      ∨ (w.j + 2 < s.slen
        ∧ jhWordStep s w data
          = { s with mem := jhStore s w data, work := .jh { j := w.j + 2, d0 := jhNextKey w.d0, d1 := w.d0 } }) := by
  by_cases h : s.slen ≤ w.j + 2
  · exact .inl ⟨h, if_pos h⟩
  · exact .inr ⟨Nat.lt_of_not_le h, if_neg h⟩

/-- A running JH_CRYPT succeeds, whether or not the host has disturbed it (R138). -/
theorem takeTurns_jh {fuel : Nat} {s : State} {w : Jh} (hw : s.work = .jh w) (hj : w.j < s.slen)
    (hf : s.slen - w.j ≤ fuel) :
    ∃ m, s.KeepsOutsideSource m
      ∧ takeTurns State.resting jhTurn fuel s = State.succeed { s with mem := m } opJhCrypt [] false := by
  induction fuel generalizing s w with
  | zero => omega
  | succ fuel ih =>
    have hturn : takeTurns State.resting jhTurn (fuel + 1) s
        = takeTurns State.resting jhTurn fuel (jhWordStep s w (w.word s.srcByte s.slen)) := by
      rw [takeTurns_succ, if_neg (by simp [State.resting, hw])]
      simp only [jhTurn, hw]
    have hstored := s.jhStore_keepsOutsideSource w (w.word s.srcByte s.slen)
    rw [hturn]
    obtain ⟨-, hlast⟩ | ⟨hmore, hnext⟩ := jhWordStep_cases s w (w.word s.srcByte s.slen)
    · exact ⟨_, hstored, takeTurns_ended hlast (State.succeed_work ..)⟩
    · rw [hnext]
      obtain ⟨m, hm, hrun⟩ := ih (s := { s with
          mem := jhStore s w (w.word s.srcByte s.slen)
          work := .jh { j := w.j + 2, d0 := jhNextKey w.d0, d1 := w.d0 } }) rfl hmore (by
        change s.slen - (w.j + 2) ≤ fuel
        omega)
      exact ⟨m, fun x hx => (hm x hx).trans (hstored x hx), hrun⟩

/-- JH_CRYPT refuses an invalid region (R37, R138). -/
theorem exec_jhCrypt_invalid {s : State} (hv : s.validRegion s.src s.slen = false) :
    exec .jhCrypt s = .next (s.raiseError opJhCrypt ⟨.misuse, 0⟩) :=
  congrArg Host.Outcome.next (takeTurns_ended (by rw [jhCryptBegin, State.checkSource_error hv])
    (State.raiseError_work ..))

/-- JH_CRYPT succeeds on a valid region, whether or not the host has disturbed it (R138). -/
theorem exec_jhCrypt_valid {s : State} (hv : s.validRegion s.src s.slen = true) :
    ∃ m, s.KeepsOutsideSource m ∧ exec .jhCrypt s = .next (State.succeed { s with mem := m } opJhCrypt [] false) := by
  have hbegin : jhCryptBegin s = if s.slen = 0 then s.succeed opJhCrypt [] false
      else { s with work := .jh { j := 0, d0 := s.jhKey, d1 := 0 } } := by
    rw [jhCryptBegin, State.checkSource_ok hv]
  by_cases h0 : s.slen = 0
  · exact ⟨s.mem, fun _ _ => rfl, congrArg Host.Outcome.next
      (takeTurns_ended (hbegin.trans (if_pos h0)) (State.succeed_work ..))⟩
  · obtain ⟨m, hm, hrun⟩ := takeTurns_jh (fuel := s.slen + 1)
      (s := { s with work := .jh { j := 0, d0 := s.jhKey, d1 := 0 } }) rfl (Nat.pos_of_ne_zero h0) (Nat.le_succ _)
    exact ⟨m, hm, congrArg Host.Outcome.next ((congrArg _ (hbegin.trans (if_neg h0))).trans hrun)⟩

end Sys2Proof.Machine

/-! ### What a command writes -/

namespace Sys2Proof.Machine

/-- Whether an address lies in the region that the command of an opcode writes (R36). -/
def State.writes (s : State) (op : Byte) (x : Nat) : Bool :=
  (writesDest op && inRegion s.dst s.dcap x) || (writesSource op && inRegion s.src s.slen x)

theorem State.writes_eq_false {s : State} {op : Byte} {x : Nat} :
    s.writes op x = false
      ↔ (writesDest op = true → ¬ (s.dst ≤ x ∧ x < s.dst + s.dcap))
        ∧ (writesSource op = true → ¬ (s.src ≤ x ∧ x < s.src + s.slen)) := by
  simp only [State.writes, Bool.or_eq_false_iff, Bool.and_eq_false_imp, inRegion_eq_false]

theorem Memory.read_fill_outside {a n x : Nat} (hx : ¬ (a ≤ x ∧ x < a + n)) (p : Nat → Bool) (f : Nat → Byte)
    (m : Memory) : Memory.read (Memory.fill p f a n m) x = Memory.read m x := by
  rw [Memory.read_fill, if_neg fun h => hx ⟨h.1, h.2.1⟩]

/-- What an error leaves in memory: free values, at most, and only in the region that the command writes. -/
theorem State.memFailed_read {s : State} {op : Byte} {x : Nat} (hx : s.writes op x = false) :
    Memory.read (s.memFailed op) x = Memory.read s.mem x := by
  obtain ⟨hdst, hsrc⟩ := State.writes_eq_false.1 hx
  unfold State.memFailed
  split
  · next hd => exact Memory.read_fill_outside (hdst hd) ..
  · split
    · next hs => exact Memory.read_fill_outside (hsrc (Bool.and_eq_true_iff.1 hs).1) ..
    · rfl

/-- What a success leaves in memory differs only in the region that the command writes. -/
theorem State.memSucceeded_read {s : State} {op : Byte} {x : Nat} (hx : s.writes op x = false) (out : List Byte) :
    Memory.read (s.memSucceeded op out) x = Memory.read s.mem x := by
  obtain ⟨hdst, hsrc⟩ := State.writes_eq_false.1 hx
  unfold State.memSucceeded
  split
  · next hd => exact Memory.read_fill_outside (hdst hd) ..
  · split
    · next hs => exact Memory.read_fill_outside (hsrc (Bool.and_eq_true_iff.1 hs).1) ..
    · rfl

/-- Error entry writes memory only inside the region that the command writes, whatever the host did (R147, R164). -/
theorem State.raiseError_frame {s : State} {op : Byte} {x : Nat} (hx : s.writes op x = false) (r : Raise) :
    (s.raiseError op r).readByte x = s.readByte x := by
  rw [State.readByte, State.raiseError_mem, State.memFailed_read hx, State.readByte]

/-- Completion writes memory only inside the region that the command writes, whatever the host did (R44, R164). -/
theorem State.succeed_frame {s : State} {op : Byte} {x : Nat} (hx : s.writes op x = false) (out : List Byte)
    (stored : Bool) : (s.succeed op out stored).readByte x = s.readByte x := by
  rw [State.readByte, State.succeed_mem, State.memSucceeded_read hx, State.readByte]

theorem State.settle_frame {s : State} {op : Byte} {x : Nat} (hx : s.writes op x = false) (p : Progress) :
    (s.settle op p).readByte x = s.readByte x := by
  cases p with
  | raised r => exact State.raiseError_frame hx r
  | finished out => exact State.succeed_frame hx out false
  | running w => rfl

theorem State.memFailed_no_region {op : Byte} (hd : writesDest op = false) (hs : writesSource op = false) (s : State) :
    s.memFailed op = s.mem := by
  simp [State.memFailed, hd, hs]

theorem State.memSucceeded_no_region {op : Byte} (hd : writesDest op = false) (hs : writesSource op = false)
    (s : State) (out : List Byte) : s.memSucceeded op out = s.mem := by
  simp [State.memSucceeded, hd, hs]

theorem State.raiseError_mem_no_region {op : Byte} (hd : writesDest op = false) (hs : writesSource op = false)
    (s : State) (r : Raise) : (s.raiseError op r).mem = s.mem := by
  rw [State.raiseError_mem, State.memFailed_no_region hd hs]

theorem State.succeed_mem_no_region {op : Byte} (hd : writesDest op = false) (hs : writesSource op = false)
    (s : State) (out : List Byte) (stored : Bool) : (s.succeed op out stored).mem = s.mem := by
  rw [State.succeed_mem, State.memSucceeded_no_region hd hs]

/-! #### Each kind of instruction -/

theorem trieInitRun_mem (s : State) : (trieInitRun s).mem = s.mem := by
  unfold trieInitRun
  split
  · exact State.raiseError_mem_no_region rfl rfl ..
  · exact State.succeed_mem_no_region rfl rfl ..

theorem trieAddRun_mem (s : State) : (trieAddRun s).mem = s.mem := by
  unfold trieAddRun
  split
  · exact State.raiseError_mem_no_region rfl rfl ..
  · exact State.succeed_mem_no_region rfl rfl ..

theorem trieMatchRun_mem (s : State) : (trieMatchRun s).mem = s.mem := by
  unfold trieMatchRun
  split
  · exact State.raiseError_mem_no_region rfl rfl ..
  · exact State.succeed_mem_no_region rfl rfl ..

/-- A trie command writes no memory (R36). -/
theorem exec_trie_mem {i : Instr} {s t : State} (hi : i = .trieInit ∨ i = .trieAdd ∨ i = .trieMatch)
    (ht : exec i s = .next t) : t.mem = s.mem := by
  obtain rfl | rfl | rfl := hi
  · cases ht
    exact trieInitRun_mem s
  · cases ht
    exact trieAddRun_mem s
  · cases ht
    exact trieMatchRun_mem s

/-- A command with a destination region writes memory only there (R44). -/
theorem exec_frame_of_writesDest {i : Instr} {s t : State} (hi : writesDest (opcodeOf i) = true)
    (ht : exec i s = .next t) {x : Nat} (hx : s.writes (opcodeOf i) x = false) : t.readByte x = s.readByte x := by
  obtain ⟨r, hend⟩ | ⟨out, stored, hend⟩ := exec_endsAlike hi s
  · cases ht.symm.trans (hend s (.refl s))
    exact State.raiseError_frame hx r
  · cases ht.symm.trans (hend s (.refl s))
    exact State.succeed_frame hx out stored

theorem onLobDec_settles {here : LobDec → Bool} {f : LobDec → Result LobDec} {s t : State}
    (ht : onLobDec here f s = .next t) : ∃ p, t = s.settle opLobDecompress p := by
  unfold onLobDec at ht
  split at ht
  · split at ht
    · cases ht
      exact ⟨_, rfl⟩
    · cases ht
  · cases ht

theorem onXlobDec_settles {here : XlobDec → Bool} {f : XlobDec → Result XlobDec} {s t : State}
    (ht : onXlobDec here f s = .next t) : ∃ p, t = s.settle opXlobDecompress p := by
  unfold onXlobDec at ht
  split at ht
  · split at ht
    · cases ht
      exact ⟨_, rfl⟩
    · cases ht
  · cases ht

theorem onTlobDec_settles {here : TlobDec → Bool} {f : TlobDec → Result TlobDec} {s t : State}
    (ht : onTlobDec here f s = .next t) : ∃ p, t = s.settle opTlobDecompress p := by
  unfold onTlobDec at ht
  split at ht
  · split at ht
    · cases ht
      exact ⟨_, rfl⟩
    · cases ht
  · cases ht

theorem onDep_settles {f : Dep → Option (Result Dep)} {s t : State} (ht : onDep f s = .next t) :
    ∃ p, t = s.settle opDeplode p := by
  unfold onDep at ht
  split at ht
  · split at ht
    · cases ht
      exact ⟨_, rfl⟩
    · cases ht
  · cases ht

/-- A token of a decompressor's stream settles a turn of its command. -/
theorem exec_token_settles {i : Instr} {s t : State} (hi : formatOf i ≠ .command) (hjh : ∀ w, i ≠ .jhWord w)
    (ht : exec i s = .next t) : ∃ op p, writesSource op = false ∧ t = s.settle op p := by
  cases i with
  | lobCtrl _ | lobLit _ | lobMatch _ _ =>
    obtain ⟨p, hp⟩ := onLobDec_settles ht
    exact ⟨opLobDecompress, p, rfl, hp⟩
  | xlobZrle _ | xlobLitrun _ | xlobSmatch _ _ | xlobLmatchFirst _ _ _ _ | xlobLmatchSecond _ _ | xlobLrle _ _
  | xlobSlit _ =>
    obtain ⟨p, hp⟩ := onXlobDec_settles ht
    exact ⟨opXlobDecompress, p, rfl, hp⟩
  | tlobSkip _ | tlobLit _ | tlobZero | tlobShortFirst _ _ _ | tlobShortSecond _ | tlobLong _ _ =>
    obtain ⟨p, hp⟩ := onTlobDec_settles ht
    exact ⟨opTlobDecompress, p, rfl, hp⟩
  | depSellen0 | depSellen10 | depSellen110 | depSellen1110 | depSellen11110 _ | depSellen11111 | depLitlen0
  | depLitlen10 | depLitlen11 | depDist0 | depDist10 | depDist11 =>
    obtain ⟨p, hp⟩ := onDep_settles ht
    exact ⟨opDeplode, p, rfl, hp⟩
  | jhWord w => exact absurd rfl (hjh w)
  | _ => exact absurd rfl hi

/-- An instruction that does not write the source region in place writes memory only inside the destination region. -/
theorem exec_frame_dest {i : Instr} {s t : State} (hc : i ≠ .jhCrypt) (hw : ∀ w, i ≠ .jhWord w)
    (ht : exec i s = .next t) {x : Nat} (hx : inRegion s.dst s.dcap x = false) : t.readByte x = s.readByte x := by
  have hout {op : Byte} (hop : writesSource op = false) : s.writes op x = false := by simp [State.writes, hop, hx]
  by_cases hi : formatOf i = .command
  · cases i with
    | trieInit | trieAdd | trieMatch => rw [State.readByte, exec_trie_mem (by simp) ht, State.readByte]
    | lobCompress | lobDecompress | xlobCompress | xlobDecompress | tlobCompress | tlobDecompress | deplode =>
      exact exec_frame_of_writesDest rfl ht (hout rfl)
    | jhCrypt => exact absurd rfl hc
    | reservedAdvlobCompress | reservedAdvlobDecompress =>
      cases ht
      exact State.raiseError_frame (hout rfl) _
    | _ => cases hi
  · obtain ⟨op, p, hop, rfl⟩ := exec_token_settles hi hw ht
    exact State.settle_frame (hout hop) p

/-- JH_CRYPT and its data words write memory only inside the source region. -/
theorem exec_frame_source {i : Instr} {s t : State} (hi : i = .jhCrypt ∨ ∃ w, i = .jhWord w)
    (ht : exec i s = .next t) {x : Nat} (hx : inRegion s.src s.slen x = false) : t.readByte x = s.readByte x := by
  have hout (m : Memory) : State.writes { s with mem := m } opJhCrypt x = false := by
    have hx' : inRegion (State.src { s with mem := m }) (State.slen { s with mem := m }) x = false := hx
    rw [State.writes, hx']
    rfl
  have hsucceed {m : Memory} (hm : s.KeepsOutsideSource m) :
      (State.succeed { s with mem := m } opJhCrypt [] false).readByte x = s.readByte x :=
    (State.succeed_frame (hout m) [] false).trans (hm x hx)
  obtain rfl | ⟨data, rfl⟩ := hi
  · cases hv : s.validRegion s.src s.slen with
    | false =>
      cases ht.symm.trans (exec_jhCrypt_invalid hv)
      exact State.raiseError_frame (hout s.mem) _
    | true =>
      obtain ⟨m, hm, hend⟩ := exec_jhCrypt_valid hv
      cases ht.symm.trans hend
      exact hsucceed hm
  · simp only [exec, execJhWord] at ht
    split at ht
    · next w hw =>
      cases ht
      have hm := s.jhStore_keepsOutsideSource w data
      obtain ⟨-, hlast⟩ | ⟨-, hnext⟩ := jhWordStep_cases s w data
      · rw [hlast]
        exact hsucceed hm
      · rw [hnext]
        exact hm x hx
    · cases ht

/-- Settles O15. Every command and token ends in a turn that writes only the region of its opcode (`State.writes`). -/
theorem commandsWriteOnlyTheirRegions : Obligations.CommandsWriteOnlyTheirRegions := fun _ _ _ ht =>
  ⟨fun hc hw _ hx => exec_frame_dest hc hw ht hx, fun hi _ hx => exec_frame_source hi ht hx,
    fun hi => exec_trie_mem hi ht⟩

end Sys2Proof.Machine

/-! ### Regions that do not fit or overlap -/

namespace Sys2Proof.Machine

theorem ne_opTrieMatch_of_writesDest {op : Byte} (h : writesDest op = true) : op ≠ opTrieMatch := by
  rintro rfl
  cases h

/-- TRIE_ADD refuses an invalid region before it checks its operands (R37, R81). -/
theorem exec_trieAdd_invalid {s : State} (hv : s.validRegion s.src s.slen = false) :
    exec .trieAdd s = .next (s.raiseError opTrieAdd ⟨.misuse, 0⟩) := by
  simp only [exec, execTrieAdd, trieAddRun, trieAddCheck, State.checkSource_error hv]

/-- TRIE_MATCH refuses an invalid region before it checks its operands (R37, R83). -/
theorem exec_trieMatch_invalid {s : State} (hv : s.validRegion s.src s.slen = false) :
    exec .trieMatch s = .next (s.raiseError opTrieMatch ⟨.misuse, 0⟩) := by
  simp only [exec, execTrieMatch, trieMatchRun, trieMatchCheck, State.checkSource_error hv]

/-- Settles O18. Each command checks its regions first, so that the state after it is one error entry. -/
theorem badRegionsEndInMisuse : Obligations.BadRegionsEndInMisuse := by
  refine ⟨fun i s hi hu hr => ?_, fun i s hi hu hv => ?_, fun s hu hv => ?_⟩
  · exact ⟨_, exec_of_not_regionsOk hi hr,
      State.raiseError_commandFails _ ⟨.misuse, 0⟩ hu (ne_opTrieMatch_of_writesDest hi)⟩
  · obtain rfl | rfl := hi
    · exact ⟨_, exec_trieAdd_invalid hv, State.raiseError_commandRefused opTrieAdd hu.1 (by decide) rfl rfl⟩
    · exact ⟨_, exec_jhCrypt_invalid hv, State.raiseError_commandRefused opJhCrypt hu.1 (by decide) rfl rfl⟩
  · refine ⟨_, exec_trieMatch_invalid hv, State.raiseError_failsWith opTrieMatch ⟨.misuse, 0⟩ hu.1, ?_, ?_, ?_,
      State.raiseError_mem_no_region rfl rfl ..⟩
    · simp [hu.1]
    · simp [hu.1]
    · exact State.raiseError_trie ..

end Sys2Proof.Machine

/-! ### The source as accepted -/

namespace Sys2Proof.Machine

theorem Memory.list_ne_nil (a : Nat) (b : Byte) (m : Memory) : Memory.list a b m ≠ [] := by
  cases m with
  | nil => nofun
  | cons c m =>
    rw [Memory.list]
    split
    · nofun
    · split <;> nofun

/-- The host has disturbed the source region once it has written an address there (R164). -/
theorem State.keepOld_isEmpty (s : State) (a : Nat) :
    (s.keepOld a).isEmpty = (s.srcOld.isEmpty && !s.inActiveSource a) := by
  unfold State.keepOld
  cases hin : s.inActiveSource a with
  | false => simp
  | true =>
    cases hl : s.srcOld.lookup a with
    | none => simp [Memory.list_ne_nil]
    | some b =>
      cases ho : s.srcOld with
      | nil => simp [ho] at hl
      | cons c m => simp

theorem State.afterHostWrite_srcDirty (s : State) (a : Word) (b : Byte) :
    (s.afterHostWrite a b).srcDirty = (s.srcDirty || s.inActiveSource a.toNat) := by
  change (!(s.keepOld a.toNat).isEmpty) = (!s.srcOld.isEmpty || s.inActiveSource a.toNat)
  rw [State.keepOld_isEmpty, Bool.not_and, Bool.not_not]

theorem State.inActiveSource_eq {s : State} {op : Byte} (hop : s.activeOp = some op) (hr : readsSource op = true)
    (a : Nat) : s.inActiveSource a = inRegion s.src s.slen a := by
  simp [State.inActiveSource, hop, hr]

/-- A host write that does not fault gives `State.afterHostWrite`. -/
theorem State.hostWrite_next {s t : State} {a : Word} {b : Byte} (h : s.hostWrite a b = .next t) :
    t = s.afterHostWrite a b := by
  by_cases ha : a.toNat < s.memSize
  · exact (Host.Outcome.next.inj ((State.hostWrite_of_lt ha b).symm.trans h)).symm
  · rw [State.hostWrite_of_ge (Nat.le_of_not_lt ha)] at h
    cases h

/-- The same command on memory `m`, left alone by the host. -/
def State.leftAlone (s : State) (m : Memory) : State := { s with mem := m, srcOld := [], dstDirty := false }

@[simp] theorem State.leftAlone_srcDirty (s : State) (m : Memory) : (s.leftAlone m).srcDirty = false :=
  State.srcDirty_eq_false.2 rfl

@[simp] theorem State.leftAlone_status (s : State) (m : Memory) : (s.leftAlone m).status = s.status := rfl

@[simp] theorem State.leftAlone_trie (s : State) (m : Memory) : (s.leftAlone m).trie = s.trie := rfl

@[simp] theorem State.leftAlone_matchOff (s : State) (m : Memory) : (s.leftAlone m).matchOff = s.matchOff := rfl

@[simp] theorem State.leftAlone_matchLen (s : State) (m : Memory) : (s.leftAlone m).matchLen = s.matchLen := rfl

/-- Memory that holds the source as accepted gives the command left alone the same operands and source. -/
theorem SameOperands.leftAlone {s : State} {m : Memory}
    (hm : ∀ k, k < s.slen → Memory.read m (s.src + k) = s.srcByte k) : SameOperands s (s.leftAlone m) :=
  ⟨rfl, rfl, fun k hk => (State.srcByte_undisturbed (s := s.leftAlone m) rfl k).trans (hm k hk)⟩

/-- What the host cannot disturb is the same at the end of two runs: ERR, STORED and the trie, and, where it has not
written the source region, STATUS and the result registers (R164). -/
def SameButDisturbed (dirty : Bool) (t u : State) : Prop :=
  t.status.err = u.status.err ∧ t.status.stored = u.status.stored ∧ t.trie = u.trie
    ∧ (dirty = false → t.status = u.status ∧ t.outLen = u.outLen ∧ t.matchOff = u.matchOff
        ∧ t.matchLen = u.matchLen ∧ t.errPos = u.errPos)

theorem State.raiseError_sameButDisturbed (s : State) (m : Memory) (op : Byte) (r : Raise) :
    SameButDisturbed s.srcDirty (s.raiseError op r) ((s.leftAlone m).raiseError op r) :=
  ⟨by simp [Status.failed], by simp [Status.failed], by simp, fun hd => by simp [hd]⟩

theorem State.succeed_sameButDisturbed (s : State) (m : Memory) (op : Byte) (out : List Byte) (stored : Bool) :
    SameButDisturbed s.srcDirty (s.succeed op out stored) ((s.leftAlone m).succeed op out stored) :=
  ⟨by simp [Status.succeeded], by simp [Status.succeeded], by simp, fun hd => by simp [hd]⟩

theorem trieInitRun_sameButDisturbed (s : State) (m : Memory) :
    SameButDisturbed s.srcDirty (trieInitRun s) (trieInitRun (s.leftAlone m)) := by
  by_cases h : Config.trieMaxWindow < s.p0
  · rw [trieInitRun_of_lt h, trieInitRun_of_lt (s := s.leftAlone m) h]
    exact s.raiseError_sameButDisturbed m _ _
  · have h := Nat.le_of_not_lt h
    rw [trieInitRun_of_le h, trieInitRun_of_le (s := s.leftAlone m) h]
    exact State.succeed_sameButDisturbed
      { s with trie := Trie.withWindow (if s.p0 = 0 then Config.trieDefaultWindow else s.p0) } m _ _ _

theorem trieAddRun_sameButDisturbed {s : State} {m : Memory} (hm : SameOperands s (s.leftAlone m)) :
    SameButDisturbed s.srcDirty (trieAddRun s) (trieAddRun (s.leftAlone m)) := by
  have hcheck : trieAddCheck (s.leftAlone m) = trieAddCheck s := rfl
  unfold trieAddRun
  rw [hcheck]
  cases hc : trieAddCheck s with
  | error r => exact s.raiseError_sameButDisturbed m _ _
  | ok _ =>
    have hrun : bytesOf (s.leftAlone m).srcByte s.p0 s.p1 = bytesOf s.srcByte s.p0 s.p1 :=
      bytesOf_congr hm.byte (trieAddCheck_ok hc)
    have hsame := State.succeed_sameButDisturbed
      { s with trie := s.trie.add s.p0 (bytesOf s.srcByte s.p0 s.p1) } m opTrieAdd [] false
    rw [← hrun] at hsame ⊢
    exact hsame

theorem trieMatchRun_sameButDisturbed {s : State} {m : Memory} (hm : SameOperands s (s.leftAlone m)) :
    SameButDisturbed s.srcDirty (trieMatchRun s) (trieMatchRun (s.leftAlone m)) := by
  have hcheck : trieMatchCheck (s.leftAlone m) = trieMatchCheck s := rfl
  unfold trieMatchRun
  rw [hcheck]
  cases hc : trieMatchCheck s with
  | error r => exact s.raiseError_sameButDisturbed m _ _
  | ok _ =>
    have hfound : s.trie.search (s.leftAlone m).srcByte s.p0 s.p1 = s.trie.search s.srcByte s.p0 s.p1 :=
      Trie.search_congr hm.byte s.trie (trieMatchCheck_ok hc)
    have hsame := State.succeed_sameButDisturbed
      { s with
        matchOff := BitVec.ofNat 32 (s.trie.search s.srcByte s.p0 s.p1).1
        matchLen := BitVec.ofNat 32 (s.trie.search s.srcByte s.p0 s.p1).2 } m opTrieMatch [] false
    rw [← hfound] at hsame ⊢
    exact hsame

theorem exec_jhCrypt_sameButDisturbed (s : State) (m : Memory) :
    ∃ t u, exec .jhCrypt s = .next t ∧ exec .jhCrypt (s.leftAlone m) = .next u ∧ SameButDisturbed s.srcDirty t u := by
  cases hv : s.validRegion s.src s.slen with
  | false =>
    exact ⟨_, _, exec_jhCrypt_invalid hv, exec_jhCrypt_invalid (s := s.leftAlone m) hv,
      s.raiseError_sameButDisturbed m _ _⟩
  | true =>
    obtain ⟨g, -, ht⟩ := exec_jhCrypt_valid hv
    obtain ⟨g', -, hu⟩ := exec_jhCrypt_valid (s := s.leftAlone m) hv
    exact ⟨_, _, ht, hu, State.succeed_sameButDisturbed { s with mem := g } g' _ _ _⟩

theorem exec_sameButDisturbed_of_writesDest {i : Instr} {s : State} {m : Memory} (hi : writesDest (opcodeOf i) = true)
    (hm : SameOperands s (s.leftAlone m)) :
    ∃ t u, exec i s = .next t ∧ exec i (s.leftAlone m) = .next u ∧ SameButDisturbed s.srcDirty t u := by
  obtain ⟨r, hend⟩ | ⟨out, stored, hend⟩ := exec_endsAlike hi s
  · exact ⟨_, _, hend s (.refl s), hend _ hm, s.raiseError_sameButDisturbed m _ r⟩
  · exact ⟨_, _, hend s (.refl s), hend _ hm, s.succeed_sameButDisturbed m _ out stored⟩

/-- A command the host has disturbed, and the same command left alone. -/
theorem exec_sameButDisturbed {i : Instr} {s : State} {m : Memory} (hi : isCommand i = true)
    (hm : SameOperands s (s.leftAlone m)) :
    ∃ t u, exec i s = .next t ∧ exec i (s.leftAlone m) = .next u ∧ SameButDisturbed s.srcDirty t u := by
  cases i with
  | trieInit => exact ⟨_, _, rfl, rfl, trieInitRun_sameButDisturbed s m⟩
  | trieAdd => exact ⟨_, _, rfl, rfl, trieAddRun_sameButDisturbed hm⟩
  | trieMatch => exact ⟨_, _, rfl, rfl, trieMatchRun_sameButDisturbed hm⟩
  | jhCrypt => exact exec_jhCrypt_sameButDisturbed s m
  | lobCompress | lobDecompress | xlobCompress | xlobDecompress | tlobCompress | tlobDecompress | deplode =>
    exact exec_sameButDisturbed_of_writesDest rfl hm
  | _ => cases hi

/-- Settles O17. What a command gives depends on its operands and its source as accepted (`exec_endsAlike`); a
disturbance only opens the registers that `State.retire` draws. -/
theorem sourceIsReadAsAccepted : Obligations.SourceIsReadAsAccepted := by
  refine ⟨fun s t a b op rest hin hstep hop hr => ?_, fun i s m hi hm => exec_sameButDisturbed hi (.leftAlone hm)⟩
  rw [step_memWrite hin] at hstep
  refine ⟨?_, ?_, fun k hk => State.hostWrite_srcByte (s := { s with inputs := rest }) hstep hop hr hk, ?_⟩
  · rw [State.hostWrite_next hstep]
    rfl
  · rw [State.hostWrite_next hstep]
    rfl
  · rw [State.hostWrite_next hstep, State.afterHostWrite_srcDirty,
      State.inActiveSource_eq (s := { s with inputs := rest }) hop hr]
    rfl

end Sys2Proof.Machine

/-! ### The engine's turns, one step each -/

namespace Sys2Proof.Machine

theorem core_run_succ {M : Host.Core} {s t : M.State} (h : M.step s = .next t) (k : Nat) :
    M.run (k + 1) s = M.run k t := by
  simp only [Host.Core.run, h]

theorem core_run_one {M : Host.Core} (s : M.State) : M.run 1 s = M.step s := by
  cases h : M.step s with
  | next t => exact core_run_succ h 0
  | fault r => simp only [Host.Core.run, h]
  | refused r => simp only [Host.Core.run, h]

/-- A command has ended, or it runs on with a working state that is `Good` and the engine next to move. -/
def GoesOn (Good : Work → Prop) (s : State) : Prop := s.work = .none ∨ EngineNext s ∧ Good s.work

/-- A working state of one kind. -/
def Work.OfKind {V : Type} (mk : V → Work) (w : Work) : Prop := ∃ v, w = mk v

/-- Where each turn is one step of the machine, steps reach what the loop reaches. -/
theorem exists_run_eq_takeTurns {Good : Work → Prop} {turn : State → State}
    (hturn : ∀ s, EngineNext s → s.work ≠ .none → Good s.work → step s = .next (turn s) ∧ GoesOn Good (turn s))
    (fuel : Nat) {s : State} (h : GoesOn Good s) :
    ∃ k, Sys2Proof.core.run k s = .next (takeTurns State.resting turn fuel s) := by
  induction fuel generalizing s with
  | zero => exact ⟨0, rfl⟩
  | succ fuel ih =>
    by_cases hw : s.work = .none
    · rw [takeTurns_stopped (s.resting_iff.2 hw)]
      exact ⟨0, rfl⟩
    · obtain ⟨hnext, hgood⟩ := h.resolve_left hw
      obtain ⟨hstep, hgoes⟩ := hturn s hnext hw hgood
      obtain ⟨k, hk⟩ := ih hgoes
      refine ⟨k + 1, ?_⟩
      rw [core_run_succ (M := Sys2Proof.core) hstep, hk, takeTurns_succ, if_neg (mt s.resting_iff.1 hw)]

theorem GoesOn.of_raiseError (Good : Work → Prop) (s : State) (op : Byte) (r : Raise) :
    GoesOn Good (s.raiseError op r) :=
  .inl (State.raiseError_work ..)

theorem GoesOn.of_succeed (Good : Work → Prop) (s : State) (op : Byte) (out : List Byte) (stored : Bool) :
    GoesOn Good (s.succeed op out stored) :=
  .inl (State.succeed_work ..)

theorem GoesOn.of_settle {Good : Work → Prop} {s : State} (h : EngineNext s) (op : Byte) {p : Progress}
    (hp : ∀ w, p = .running w → Good w) : GoesOn Good (s.settle op p) := by
  cases p with
  | raised r => exact .of_raiseError ..
  | finished out => exact .of_succeed ..
  | running w => exact .inr ⟨h, hp w rfl⟩

/-- On a running command, the step is what the engine does with what it fetches. -/
theorem step_running {s : State} (h : EngineNext s) (hw : s.work ≠ .none) : step s = runRunning s := by
  rw [step_engine h.1, engineTurn_running h hw]

/-! #### Compressors -/

theorem Parse.turn_goesOn {W : Type} (P : Parse W) {s : State} (h : EngineNext s) (hw : Work.OfKind P.work s.work) :
    GoesOn (Work.OfKind P.work) (P.turn s) := by
  obtain ⟨v, hv⟩ := hw
  have hs : s = { s with trie := s.trie, work := P.work v } := by rw [← hv]
  rw [hs]
  by_cases hp : P.pos v < s.slen
  · rw [P.turn_item s s.trie v hp]
    exact .inr ⟨h, _, rfl⟩
  · rw [P.turn_finish s s.trie v hp]
    exact .of_settle h _ fun w hr => absurd hr (s.checkCapacity_ne_running _ w)

/-- A compress command's loop, one step a turn, where a parse's turn is what the engine does with it. -/
theorem Parse.exists_run {W : Type} (P : Parse W)
    (hfetch : ∀ (s : State) v, s.work = P.work v → fetchRunning s = .internal (P.turn s))
    (fuel : Nat) {s : State} (h : GoesOn (Work.OfKind P.work) s) :
    ∃ k, Sys2Proof.core.run k s = .next (takeTurns State.resting P.turn fuel s) :=
  exists_run_eq_takeTurns (fun s hnext hw hgood => ⟨hgood.elim fun v hv => step_internal hnext hw (hfetch s v hv),
    P.turn_goesOn hnext hgood⟩) fuel h

theorem lobCompressBegin_goesOn {s : State} (h : EngineNext s) : GoesOn (Work.OfKind .lobEnc) (lobCompressBegin s) := by
  unfold lobCompressBegin
  split
  · exact .of_raiseError ..
  · split
    · split
      · exact .of_raiseError ..
      · exact .of_succeed ..
    · exact .inr ⟨h, _, rfl⟩

theorem xlobCompressBegin_goesOn {s : State} (h : EngineNext s) :
    GoesOn (Work.OfKind .xlobEnc) (xlobCompressBegin s) := by
  unfold xlobCompressBegin
  split
  · exact .of_raiseError ..
  · exact .inr ⟨h, _, rfl⟩

theorem tlobCompressBegin_goesOn {s : State} (h : EngineNext s) :
    GoesOn (Work.OfKind .tlobEnc) (tlobCompressBegin s) := by
  unfold tlobCompressBegin
  split
  · exact .of_raiseError ..
  · split
    · exact .of_raiseError ..
    · exact .inr ⟨h, _, rfl⟩

theorem exists_run_lobCompress {s : State} (h : EngineNext s) :
    ∃ k, Sys2Proof.core.run k (lobCompressBegin s) = exec .lobCompress s :=
  lobParse.exists_run (fun s v hv => by rw [fetchRunning, show s.work = .lobEnc v from hv]; rfl) _
    (lobCompressBegin_goesOn h)

theorem exists_run_xlobCompress {s : State} (h : EngineNext s) :
    ∃ k, Sys2Proof.core.run k (xlobCompressBegin s) = exec .xlobCompress s :=
  xlobParse.exists_run (fun s v hv => by rw [fetchRunning, show s.work = .xlobEnc v from hv]; rfl) _
    (xlobCompressBegin_goesOn h)

theorem exists_run_tlobCompress {s : State} (h : EngineNext s) :
    ∃ k, Sys2Proof.core.run k (tlobCompressBegin s) = exec .tlobCompress s :=
  tlobParse.exists_run (fun s v hv => by rw [fetchRunning, show s.work = .tlobEnc v from hv]; rfl) _
    (tlobCompressBegin_goesOn h)

/-! #### What a decoder's format lets it read -/

theorem decodeOneByte_token {mk : Byte → Instr} {bs : List Byte} {t : Instr} (h : decodeOneByte mk bs = .token t) :
    ∃ b, t = mk b := by
  unfold decodeOneByte at h
  split at h <;> cases h
  exact ⟨_, rfl⟩

theorem decodeTwoBytes_token {mk : Half → Instr} {bs : List Byte} {t : Instr} (h : decodeTwoBytes mk bs = .token t) :
    ∃ v, t = mk v := by
  unfold decodeTwoBytes at h
  split at h <;> cases h
  exact ⟨_, rfl⟩

/-- The tokens that an ExtendedLob stream may hold next (R63, R67). -/
def xlobAllows (reserved : Bool) : Instr → Bool
  | .xlobZrle _ | .xlobLitrun _ | .xlobSmatch _ _ | .xlobLrle _ _ | .xlobSlit _ => true
  | .xlobLmatchFirst _ _ _ _ => !reserved
  | .xlobLmatchSecond _ _ => reserved
  | _ => false

theorem decodeXlob_allowed {reserved : Bool} {bs : List Byte} {t : Instr} (h : decodeXlob reserved bs = .token t) :
    xlobAllows reserved t = true := by
  unfold decodeXlob at h
  split at h
  · cases h
  · split_ifs at h <;> cases h <;> rfl
  · split_ifs at h with _ _ _ hres <;> cases h
    · rfl
    · rfl
    · exact hres
    · rfl
  · split_ifs at h with hfirst
    cases h
    simp [xlobAllows, hfirst.2]
  · cases h

/-- The tokens that a TextLob stream may hold next, after its skip region (R70, R72). -/
def tlobAllows (reserved : Bool) : Instr → Bool
  | .tlobLit _ | .tlobZero | .tlobLong _ _ => true
  | .tlobShortFirst _ _ _ => !reserved
  | .tlobShortSecond _ => reserved
  | _ => false

theorem decodeTlob_allowed {reserved : Bool} {bs : List Byte} {t : Instr} (h : decodeTlob reserved bs = .token t) :
    tlobAllows reserved t = true := by
  unfold decodeTlob at h
  split at h
  · cases h
  · split_ifs at h with _ hres <;> cases h
    · exact hres
    · rfl
    · rfl
  · split_ifs at h with hfirst <;> cases h
    · simp [tlobAllows, hfirst.2]
    · rfl
  · cases h

/-! #### LOB_DECOMPRESS -/

/-- A running LOB_DECOMPRESS inside a block of 8 items, or between two. -/
def LobDecInBlock (w : Work) : Prop := ∃ v : LobDec, w = .lobDec v ∧ v.k ≤ 8

theorem onLobDec_eq {s : State} {w : LobDec} {here : LobDec → Bool} (f : LobDec → Result LobDec)
    (hw : s.work = .lobDec w) (hh : here w = true) :
    onLobDec here f s = .next (s.settle opLobDecompress (LobDec.progress s.p0 (f w))) := by
  rw [onLobDec, hw]
  exact if_pos hh

/-- What a Lob stream holds next is the unit that its decoder stands before (R61). -/
theorem LobDec.token_cases {w : LobDec} (hk : w.k ≤ 8) {bs : List Byte} {t : Instr}
    (h : decodeBytes w.format bs = .token t) :
    (∃ c, t = .lobCtrl c ∧ w.awaitsControl = true)
      ∨ (∃ b, t = .lobLit b ∧ w.awaitsLiteral = true)
      ∨ ∃ l d, t = .lobMatch l d ∧ w.awaitsMatch = true := by
  unfold LobDec.format at h
  split at h
  · next hc =>
    obtain ⟨c, rfl⟩ := decodeOneByte_token h
    exact .inl ⟨c, rfl, hc⟩
  · next hc =>
    have hk8 : w.k < 8 := lt_of_le_of_ne hk (by simpa [LobDec.awaitsControl] using hc)
    split at h
    · next hbit =>
      obtain ⟨b, rfl⟩ := decodeOneByte_token h
      exact .inr (.inl ⟨b, rfl, by simp [LobDec.awaitsLiteral, hk8, hbit]⟩)
    · next hbit =>
      rw [decodeBytes] at h
      obtain ⟨v, rfl⟩ := decodeTwoBytes_token h
      exact .inr (.inr ⟨_, _, rfl, by simp [LobDec.awaitsMatch, hk8, hbit]⟩)

/-- The unit that a Lob stream holds next runs as its effect (R61, R91). -/
theorem exec_lobToken {s : State} {w : LobDec} (hw : s.work = .lobDec w) (hk : w.k ≤ 8) {bs : List Byte} {t : Instr}
    (h : decodeBytes w.format bs = .token t) :
    exec t s = .next (s.settle opLobDecompress (LobDec.progress s.p0 (w.apply s.p0 t))) := by
  obtain ⟨c, rfl, hc⟩ | ⟨b, rfl, hb⟩ | ⟨l, d, rfl, hm⟩ := LobDec.token_cases hk h
  · exact onLobDec_eq _ hw hc
  · exact onLobDec_eq _ hw hb
  · exact onLobDec_eq _ hw hm

/-- A Lob unit leaves the decoder inside a block of 8 items, or between two (R91). -/
theorem LobDec.apply_k {limit : Nat} {w v : LobDec} (hk : w.k ≤ 8) {bs : List Byte} {t : Instr}
    (h : decodeBytes w.format bs = .token t) (hv : w.apply limit t = .ok v) : v.k ≤ 8 := by
  obtain ⟨c, rfl, -⟩ | ⟨b, rfl, hb⟩ | ⟨l, d, rfl, hm⟩ := LobDec.token_cases hk h
  · cases hv
    exact Nat.zero_le _
  · cases hv
    simp only [LobDec.awaitsLiteral, Bool.and_eq_true, decide_eq_true_eq] at hb
    exact hb.1
  · simp only [LobDec.awaitsMatch, Bool.and_eq_true, decide_eq_true_eq] at hm
    simp only [LobDec.apply, LobDec.copy] at hv
    split at hv
    · cases hv
    · cases hv
      exact hm.1

theorem LobDec.fetch_decodes {S : Nat → Byte} {n : Nat} {w v : LobDec} {t : Instr}
    (h : w.fetch S n = .ok (some (t, v))) :
    v.k = w.k ∧ ∃ bs, decodeBytes v.format bs = .token t := by
  unfold LobDec.fetch at h
  split at h
  · cases h
  · cases h
  · next hf =>
    cases h
    exact ⟨rfl, fetchToken_decodes hf⟩

/-- A turn of LOB_DECOMPRESS is one step of the machine. -/
theorem lobDecTurn_step {s : State} (h : EngineNext s) (hw : LobDecInBlock s.work) :
    step s = .next (lobDecTurn s) ∧ GoesOn LobDecInBlock (lobDecTurn s) := by
  obtain ⟨w, hw, hk⟩ := hw
  have hstep : step s = runRunning s := step_running h (by simp [hw])
  rw [hstep, lobDecTurn_eq hw, LobDec.turnProgress]
  simp only [runRunning, fetchRunning, hw]
  obtain ⟨r, hf⟩ | ⟨t, j, hf, -⟩ := w.fetch_cases s.srcByte s.slen
  · simp only [hf]
    exact ⟨rfl, .of_raiseError ..⟩
  · obtain ⟨hkv, bs, hbs⟩ := LobDec.fetch_decodes hf
    rw [← hkv] at hk
    simp only [hf]
    refine ⟨?_, .of_settle h _ fun w' hr => ?_⟩
    · rw [exec_lobToken rfl hk hbs, State.settle_work]
      rfl
    · unfold LobDec.progress at hr
      split at hr
      · cases hr
      · next hv =>
        split at hr
        · cases hr
        · cases hr
          exact ⟨_, rfl, LobDec.apply_k hk hbs hv⟩

theorem lobDecompressBegin_goesOn {s : State} (h : EngineNext s) : GoesOn LobDecInBlock (lobDecompressBegin s) := by
  unfold lobDecompressBegin
  split
  · exact .of_raiseError ..
  · split
    · exact .of_raiseError ..
    · split
      · split
        · exact .of_raiseError ..
        · exact .of_succeed ..
      · exact .inr ⟨h, _, rfl, Nat.le_refl 8⟩

theorem exists_run_lobDecompress {s : State} (h : EngineNext s) :
    ∃ k, Sys2Proof.core.run k (lobDecompressBegin s) = exec .lobDecompress s :=
  exists_run_eq_takeTurns (fun _ hnext _ hgood => lobDecTurn_step hnext hgood) _ (lobDecompressBegin_goesOn h)

/-! #### XLOB_DECOMPRESS -/

/-- The token that an ExtendedLob stream holds next runs as its effect (R63, R103). -/
theorem exec_xlobToken {s : State} {w : XlobDec} (hw : s.work = .xlobDec w) {t : Instr}
    (ht : xlobAllows w.res.isSome t = true) :
    exec t s = .next (s.settle opXlobDecompress (XlobDec.progress s.p0 (w.apply s.p0 s.srcByte s.slen t))) := by
  cases t with
  | xlobZrle _ | xlobLitrun _ | xlobSmatch _ _ | xlobLrle _ _ | xlobSlit _ => exact onXlobDec_eq _ hw rfl
  | xlobLmatchFirst _ _ _ _ => exact onXlobDec_eq _ hw (by simpa [xlobAllows] using ht)
  | xlobLmatchSecond _ _ => exact onXlobDec_eq _ hw ht
  | _ => cases ht

theorem XlobDec.fetch_allowed {S : Nat → Byte} {n : Nat} {w v : XlobDec} {t : Instr}
    (h : w.fetch S n = .ok (some (t, v))) : xlobAllows v.res.isSome t = true := by
  unfold XlobDec.fetch at h
  split at h
  · cases h
  · cases h
  · next hf =>
    cases h
    obtain ⟨bs, hbs⟩ := fetchToken_decodes hf
    exact decodeXlob_allowed hbs

theorem XlobDec.progress_running {limit : Nat} {r : Result XlobDec} {w : Work}
    (h : XlobDec.progress limit r = .running w) : Work.OfKind .xlobDec w := by
  unfold XlobDec.progress at h
  split at h
  · cases h
  · split at h
    · cases h
    · cases h
      exact ⟨_, rfl⟩

/-- A turn of XLOB_DECOMPRESS is one step of the machine. -/
theorem xlobDecTurn_step {s : State} (h : EngineNext s) (hw : Work.OfKind .xlobDec s.work) :
    step s = .next (xlobDecTurn s) ∧ GoesOn (Work.OfKind .xlobDec) (xlobDecTurn s) := by
  obtain ⟨w, hw⟩ := hw
  have hstep : step s = runRunning s := step_running h (by simp [hw])
  rw [hstep, xlobDecTurn_eq hw, XlobDec.turnProgress]
  simp only [runRunning, fetchRunning, hw]
  obtain ⟨r, hf⟩ | ⟨t, j, hf, -⟩ := w.fetch_cases s.srcByte s.slen
  · simp only [hf]
    exact ⟨rfl, .of_raiseError ..⟩
  · have hallowed := XlobDec.fetch_allowed hf
    simp only [hf]
    refine ⟨?_, .of_settle h _ fun _ hr => XlobDec.progress_running hr⟩
    rw [exec_xlobToken rfl hallowed, State.settle_work]
    rfl

theorem xlobDecompressBegin_goesOn {s : State} (h : EngineNext s) :
    GoesOn (Work.OfKind .xlobDec) (xlobDecompressBegin s) := by
  unfold xlobDecompressBegin
  split
  · exact .of_raiseError ..
  · split
    · exact .of_raiseError ..
    · exact .of_settle h _ fun _ hr => XlobDec.progress_running hr

theorem exists_run_xlobDecompress {s : State} (h : EngineNext s) :
    ∃ k, Sys2Proof.core.run k (xlobDecompressBegin s) = exec .xlobDecompress s :=
  exists_run_eq_takeTurns (fun _ hnext _ hgood => xlobDecTurn_step hnext hgood) _ (xlobDecompressBegin_goesOn h)

/-! #### TLOB_DECOMPRESS -/

/-- The unit that a TextLob stream holds next runs as its effect (R70, R118). -/
theorem exec_tlobToken {s : State} {w : TlobDec} (hw : s.work = .tlobDec w) {bs : List Byte} {t : Instr}
    (h : decodeBytes w.format bs = .token t) :
    exec t s = .next (s.settle opTlobDecompress (TlobDec.progress s.p0 (w.apply s.p0 s.srcByte s.slen t))) := by
  cases hs : w.skipped with
  | false =>
    obtain ⟨k, rfl⟩ := TlobDec.token_skip hs h
    exact onTlobDec_eq _ hw (by simp [hs])
  | true =>
    rw [TlobDec.format, hs] at h
    have ht : tlobAllows w.res.isSome t = true := decodeTlob_allowed h
    cases t with
    | tlobLit _ | tlobZero | tlobLong _ _ => exact onTlobDec_eq _ hw hs
    | tlobShortFirst _ _ _ => exact onTlobDec_eq _ hw (by simpa [tlobAllows, hs] using ht)
    | tlobShortSecond _ => exact onTlobDec_eq _ hw (by simpa [tlobAllows, hs] using ht)
    | _ => cases ht

theorem TlobDec.progress_running {limit : Nat} {r : Result TlobDec} {w : Work}
    (h : TlobDec.progress limit r = .running w) : Work.OfKind .tlobDec w := by
  unfold TlobDec.progress at h
  split at h
  · cases h
  · split at h
    · cases h
    · cases h
      exact ⟨_, rfl⟩

/-- A turn of TLOB_DECOMPRESS is one step of the machine. -/
theorem tlobDecTurn_step {s : State} (h : EngineNext s) (hw : Work.OfKind .tlobDec s.work) :
    step s = .next (tlobDecTurn s) ∧ GoesOn (Work.OfKind .tlobDec) (tlobDecTurn s) := by
  obtain ⟨w, hw⟩ := hw
  have hstep : step s = runRunning s := step_running h (by simp [hw])
  rw [hstep, tlobDecTurn_eq hw, TlobDec.turnProgress]
  simp only [runRunning, fetchRunning, hw]
  obtain ⟨r, hf⟩ | ⟨t, j, hf, -, -, bs, hbs⟩ := w.fetch_cases s.srcByte s.slen
  · simp only [hf]
    exact ⟨rfl, .of_raiseError ..⟩
  · simp only [hf]
    refine ⟨?_, .of_settle h _ fun _ hr => TlobDec.progress_running hr⟩
    rw [exec_tlobToken (w := { w with i := j, tok := w.i }) rfl hbs, State.settle_work]
    rfl

theorem tlobDecompressBegin_goesOn {s : State} (h : EngineNext s) :
    GoesOn (Work.OfKind .tlobDec) (tlobDecompressBegin s) := by
  unfold tlobDecompressBegin
  split
  · exact .of_raiseError ..
  · split
    · exact .of_raiseError ..
    · exact .inr ⟨h, _, rfl⟩

theorem exists_run_tlobDecompress {s : State} (h : EngineNext s) :
    ∃ k, Sys2Proof.core.run k (tlobDecompressBegin s) = exec .tlobDecompress s :=
  exists_run_eq_takeTurns (fun _ hnext _ hgood => tlobDecTurn_step hnext hgood) _ (tlobDecompressBegin_goesOn h)

/-! #### DEPLODE -/

/-- A code that has an effect where DEPLODE stands runs as that effect (R131). -/
theorem exec_depCode {s : State} {w : Dep} (hw : s.work = .dep w) {i : Instr} {r : Result Dep}
    (hr : w.apply i = some r) : exec i s = .next (s.settle opDeplode (Dep.progress r)) := by
  have hi : formatOf i = .depSelLen ∨ formatOf i = .depLitLen ∨ formatOf i = .depDist := by
    cases i with
    | depSellen0 | depSellen10 | depSellen110 | depSellen1110 | depSellen11110 _ | depSellen11111 => exact .inl rfl
    | depLitlen0 | depLitlen10 | depLitlen11 => exact .inr (.inl rfl)
    | depDist0 | depDist10 | depDist11 => exact .inr (.inr rfl)
    | _ => cases hr
  rw [exec_eq_onDep hi, onDep, hw]
  simp only [hr]

theorem Dep.runProgress_running {v : Dep} {w : Work} (h : v.runProgress = .running w) : Work.OfKind .dep w := by
  unfold Dep.runProgress at h
  split at h
  · cases h
  · split at h
    · split at h <;> cases h
    · cases h
      exact ⟨_, rfl⟩

/-- A turn of DEPLODE is one step of the machine. -/
theorem depTurn_step {s : State} (h : EngineNext s) (hw : Work.OfKind .dep s.work) :
    step s = .next (depTurn s) ∧ GoesOn (Work.OfKind .dep) (depTurn s) := by
  obtain ⟨w, hw⟩ := hw
  have hstep : step s = runRunning s := step_running h (by simp [hw])
  rw [hstep, depTurn_eq hw, Dep.turnProgress]
  cases hf : w.phase.format with
  | none =>
    have hturn : depTurn s = s.settle opDeplode w.runProgress := by
      rw [depTurn_eq hw, Dep.turnProgress, hf]
    simp only [runRunning, fetchRunning, hw, hf, hturn]
    exact ⟨trivial, .of_settle h _ fun _ hr => Dep.runProgress_running hr⟩
  | some f =>
    simp only [runRunning, fetchRunning, hw, hf]
    have hsome := Dep.readCode_ne_none hf maxCodeBits [] w (decodeBits_nil hf) (Nat.le_refl _)
    cases hc : Dep.readCode f maxCodeBits [] w with
    | error r => exact ⟨rfl, .of_raiseError ..⟩
    | ok o =>
      cases o with
      | none => exact absurd hc hsome
      | some q =>
        obtain ⟨i, v⟩ := q
        obtain ⟨-, hphase, bs, hbs⟩ := Dep.readCode_readsTo hc
        obtain ⟨r, hr, -⟩ := Dep.apply_answers (hphase ▸ hf) hbs
        simp only [hr]
        refine ⟨?_, .of_settle h _ fun w' hw' => ?_⟩
        · rw [exec_depCode rfl hr, State.settle_work]
        · cases r with
          | error r => cases hw'
          | ok u =>
            cases hw'
            exact ⟨u, rfl⟩

theorem deplodeBegin_goesOn {s : State} (h : EngineNext s) : GoesOn (Work.OfKind .dep) (deplodeBegin s) := by
  unfold deplodeBegin
  split
  · exact .of_raiseError ..
  · split
    · exact .of_raiseError ..
    · split
      · exact .of_raiseError ..
      · split
        · exact .of_raiseError ..
        · exact .inr ⟨h, _, rfl⟩

theorem exists_run_deplode {s : State} (h : EngineNext s) :
    ∃ k, Sys2Proof.core.run k (deplodeBegin s) = exec .deplode s :=
  exists_run_eq_takeTurns (fun _ hnext _ hgood => depTurn_step hnext hgood) _ (deplodeBegin_goesOn h)

/-! #### JH_CRYPT -/

/-- A turn of JH_CRYPT is one step of the machine. -/
theorem jhTurn_step {s : State} (h : EngineNext s) (hw : Work.OfKind .jh s.work) :
    step s = .next (jhTurn s) ∧ GoesOn (Work.OfKind .jh) (jhTurn s) := by
  obtain ⟨w, hw⟩ := hw
  have hstep : step s = runRunning s := step_running h (by simp [hw])
  rw [hstep]
  simp only [runRunning, fetchRunning, jhTurn, hw, exec, execJhWord]
  refine ⟨trivial, ?_⟩
  obtain ⟨-, hlast⟩ | ⟨-, hnext⟩ := jhWordStep_cases s w (w.word s.srcByte s.slen)
  · rw [hlast]
    exact .of_succeed ..
  · rw [hnext]
    exact .inr ⟨h, _, rfl⟩

theorem jhCryptBegin_goesOn {s : State} (h : EngineNext s) : GoesOn (Work.OfKind .jh) (jhCryptBegin s) := by
  unfold jhCryptBegin
  split
  · exact .of_raiseError ..
  · split
    · exact .of_succeed ..
    · exact .inr ⟨h, _, rfl⟩

theorem exists_run_jhCrypt {s : State} (h : EngineNext s) :
    ∃ k, Sys2Proof.core.run k (jhCryptBegin s) = exec .jhCrypt s :=
  exists_run_eq_takeTurns (fun _ hnext _ hgood => jhTurn_step hnext hgood) _ (jhCryptBegin_goesOn h)

/-! #### Every command -/

/-- An accepted command that is begun and no more takes its first step (log entry 4). -/
theorem Accepted.step_begin {s : State} (h : Accepted s) (hr : s.response = .none) {i : Instr}
    (hd : decodeCommand s.cmd = .token i) : step { s with inputs := [.engineBegin] } = beginInstr i s := by
  obtain ⟨⟨hin, hrst, hbusy⟩, hw⟩ := h
  have hs : { s with inputs := [], response := .none } = s := by rw [← hin, ← hr]
  exact (step_beginning (s := { s with inputs := [.engineBegin] }) ⟨rfl, hrst, hbusy, hw, hd⟩).trans
    (congrArg (beginInstr i) hs)

/-- Settles O14. The first step begins the command; from then on each step is a turn of the loop that `exec` runs
(`exists_run_eq_takeTurns`). A command without a stream is complete at its first step. -/
theorem tokenByTokenRunAgrees : Obligations.TokenByTokenRunAgrees := by
  intro i s h hr hd
  have hfirst := h.step_begin hr hd
  have stream {b : State} (hb : beginInstr i s = .next b) (hrun : ∃ k, Sys2Proof.core.run k b = exec i s) :
      ∃ k, Sys2Proof.core.run k { s with inputs := [.engineBegin] } = exec i s := by
    obtain ⟨k, hk⟩ := hrun
    exact ⟨k + 1, (core_run_succ (M := Sys2Proof.core) (s := { s with inputs := [.engineBegin] }) (t := b)
      (hfirst.trans hb) k).trans hk⟩
  cases i with
  | lobCompress => exact stream rfl (exists_run_lobCompress h.1)
  | lobDecompress => exact stream rfl (exists_run_lobDecompress h.1)
  | xlobCompress => exact stream rfl (exists_run_xlobCompress h.1)
  | xlobDecompress => exact stream rfl (exists_run_xlobDecompress h.1)
  | tlobCompress => exact stream rfl (exists_run_tlobCompress h.1)
  | tlobDecompress => exact stream rfl (exists_run_tlobDecompress h.1)
  | deplode => exact stream rfl (exists_run_deplode h.1)
  | jhCrypt => exact stream rfl (exists_run_jhCrypt h.1)
  | _ => exact ⟨1, (core_run_one (M := Sys2Proof.core) _).trans hfirst⟩

end Sys2Proof.Machine

/-! ### Decoding what the encoder writes -/

namespace Sys2Proof.Machine

theorem decodeCommand_encode {i : Instr} (h : formatOf i = .command) : decode .command (encode i) = .token i := by
  cases i with
  | trieInit | trieAdd | trieMatch | lobCompress | lobDecompress | xlobCompress | xlobDecompress | tlobCompress
  | tlobDecompress | deplode | jhCrypt | reservedAdvlobCompress | reservedAdvlobDecompress => rfl
  | _ => cases h

theorem decodeTwoBytes_bytesOfHalf (mk : Half → Instr) (w : Half) :
    decodeTwoBytes mk (bytesOfHalf w) = .token (mk w) := by
  simp [bytesOfHalf, decodeTwoBytes]

/-- Every token that an ExtendedLob stream may hold next decodes from its encoding (R63 to R69). The run tokens append
to any output; a match token decodes even where it has no output to copy from. -/
theorem decodeXlob_encode {res : Option (BitVec 4)} {i : Instr} (ha : xlobAllows res.isSome i = true)
    (hwf : i.wellFormed = true) : decode (.xlob res.isSome) (encode i) = .token i := by
  cases i with
  | xlobZrle _ | xlobLitrun _ | xlobLrle _ _ | xlobSlit _ =>
    exact (xlob_readsAs (res := res) (out := []) (lits := []) rfl hwf).token
  | xlobSmatch l d =>
    have hclass := class_smatch l d
    obtain ⟨h0, -⟩ := class_large hclass (by decide)
    obtain ⟨hl, hd⟩ := smatch_fields l d
    simp only [encode, decode, decodeBytes, bytesOfHalf, decodeXlob]
    rw [if_neg h0, if_pos hclass, hl, hd]
  | xlobLmatchFirst a b n q =>
    have hres : res.isSome = false := by simpa [xlobAllows] using ha
    obtain ⟨hn, hq⟩ := nibbles n q
    simp only [encode, decode, decodeBytes, decodeXlob]
    rw [if_pos ⟨class_header 5 a, hres⟩, field_header, hn, hq]
  | xlobLmatchSecond a b =>
    have hclass := class_header 5 a
    obtain ⟨h0, -⟩ := class_large hclass (by decide)
    simp only [encode, decode, decodeBytes, decodeXlob]
    rw [if_neg h0, hclass, if_neg (by decide), if_pos rfl, if_pos (show res.isSome = true from ha), field_header]
  | _ => cases ha

/-- A TextLob token can append to a long enough output, since its distance is at least 3 (R71 to R73). -/
theorem exists_tlobAppends {res : Option (BitVec 4)} {i : Instr} (h : tlobAllows res.isSome i = true) :
    ∃ out r, tlobAppends res out i [] = some r := by
  have hcopy {d : Nat} (l : Nat) (h1 : 1 ≤ d) : ∃ bs, copied (List.replicate d 0) d l = some bs :=
    ⟨_, if_pos ⟨h1, List.length_replicate.ge⟩⟩
  cases i with
  | tlobLit _ | tlobZero => exact ⟨[], _, rfl⟩
  | tlobShortFirst f g r =>
    obtain rfl : res = none := by simpa [tlobAllows] using h
    obtain ⟨bs, hbs⟩ := hcopy (d := f.toNat * 16 + g.toNat + 3) 2 (by omega)
    exact ⟨_, _, by rw [tlobAppends, if_pos rfl, hbs]; rfl⟩
  | tlobShortSecond f =>
    obtain ⟨g, rfl⟩ := Option.isSome_iff_exists.1 h
    obtain ⟨bs, hbs⟩ := hcopy (d := f.toNat * 16 + g.toNat + 3) 2 (by omega)
    exact ⟨_, _, by rw [tlobAppends, Option.bind_some, hbs]; rfl⟩
  | tlobLong f l =>
    obtain ⟨bs, hbs⟩ := hcopy (d := f.toNat + 3) (l.toNat + 3) (by omega)
    exact ⟨_, _, by rw [tlobAppends, hbs]; rfl⟩
  | _ => cases h

/-- Every token that a TextLob stream may hold next decodes from its encoding (R71 to R73). -/
theorem decodeTlob_encode {res : Option (BitVec 4)} {i : Instr} (ha : tlobAllows res.isSome i = true)
    (hwf : i.wellFormed = true) : decode (.tlob res.isSome) (encode i) = .token i := by
  obtain ⟨_, _, happ⟩ := exists_tlobAppends ha
  have htoken := (tlob_readsAs happ hwf).token
  cases i with
  | tlobLit _ | tlobZero | tlobShortFirst _ _ _ | tlobShortSecond _ | tlobLong _ _ => exact htoken
  | _ => cases ha

theorem ofBool_getLsbD (x : BitVec 3) :
    BitVec.ofBool (x.getLsbD 2) ++ BitVec.ofBool (x.getLsbD 1) ++ BitVec.ofBool (x.getLsbD 0) = x := by
  revert x
  decide

/-- Settles O1, format by format: a Lob item and a JH word are one or two bytes, a code of DEPLODE is read bit by bit,
and a token that leaves the reservation alone decodes whether it is open or not (`decodeXlob_encode`,
`decodeTlob_encode`). -/
theorem decodeUndoesEncode : Obligations.DecodeUndoesEncode := by
  refine ⟨fun i hwf => ?_, fun i hwf hf hne => ?_, fun i hwf hf hne => ?_⟩
  · cases i with
    | trieInit | trieAdd | trieMatch | lobCompress | lobDecompress | xlobCompress | xlobDecompress | tlobCompress
    | tlobDecompress | deplode | jhCrypt | reservedAdvlobCompress | reservedAdvlobDecompress =>
      exact decodeCommand_encode rfl
    | lobCtrl _ | lobLit _ | tlobSkip _ => rfl
    | lobMatch l d =>
      refine (decodeTwoBytes_bytesOfHalf (fun t => .lobMatch (t.extractLsb' 12 4) (t.extractLsb' 0 12))
        (l ++ d)).trans ?_
      rw [BitVec.extractLsb'_append_eq_left, BitVec.extractLsb'_append_eq_right]
    | xlobZrle _ | xlobLitrun _ | xlobSmatch _ _ | xlobLmatchFirst _ _ _ _ | xlobLrle _ _ | xlobSlit _ =>
      exact decodeXlob_encode (res := none) rfl hwf
    | xlobLmatchSecond _ _ => exact decodeXlob_encode (res := some 0) rfl hwf
    | tlobLit _ | tlobZero | tlobShortFirst _ _ _ | tlobLong _ _ => exact decodeTlob_encode (res := none) rfl hwf
    | tlobShortSecond _ => exact decodeTlob_encode (res := some 0) rfl hwf
    | depSellen11110 x => exact congrArg (fun y => Decoded.token (.depSellen11110 y)) (ofBool_getLsbD x)
    | depSellen0 | depSellen10 | depSellen110 | depSellen1110 | depSellen11111 | depLitlen0 | depLitlen10 | depLitlen11
    | depDist0 | depDist10 | depDist11 => rfl
    | jhWord w => exact decodeTwoBytes_bytesOfHalf _ w
  · refine decodeXlob_encode (res := some 0) ?_ hwf
    cases i with
    | xlobLmatchFirst h b n r => exact absurd rfl (hne h b n r)
    | xlobZrle _ | xlobLitrun _ | xlobSmatch _ _ | xlobLrle _ _ | xlobSlit _ => rfl
    | _ => cases hf
  · refine decodeTlob_encode (res := some 0) ?_ hwf
    cases i with
    | tlobShortFirst f g r => exact absurd rfl (hne f g r)
    | tlobLit _ | tlobZero | tlobLong _ _ => rfl
    | _ => cases hf

end Sys2Proof.Machine

/-! ### Encoding what the decoders accept -/

namespace Sys2Proof.Machine

/-- A byte whose high bits are known is those bits followed by the others. -/
theorem append_of_high {m n : Nat} {x : BitVec (m + n)} {p : BitVec m} (hp : x.extractLsb' n m = p) :
    p ++ x.extractLsb' 0 n = x :=
  hp ▸ BitVec.extractLsb'_append_extractLsb'

theorem bytesOfHalf_be16 (b0 b1 : Byte) : bytesOfHalf (be16 b0 b1) = [b0, b1] := by
  have h0 : highByte (be16 b0 b1) = b0 := BitVec.extractLsb'_append_eq_left
  have h1 : lowByte (be16 b0 b1) = b1 := BitVec.extractLsb'_append_eq_right
  rw [bytesOfHalf, h0, h1]

/-- A word of two bytes is the encoding of a token with that value. -/
theorem bytesOfHalf_of_toNat {w : Half} {b0 b1 : Byte} (h : w.toNat = b0.toNat * 256 + b1.toNat) :
    bytesOfHalf w = [b0, b1] := by
  have hw : w = be16 b0 b1 := BitVec.eq_of_toNat_eq (h.trans (toNat_append_eq b0 b1).symm)
  rw [hw, bytesOfHalf_be16]

/-- An instruction stands for an encoding: it is well formed, and those units are its own. -/
def StandsFor (i : Instr) (c : Code) : Prop := i.wellFormed = true ∧ encode i = c

/-- One row of the opcode table: the opcode is that row's, or the rows after it name the instruction. -/
theorem StandsFor.of_row {op rowOp : Byte} {row i : Instr} {rows : Option Instr}
    (hrow : StandsFor row (.word (commandWord rowOp)))
    (hrows : rows = some i → StandsFor i (.word (commandWord op)))
    (h : (if op = rowOp then some row else rows) = some i) : StandsFor i (.word (commandWord op)) := by
  split at h
  · next hop =>
    cases h
    exact hop ▸ hrow
  · exact hrows h

theorem instrOfOpcode_standsFor {op : Byte} {i : Instr} (h : instrOfOpcode op = some i) :
    StandsFor i (.word (commandWord op)) := by
  unfold instrOfOpcode at h
  iterate 13 refine .of_row ⟨rfl, rfl⟩ (fun h => ?_) h
  cases h

theorem decodeCommand_standsFor {w : Word} {i : Instr} (h : decodeCommand w = .token i) : StandsFor i (.word w) := by
  unfold decodeCommand at h
  split at h
  · next hzero =>
    split at h
    · next hop =>
      cases h
      have hw : commandWord (w.extractLsb' 0 8) = w := append_of_high (m := 24) (n := 8) hzero
      exact hw ▸ instrOfOpcode_standsFor hop
    · cases h
  · cases h

theorem decodeOneByte_eq_token {mk : Byte → Instr} {bs : List Byte} {i : Instr} (h : decodeOneByte mk bs = .token i) :
    ∃ b, i = mk b ∧ bs = [b] := by
  unfold decodeOneByte at h
  split at h <;> cases h
  exact ⟨_, rfl, rfl⟩

theorem decodeTwoBytes_eq_token {mk : Half → Instr} {bs : List Byte} {i : Instr}
    (h : decodeTwoBytes mk bs = .token i) : ∃ w, i = mk w ∧ bs = bytesOfHalf w := by
  unfold decodeTwoBytes at h
  split at h <;> cases h
  exact ⟨_, rfl, (bytesOfHalf_be16 ..).symm⟩

/-- A byte of an ExtendedLob class as a number. -/
theorem class_toNat (h : Byte) : (h.extractLsb' 5 3).toNat = h.toNat / 32 := by
  rw [BitVec.extractLsb'_toNat, Nat.shiftRight_eq_div_pow]
  omega

/-- A small match's fields make up its two bytes (R66). -/
theorem smatch_bytes {h : Byte} (b : Byte) (hclass : h.extractLsb' 5 3 = 4) :
    bytesOfHalf ((4 : BitVec 3) ++ h.extractLsb' 1 4 ++ (h.extractLsb' 0 1 ++ b)) = [h, b] := by
  have hdiv : h.toNat / 32 = 4 := by rw [← class_toNat, hclass]; rfl
  refine bytesOfHalf_of_toNat ?_
  rw [smatchWord_toNat, toNat_append_eq, BitVec.extractLsb'_toNat, BitVec.extractLsb'_toNat,
    Nat.shiftRight_eq_div_pow, Nat.shiftRight_eq_div_pow]
  omega

theorem decodeXlob_standsFor {reserved : Bool} {bs : List Byte} {i : Instr} (h : decodeXlob reserved bs = .token i) :
    StandsFor i (.bytes bs) := by
  unfold decodeXlob at h
  split at h
  · cases h
  · next a =>
    split_ifs at h with h0 hrun hlit <;> cases h
    · have ha : (0 : BitVec 1) ++ a.extractLsb' 0 7 = a := append_of_high (m := 1) (n := 7) hrun
      refine ⟨?_, congrArg (fun x => Code.bytes [x]) ha⟩
      simp only [Instr.wellFormed, bne_iff_ne, ne_eq]
      intro hn
      exact h0 (ha.symm.trans (by rw [hn]; rfl))
    · exact ⟨rfl, congrArg (fun x => Code.bytes [x]) (append_of_high (m := 3) (n := 5) hlit)⟩
  · next a b =>
    split_ifs at h with h0 hsmall hlarge hres hrun <;> cases h
    · exact ⟨rfl, by rw [h0]; rfl⟩
    · exact ⟨rfl, congrArg Code.bytes (smatch_bytes b hsmall)⟩
    · exact ⟨rfl, congrArg (fun x => Code.bytes [x, b]) (append_of_high (m := 3) (n := 5) hlarge)⟩
    · exact ⟨rfl, congrArg (fun x => Code.bytes [x, b]) (append_of_high (m := 3) (n := 5) hrun)⟩
  · next a b q =>
    split_ifs at h with hlarge
    cases h
    refine ⟨rfl, ?_⟩
    have ha : (5 : BitVec 3) ++ a.extractLsb' 0 5 = a := append_of_high (m := 3) (n := 5) hlarge.1
    have hq : q.extractLsb' 4 4 ++ q.extractLsb' 0 4 = q := append_of_high (m := 4) (n := 4) rfl
    rw [encode, ha, hq]
  · cases h

/-- A literal's high nibble is neither 0 nor 1, so that it is at least 0x20 (R71). -/
theorem le_of_high_nibble {b : Byte} (h0 : b.extractLsb' 4 4 ≠ 0) (h1 : b.extractLsb' 4 4 ≠ 1) : 0x20 ≤ b.toNat := by
  obtain ⟨hhigh, -⟩ := nibbles_toNat b
  have hne {x : BitVec 4} (hx : b.extractLsb' 4 4 ≠ x) : b.toNat / 16 ≠ x.toNat := fun he =>
    hx (BitVec.eq_of_toNat_eq (hhigh.trans he))
  have hz : b.toNat / 16 ≠ 0 := hne h0
  have ho : b.toNat / 16 ≠ 1 := hne h1
  omega

/-- A long match's fields make up its two bytes, and stay below those of the zero escape (R73). -/
theorem long_bytes {b : Byte} (c : Byte) (h1 : b.extractLsb' 4 4 = 1) (h15 : b.extractLsb' 0 4 ≠ 15) :
    (b.extractLsb' 0 4 ++ c.extractLsb' 3 5).toNat ≤ 479
      ∧ bytesOfHalf ((1 : BitVec 4) ++ (b.extractLsb' 0 4 ++ c.extractLsb' 3 5) ++ c.extractLsb' 0 3) = [b, c] := by
  obtain ⟨hhigh, hlow⟩ := nibbles_toNat b
  rw [h1] at hhigh
  have hne : b.toNat % 16 ≠ 15 := fun he => h15 (BitVec.eq_of_toNat_eq (hlow.trans he))
  have hf : (b.extractLsb' 0 4 ++ c.extractLsb' 3 5).toNat = b.toNat % 16 * 32 + c.toNat / 8 := by
    have := c.isLt
    rw [toNat_append_eq, hlow, BitVec.extractLsb'_toNat, Nat.shiftRight_eq_div_pow]
    omega
  have hone : b.toNat / 16 = 1 := hhigh.symm
  refine ⟨by have := c.isLt; omega, bytesOfHalf_of_toNat ?_⟩
  rw [longWord_toNat, hf, BitVec.extractLsb'_toNat, Nat.shiftRight_eq_div_pow]
  omega

theorem decodeTlob_standsFor {reserved : Bool} {bs : List Byte} {i : Instr} (h : decodeTlob reserved bs = .token i) :
    StandsFor i (.bytes bs) := by
  unfold decodeTlob at h
  split at h
  · cases h
  · next b =>
    split_ifs at h with hshort hres hlong hescape <;> cases h
    · exact ⟨rfl, congrArg (fun x => Code.bytes [x]) (append_of_high (m := 4) (n := 4) hshort)⟩
    · have hb : (1 : BitVec 4) ++ (15 : BitVec 4) = b := by
        rw [← hlong, ← hescape]
        exact append_of_high (m := 4) (n := 4) rfl
      exact ⟨rfl, congrArg (fun x => Code.bytes [x]) hb⟩
    · exact ⟨decide_eq_true (le_of_high_nibble hshort hlong), rfl⟩
  · next b c =>
    split_ifs at h with hshort hlong <;> cases h
    · have hb : (0 : BitVec 4) ++ b.extractLsb' 0 4 = b := append_of_high (m := 4) (n := 4) hshort.1
      have hc : c.extractLsb' 4 4 ++ c.extractLsb' 0 4 = c := append_of_high (m := 4) (n := 4) rfl
      exact ⟨rfl, by rw [encode, hb, hc]⟩
    · obtain ⟨hf, hbytes⟩ := long_bytes c hlong.1 hlong.2
      exact ⟨decide_eq_true hf, congrArg Code.bytes hbytes⟩
  · cases h

theorem decodeBytes_standsFor {f : Format} {bs : List Byte} {i : Instr} (h : decodeBytes f bs = .token i) :
    StandsFor i (.bytes bs) := by
  cases f with
  | lobControl | lobLiteral | tlobSkip =>
    obtain ⟨b, rfl, rfl⟩ := decodeOneByte_eq_token h
    exact ⟨rfl, rfl⟩
  | lobMatch =>
    obtain ⟨w, rfl, rfl⟩ := decodeTwoBytes_eq_token
      (mk := fun t => .lobMatch (t.extractLsb' 12 4) (t.extractLsb' 0 12)) h
    exact ⟨rfl, congrArg (fun x => Code.bytes (bytesOfHalf x)) (append_of_high (m := 4) (n := 12) (x := w) rfl)⟩
  | xlob reserved => exact decodeXlob_standsFor h
  | tlob reserved => exact decodeTlob_standsFor h
  | jhWord =>
    obtain ⟨w, rfl, rfl⟩ := decodeTwoBytes_eq_token (mk := .jhWord) h
    exact ⟨rfl, rfl⟩
  | command | depSelLen | depLitLen | depDist => cases h

/-- The code `11110` keeps its three extra bits (R76). -/
theorem encode_depSellen11110 (x2 x1 x0 : Bool) :
    encode (.depSellen11110 (BitVec.ofBool x2 ++ BitVec.ofBool x1 ++ BitVec.ofBool x0))
      = .bits [true, true, true, true, false, x2, x1, x0] := by
  cases x2 <;> cases x1 <;> cases x0 <;> rfl

theorem decodeBits_standsFor {f : Format} {bs : List Bool} {i : Instr} (h : decodeBits f bs = .token i) :
    StandsFor i (.bits bs) := by
  cases f with
  | depSelLen =>
    simp only [decodeBits, decodeSelLen] at h
    split at h <;> cases h
    iterate 5 exact ⟨rfl, rfl⟩
    exact ⟨rfl, encode_depSellen11110 _ _ _⟩
  | depLitLen | depDist =>
    simp only [decodeBits, decodeThreeWay] at h
    split at h <;> cases h <;> exact ⟨rfl, rfl⟩
  | _ => cases h

/-- Settles O2, one decoder at a time (`StandsFor`): the fields that a decoder takes from its units make them up
again. -/
theorem encodeUndoesDecode : Obligations.EncodeUndoesDecode := by
  intro f c i h
  cases c with
  | word w =>
    rw [decode] at h
    split at h
    · exact decodeCommand_standsFor h
    · cases h
  | bytes bs => exact decodeBytes_standsFor h
  | bits bs => exact decodeBits_standsFor h

end Sys2Proof.Machine

/-! ### One step of the engine -/

namespace Sys2Proof.Machine

/-- Settles O3: closed instances of the decoders, one for each word. -/
theorem writtenOutWordsDecode : Obligations.WrittenOutWordsDecode := by
  unfold Obligations.WrittenOutWordsDecode
  decide

theorem engineTurn_begins {s : State} {i : Instr} (hrst : s.rstLow = false) (hbusy : s.status.busy = true)
    (hw : s.work = .none) (hd : decodeCommand s.cmd = .token i) : engineTurn s = exec i s := by
  rw [engineTurn, if_neg (by simp [hrst, hbusy]), if_pos ((s.resting_iff).2 hw), runCommand_token hd]

/-- Settles O4. Neither form of the turn needs more than that a command is accepted and not begun
(`engineTurn_begins`). -/
theorem stepRunsTheAcceptedCommand : Obligations.StepRunsTheAcceptedCommand := by
  refine ⟨fun s i ⟨⟨hin, hrst, hbusy⟩, hw⟩ hd => ?_, fun s i rest hin hrst hbusy hw hd => ?_⟩
  · rw [step_engine hin, engineTurn_begins hrst hbusy hw hd]
  · rw [step_input hin]
    exact engineTurn_begins (s := { s with inputs := rest, response := .none }) hrst hbusy hw hd

/-! #### The next token of a byte stream -/

theorem decodeXlob_readsAs {reserved : Bool} {bs : List Byte} {t : Instr} (h : decodeXlob reserved bs = .token t) :
    ReadsAs (.xlob reserved) bs t := by
  match bs with
  | [] => cases h
  | [a] => exact .one h
  | [a, b] =>
    refine .two ?_ h
    have hheader {p : BitVec 3} := Laws.ProperPrefixPending.xlob_header_pending (h := a) (p := p) reserved
    simp only [decodeXlob] at h
    split_ifs at h with hzero hsmall hlarge hres hrun
    · subst hzero
      rfl
    · exact hheader hsmall (by decide) (by decide)
    · exact hheader hlarge (by decide) (by decide)
    · exact hheader hrun (by decide) (by decide)
  | [a, b, q] =>
    have hlarge : a.extractLsb' 5 3 = 5 ∧ reserved = false := by
      simp only [decodeXlob] at h
      split_ifs at h with hlarge
      exact hlarge
    obtain ⟨hclass, rfl⟩ := hlarge
    exact .three (Laws.ProperPrefixPending.xlob_header_pending false hclass (by decide) (by decide))
      (Laws.ProperPrefixPending.xlob_large_pending b hclass) h
  | a :: b :: c :: d :: l => cases h

theorem decodeTlob_readsAs {reserved : Bool} {bs : List Byte} {t : Instr} (h : decodeTlob reserved bs = .token t) :
    ReadsAs (.tlob reserved) bs t := by
  match bs with
  | [] => cases h
  | [a] => exact .one h
  | [a, b] =>
    refine .two ?_ h
    simp only [decodeTlob] at h
    split_ifs at h with hshort hlong
    · simp only [decodeBytes, decodeTlob, hshort.1, hshort.2]
      rfl
    · exact Laws.ProperPrefixPending.tlob_long_pending reserved hlong.1 hlong.2
  | a :: b :: c :: l => cases h

/-- What a decoder reads as a token it has not read as one before its last byte (R60). -/
theorem ReadsAs.of_token {f : Format} {bs : List Byte} {t : Instr} (h : decodeBytes f bs = .token t) :
    ReadsAs f bs t := by
  cases f with
  | lobControl | lobLiteral | tlobSkip =>
    obtain ⟨b, -, rfl⟩ := decodeOneByte_eq_token h
    exact .one h
  | lobMatch | jhWord =>
    have htwo := h
    simp only [decodeBytes] at htwo
    obtain ⟨w, -, rfl⟩ := decodeTwoBytes_eq_token htwo
    exact .two rfl h
  | xlob reserved => exact decodeXlob_readsAs h
  | tlob reserved => exact decodeTlob_readsAs h
  | command | depSelLen | depLitLen | depDist => cases h

/-- Settles O5. The fetch stops exactly at the token's end (`ReadsAs.fetch`). -/
theorem stepRunsTheNextStreamToken : Obligations.StepRunsTheNextStreamToken := by
  intro s f i bs t hnext hat htoken hbytes hlen
  have hfetch := (ReadsAs.of_token htoken).fetch (s := s) (i := i) ⟨hlen, hbytes⟩
  rw [step_running hnext (by rintro hw; simp [State.streamAt, hw] at hat), runRunning]
  cases hw : s.work with
  | lobDec w =>
    simp only [State.streamAt, hw, Option.some.injEq, Prod.mk.injEq] at hat
    obtain ⟨rfl, rfl⟩ := hat
    simp only [fetchRunning, hw, LobDec.fetch, hfetch, State.pastToken]
  | xlobDec w =>
    simp only [State.streamAt, hw, Option.some.injEq, Prod.mk.injEq] at hat
    obtain ⟨rfl, rfl⟩ := hat
    simp only [fetchRunning, hw, XlobDec.fetch, hfetch, State.pastToken]
  | tlobDec w =>
    simp only [State.streamAt, hw, Option.some.injEq, Prod.mk.injEq] at hat
    obtain ⟨rfl, rfl⟩ := hat
    simp only [fetchRunning, hw, TlobDec.fetch, hfetch, State.pastToken]
  | _ => simp [State.streamAt, hw] at hat

/-! #### The next code of DEPLODE -/

/-- A code's bits, as DEPLODE reads them: pending up to the last of them, and then the code (R76 to R78, R129). -/
structure ReadsAsCode (f : Format) (bs : List Bool) (i : Instr) : Prop where
  ne_nil : bs ≠ []
  length_le : bs.length ≤ maxCodeBits
  pending : Laws.ProperPrefixPending.bitsPending f bs = true
  token : decodeBits f bs = .token i

theorem ReadsAsCode.of_token {f : Format} {bs : List Bool} {i : Instr} (h : decodeBits f bs = .token i) :
    ReadsAsCode f bs i := by
  have hshape : bs ≠ [] ∧ bs.length ≤ maxCodeBits ∧ Laws.ProperPrefixPending.bitsPending f bs = true := by
    cases f with
    | depSelLen =>
      simp only [decodeBits, decodeSelLen] at h
      split at h <;> cases h
      all_goals exact ⟨nofun, by simp [maxCodeBits], rfl⟩
    | depLitLen | depDist =>
      simp only [decodeBits, decodeThreeWay] at h
      split at h <;> cases h
      all_goals exact ⟨nofun, by simp [maxCodeBits], rfl⟩
    | _ => cases h
  obtain ⟨hne, hlen, hpending⟩ := hshape
  exact ⟨hne, hlen, hpending, h⟩

/-- A code whose bits lie ahead, none of whose proper prefixes decodes, is what DEPLODE reads (R129). -/
theorem Dep.readCode_token {f : Format} {i : Instr} {rest : List Bool} (bs pre : List Bool) (fuel : Nat) {w : Dep}
    (hw : w.ready) (hne : bs ≠ []) (hfuel : bs.length ≤ fuel) (hbits : w.bitsAhead = bs ++ rest)
    (hmore : ∀ k, 0 < k → k < bs.length → decodeBits f (pre ++ bs.take k) = .more)
    (htok : decodeBits f (pre ++ bs) = .token i) :
    Dep.readCode f fuel pre w = .ok (some (i, w.afterBits bs.length)) := by
  induction bs generalizing pre fuel w with
  | nil => exact absurd rfl hne
  | cons b bs ih =>
    simp only [List.length_cons] at hfuel ⊢
    obtain ⟨fuel, rfl⟩ : ∃ m, fuel = m + 1 := ⟨fuel - 1, by omega⟩
    have hb := Dep.getbit_spec hw
    rw [hbits, List.cons_append] at hb
    obtain ⟨hget, hready, hahead⟩ := hb
    rw [Dep.readCode, hget]
    dsimp only
    cases bs with
    | nil => rw [htok]; rfl
    | cons c bs =>
      rw [show decodeBits f (pre ++ [b]) = .more by simpa using hmore 1 (by omega) (by simp)]
      refine (ih (pre ++ [b]) fuel hready (by simp) (by omega) hahead (fun k h0 hk => ?_)
        (by simpa using htok)).trans ?_
      · simpa using hmore (k + 1) (by omega) (by simpa using hk)
      · rw [Dep.afterBits_succ]

/-- Settles O6. The read stops exactly at the code's end (`Dep.readCode_token`). -/
theorem stepRunsTheNextDeplodeCode : Obligations.StepRunsTheNextDeplodeCode := by
  intro s w f bs rest i hnext hw hready hf htoken hbits
  have hcode := ReadsAsCode.of_token htoken
  have hread : Dep.readCode f maxCodeBits [] w = .ok (some (i, w.afterBits bs.length)) :=
    Dep.readCode_token bs [] maxCodeBits hready hcode.ne_nil hcode.length_le hbits
      (fun k _ hk => by simpa using List.all_eq_true.1 hcode.pending k (List.mem_range.2 hk)) htoken
  obtain ⟨-, hready', hahead⟩ := (Dep.getbits_spec bs.length 0 hready).1 (by simp [hbits])
  refine ⟨?_, hready', by rw [hahead, hbits, List.drop_left]⟩
  rw [step_running hnext (by simp [hw]), runRunning]
  simp only [fetchRunning, hw, hf, hread]

/-! #### The next word of JH_CRYPT -/

/-- Settles O7. The engine fetches `Jh.word`, whose low byte is 0 at an odd tail. -/
theorem stepRunsTheNextJhWord : Obligations.StepRunsTheNextJhWord := by
  intro s w hnext hw
  have hstep : step s = exec (.jhWord (w.word s.srcByte s.slen)) s := by
    rw [step_running hnext (by simp [hw]), runRunning]
    simp only [fetchRunning, hw]
  rw [hstep, Jh.word]
  exact ⟨fun hj => by rw [if_pos hj, be16], fun hj => by rw [if_neg (Nat.not_lt.2 hj), be16]⟩

/-! #### Words that name no command -/

theorem decodeCommand_rejected {w : Word}
    (h : w.extractLsb' 8 24 ≠ 0 ∨ instrOfOpcode (w.extractLsb' 0 8) = none) : ∃ r, decodeCommand w = .rejected r := by
  unfold decodeCommand
  split
  · next hzero =>
    rw [h.resolve_left (not_not_intro hzero)]
    exact ⟨_, rfl⟩
  · exact ⟨_, rfl⟩

/-- An illegal command word ends in error entry with MISUSE(0), which touches no memory (R53, R56, R146). -/
theorem State.illegalCommand_failsWith {s : State} (hd : s.srcDirty = false) :
    FailsWith s s.illegalCommand .misuse 0 ∧ s.illegalCommand.mem = s.mem := by
  have hd' : (s.errorEntry s.ctx.op ⟨.misuse, 0⟩).srcDirty = false := hd
  simp [State.illegalCommand, FailsWith, Idle, KeepsHostSide, Status.failed, hd]

/-- Settles O8. An illegal word ends in `State.illegalCommand`, a reserved one in error entry of a command without
regions. -/
theorem illegalAndReservedWordsEndInMisuse : Obligations.IllegalAndReservedWordsEndInMisuse := by
  refine ⟨fun s hacc hu hword => ?_, fun i s hi hu => ?_⟩
  · obtain ⟨r, hr⟩ := decodeCommand_rejected hword
    obtain ⟨hfails, hmem⟩ := State.illegalCommand_failsWith hu.1
    refine ⟨s.illegalCommand, ?_, hfails, hmem, fun hop => ?_, fun hc => ?_⟩
    · rw [step_engine hacc.1.1, engineTurn_accepted hacc, runCommand_rejected hr]
    · simp [KeepsMatch, State.illegalCommand, hu.1, hop]
    · simp [State.illegalCommand, hc]
  · obtain rfl | rfl := hi
    · exact ⟨_, rfl, State.raiseError_commandRefused _ hu.1 (by decide) rfl rfl⟩
    · exact ⟨_, rfl, State.raiseError_commandRefused _ hu.1 (by decide) rfl rfl⟩

end Sys2Proof.Machine

/-! ### LOB_DECOMPRESS's tokens and its run -/

namespace Sys2Proof.Machine

theorem LobDec.copy_of_le {w : LobDec} {limit : Nat} {l : BitVec 4} {d : BitVec 12} (hd : 1 ≤ d.toNat)
    (hdo : d.toNat ≤ w.out.length) :
    w.copy limit l d = .ok { w with out := copyMatch limit d.toNat (l.toNat + 3) w.out, k := w.k + 1 } :=
  if_neg (by omega)

theorem LobDec.copy_of_bad {w : LobDec} {limit : Nat} {l : BitVec 4} {d : BitVec 12}
    (h : d.toNat = 0 ∨ w.out.length < d.toNat) : w.copy limit l d = .error ⟨.format, w.tok⟩ :=
  if_pos h

theorem LobDec.awaitsLiteral_iff {w : LobDec} :
    w.awaitsLiteral = true ↔ w.k < 8 ∧ w.ctl.getLsbD (7 - w.k) = true := by
  simp [LobDec.awaitsLiteral, LobDec.controlBit]

theorem LobDec.awaitsMatch_iff {w : LobDec} :
    w.awaitsMatch = true ↔ w.k < 8 ∧ w.ctl.getLsbD (7 - w.k) = false := by
  simp [LobDec.awaitsMatch, LobDec.controlBit]

/-- Settles O30. With output still to come, a control byte always runs on; a literal may be the last byte. -/
theorem lobControlAndLiteralItems : Obligations.LobControlAndLiteralItems := by
  intro s w b hw ⟨hu, hv, hout, hcap⟩
  refine ⟨fun hk => ?_, fun hk hbit => ?_⟩
  · have hrun : LobDec.progress s.p0 (w.control b) = .running (.lobDec { w with ctl := b, k := 0 }) :=
      if_neg (Nat.not_le.2 hout)
    refine (onLobDec_eq (fun w => w.control b) hw (by simp [LobDec.awaitsControl, hk])).trans ?_
    rw [hrun]
    rfl
  · refine ⟨_, onLobDec_eq (fun w => w.literal b) hw (LobDec.awaitsLiteral_iff.2 ⟨hk, hbit⟩), ?_⟩
    exact State.settle_decodesTo hu hv rfl rfl (by simp; omega)

/-- Settles O31. The token is `LobDec.copy`, which copies or raises by its distance alone. -/
theorem lobMatchItemCopies : Obligations.LobMatchItemCopies := by
  intro s w l d hw ⟨hu, hv, hout, hcap⟩ hk hbit
  have hexec : exec (.lobMatch l d) s = .next (s.settle opLobDecompress (LobDec.progress s.p0 (w.copy s.p0 l d))) :=
    onLobDec_eq _ hw (LobDec.awaitsMatch_iff.2 ⟨hk, hbit⟩)
  rw [hexec]
  refine ⟨fun hd hdo => ?_, fun hbad => ?_⟩
  · have hcopy := copyMatch_copiesFrom hd (l.toNat + 3) w.out hdo hout.le
    rw [LobDec.copy_of_le hd hdo]
    exact ⟨_, _, rfl, hcopy, State.settle_decodesTo hu hv rfl rfl (hcopy.length_le.trans hcap)⟩
  · rw [LobDec.copy_of_bad hbad]
    exact ⟨_, rfl, State.raiseError_decoderFails hu (by decide) rfl ⟨.format, w.tok⟩⟩

/-- A Lob token is read as what the encoder writes for it, where it can stand (R61, R62). -/
theorem lob_readsAs {w : LobDec} {out lits : List Byte} {t : Instr} {r : List Byte × (Byte × Nat)}
    (h : lobAppends (w.ctl, w.k) out t lits = some r) : ReadsAs w.format (tokenBytes t) t := by
  cases t with
  | lobCtrl c =>
    obtain ⟨hk, -⟩ := Option.ite_none_right_eq_some.1 h
    have hf : w.format = .lobControl := if_pos (by simpa [LobDec.awaitsControl] using hk)
    exact hf ▸ .one rfl
  | lobLit v =>
    obtain ⟨⟨hk, hbit⟩, -⟩ := Option.ite_none_right_eq_some.1 h
    have hf : w.format = .lobLiteral := by
      rw [LobDec.format, if_neg (by simp [LobDec.awaitsControl]; omega),
        if_pos (show w.controlBit = true from hbit)]
    exact hf ▸ .one rfl
  | lobMatch l d =>
    obtain ⟨⟨hk, hbit⟩, -⟩ := Option.ite_none_right_eq_some.1 h
    have hf : w.format = .lobMatch := by
      rw [LobDec.format, if_neg (by simp [LobDec.awaitsControl]; omega), LobDec.controlBit, hbit]
      rfl
    exact hf ▸ .two rfl (decodeUndoesEncode.1 (.lobMatch l d) rfl)
  | _ => cases h

/-- Where the working state is after a token that appends `r.1`. -/
def LobDec.Appended (limit : Nat) (w : LobDec) (r : List Byte × (Byte × Nat)) (v : LobDec) : Prop :=
  v.out = (w.out ++ r.1).take limit ∧ (v.ctl, v.k) = r.2 ∧ v.i = w.i

/-- A token's effect is what it appends, cut at the limit (R91 to R94). -/
theorem LobDec.apply_appends {limit : Nat} {w : LobDec} {t : Instr} {lits : List Byte}
    {r : List Byte × (Byte × Nat)} (h : lobAppends (w.ctl, w.k) w.out t lits = some r) (hl : w.out.length < limit) :
    ∃ v, w.apply limit t = .ok v ∧ LobDec.Appended limit w r v := by
  cases t with
  | lobCtrl c =>
    obtain ⟨-, ⟨⟩⟩ := Option.ite_none_right_eq_some.1 h
    exact ⟨_, rfl, by simp [hl.le], rfl, rfl⟩
  | lobLit v =>
    obtain ⟨-, ⟨⟩⟩ := Option.ite_none_right_eq_some.1 h
    exact ⟨_, rfl, (List.take_of_length_le (by simpa using hl)).symm, rfl, rfl⟩
  | lobMatch l d =>
    obtain ⟨-, hmap⟩ := Option.ite_none_right_eq_some.1 h
    obtain ⟨bs, hbs, rfl⟩ := Option.map_eq_some_iff.1 hmap
    obtain ⟨hd, hdo, -⟩ := copied_eq_some hbs
    exact ⟨_, LobDec.copy_of_le hd hdo, copyMatch_eq_copied hbs hl.le, rfl, rfl⟩
  | _ => cases h

/-- Only ExtendedLob's literal run has literal bytes after it. -/
theorem lobAppends_literalCount {q : Byte × Nat} {out lits : List Byte} {t : Instr} {r : List Byte × (Byte × Nat)}
    (h : lobAppends q out t lits = some r) : literalCount t = 0 := by
  cases t with
  | xlobLitrun n => cases h
  | _ => rfl

/-- LOB_DECOMPRESS's turns follow the tokens of its stream (R91 to R94). -/
theorem lobDec_follows (s : State) : FollowsStream lobAppends s opLobDecompress lobDecTurn
    (fun q out i w => ∃ v : LobDec, w = .lobDec v ∧ (v.ctl, v.k) = q ∧ v.out = out ∧ v.i = i) where
  begun := by
    rintro _ _ _ _ ⟨v, rfl, -⟩
    nofun
  turn_token := by
    rintro _ _ _ _ ⟨t, lits⟩ r ⟨v, rfl, rfl, rfl, rfl⟩ hl - hlits hr hs
    obtain rfl : lits = [] := List.length_eq_zero_iff.1 (hlits.trans (lobAppends_literalCount hr))
    have hreads := lob_readsAs hr
    have hfetch : v.fetch s.srcByte s.slen
        = .ok (some (t, { v with i := v.i + (tokenBytes t).length, tok := v.i })) := by
      rw [LobDec.fetch, hreads.fetch (State.sourceAt_append hs).1]
    obtain ⟨u, hu, hout, hq, hi⟩ := LobDec.apply_appends
      (w := { v with i := v.i + (tokenBytes t).length, tok := v.i }) hr hl
    refine ⟨List.length_pos_iff.2 hreads.ne_nil, .lobDec u, ?_, fun hmore => ⟨u, rfl, hq, ?_, ?_⟩⟩
    · rw [lobDecTurn_eq rfl, State.settle_work]
      change s.settle _ (v.turnProgress s.p0 s.srcByte s.slen) = _
      simp only [LobDec.turnProgress, hfetch, hu, LobDec.progress, hout, le_length_take_iff]
    · rw [hout, List.take_of_length_le hmore.le]
    · simp [hi]

/-- LOB_DECOMPRESS of fewer than 20 bytes: the stored form (R91, R95). -/
theorem exec_lobDecompress_stored {s : State} (hr : RegionsOk s) (hcap : s.p0 ≤ s.dcap) (h20 : s.p0 < 20) :
    exec .lobDecompress s = .next (if s.slen < s.p0 then s.raiseError opLobDecompress ⟨.format, s.slen⟩
      else s.succeed opLobDecompress (bytesOf s.srcByte 0 s.p0) false) := by
  refine congrArg Host.Outcome.next (takeTurns_ended ?_ ?_)
  · simp only [lobDecompressBegin, State.checkRegions_ok hr]
    rw [if_neg (Nat.not_lt.2 hcap), if_pos (show s.p0 < Config.lobMinCompress from h20)]
  · split
    · exact State.raiseError_work ..
    · exact State.succeed_work ..

/-- LOB_DECOMPRESS of 20 bytes or more completes with what its stream decodes to (R61, R62, R91 to R94). -/
theorem exec_lobDecompress_decoded {s : State} {us : List (Instr × List Byte)} {out : List Byte} (hr : RegionsOk s)
    (hcap : s.p0 ≤ s.dcap) (h20 : 20 ≤ s.p0) (hs : s.sourceBegins (streamOf us))
    (hd : decoded lobAppends s.p0 (0, 8) [] us = some out) :
    exec .lobDecompress s = .next (s.succeed opLobDecompress out false) := by
  have hbegin : lobDecompressBegin s
      = { s with work := .lobDec { i := 0, tok := 0, out := [], ctl := 0, k := 8 } } := by
    simp only [lobDecompressBegin, State.checkRegions_ok hr]
    rw [if_neg (Nat.not_lt.2 hcap), if_neg (show ¬ s.p0 < Config.lobMinCompress from Nat.not_lt.2 h20)]
  refine congrArg Host.Outcome.next ?_
  rw [hbegin]
  exact (lobDec_follows s).run hd ⟨_, rfl, rfl, rfl, rfl⟩ (Nat.lt_of_lt_of_le (by decide) h20)
    ((s.sourceBegins_iff _).1 hs) (by omega)

/-- Settles O29. The decoder follows its stream token by token (`lobDec_follows`); below 20 bytes there is none. -/
theorem lobDecompressDecodesItsStream : Obligations.LobDecompressDecodesItsStream := by
  refine ⟨fun s hu hr hcap h20 => ?_, fun s us out hu hr hcap h20 hs hd => ?_⟩
  · rw [exec_lobDecompress_stored hr hcap h20]
    refine ⟨fun hfit => ⟨_, rfl, ?_⟩, fun hshort => ⟨_, rfl, ?_⟩⟩
    · rw [if_neg (Nat.not_lt.2 hfit)]
      exact State.succeed_decoder hu hr rfl rfl (by simpa using hcap)
    · rw [if_pos hshort]
      exact State.raiseError_decoderFails hu (by decide) rfl ⟨.format, s.slen⟩
  · exact ⟨_, exec_lobDecompress_decoded hr hcap h20 hs hd,
      State.succeed_decoder hu hr rfl rfl ((decoded_length_le hd).trans hcap)⟩

end Sys2Proof.Machine

/-! ### ExtendedLob's run tokens -/

namespace Sys2Proof.Machine

/-- A token that puts bytes, all of which the output has room for when cut at `N`, runs to that output (R103, R110). -/
theorem exec_xlob_put {s : State} {w : XlobDec} {i : Instr} {bs : List Byte} {out : List Byte}
    (hw : s.work = .xlobDec w) (hdec : Decoding s w.out) (hi : xlobAllows w.res.isSome i = true)
    (hput : w.apply s.p0 s.srcByte s.slen i = w.put s.p0 bs) (hout : putBytes s.p0 w.out bs = out) :
    ∃ t out', exec i s = .next t ∧ DecodesTo s t out' (.xlobDec { w with out := out' }) ∧ out' = out := by
  obtain ⟨hu, hv, hlt, hcap⟩ := hdec
  refine ⟨_, putBytes s.p0 w.out bs, exec_xlobToken hw hi, ?_, hout⟩
  rw [hput]
  exact State.settle_decodesTo hu hv rfl rfl ((putBytes_length_le bs hlt.le).trans hcap)

/-- Settles O35. Each of the three tokens puts its bytes, cut at `N` (`exec_xlob_put`). -/
theorem xlobRunTokensAppend : Obligations.XlobRunTokensAppend := by
  intro s w c q v hw hdec
  refine ⟨exec_xlob_put hw hdec rfl rfl (putBytes_replicate ..), exec_xlob_put hw hdec rfl rfl (putBytes_replicate ..),
    exec_xlob_put hw hdec rfl rfl ?_⟩
  obtain ⟨-, -, hlt, -⟩ := hdec
  have hq : (0 : BitVec 3) ++ q = BitVec.ofNat 8 q.toNat :=
    byte_eq (by rw [toNat_append_eq]; simp; omega)
  rw [hq, putBytes, List.take_of_length_le (by simp; omega)]

/-- Settles O36. The run is one read of the stream, which gives its bytes or raises at the first one missing. -/
theorem xlobLiteralRunCopiesTheStream : Obligations.XlobLiteralRunCopiesTheStream := by
  intro s w n hw ⟨hu, hv, hlt, hcap⟩
  have hexec : exec (.xlobLitrun n) s
      = .next (s.settle opXlobDecompress (XlobDec.progress s.p0 (w.literalRun s.p0 s.srcByte s.slen n))) :=
    exec_xlobToken hw rfl
  rw [hexec, XlobDec.literalRun]
  refine ⟨fun hin => ?_, fun hi hshort => ?_⟩
  · rw [readBytes_ok _ _ _ _ _ _ hin]
    exact ⟨_, _, rfl, rfl, State.settle_decodesTo hu hv rfl rfl (by simp; omega)⟩
  · rw [readBytes_error _ _ _ _ _ _ hi hshort]
    exact ⟨_, rfl, State.raiseError_decoderFails hu (by decide) rfl ⟨.format, s.slen⟩⟩

end Sys2Proof.Machine

/-! ### DEPLODE's codes -/

namespace Sys2Proof.Machine

/-- A code that raises ends DEPLODE with its error (R137). -/
theorem exec_depCode_raised {s : State} {w : Dep} (hu : Undisturbed s) (hw : s.work = .dep w) {i : Instr} {e : ErrCode}
    {pos : Nat} (h : w.apply i = some (.error ⟨e, pos⟩)) :
    ∃ t, exec i s = .next t ∧ CommandFails s t e pos s.trie :=
  ⟨_, exec_depCode hw h, State.raiseError_decoderFails hu (by decide) rfl ⟨e, pos⟩⟩

/-! #### Match-length codes -/

theorem Dep.selLenCode_eq {w : Dep} (hp : w.phase = .selLen) (f : Dep → Result Dep) : w.selLenCode f = some (f w) := by
  rw [Dep.selLenCode, hp]

/-- A match-length code with a fixed length (R133). -/
theorem exec_depSelLen {s : State} {w : Dep} {i : Instr} {sel : Fin 4} {ml : Nat} (hw : s.work = .dep w)
    (hp : w.phase = .selLen) (hi : w.apply i = w.selLenCode (Dep.setSelLen sel ml)) :
    exec i s = .next { s with work := .dep { w with phase := .litLen sel ml } } :=
  exec_depCode hw (hi.trans (Dep.selLenCode_eq hp _))

/-- Settles O48. Five codes have a fixed selector and length; `11111` takes a raw byte. -/
theorem deplodeSelectorLengthCodes : Obligations.DeplodeSelectorLengthCodes := by
  intro s w x hw hp hu
  have hraw : w.apply .depSellen11111 = some w.rawSelLen := Dep.selLenCode_eq hp _
  refine ⟨exec_depSelLen hw hp rfl, exec_depSelLen hw hp rfl, exec_depSelLen hw hp rfl, exec_depSelLen hw hp rfl,
    exec_depSelLen hw hp rfl, fun r hr hcur => ?_, fun hcur => ?_⟩
  · have hbyte : w.rawByte = .ok (r, { w with cur := w.cur - 1 }) := by
      rw [Dep.rawByte, if_neg hcur.ne', List.getD, hr]
      rfl
    rw [Dep.rawSelLen, hbyte] at hraw
    dsimp only at hraw
    refine ⟨fun hne => ?_, fun h0 => ?_⟩
    · rw [if_neg hne] at hraw
      exact exec_depCode hw hraw
    · rw [if_pos h0] at hraw
      exact exec_depCode_raised hu hw hraw
  · rw [Dep.rawSelLen, Dep.rawByte, if_pos hcur] at hraw
    exact exec_depCode_raised hu hw hraw

/-! #### Literal-length codes -/

/-- The groups of the three literal-length codes, as the rule lists them (R134). -/
theorem Dep.apply_litLen {w : Dep} {sel : Fin 4} {ml : Nat} {i : Instr} {base k : Nat} (hp : w.phase = .litLen sel ml)
    (hi : (i = .depLitlen0 ∧ base = 0 ∧ k = 1)
      ∨ (i = .depLitlen10 ∧ base = 2 ∧ [2, 3, 3, 4][sel.val]? = some k)
      ∨ (i = .depLitlen11 ∧ [6, 10, 10, 18][sel.val]? = some base ∧ [4, 5, 7, 14][sel.val]? = some k)) :
    w.apply i = some (w.setLitLen base k sel ml) := by
  have hcode (b e : Fin 4 → Nat) : w.litLenCode b e = some (w.setLitLen (b sel) (e sel) sel ml) := by
    rw [Dep.litLenCode, hp]
    rfl
  obtain ⟨rfl, rfl, rfl⟩ | ⟨rfl, rfl, hk⟩ | ⟨rfl, hb, hk⟩ := hi
  · exact hcode (fun _ => 0) litExtra0
  · refine (hcode (fun _ => 2) litExtra1).trans ?_
    rw [litExtra1, List.getD, hk]
    rfl
  · refine (hcode litBase2 litExtra2).trans ?_
    rw [litBase2, litExtra2, List.getD, List.getD, hb, hk]
    rfl

/-- Settles O49. The code reads its group's extra bits (`Dep.getbits_spec`). -/
theorem deplodeLiteralLengthCodes : Obligations.DeplodeLiteralLengthCodes := by
  intro s w sel ml i base k hw hready hp hu hi
  have happly := Dep.apply_litLen hp hi
  obtain ⟨hok, herr⟩ := Dep.getbits_spec k 0 hready
  rw [Dep.setLitLen] at happly
  refine ⟨fun hk => ?_, fun hk => ?_⟩
  · obtain ⟨hget, hready', hahead⟩ := hok hk
    rw [hget] at happly
    exact ⟨exec_depCode hw happly, hready', hahead⟩
  · rw [herr hk] at happly
    exact exec_depCode_raised hu hw happly

/-! #### Distance codes -/

/-- The groups of the three distance codes, from the bytes of the footer's table (R135). -/
theorem Dep.apply_dist {w : Dep} {sel : Fin 4} {ml : Nat} {i : Instr} {base k : Nat} {x : Nat → Nat}
    (hp : w.phase = .dist sel ml) (htable : w.table.length = 20)
    (hx : ∀ g b, w.table[8 + 4 * g + sel.val]? = some b → x g = b.toNat)
    (hi : (i = .depDist0 ∧ base = 0 ∧ k = x 0) ∨ (i = .depDist10 ∧ base = 2 ^ x 0 ∧ k = x 1)
      ∨ (i = .depDist11 ∧ k = x 2 ∧ ∃ b0 b1 : Byte, w.table[2 * sel.val]? = some b0
          ∧ w.table[2 * sel.val + 1]? = some b1 ∧ base = b0.toNat * 256 + b1.toNat)) :
    w.apply i = some (w.matchAt base k ml) := by
  have hcode (b : Fin 4 → Nat) (g : Nat) : w.distCode b g = some (w.matchAt (b sel) (w.extra g sel) ml) := by
    rw [Dep.distCode, hp]
    rfl
  have hextra (g : Nat) (hg : g < 3) : w.extra g sel = x g := by
    have hlt : 8 + 4 * g + sel.val < w.table.length := by omega
    rw [Dep.extra, List.getD_eq_getElem _ _ hlt, hx g _ (List.getElem?_eq_getElem hlt)]
  obtain ⟨rfl, rfl, rfl⟩ | ⟨rfl, rfl, rfl⟩ | ⟨rfl, rfl, b0, b1, h0, h1, rfl⟩ := hi
  · exact (hcode (fun _ => 0) 0).trans (by rw [hextra 0 (by decide)])
  · exact (hcode (fun sel => 2 ^ w.extra 0 sel) 1).trans (by rw [hextra 0 (by decide), hextra 1 (by decide)])
  · have hbase : w.base sel = b0.toNat * 256 + b1.toNat := by
      rw [Dep.base, List.getD, List.getD, h0, h1]
      exact toNat_append_eq b0 b1
    exact (hcode w.base 2).trans (by rw [hextra 2 (by decide), hbase])

/-- A match copy appends its bytes, or stops at the declared size (R136, R137). -/
theorem Dep.copyBytes_spec (d l : Nat) {w : Dep} (hout : w.out.length ≤ w.size) :
    Dep.copyBytes d l w = if w.out.length + l ≤ w.size
      then .ok { w with out := copyMatch (w.out.length + l) d l w.out } else .error ⟨.dataIntegrity, w.size⟩ := by
  induction l generalizing w with
  | zero => exact (if_pos hout).symm
  | succ l ih =>
    rw [Dep.copyBytes]
    by_cases hfull : w.out.length = w.size
    · rw [if_pos hfull, if_neg (by omega)]
    · have hrest := ih (w := { w with out := w.out ++ [w.out.getD (w.out.length - d) 0] }) (by simp; omega)
      simp only [List.length_append, List.length_singleton, Nat.add_assoc, Nat.add_comm 1 l] at hrest
      rw [if_neg hfull, hrest, copyMatch, if_neg (show ¬ w.out.length + (l + 1) ≤ w.out.length by omega)]

/-- A distance code with enough bits ahead: its distance is too far, or the match is copied, up to the declared size
(R135 to R137). -/
theorem Dep.matchAt_spec {w : Dep} (hready : w.ready) {base k d : Nat} (ml : Nat) (hk : k ≤ w.bitsAhead.length)
    (hd : d = base + natOfBits (w.bitsAhead.take k) + 1) :
    (w.out.length < d → w.matchAt base k ml = .error ⟨.format, (w.afterBits k).cur⟩)
      ∧ (d ≤ w.out.length → w.out.length ≤ w.size → w.matchAt base k ml = if w.out.length + ml ≤ w.size
          then .ok { w.afterBits k with out := copyMatch (w.out.length + ml) d ml w.out, phase := .run }
          else .error ⟨.dataIntegrity, w.size⟩) := by
  obtain ⟨hget, -, -⟩ := (Dep.getbits_spec k 0 hready).1 hk
  have heq : w.matchAt base k ml = if w.out.length < d then .error ⟨.format, (w.afterBits k).cur⟩
      else match Dep.copyBytes d ml (w.afterBits k) with
        | .error r => .error r
        | .ok v => .ok { v with phase := .run } := by
    rw [Dep.matchAt, hget, hd]
    simp only [Dep.afterBits_out]
    rfl
  rw [heq]
  refine ⟨fun hfar => if_pos hfar, fun hnear hout => ?_⟩
  rw [if_neg (Nat.not_lt.2 hnear), Dep.copyBytes_spec d ml (by simpa using hout)]
  simp only [Dep.afterBits_out, Dep.afterBits_size]
  by_cases hfit : w.out.length + ml ≤ w.size
  · simp only [if_pos hfit]
  · simp only [if_neg hfit]

/-- Settles O50. The code reads its group's extra bits and copies the match, or meets an error on the way
(`Dep.matchAt_spec`). -/
theorem deplodeDistanceCodes : Obligations.DeplodeDistanceCodes := by
  intro s w sel ml i base k x hw hready hp hu htable hx hi
  have happly := Dep.apply_dist hp htable hx hi
  obtain ⟨hok, herr⟩ := Dep.getbits_spec k 0 hready
  refine ⟨fun hk => ?_, fun hk => ?_⟩
  · rw [Dep.matchAt, herr hk] at happly
    exact exec_depCode_raised hu hw happly
  · obtain ⟨-, hready', hahead⟩ := hok hk
    obtain ⟨hfar, hcopy⟩ := Dep.matchAt_spec hready (base := base) ml hk rfl
    refine ⟨hready', hahead, fun h => ?_, fun hnear hfit => ?_, fun hnear hout hpast => ?_⟩
    · exact exec_depCode_raised hu hw (happly.trans (congrArg some (hfar h)))
    · rw [hcopy hnear (by omega), if_pos hfit] at happly
      exact ⟨_, copyMatch_copiesFrom (by omega) ml w.out hnear (Nat.le_add_right ..), exec_depCode hw happly⟩
    · rw [hcopy hnear hout, if_neg (by omega)] at happly
      exact exec_depCode_raised hu hw happly

end Sys2Proof.Machine

/-! ### A data word of JH_CRYPT -/

namespace Sys2Proof.Machine

/-- The next key word, in plain arithmetic (R138, R139). -/
theorem jhNextKey_eq (d0 : Half) : jhNextKey d0 = BitVec.ofNat 16 (17 * d0.toNat + 87) := by
  refine BitVec.eq_of_toNat_eq ?_
  rw [jhNextKey, BitVec.toNat_add, BitVec.toNat_add, BitVec.toNat_shiftLeft, Nat.shiftLeft_eq, BitVec.toNat_ofNat]
  simp
  omega

/-- Memory after a data word: its high byte at its offset, its low byte after that if the region goes on (R138,
R140). -/
theorem jhStore_read {s : State} {w : Jh} (data : Half) (hv : s.validRegion s.src s.slen = true) (hj : w.j < s.slen)
    (x : Nat) : Memory.read (jhStore s w data) x =
      if x = s.src + w.j then highByte (data ^^^ w.d0)
      else if x = s.src + w.j + 1 ∧ w.j + 1 < s.slen then lowByte (data ^^^ w.d0)
      else Memory.read s.mem x := by
  simp only [jhStore]
  rw [Memory.read_fill]
  have hin (h : s.src ≤ x ∧ x < s.src + s.slen) : (s.hasAddress x && inRegion s.src s.slen x) = true := by
    rw [Bool.and_eq_true, State.hasAddress_eq_true, inRegion_eq_true]
    exact ⟨s.lt_memSize_of_validRegion hv h, h⟩
  by_cases h0 : x = s.src + w.j
  · rw [if_pos ⟨by omega, by omega, hin (by omega)⟩, if_pos h0, if_pos h0]
  · by_cases h1 : x = s.src + w.j + 1 ∧ w.j + 1 < s.slen
    · rw [if_pos ⟨by omega, by omega, hin (by omega)⟩, if_neg h0, if_neg h0, if_pos h1]
    · rw [if_neg, if_neg h0, if_neg h1]
      rintro ⟨hge, hlt, hp⟩
      rw [Bool.and_eq_true, inRegion_eq_true] at hp
      omega

/-- A data word writes its bytes, whether the command ends with it or runs on, and touches neither the trie nor the
match registers (R138). -/
theorem jhWordStep_keeps {s : State} (hd : s.srcDirty = false) (w : Jh) (data : Half) :
    (jhWordStep s w data).mem = jhStore s w data ∧ KeepsMatch s (jhWordStep s w data)
      ∧ (jhWordStep s w data).trie = s.trie := by
  have hdest : writesDest opJhCrypt = false := rfl
  have hcompress : isCompress opJhCrypt = false := rfl
  obtain ⟨-, hlast⟩ | ⟨-, hnext⟩ := jhWordStep_cases s w data
  · rw [hlast]
    exact ⟨by simp [State.memSucceeded, hd, hdest], ⟨by simp [hd], by simp [hd]⟩, by simp [hcompress]⟩
  · rw [hnext]
    exact ⟨rfl, ⟨rfl, rfl⟩, rfl⟩

/-- Settles O53. What a data word writes is `jhStore_read`; the command ends with it or runs on
(`jhWordStep_cases`). -/
theorem jhWordXorsAndAdvances : Obligations.JhWordXorsAndAdvances := by
  intro s w data hw hu hv hj
  have hexec : exec (.jhWord data) s = .next (jhWordStep s w data) := by
    simp only [exec, execJhWord, hw]
  obtain ⟨hmem, hmatch, htrie⟩ := jhWordStep_keeps hu.1 w data
  have hread (x : Nat) : (jhWordStep s w data).readByte x = _ :=
    (congrArg (Memory.read · x) hmem).trans (jhStore_read data hv hj x)
  refine ⟨_, hexec, ?_, fun hj1 => ?_, fun x h0 h1 => ?_, hmatch, htrie, fun hmore => ?_, fun hlast => ?_⟩
  · rw [hread, if_pos rfl]
    rfl
  · rw [hread, if_neg (by omega), if_pos ⟨rfl, hj1⟩]
    rfl
  · rw [hread, if_neg h0, if_neg (by omega)]
    rfl
  · obtain ⟨hend, -⟩ | ⟨-, hnext⟩ := jhWordStep_cases s w data
    · omega
    · rw [hnext, jhNextKey_eq]
      exact ⟨rfl, rfl⟩
  · obtain ⟨-, hend⟩ | ⟨hmore, -⟩ := jhWordStep_cases s w data
    · rw [hend]
      exact State.succeed_succeedsWith (s := { s with mem := jhStore s w data }) opJhCrypt [] false hu.1
    · omega

end Sys2Proof.Machine

/-! ### LOB_COMPRESS's stream -/

namespace Sys2Proof.Machine

/-- A parse runs to its finished output, and what every item keeps holds of the working state it finishes from. -/
theorem Parse.run_finishes {W : Type} (P : Parse W) {s : State} {Keeps : Trie → W → Prop}
    (hitem : ∀ t w, Keeps t w → P.pos w < s.slen →
      Keeps (P.item s.srcByte s.slen t w).1 (P.item s.srcByte s.slen t w).2)
    (fuel : Nat) {t : Trie} {w : W} (hw : Keeps t w) (hfuel : s.slen - P.pos w < fuel) :
    ∃ u v, Keeps u v ∧ s.slen ≤ P.pos v
      ∧ takeTurns State.resting P.turn fuel { s with trie := t, work := P.work w }
        = s.compressed P.op (P.finish v) false := by
  induction fuel generalizing t w with
  | zero => omega
  | succ fuel ih =>
    have hturn : takeTurns State.resting P.turn (fuel + 1) { s with trie := t, work := P.work w }
        = takeTurns State.resting P.turn fuel (P.turn { s with trie := t, work := P.work w }) := by
      rw [takeTurns_succ, if_neg (mt (State.resting_iff _).1 (P.work_ne_none w))]
    rw [hturn]
    by_cases hp : P.pos w < s.slen
    · have := P.pos_item s.srcByte s.slen t w
      rw [P.turn_item s t w hp]
      exact ih (hitem t w hw hp) (by omega)
    · refine ⟨t, w, hw, Nat.le_of_not_lt hp, takeTurns_ended ?_ (State.compressed_work ..)⟩
      rw [P.turn_finish s t w hp, s.settle_parsed t _ P.op_isCompress (s.checkCapacity_ne_running _),
        s.settle_eq_compressed]

/-! #### One item -/

/-- LOB_COMPRESS's trie, with every position before `k` inserted (R84, R88). -/
structure LobTrie (t : Trie) (k : Nat) : Prop where
  wf : t.wf
  window : t.window = 4095
  reaches : t.reaches k

theorem LobTrie.of_inv {s : State} (h : s.Inv) {w : LobEnc} (hw : s.work = .lobEnc w) : LobTrie s.trie w.p := by
  have hstep := h.workInStep
  rw [WorkInStep, hw] at hstep
  exact ⟨h.trie_wf, hstep.1, hstep.2⟩

theorem LobTrie.item {S : Nat → Byte} {n : Nat} {t : Trie} {w : LobEnc} (h : LobTrie t w.p) (hn : n < 2 ^ 32)
    (hp : w.p < n) : LobTrie (lobEncItem S n t w).1 (lobEncItem S n t w).2.p := by
  obtain ⟨hwf, hwin, hreach⟩ := lobEncItem_inStep (S := S) h.wf h.reaches hn hp
  exact ⟨hwf, hwin.trans h.window, hreach⟩

/-- A match that the search finds begins before the position, within the window (R83, R88). -/
theorem LobTrie.distance {S : Nat → Byte} {t : Trie} {k m q l : Nat} (h : LobTrie t k)
    (hs : t.search S k m = (q, l)) (hl : 0 < l) : 1 ≤ k - q ∧ k - q ≤ 4095 := by
  obtain ⟨hlt, hle⟩ := Trie.search_anchor h.wf h.reaches hs hl
  rw [h.window] at hle
  omega

theorem lobEncItem_match {S : Nat → Byte} {n : Nat} {t : Trie} {w : LobEnc} {q l : Nat} (ht : LobTrie t w.p)
    (hs : t.search S w.p (min 18 (n - w.p)) = (q, l)) (hl : 3 ≤ l) :
    lobEncItem S n t w = (t.inserts S n 18 w.p l,
      { w.afterItem false (lobMatchBytes (w.p - q) l) with p := w.p + l }) := by
  have hle := Trie.search_le t S w.p (min 18 (n - w.p))
  rw [hs] at hle
  obtain ⟨-, hd⟩ := ht.distance hs (by omega)
  rw [lobEncItem, show Config.lobMaxMatch = 18 from rfl, hs, ← LobEnc.putMatch_eq w hd (by omega),
    ← Trie.addRuns_eq_inserts]
  simp only [if_pos hl]

theorem lobEncItem_literal {S : Nat → Byte} {n : Nat} {t : Trie} {w : LobEnc} {q l : Nat}
    (hs : t.search S w.p (min 18 (n - w.p)) = (q, l)) (hl : l < 3) :
    lobEncItem S n t w = (t.inserts S n 18 w.p 1, { w.afterItem true [S w.p] with p := w.p + 1 }) := by
  rw [lobEncItem, show Config.lobMaxMatch = 18 from rfl, hs, ← LobEnc.putLiteral_eq, ← Trie.addRuns_eq_inserts]
  simp only [if_neg (Nat.not_le.2 hl)]

/-! #### The form of the output -/

/-- A block's first item opens its control byte (R89). -/
theorem LobEnc.afterItem_opens {w : LobEnc} (h : w.ci = none ∨ w.cnt = 8) (literal : Bool) (bs : List Byte) :
    w.afterItem literal bs =
      { w with
        out := (if literal then orAt (w.out ++ [0]) w.out.length 128 else w.out ++ [0]) ++ bs
        ci := some w.out.length
        cnt := 1 } := by
  simp [LobEnc.afterItem, h]

/-- A later item of a block has its bit in the control byte that is open (R89). -/
theorem LobEnc.afterItem_open {w : LobEnc} {k : Nat} (hci : w.ci = some k) (hcnt : w.cnt ≠ 8) (literal : Bool)
    (bs : List Byte) :
    w.afterItem literal bs =
      { w with
        out := (if literal then orAt w.out k (128 / 2 ^ w.cnt) else w.out) ++ bs
        ci := some k
        cnt := w.cnt + 1 } := by
  simp [LobEnc.afterItem, hci, hcnt]

theorem orAt_length (out : List Byte) (k v : Nat) : (orAt out k v).length = out.length := by
  simp [orAt]

/-- The output begins with a control byte whose first bit is set, and the literal byte `b` (R61, R92). -/
def BeginsWithLiteral (b : Byte) (out : List Byte) : Prop := ∃ c rest, out = c :: b :: rest ∧ c.getLsbD 7 = true

theorem BeginsWithLiteral.append {b : Byte} {out : List Byte} (h : BeginsWithLiteral b out) (bs : List Byte) :
    BeginsWithLiteral b (out ++ bs) := by
  obtain ⟨c, rest, rfl, hc⟩ := h
  exact ⟨c, rest ++ bs, rfl, hc⟩

/-- Setting bits of a control byte, which is not the literal at index 1, leaves that beginning. -/
theorem BeginsWithLiteral.orAt {b : Byte} {out : List Byte} (h : BeginsWithLiteral b out) {k : Nat} (hk : k ≠ 1)
    (v : Nat) : BeginsWithLiteral b (orAt out k v) := by
  obtain ⟨c, rest, rfl, hc⟩ := h
  match k, hk with
  | 0, _ => exact ⟨c ||| BitVec.ofNat 8 v, rest, rfl, by simp [hc]⟩
  | k + 2, _ => exact ⟨c, Machine.orAt rest k v, rfl, hc⟩

theorem BeginsWithLiteral.two_le {b : Byte} {out : List Byte} (h : BeginsWithLiteral b out) : 2 ≤ out.length := by
  obtain ⟨c, rest, rfl, -⟩ := h
  simp

/-- LOB_COMPRESS inside its stream: the output begins with the literal `b`, the open control byte is another byte
than that literal, and the length is at most a byte for each byte covered and one for every 8 items (R89). -/
structure LobEnc.InStream (b : Byte) (w : LobEnc) : Prop where
  begins : BeginsWithLiteral b w.out
  open_block : ∃ k, w.ci = some k ∧ k ≠ 1
  cnt_pos : 1 ≤ w.cnt
  cnt_le : w.cnt ≤ 8
  length_le : 8 * w.out.length + w.cnt ≤ 9 * w.p + 8

/-- An item that is short for what it covers keeps the form. -/
theorem LobEnc.InStream.item {b : Byte} {w : LobEnc} (h : w.InStream b) (literal : Bool) {bs : List Byte} {adv : Nat}
    (hshort : 8 * bs.length + 1 ≤ 9 * adv) :
    LobEnc.InStream b { w.afterItem literal bs with p := w.p + adv } := by
  obtain ⟨hbegins, ⟨k, hci, hk⟩, hpos, hle, hlen⟩ := h
  have htwo := hbegins.two_le
  by_cases h8 : w.cnt = 8
  · rw [LobEnc.afterItem_opens (.inr h8)]
    refine ⟨?_, ⟨_, rfl, by omega⟩, Nat.le_refl _, show 1 ≤ 8 by decide, ?_⟩
    · cases literal with
      | false => exact (hbegins.append [0]).append bs
      | true => exact ((hbegins.append [0]).orAt (by omega) _).append bs
    · cases literal <;> simp [orAt_length] <;> omega
  · rw [LobEnc.afterItem_open hci h8]
    refine ⟨?_, ⟨k, rfl, hk⟩, Nat.succ_pos _, Nat.lt_of_le_of_ne hle h8, ?_⟩
    · cases literal with
      | false => exact hbegins.append bs
      | true => exact (hbegins.orAt hk _).append bs
    · cases literal <;> simp [orAt_length] <;> omega

/-- LOB_COMPRESS's state before its first item (R86). -/
def LobEnc.start : LobEnc := { p := 0, out := [], ci := none, cnt := 0 }

/-- The first literal opens the stream (R88, R89). -/
theorem LobEnc.start_inStream (b : Byte) : LobEnc.InStream b { LobEnc.start.afterItem true [b] with p := 1 } :=
  ⟨⟨0x80, [], rfl, rfl⟩, ⟨0, rfl, by decide⟩, Nat.le_refl 1, show 1 ≤ 8 by decide, Nat.le_refl 17⟩

/-- What every item of LOB_COMPRESS keeps: the trie has every position covered, none of them past the input, and the
output has the form of a stream from its first item on. -/
structure LobEnc.Keeps (S : Nat → Byte) (n : Nat) (t : Trie) (w : LobEnc) : Prop where
  trie : LobTrie t w.p
  p_le : w.p ≤ n
  stream : w = LobEnc.start ∨ w.InStream (S 0)

/-- At the start the trie has no entry, so the first item is a literal; from then on an item covers what it writes. -/
theorem LobEnc.Keeps.item {S : Nat → Byte} {n : Nat} {t : Trie} {w : LobEnc} (h : LobEnc.Keeps S n t w)
    (hn : n < 2 ^ 32) (hp : w.p < n) : LobEnc.Keeps S n (lobEncItem S n t w).1 (lobEncItem S n t w).2 := by
  obtain ⟨htrie, hle, hstream⟩ := h
  have htrie' := htrie.item (S := S) hn hp
  obtain ⟨⟨q, l⟩, hs⟩ : ∃ best, t.search S w.p (min 18 (n - w.p)) = best := ⟨_, rfl⟩
  have hmax := Trie.search_le t S w.p (min 18 (n - w.p))
  rw [hs] at hmax
  by_cases hl : 3 ≤ l
  · obtain ⟨hd, -⟩ := htrie.distance hs (by omega)
    rw [lobEncItem_match htrie hs hl] at htrie' ⊢
    refine ⟨htrie', by dsimp only; omega, .inr ?_⟩
    obtain rfl | hstream := hstream
    · exact absurd hd (by simp [LobEnc.start])
    · exact hstream.item false (by simp [lobMatchBytes]; omega)
  · rw [lobEncItem_literal hs (by omega)] at htrie' ⊢
    refine ⟨htrie', hp, .inr ?_⟩
    obtain rfl | hstream := hstream
    · exact LobEnc.start_inStream (S 0)
    · exact hstream.item true (by simp)

/-- The padded output has even length, and fits in the room for the worst case (R90). -/
theorem LobEnc.InStream.padded {b : Byte} {w : LobEnc} (h : w.InStream b) :
    BeginsWithLiteral b w.padded ∧ w.padded.length % 2 = 0 ∧ w.padded.length ≤ w.p + w.p / 8 + 4 := by
  obtain ⟨hbegins, ⟨k, hci, hk⟩, hpos, hle, hlen⟩ := h
  unfold LobEnc.padded
  split
  · next heven => exact ⟨hbegins, heven, by omega⟩
  · split
    · next h8 =>
      rw [LobEnc.afterItem_open hci (by omega)]
      refine ⟨(hbegins.orAt hk _).append [0], ?_, ?_⟩ <;> simp [orAt_length] <;> omega
    · exact ⟨hbegins.append _, by simp; omega, by simp; omega⟩

/-- LOB_COMPRESS of 20 bytes or more begins with an empty trie and no output (R84, R86). -/
theorem lobCompressBegin_eq {s : State} (hr : RegionsOk s) (h20 : 20 ≤ s.slen) :
    lobCompressBegin s
      = { s with trie := Trie.withWindow Config.lobWindow, work := .lobEnc LobEnc.start } := by
  simp only [lobCompressBegin, State.checkRegions_ok hr]
  exact if_neg (Nat.not_lt.2 h20)

/-- LOB_COMPRESS of 20 bytes or more gives a stream of even length that begins with a literal, within the room for the
worst case (R88 to R90). -/
theorem exec_lobCompress_stream {s : State} (hr : RegionsOk s) (h20 : 20 ≤ s.slen) :
    ∃ out, exec .lobCompress s = .next (s.compressed opLobCompress out false)
      ∧ BeginsWithLiteral (s.srcByte 0) out ∧ out.length % 2 = 0 ∧ out.length ≤ s.slen + s.slen / 8 + 4 := by
  have hkeeps : LobEnc.Keeps s.srcByte s.slen (Trie.withWindow Config.lobWindow) LobEnc.start :=
    ⟨⟨Trie.withWindow_wf (by decide) (by decide), rfl, Trie.withWindow_reaches _⟩, Nat.zero_le _, .inl rfl⟩
  obtain ⟨t, w, ⟨-, hle, hstream⟩, hend, hrun⟩ := lobParse.run_finishes
    (fun _ _ h hp => h.item s.ctx.slen.isLt hp) (s.slen + 1) hkeeps (Nat.lt_succ_of_le (Nat.sub_le ..))
  have hp : w.p = s.slen := Nat.le_antisymm hle hend
  have hin : w.InStream (s.srcByte 0) := hstream.resolve_left (by rintro rfl; simp [LobEnc.start] at hp; omega)
  refine ⟨w.pad, ?_, ?_⟩
  · refine congrArg Host.Outcome.next ?_
    rw [lobCompressBegin_eq hr h20]
    exact hrun
  · rw [LobEnc.pad_eq, ← hp]
    exact hin.padded

theorem step_lobEnc {s : State} {w : LobEnc} (h : EngineNext s) (hw : s.work = .lobEnc w) :
    step s = .next (lobEncTurn s) :=
  step_internal h (by simp [hw]) (by rw [fetchRunning, hw])

theorem lobEncTurn_item {s : State} {w : LobEnc} (hw : s.work = .lobEnc w) (hp : w.p < s.slen) :
    lobEncTurn s = { s with
      trie := (lobEncItem s.srcByte s.slen s.trie w).1
      work := .lobEnc (lobEncItem s.srcByte s.slen s.trie w).2 } := by
  rw [lobEncTurn, hw]
  exact if_pos hp

theorem lobEncTurn_finish {s : State} {w : LobEnc} (hw : s.work = .lobEnc w) (hp : s.slen ≤ w.p) :
    lobEncTurn s = s.settle opLobCompress (s.checkCapacity w.padded) := by
  rw [lobEncTurn, hw, ← LobEnc.pad_eq]
  exact if_neg (Nat.not_lt.2 hp)

/-- Settles O27. The whole stream has the form that every item keeps (`LobEnc.Keeps`); a turn is one item
(`lobEncItem_match`, `lobEncItem_literal`), or the padding. -/
theorem lobCompressWritesAnEvenStream : Obligations.LobCompressWritesAnEvenStream := by
  refine ⟨fun s hu hr h20 hroom => ?_, fun s rest hbegin hr h20 => ?_, fun s w q l hnext hinv hw hp hs => ?_,
    fun s w hnext hu hr hw hp => ?_⟩
  · obtain ⟨out, hexec, ⟨c, rest, rfl, hc⟩, heven, hlen⟩ := exec_lobCompress_stream hr h20
    rw [State.compressed_of_le (hlen.trans hroom)] at hexec
    refine ⟨_, c, rest, hexec, s.succeed_writesOutput _ _ hu rfl hr.2.1 (hlen.trans hroom), hc, ?_, ?_⟩
    · simp only [List.length_cons] at heven
      omega
    · rw [State.succeed_trie]
      rfl
  · rw [step_beginning hbegin]
    exact congrArg Host.Outcome.next (lobCompressBegin_eq (s := { s with inputs := rest, response := .none }) hr h20)
  · have htrie := LobTrie.of_inv hinv hw
    rw [step_lobEnc hnext hw, lobEncTurn_item hw hp]
    refine ⟨fun hl => ?_, fun hl => ?_⟩
    · obtain ⟨hpos, hle⟩ := htrie.distance hs (by omega)
      rw [lobEncItem_match htrie hs hl]
      exact ⟨hpos, hle, rfl⟩
    · rw [lobEncItem_literal hs hl]
  · rw [step_lobEnc hnext hw, lobEncTurn_finish hw hp]
    exact ⟨_, rfl, State.settle_checkCapacity _ _ hu hr (.inl rfl)⟩

end Sys2Proof.Machine

/-! ### The trie commands -/

namespace Sys2Proof.Machine

/-- A trie command that succeeds leaves the trie and the match registers it has computed, and memory as it was (R44,
R148). -/
theorem State.succeed_trieCommand {s : State} (hd : s.srcDirty = false) {op : Byte} (hc : isCompress op = false)
    (hdest : writesDest op = false) (hsrc : writesSource op = false) (t : Trie) (off len : Word) :
    let u := State.succeed { s with trie := t, matchOff := off, matchLen := len } op [] false
    SucceedsWith s u 0 false ∧ (u.matchOff = off ∧ u.matchLen = len) ∧ u.mem = s.mem ∧ u.trie = t := by
  have hd' : State.srcDirty { s with trie := t, matchOff := off, matchLen := len } = false := hd
  exact ⟨State.succeed_succeedsWith op [] false hd',
    ⟨State.succeed_matchOff _ _ _ _ hd', State.succeed_matchLen _ _ _ _ hd'⟩,
    State.succeed_mem_no_region hdest hsrc .., by simp [hc]⟩

/-- Settles O21. A window is accepted up to 4095 (`trieInitRun_of_le`) and refused above it. -/
theorem trieInitSetsTheWindow : Obligations.TrieInitSetsTheWindow := by
  refine ⟨rfl, fun s h0 => ⟨_, congrArg Host.Outcome.next (trieInitRun_of_le (by omega)), ?_⟩, fun s hu =>
    ⟨fun hle => ?_, fun hlt => ?_⟩⟩
  · rw [State.succeed_trie, if_pos h0]
    rfl
  · exact ⟨_, congrArg Host.Outcome.next (trieInitRun_of_le hle),
      State.succeed_trieCommand hu.1 rfl rfl rfl (Trie.withWindow _) s.matchOff s.matchLen⟩
  · exact ⟨_, congrArg Host.Outcome.next (trieInitRun_of_lt hlt),
      State.raiseError_commandRefused opTrieInit hu.1 (by decide) rfl rfl⟩

/-! #### TRIE_ADD -/

/-- TRIE_ADD accepts operands that are in range, in the buffer and above the last anchor (R81). -/
theorem trieAddCheck_of_insertable {s : State} (hv : s.validRegion s.src s.slen = true) (h1 : 1 ≤ s.p1)
    (h130 : s.p1 ≤ 130) (hin : s.p0 + s.p1 ≤ s.slen) (hlast : ∀ q, s.trie.last = some q → q < s.p0) :
    trieAddCheck s = .ok () := by
  have hrange : ¬ (s.p1 < 1 ∨ Config.trieMaxRun < s.p1) := not_or.2 ⟨Nat.not_lt.2 h1, Nat.not_lt.2 h130⟩
  rw [trieAddCheck, State.checkSource_ok hv]
  dsimp only
  rw [if_neg hrange, if_neg (Nat.not_lt.2 hin)]
  cases hq : s.trie.last with
  | none => rfl
  | some q => exact if_neg (Nat.not_le.2 (hlast q hq))

/-- Every check of TRIE_ADD refuses with MISUSE(0) (R81, R145). -/
theorem trieAddCheck_error {s : State} {r : Raise} (h : trieAddCheck s = .error r) : r = ⟨.misuse, 0⟩ := by
  cases hv : s.validRegion s.src s.slen with
  | false =>
    rw [trieAddCheck, State.checkSource_error hv] at h
    cases h
    rfl
  | true =>
    rw [trieAddCheck, State.checkSource_ok hv] at h
    dsimp only at h
    split at h
    · cases h
      rfl
    · split at h
      · cases h
        rfl
      · split at h
        · split at h <;> cases h
          rfl
        · cases h

/-- Settles O22. An insertion's lookups are `Trie.add_lookup`; operands that an insertion cannot take are the ones the
checks refuse. -/
theorem trieAddInsertsAndEvicts : Obligations.TrieAddInsertsAndEvicts := by
  refine ⟨fun s hu hv h1 h130 hin hlast => ?_, fun s hu hbad => ?_⟩
  · have hexec : exec .trieAdd s = .next
        (State.succeed { s with trie := s.trie.add s.p0 (bytesOf s.srcByte s.p0 s.p1) } opTrieAdd [] false) := by
      simp only [exec, execTrieAdd, trieAddRun, trieAddCheck_of_insertable hv h1 h130 hin hlast]
    obtain ⟨hok, hmatch, hmem, htrie⟩ := State.succeed_trieCommand (op := opTrieAdd) hu.1 rfl rfl rfl
      (s.trie.add s.p0 (bytesOf s.srcByte s.p0 s.p1)) s.matchOff s.matchLen
    have hrun : bytesOf s.srcByte s.p0 s.p1 = (List.range s.p1).map (fun j => s.readByte (s.src + (s.p0 + j))) :=
      List.map_congr_left fun j _ => State.srcByte_undisturbed hu.1 _
    refine ⟨_, hexec, hok, hmatch, hmem, ?_⟩
    rw [htrie, ← hrun]
    exact ⟨rfl, rfl, fun q => Trie.add_lookup ..⟩
  · cases hc : trieAddCheck s with
    | ok _ =>
      obtain ⟨h1, h130, hlast⟩ := insertable_of_trieAddCheck_ok hc
      have hin := trieAddCheck_ok hc
      rw [Config.trieMaxRun] at h130
      obtain h | h | h | ⟨q, hq, hle⟩ := hbad
      · omega
      · omega
      · omega
      · exact absurd (hlast q hq) (Nat.not_lt.2 hle)
    | error r =>
      obtain rfl := trieAddCheck_error hc
      refine ⟨_, ?_, State.raiseError_commandRefused opTrieAdd hu.1 (by decide) rfl rfl⟩
      simp only [exec, execTrieAdd, trieAddRun, hc]

/-! #### TRIE_MATCH -/

/-- TRIE_MATCH's checks on its operands, once its region is valid (R83). -/
theorem trieMatchCheck_of_valid {s : State} (hv : s.validRegion s.src s.slen = true) :
    trieMatchCheck s = if 130 < s.p1 ∨ s.slen < s.p0 + s.p1 then .error ⟨.misuse, 0⟩ else .ok () := by
  rw [trieMatchCheck, State.checkSource_ok hv]
  dsimp only
  by_cases h130 : 130 < s.p1
  · rw [if_pos (show Config.trieMaxRun < s.p1 from h130), if_pos (.inl h130)]
  · rw [if_neg (show ¬ Config.trieMaxRun < s.p1 from h130)]
    simp only [h130, false_or]

/-- Operands that TRIE_MATCH cannot search with end in MISUSE(0) (R83). -/
theorem exec_trieMatch_refused {s : State} (h : 130 < s.p1 ∨ s.slen < s.p0 + s.p1) :
    exec .trieMatch s = .next (s.raiseError opTrieMatch ⟨.misuse, 0⟩) := by
  cases hv : s.validRegion s.src s.slen with
  | false => exact exec_trieMatch_invalid hv
  | true => simp only [exec, execTrieMatch, trieMatchRun, trieMatchCheck_of_valid hv, if_pos h]

/-- Settles O23. The checks pass exactly when the search can be made, and its answer is what is written. -/
theorem trieMatchReportsTheSearch : Obligations.TrieMatchReportsTheSearch := by
  refine fun s hu => ⟨fun hv h130 hin => ?_, fun hbad => ?_⟩
  · have hexec : exec .trieMatch s = .next (State.succeed
        { s with
          matchOff := BitVec.ofNat 32 (s.trie.search s.srcByte s.p0 s.p1).1
          matchLen := BitVec.ofNat 32 (s.trie.search s.srcByte s.p0 s.p1).2 } opTrieMatch [] false) := by
      simp only [exec, execTrieMatch, trieMatchRun, trieMatchCheck_of_valid hv]
      rw [if_neg (by omega)]
    obtain ⟨hok, ⟨hoff, hlen⟩, hmem, htrie⟩ := State.succeed_trieCommand (op := opTrieMatch) hu.1 rfl rfl rfl s.trie
      (BitVec.ofNat 32 (s.trie.search s.srcByte s.p0 s.p1).1) (BitVec.ofNat 32 (s.trie.search s.srcByte s.p0 s.p1).2)
    exact ⟨_, hexec, hok, htrie, hmem, hoff, hlen⟩
  · refine ⟨_, exec_trieMatch_refused hbad, State.raiseError_failsWith opTrieMatch ⟨.misuse, 0⟩ hu.1, ?_, ?_,
      State.raiseError_trie .., State.raiseError_mem_no_region rfl rfl ..⟩
    · rw [State.raiseError_matchOff _ _ _ hu.1, if_pos rfl]
    · rw [State.raiseError_matchLen _ _ _ hu.1, if_pos rfl]

end Sys2Proof.Machine

/-! ### The search -/

namespace Sys2Proof.Machine

/-- `(q, l)` is what R83 asks of a search over the entries `es`: a longest match of at most `m` bytes with the largest
anchor among equals, or (0, 0). -/
structure IsBestMatch (S : Nat → Byte) (s m : Nat) (es : List (Nat × List Byte)) (q l : Nat) : Prop where
  le : l ≤ m
  zero : l = 0 → q = 0
  reached : 0 < l → ∃ e, (q, e) ∈ es ∧ Agrees S s e l
  longest : ∀ q' e' l', (q', e') ∈ es → l' ≤ m → Agrees S s e' l' → l' ≤ l ∧ (l' = l → 0 < l → q' ≤ q)

theorem IsBestMatch.nil (S : Nat → Byte) (s m : Nat) : IsBestMatch S s m [] 0 0 :=
  ⟨Nat.zero_le m, fun _ => rfl, fun h => absurd h (Nat.lt_irrefl 0), fun _ _ _ h => absurd h List.not_mem_nil⟩

/-- One more entry: it takes the place of the best so far when it agrees with more bytes, or with as many from a
larger anchor. -/
theorem IsBestMatch.betterMatch {S : Nat → Byte} {s m : Nat} {es : List (Nat × List Byte)} {best : Nat × Nat}
    (h : IsBestMatch S s m es best.1 best.2) (e : Nat × List Byte) :
    IsBestMatch S s m (es ++ [e]) (betterMatch S s m best e).1 (betterMatch S s m best e).2 := by
  obtain ⟨hle, hzero, hreached, hlongest⟩ := h
  obtain ⟨hle', hagrees, hmax⟩ := matchLength_spec S m s e.2
  rw [Machine.betterMatch]
  generalize matchLength S m s e.2 = l at *
  split
  · next hbetter =>
    refine ⟨hle', fun h0 => ?_, fun _ => ⟨e.2, by simp, hagrees⟩, fun q' e' l' hmem hl' ha => ?_⟩
    · dsimp only at h0
      omega
    · dsimp only
      obtain hmem | hmem := List.mem_append.1 hmem
      · obtain ⟨h1, h2⟩ := hlongest q' e' l' hmem hl' ha
        exact ⟨by omega, fun heq hpos => by have := h2 (by omega) (by omega); omega⟩
      · obtain rfl := List.mem_singleton.1 hmem
        exact ⟨hmax l' hl' ha, fun _ _ => Nat.le_refl _⟩
  · next hbetter =>
    refine ⟨hle, hzero, fun hpos => ?_, fun q' e' l' hmem hl' ha => ?_⟩
    · obtain ⟨e', hmem, ha⟩ := hreached hpos
      exact ⟨e', List.mem_append_left _ hmem, ha⟩
    · obtain hmem | hmem := List.mem_append.1 hmem
      · exact hlongest q' e' l' hmem hl' ha
      · obtain rfl := List.mem_singleton.1 hmem
        have := hmax l' hl' ha
        dsimp only at hbetter
        omega

theorem Trie.search_isBestMatch (t : Trie) (S : Nat → Byte) (s m : Nat) :
    IsBestMatch S s m t.entries (t.search S s m).1 (t.search S s m).2 := by
  rw [Trie.search]
  induction t.entries using List.reverseRecOn with
  | nil => exact IsBestMatch.nil S s m
  | append_singleton es e ih =>
    rw [List.foldl_concat]
    exact ih.betterMatch e

/-- Settles O24. The search is a fold of `betterMatch`, which keeps the best match of the entries seen so far. -/
theorem searchFindsTheLongestMatch : Obligations.SearchFindsTheLongestMatch := by
  intro t S s m q l hs
  have h := t.search_isBestMatch S s m
  rw [hs] at h
  exact ⟨h.le, h.zero, h.reached, h.longest⟩

/-- A buffer that repeats itself from distance `d` on is what copying from that distance gives (R85). -/
theorem bytesOf_copiesFrom {S : Nat → Byte} {s d l : Nat} (h : ∀ k, k < l → S (s + k - d) = S (s + k)) :
    CopiesFrom (s + l) d l (bytesOf S 0 s) (bytesOf S 0 (s + l)) := by
  refine ⟨by simp, ?_, fun k hk hkl => ?_⟩
  · rw [bytesOf_length, bytesOf_take, Nat.min_eq_right (Nat.le_add_right s l)]
  · rw [bytesOf_length] at hk hkl
    rw [bytesOf_getElem? _ _ _ _ hkl, bytesOf_getElem? _ _ _ _ (by omega), Nat.zero_add, Nat.zero_add]
    have := h (k - s) (by omega)
    rw [show s + (k - s) = k by omega] at this
    rw [this]

/-- Settles O25. The best match's entry holds the buffer's bytes from its anchor, so the buffer repeats itself at the
match's distance. -/
theorem matchReproducesThePrefix : Obligations.MatchReproducesThePrefix := by
  intro t S s m q l hentries hs hl
  have h := t.search_isBestMatch S s m
  rw [hs] at h
  obtain ⟨e, hmem, -, hbytes⟩ := h.reached hl
  have hsame (k : Nat) (hk : k < l) : S (q + k) = S (s + k) := (hentries q e hmem k _ (hbytes k hk)).symm
  refine ⟨hsame, fun hq => ?_, fun q' e' l' hmem' hl' ha => (h.longest q' e' l' hmem' hl' ha).1⟩
  have hrepeats (k : Nat) (hk : k < l) : S (s + k - (s - q)) = S (s + k) := by
    rw [show s + k - (s - q) = q + k by omega, hsame k hk]
  have hdist : s - q ≤ (bytesOf S 0 s).length := by simp
  exact (copyMatch_copiesFrom (by omega) l _ hdist (by simp)).unique (by omega) hdist (bytesOf_copiesFrom hrepeats)

end Sys2Proof.Machine

/-! ### Running compressors -/

namespace Sys2Proof.Machine

/-- A running compressor's trie: its command's window, with every position before `k` inserted (R84). -/
structure TrieInStep (t : Trie) (window k : Nat) : Prop where
  wf : t.wf
  window_eq : t.window = window
  reaches : t.reaches k

theorem TrieInStep.start {window : Nat} (h1 : 1 ≤ window) (h2 : window ≤ Config.trieMaxWindow) :
    TrieInStep (Trie.withWindow window) window 0 :=
  ⟨Trie.withWindow_wf h1 h2, rfl, Trie.withWindow_reaches _⟩

theorem TrieInStep.inserts {S : Nat → Byte} {n cap count window k : Nat} {t : Trie} (h : TrieInStep t window k)
    (hn : n < 2 ^ 32) (h1 : 1 ≤ cap) (h2 : cap ≤ Config.trieMaxRun) (hc : count = 0 ∨ k + count ≤ n) :
    TrieInStep (t.inserts S n cap k count) window (k + count) := by
  obtain ⟨hwf, hwin, hreach⟩ := Trie.addRuns_inStep (S := S) h.wf h.reaches hn h1 h2 hc
  rw [← Trie.addRuns_eq_inserts]
  exact ⟨hwf, hwin.trans h.window_eq, hreach⟩

/-- A match's anchor is one of the positions inserted, and not before the window (R82, R83). -/
theorem TrieInStep.anchor {S : Nat → Byte} {window k p m q l : Nat} {t : Trie} (h : TrieInStep t window k)
    (hs : t.search S p m = (q, l)) (hl : 0 < l) : q < k ∧ k ≤ q + window :=
  h.window_eq ▸ Trie.search_anchor h.wf h.reaches hs hl

theorem TrieInStep.of_xlobEnc {s : State} (h : s.Inv) {w : XlobEnc} (hw : s.work = .xlobEnc w) :
    TrieInStep s.trie 1023 w.p ∧ w.lits.length < 127 := by
  have hstep := h.workInStep
  rw [WorkInStep, hw] at hstep
  obtain ⟨hwin, hreach, hlits⟩ := hstep
  exact ⟨⟨h.trie_wf, hwin, hreach⟩, hlits⟩

theorem TrieInStep.of_tlobEnc {s : State} (h : s.Inv) {w : TlobEnc} (hw : s.work = .tlobEnc w) :
    TrieInStep s.trie 480 w.nxt ∧ w.nxt ≤ w.p - 2 := by
  have hstep := h.workInStep
  rw [WorkInStep, hw] at hstep
  obtain ⟨hwin, hreach, hlag⟩ := hstep
  exact ⟨⟨h.trie_wf, hwin, hreach⟩, hlag⟩

/-! #### A turn of a running compressor -/

/-- A running compressor whose input is not used up takes one item (R88, R97, R114). -/
theorem Parse.step_item {W : Type} (P : Parse W) {s : State} {w : W} (h : EngineNext s)
    (hf : fetchRunning s = .internal (P.turn s)) (hw : s.work = P.work w) (hp : P.pos w < s.slen) :
    step s = .next { s with
      trie := (P.item s.srcByte s.slen s.trie w).1
      work := P.work (P.item s.srcByte s.slen s.trie w).2 } := by
  have hturn := P.turn_item s s.trie w hp
  rw [← hw] at hturn
  rw [step_internal h (hw ▸ P.work_ne_none w) hf]
  exact congrArg Host.Outcome.next hturn

/-- A running compressor whose input is used up ends with its finished output (R86, R96, R111). -/
theorem Parse.step_finish {W : Type} (P : Parse W) {s : State} {w : W} (h : EngineNext s)
    (hf : fetchRunning s = .internal (P.turn s)) (hw : s.work = P.work w) (hp : s.slen ≤ P.pos w) :
    step s = .next (s.settle P.op (s.checkCapacity (P.finish w))) := by
  have hturn := P.turn_finish s s.trie w (Nat.not_lt.2 hp)
  rw [← hw] at hturn
  rw [step_internal h (hw ▸ P.work_ne_none w) hf]
  exact congrArg Host.Outcome.next hturn

/-- An output made even has at most one byte more (R102, R117). -/
theorem evened_spec (out : List Byte) :
    out <+: evened out ∧ (evened out).length % 2 = 0 ∧ (evened out).length = out.length + out.length % 2 := by
  unfold evened
  split
  · exact ⟨List.prefix_rfl, by omega, by omega⟩
  · exact ⟨List.prefix_append .., by simp; omega, by simp; omega⟩

end Sys2Proof.Machine

/-! ### XLOB_COMPRESS's stream -/

namespace Sys2Proof.Machine

/-! #### One token -/

/-- An iteration of the parse, in the bytes of the statements: the run at the position, the match found or a literal
(R97). -/
theorem xlobEncItem_eq {S : Nat → Byte} {n r q l : Nat} {t : Trie} {w : XlobEnc} (ht : TrieInStep t 1023 w.p)
    (hlits : w.lits.length < 127) (hp : w.p < n) (hr : IsRunAt S n w.p r)
    (hs : t.search S w.p (min 130 (n - w.p)) = (q, l)) :
    xlobEncItem S n t w =
      if 3 ≤ r ∧ l ≤ r then (t.inserts S n 130 w.p r, { w.afterRun (S w.p) r with p := w.p + r })
      else if 3 ≤ l then (t.inserts S n 130 w.p l, { w.afterMatch (w.p - q) l with p := w.p + l })
      else (t.inserts S n 130 w.p 1, { w.afterLiteral (S w.p) with p := w.p + 1 }) := by
  obtain ⟨-, hcap, -⟩ := id hr
  have hle := Trie.search_le t S w.p (min 130 (n - w.p))
  rw [hs] at hle
  dsimp only at hle
  rw [xlobEncItem, (xlobRunAt_isRunAt S hp).unique hr, show Config.xlobMaxMatch = 130 from rfl, hs]
  simp only [Trie.addRuns_eq_inserts]
  by_cases hrun : 3 ≤ r ∧ l ≤ r
  · simp only [if_pos hrun, XlobEnc.putRun_eq w (S w.p) hlits.le hrun.1 hcap]
  · simp only [if_neg hrun]
    by_cases hmatch : 3 ≤ l
    · obtain ⟨-, hd⟩ := ht.anchor hs (by omega)
      simp only [if_pos hmatch, XlobEnc.putMatch_eq w hlits.le (show w.p - q ≤ 1023 by omega) (show l ≤ 130 by omega)]
    · simp only [if_neg hmatch, XlobEnc.addLiteral_eq]

/-! #### The length of the output -/

/-- The output with the pending literals written (R99). -/
def XlobEnc.written (w : XlobEnc) : List Byte := w.out ++ xlobLiterals w.lits

@[simp] theorem xlobLiterals_nil : xlobLiterals [] = [] := rfl

/-- A group of literals takes a byte each, and one more if it is a literal run (R99). -/
theorem xlobLiterals_length (xs : List Byte) :
    (xlobLiterals xs).length = xs.length + if xs.all (fun x => decide (x.toNat ≤ 31)) then 0 else 1 := by
  unfold xlobLiterals
  split <;> simp

theorem XlobEnc.afterRun_written_length (w : XlobEnc) (v : Byte) (r : Nat) :
    (w.afterRun v r).written.length = w.written.length + 2 := by
  unfold XlobEnc.afterRun XlobEnc.written
  split <;> simp <;> omega

theorem XlobEnc.afterMatch_written_length (w : XlobEnc) (d l : Nat) :
    w.written.length + 2 ≤ (w.afterMatch d l).written.length
      ∧ (w.afterMatch d l).written.length ≤ w.written.length + 3 := by
  unfold XlobEnc.afterMatch XlobEnc.written
  dsimp only
  split
  · simp
    omega
  · split <;> simp [orAt_length] <;> omega

theorem XlobEnc.afterLiteral_written_length (w : XlobEnc) (v : Byte) :
    w.written.length + 1 ≤ (w.afterLiteral v).written.length
      ∧ (w.afterLiteral v).written.length ≤ w.written.length + 2 := by
  have heq : (w.afterLiteral v).written = w.out ++ xlobLiterals (w.lits ++ [v]) := by
    unfold XlobEnc.afterLiteral XlobEnc.written
    split
    · exact List.append_nil _
    · rfl
  rw [heq, XlobEnc.written]
  simp only [List.length_append, xlobLiterals_length, List.length_singleton, List.all_append]
  cases w.lits.all (fun x => decide (x.toNat ≤ 31)) <;> cases [v].all (fun x => decide (x.toNat ≤ 31)) <;>
    simp <;> omega

/-! #### The whole stream -/

/-- XLOB_COMPRESS's state before its first token (R96). -/
def XlobEnc.start : XlobEnc := { p := 0, out := [], lits := [], pend := none }

/-- What every token of XLOB_COMPRESS keeps: the trie has every position covered, none of them past the input, and the
output has at most two bytes for each, and at least one byte once a position is covered. -/
structure XlobEnc.Keeps (n : Nat) (t : Trie) (w : XlobEnc) : Prop where
  trie : TrieInStep t 1023 w.p
  p_le : w.p ≤ n
  lits_lt : w.lits.length < 127
  length_le : w.written.length ≤ 2 * w.p
  length_pos : w.p = 0 ∨ 0 < w.written.length

theorem XlobEnc.Keeps.item {S : Nat → Byte} {n : Nat} {t : Trie} {w : XlobEnc} (h : XlobEnc.Keeps n t w)
    (hn : n < 2 ^ 32) (hp : w.p < n) : XlobEnc.Keeps n (xlobEncItem S n t w).1 (xlobEncItem S n t w).2 := by
  obtain ⟨htrie, hle, hlits, hlen, hpos⟩ := h
  obtain ⟨-, -, -, hlits'⟩ := xlobEncItem_inStep (S := S) htrie.wf htrie.reaches hn hp hlits
  have hrun := xlobRunAt_isRunAt S hp
  obtain ⟨-, -, hfits, -⟩ := id hrun
  obtain ⟨⟨q, l⟩, hs⟩ : ∃ best, t.search S w.p (min 130 (n - w.p)) = best := ⟨_, rfl⟩
  have hmax := Trie.search_le t S w.p (min 130 (n - w.p))
  rw [hs] at hmax
  dsimp only at hmax
  rw [xlobEncItem_eq htrie hlits hp hrun hs] at hlits' ⊢
  have covers {adv : Nat} {v : XlobEnc} (hadv : w.p + adv ≤ n) (hlt : v.lits.length < 127)
      (hmore : w.written.length < v.written.length) (hfew : v.written.length ≤ w.written.length + 2 * adv) :
      XlobEnc.Keeps n (t.inserts S n 130 w.p adv) { v with p := w.p + adv } :=
    ⟨htrie.inserts hn (by decide) (by decide) (.inr hadv), hadv, hlt,
      show v.written.length ≤ 2 * (w.p + adv) by omega, .inr (show 0 < v.written.length by omega)⟩
  split at hlits'
  · next h3 =>
    rw [if_pos h3]
    have := w.afterRun_written_length (S w.p) (xlobRunAt S n w.p)
    exact covers hfits hlits' (by omega) (by omega)
  · next h3 =>
    rw [if_neg h3]
    split at hlits'
    · next hl =>
      rw [if_pos hl]
      have := w.afterMatch_written_length (w.p - q) l
      exact covers (by omega) hlits' (by omega) (by omega)
    · next hl =>
      rw [if_neg hl]
      have := w.afterLiteral_written_length (S w.p)
      exact covers (by omega) hlits' (by omega) (by omega)

theorem xlobCompressBegin_eq {s : State} (hr : RegionsOk s) :
    xlobCompressBegin s
      = { s with trie := Trie.withWindow Config.xlobWindow, work := .xlobEnc XlobEnc.start } := by
  simp only [xlobCompressBegin, State.checkRegions_ok hr, XlobEnc.start]

/-- XLOB_COMPRESS gives a stream of even length, within the room for the worst case, and empty only for an empty input
(R96 to R102). -/
theorem exec_xlobCompress_stream {s : State} (hr : RegionsOk s) :
    ∃ out, exec .xlobCompress s = .next (s.compressed opXlobCompress out false) ∧ out.length % 2 = 0
      ∧ out.length ≤ 2 * s.slen ∧ (s.slen = 0 ↔ out = []) := by
  have hkeeps : XlobEnc.Keeps s.slen (Trie.withWindow Config.xlobWindow) XlobEnc.start :=
    ⟨TrieInStep.start (by decide) (by decide), Nat.zero_le _, by decide, Nat.le_refl _, .inl rfl⟩
  obtain ⟨t, w, ⟨-, hle, hlits, hlen, hpos⟩, hend, hrun⟩ := xlobParse.run_finishes
    (fun _ _ h hp => h.item s.ctx.slen.isLt hp) (s.slen + 1) hkeeps (Nat.lt_succ_of_le (Nat.sub_le ..))
  have hp : w.p = s.slen := Nat.le_antisymm hle hend
  obtain ⟨-, heven, hpad⟩ := evened_spec w.written
  refine ⟨w.finish, ?_, ?_⟩
  · refine congrArg Host.Outcome.next ?_
    rw [xlobCompressBegin_eq hr]
    exact hrun
  · rw [XlobEnc.finish_eq w hlits.le, ← XlobEnc.written, ← List.length_eq_zero_iff]
    exact ⟨heven, by omega, by omega⟩

/-! #### A turn -/

theorem fetchRunning_xlobEnc {s : State} {w : XlobEnc} (hw : s.work = .xlobEnc w) :
    fetchRunning s = .internal (xlobEncTurn s) := by
  rw [fetchRunning, hw]

theorem step_xlobEnc_item {s : State} {w : XlobEnc} (h : EngineNext s) (hw : s.work = .xlobEnc w) (hp : w.p < s.slen) :
    step s = .next { s with
      trie := (xlobEncItem s.srcByte s.slen s.trie w).1
      work := .xlobEnc (xlobEncItem s.srcByte s.slen s.trie w).2 } :=
  xlobParse.step_item h (fetchRunning_xlobEnc hw) hw hp

theorem step_xlobEnc_finish {s : State} {w : XlobEnc} (h : EngineNext s) (hw : s.work = .xlobEnc w)
    (hlits : w.lits.length ≤ 127) (hp : s.slen ≤ w.p) :
    step s = .next (s.settle opXlobCompress (s.checkCapacity (evened (w.out ++ xlobLiterals w.lits)))) :=
  XlobEnc.finish_eq w hlits ▸ xlobParse.step_finish h (fetchRunning_xlobEnc hw) hw hp

/-- Settles O33. The whole stream has the length that every token keeps (`XlobEnc.Keeps`); a turn is one token
(`xlobEncItem_eq`), or the padding. -/
theorem xlobCompressWritesAnEvenStream : Obligations.XlobCompressWritesAnEvenStream := by
  refine ⟨fun s hu hr hroom => ?_, fun s rest hbegin hr => ?_, fun s w r q l hnext hinv hw hp hrun hs => ?_,
    fun s w hnext hinv hu hr hw hp => ?_⟩
  · obtain ⟨out, hexec, heven, hlen, hempty⟩ := exec_xlobCompress_stream hr
    have hfits : out.length ≤ s.dcap := by omega
    rw [State.compressed_of_le hfits] at hexec
    refine ⟨_, out, hexec, s.succeed_writesOutput _ _ hu rfl hr.2.1 hfits, heven, ?_, hempty⟩
    rw [State.succeed_trie]
    rfl
  · rw [step_beginning hbegin]
    exact congrArg Host.Outcome.next (xlobCompressBegin_eq (s := { s with inputs := rest, response := .none }) hr)
  · obtain ⟨htrie, hlits⟩ := TrieInStep.of_xlobEnc hinv hw
    rw [step_xlobEnc_item hnext hw hp, xlobEncItem_eq htrie hlits hp hrun hs]
    refine ⟨fun hr3 hlr => ?_, fun hno hl => ?_, fun hr3 hl => ?_⟩
    · rw [if_pos ⟨hr3, hlr⟩]
    · obtain ⟨hlt, hwin⟩ := htrie.anchor hs (by omega)
      rw [if_neg (by omega), if_pos hl]
      exact ⟨by omega, by omega, rfl⟩
    · rw [if_neg (by omega), if_neg (by omega)]
  · obtain ⟨-, hlits⟩ := TrieInStep.of_xlobEnc hinv hw
    exact ⟨_, step_xlobEnc_finish hnext hw hlits.le hp, State.settle_checkCapacity _ _ hu hr (.inr (.inl rfl))⟩

end Sys2Proof.Machine

/-! ### TLOB_COMPRESS's stream -/

namespace Sys2Proof.Machine

/-! #### The check -/

theorem firstControlByte_eq_none {S : Nat → Byte} {count j : Nat}
    (h : ∀ k, j ≤ k → k < j + count → ¬ (1 ≤ (S k).toNat ∧ (S k).toNat ≤ 31)) : firstControlByte S count j = none := by
  induction count generalizing j with
  | zero => rfl
  | succ count ih =>
    rw [firstControlByte, if_neg (h j (Nat.le_refl j) (by omega))]
    exact ih fun k hk hlt => h k (by omega) (by omega)

theorem firstControlByte_eq_some {S : Nat → Byte} {count j i : Nat} (hj : j ≤ i) (hi : i < j + count)
    (hbyte : 1 ≤ (S i).toNat ∧ (S i).toNat ≤ 31)
    (h : ∀ k, j ≤ k → k < i → ¬ (1 ≤ (S k).toNat ∧ (S k).toNat ≤ 31)) : firstControlByte S count j = some i := by
  induction count generalizing j with
  | zero => omega
  | succ count ih =>
    rw [firstControlByte]
    obtain rfl | hlt := Nat.eq_or_lt_of_le hj
    · exact if_pos hbyte
    · rw [if_neg (h j (Nat.le_refl j) hlt)]
      exact ih hlt (by omega) fun k hk hki => h k (by omega) hki

theorem tlobCheck_of_gt {S : Nat → Byte} {n k : Nat} (h : 255 < k) : tlobCheck S n k = .error ⟨.format, 0⟩ :=
  if_pos h

theorem tlobCheck_of_past {S : Nat → Byte} {n k : Nat} (h255 : k ≤ 255) (h : n < k) :
    tlobCheck S n k = .error ⟨.misuse, 0⟩ := by
  simp only [tlobCheck, if_neg (show ¬ Config.tlobMaxSkip < k from Nat.not_lt.2 h255), if_pos h]

theorem tlobCheck_of_control {S : Nat → Byte} {n k j : Nat} (h255 : k ≤ 255) (hj : k ≤ j) (hn : j < n)
    (hbyte : 1 ≤ (S j).toNat ∧ (S j).toNat ≤ 31)
    (h : ∀ i, k ≤ i → i < j → ¬ (1 ≤ (S i).toNat ∧ (S i).toNat ≤ 31)) : tlobCheck S n k = .error ⟨.format, j⟩ := by
  have hfirst : firstControlByte S (n - k) k = some j := firstControlByte_eq_some hj (by omega) hbyte h
  simp only [tlobCheck, if_neg (show ¬ Config.tlobMaxSkip < k from Nat.not_lt.2 h255),
    if_neg (show ¬ n < k by omega), hfirst]

theorem tlobCheck_of_text {S : Nat → Byte} {n k : Nat} (h255 : k ≤ 255) (hk : k ≤ n)
    (h : ∀ i, k ≤ i → i < n → ¬ (1 ≤ (S i).toNat ∧ (S i).toNat ≤ 31)) : tlobCheck S n k = .ok () := by
  have hfirst : firstControlByte S (n - k) k = none := firstControlByte_eq_none fun i hi hlt => h i hi (by omega)
  simp only [tlobCheck, if_neg (show ¬ Config.tlobMaxSkip < k from Nat.not_lt.2 h255), if_neg (Nat.not_lt.2 hk),
    hfirst]

/-- An input that the check rejects fails with the check's error (R112). -/
theorem exec_tlobCompress_rejected {s : State} {r : Raise} (hu : Undisturbed s) (hr : RegionsOk s)
    (hc : tlobCheck s.srcByte s.slen s.p1 = .error r) :
    ∃ t, exec .tlobCompress s = .next t ∧ CommandFails s t r.code r.pos Trie.initial := by
  have hb : tlobCompressBegin s = s.raiseError opTlobCompress r := by
    simp only [tlobCompressBegin, State.checkRegions_ok hr, hc]
  exact ⟨_, congrArg Host.Outcome.next (takeTurns_ended hb (State.raiseError_work ..)),
    State.raiseError_commandFails opTlobCompress r hu (by decide)⟩

/-- TLOB_COMPRESS's state before its first token: the header is written (R111, R113). -/
def TlobEnc.start (S : Nat → Byte) (k : Nat) : TlobEnc :=
  { p := k, out := BitVec.ofNat 8 k :: bytesOf S 0 k, pend := none, nxt := 0 }

theorem tlobCompressBegin_eq {s : State} (hr : RegionsOk s) (hc : tlobCheck s.srcByte s.slen s.p1 = .ok ()) :
    tlobCompressBegin s
      = { s with
          trie := Trie.withWindow Config.tlobWindow
          work := .tlobEnc (TlobEnc.start s.srcByte s.p1) } := by
  simp only [tlobCompressBegin, State.checkRegions_ok hr, hc]
  rfl

/-! #### One token -/

/-- TextLob's insertions lag, so that a match's anchor is at least three positions back (R82, R114). -/
theorem TrieInStep.lagged {S : Nat → Byte} {n q l : Nat} {t : Trie} {w : TlobEnc} (ht : TrieInStep t 480 w.nxt)
    (hlag : w.nxt ≤ w.p - 2) (hn : n < 2 ^ 32) (hp : w.p < n)
    (hs : (t.inserts S n 10 w.nxt (w.p - 2 - w.nxt)).search S w.p (min 10 (n - w.p)) = (q, l)) :
    l ≤ min 10 (n - w.p) ∧ (0 < l → 3 ≤ w.p - q ∧ w.p - q ≤ 482) := by
  have hle := Trie.search_le (t.inserts S n 10 w.nxt (w.p - 2 - w.nxt)) S w.p (min 10 (n - w.p))
  rw [hs] at hle
  have hin : TrieInStep (t.inserts S n 10 w.nxt (w.p - 2 - w.nxt)) 480 (w.nxt + (w.p - 2 - w.nxt)) :=
    ht.inserts hn (by decide) (by decide) (by omega)
  refine ⟨hle, fun hl => ?_⟩
  obtain ⟨hlt, hwin⟩ := hin.anchor hs hl
  omega

/-- A 2-byte match does not look at the next anchor to insert. -/
theorem TlobEnc.afterShort_with_nxt (w : TlobEnc) (d k : Nat) :
    TlobEnc.afterShort { w with nxt := k } d = { w.afterShort d with nxt := k } := by
  unfold TlobEnc.afterShort
  dsimp only
  split <;> rfl

/-- An iteration of the parse, in the bytes of the statements: a longer match, a 2-byte match near enough or a literal
(R114). -/
theorem tlobEncItem_eq {S : Nat → Byte} {n q l : Nat} {t u : Trie} {w : TlobEnc} (ht : TrieInStep t 480 w.nxt)
    (hlag : w.nxt ≤ w.p - 2) (hn : n < 2 ^ 32) (hp : w.p < n)
    (hu : u = t.inserts S n 10 w.nxt (w.p - 2 - w.nxt)) (hs : u.search S w.p (min 10 (n - w.p)) = (q, l)) :
    tlobEncItem S n t w =
      if 3 ≤ l then (u, { w.afterLong (w.p - q) l with p := w.p + l, nxt := w.p - 2 })
      else if l = 2 ∧ w.p - q ≤ 258 then (u, { w.afterShort (w.p - q) with p := w.p + 2, nxt := w.p - 2 })
      else (u, { w.afterLiteral (S w.p) with p := w.p + 1, nxt := w.p - 2 }) := by
  subst hu
  obtain ⟨hle, hdist⟩ := ht.lagged hlag hn hp hs
  have hnxt : w.nxt + (w.p - 2 - w.nxt) = w.p - 2 := by omega
  rw [tlobEncItem, show Config.tlobMaxMatch = 10 from rfl]
  simp only [Trie.addRuns_eq_inserts, hs, hnxt]
  by_cases hlong : 3 ≤ l
  · obtain ⟨-, hd⟩ := hdist (by omega)
    simp only [if_pos hlong]
    rw [TlobEnc.putLong_eq _ hd (by omega)]
    rfl
  · simp only [if_neg hlong]
    by_cases hshort : l = 2 ∧ w.p - q ≤ 258
    · rw [if_pos (show l = 2 ∧ w.p - q ≤ Config.tlobShortMaxOffset from hshort), if_pos hshort,
        TlobEnc.putShort_eq _ hshort.2, TlobEnc.afterShort_with_nxt]
    · rw [if_neg (show ¬ (l = 2 ∧ w.p - q ≤ Config.tlobShortMaxOffset) from hshort), if_neg hshort,
        TlobEnc.putLiteral_eq]
      rfl

/-! #### The form of the output -/

/-- The output begins with `header`, and the open reserved nibble, if there is one, is not in it. -/
structure TlobEnc.BeginsWith (header : List Byte) (w : TlobEnc) : Prop where
  begins : header <+: w.out
  pend_ge : ∀ k, w.pend = some k → header.length ≤ k

theorem prefix_orAt {header out : List Byte} {k : Nat} (h : header <+: out) (hk : header.length ≤ k) (v : Nat) :
    header <+: orAt out k v := by
  obtain ⟨rest, rfl⟩ := h
  rw [orAt, List.set_append_right _ _ hk]
  exact List.prefix_append ..

theorem TlobEnc.BeginsWith.afterLong {header : List Byte} {w : TlobEnc} (h : w.BeginsWith header) (d l : Nat) :
    (w.afterLong d l).BeginsWith header :=
  ⟨h.begins.trans (List.prefix_append ..), h.pend_ge⟩

theorem TlobEnc.BeginsWith.afterLiteral {header : List Byte} {w : TlobEnc} (h : w.BeginsWith header) (v : Byte) :
    (w.afterLiteral v).BeginsWith header :=
  ⟨h.begins.trans (List.prefix_append ..), h.pend_ge⟩

theorem TlobEnc.BeginsWith.afterShort {header : List Byte} {w : TlobEnc} (h : w.BeginsWith header) (d : Nat) :
    (w.afterShort d).BeginsWith header := by
  have hlen := h.begins.length_le
  unfold TlobEnc.afterShort
  dsimp only
  split
  · refine ⟨h.begins.trans (List.prefix_append ..), fun k hk => ?_⟩
    cases hk
    omega
  · next k hk => exact ⟨prefix_orAt (h.begins.trans (List.prefix_append ..)) (h.pend_ge k hk) _, nofun⟩

theorem TlobEnc.afterLong_length (w : TlobEnc) (d l : Nat) :
    (w.afterLong d l).out.length = w.out.length + 2 := by
  simp [TlobEnc.afterLong]

theorem TlobEnc.afterLiteral_length (w : TlobEnc) (v : Byte) :
    (w.afterLiteral v).out.length = w.out.length + 1 := by
  simp [TlobEnc.afterLiteral]

theorem TlobEnc.afterShort_length (w : TlobEnc) (d : Nat) : (w.afterShort d).out.length ≤ w.out.length + 2 := by
  unfold TlobEnc.afterShort
  dsimp only
  split <;> simp [orAt_length]

/-! #### The whole stream -/

/-- What every token of TLOB_COMPRESS keeps: the trie has the positions before its next anchor, which lags by two or
more; no position covered is past the input; and the output begins with the header and has at most one byte more than
the positions covered. -/
structure TlobEnc.Keeps (header : List Byte) (n : Nat) (t : Trie) (w : TlobEnc) : Prop where
  trie : TrieInStep t 480 w.nxt
  lag : w.nxt ≤ w.p - 2
  p_le : w.p ≤ n
  header_begins : w.BeginsWith header
  length_le : w.out.length ≤ w.p + 1

theorem TlobEnc.Keeps.item {header : List Byte} {S : Nat → Byte} {n : Nat} {t : Trie} {w : TlobEnc}
    (h : TlobEnc.Keeps header n t w) (hn : n < 2 ^ 32) (hp : w.p < n) :
    TlobEnc.Keeps header n (tlobEncItem S n t w).1 (tlobEncItem S n t w).2 := by
  obtain ⟨htrie, hlag, hle, hbegins, hlen⟩ := h
  obtain ⟨⟨q, l⟩, hs⟩ : ∃ best,
      (t.inserts S n 10 w.nxt (w.p - 2 - w.nxt)).search S w.p (min 10 (n - w.p)) = best := ⟨_, rfl⟩
  obtain ⟨hmax, -⟩ := htrie.lagged hlag hn hp hs
  rw [tlobEncItem_eq htrie hlag hn hp rfl hs]
  have htrie' : TrieInStep (t.inserts S n 10 w.nxt (w.p - 2 - w.nxt)) 480 (w.p - 2) := by
    have := htrie.inserts (S := S) (cap := 10) (count := w.p - 2 - w.nxt) hn (by decide) (by decide) (by omega)
    rwa [show w.nxt + (w.p - 2 - w.nxt) = w.p - 2 by omega] at this
  have covers {adv : Nat} {v : TlobEnc} (hadv : w.p + adv ≤ n) (hv : v.BeginsWith header)
      (hfew : v.out.length ≤ w.out.length + adv) :
      TlobEnc.Keeps header n (t.inserts S n 10 w.nxt (w.p - 2 - w.nxt))
        { v with p := w.p + adv, nxt := w.p - 2 } :=
    ⟨htrie', show w.p - 2 ≤ w.p + adv - 2 by omega, hadv, ⟨hv.begins, hv.pend_ge⟩,
      show v.out.length ≤ w.p + adv + 1 by omega⟩
  split
  · have := w.afterLong_length (w.p - q) l
    exact covers (by omega) (hbegins.afterLong ..) (by omega)
  · split
    · exact covers (by omega) (hbegins.afterShort _) (w.afterShort_length _)
    · exact covers (by omega) (hbegins.afterLiteral _) (w.afterLiteral_length _).le

/-- TLOB_COMPRESS of an input that passes the check gives a stream of even length that begins with the header, within
the room for the worst case (R111 to R117). -/
theorem exec_tlobCompress_stream {s : State} (hr : RegionsOk s) (hc : tlobCheck s.srcByte s.slen s.p1 = .ok ()) :
    ∃ out, exec .tlobCompress s = .next (s.compressed opTlobCompress out false)
      ∧ BitVec.ofNat 8 s.p1 :: bytesOf s.srcByte 0 s.p1 <+: out ∧ out.length % 2 = 0 ∧ out.length ≤ s.slen + 2 := by
  have hkeeps : TlobEnc.Keeps (BitVec.ofNat 8 s.p1 :: bytesOf s.srcByte 0 s.p1) s.slen
      (Trie.withWindow Config.tlobWindow) (TlobEnc.start s.srcByte s.p1) :=
    ⟨TrieInStep.start (by decide) (by decide), Nat.zero_le _, tlobCheck_ok hc, ⟨List.prefix_rfl, nofun⟩,
      by simp [TlobEnc.start]⟩
  obtain ⟨t, w, ⟨-, -, hle, hbegins, hlen⟩, -, hrun⟩ := tlobParse.run_finishes
    (fun _ _ h hp => h.item s.ctx.slen.isLt hp) (s.slen + 1) hkeeps (Nat.lt_succ_of_le (Nat.sub_le ..))
  obtain ⟨hpre, heven, hpad⟩ := evened_spec w.out
  refine ⟨w.finish, ?_, ?_⟩
  · refine congrArg Host.Outcome.next ?_
    rw [tlobCompressBegin_eq hr hc]
    exact hrun
  · rw [TlobEnc.finish_eq]
    exact ⟨hbegins.begins.trans hpre, heven, by omega⟩

/-! #### A turn -/

theorem fetchRunning_tlobEnc {s : State} {w : TlobEnc} (hw : s.work = .tlobEnc w) :
    fetchRunning s = .internal (tlobEncTurn s) := by
  rw [fetchRunning, hw]

theorem step_tlobEnc_item {s : State} {w : TlobEnc} (h : EngineNext s) (hw : s.work = .tlobEnc w) (hp : w.p < s.slen) :
    step s = .next { s with
      trie := (tlobEncItem s.srcByte s.slen s.trie w).1
      work := .tlobEnc (tlobEncItem s.srcByte s.slen s.trie w).2 } :=
  tlobParse.step_item h (fetchRunning_tlobEnc hw) hw hp

theorem step_tlobEnc_finish {s : State} {w : TlobEnc} (h : EngineNext s) (hw : s.work = .tlobEnc w)
    (hp : s.slen ≤ w.p) : step s = .next (s.settle opTlobCompress (s.checkCapacity (evened w.out))) :=
  TlobEnc.finish_eq w ▸ tlobParse.step_finish h (fetchRunning_tlobEnc hw) hw hp

/-- Settles O39. The first error of the check is the command's (`exec_tlobCompress_rejected`); the whole stream has the
form that every token keeps (`TlobEnc.Keeps`); a turn is one token (`tlobEncItem_eq`), or the padding. -/
theorem tlobCompressChecksThenWrites : Obligations.TlobCompressChecksThenWrites := by
  refine ⟨fun s hu hr => ⟨fun h255 => ?_, fun h255 hlt => ?_, fun j h255 hj hjn h1 h31 hbefore => ?_,
    fun h255 hle htext hroom => ?_⟩, fun s rest hbegin hr h255 hle htext => ?_,
    fun s w u q l hnext hinv hw hp hu hs => ?_, fun s w hnext hu hr hw hp => ?_⟩
  · exact exec_tlobCompress_rejected hu hr (tlobCheck_of_gt h255)
  · exact exec_tlobCompress_rejected hu hr (tlobCheck_of_past h255 hlt)
  · exact exec_tlobCompress_rejected hu hr (tlobCheck_of_control h255 hj hjn ⟨h1, h31⟩ hbefore)
  · obtain ⟨out, hexec, ⟨rest, rfl⟩, heven, hlen⟩ := exec_tlobCompress_stream hr (tlobCheck_of_text h255 hle htext)
    have hfits := hlen.trans hroom
    rw [State.compressed_of_le hfits] at hexec
    refine ⟨_, rest, hexec, ?_, s.succeed_writesOutput _ _ hu rfl hr.2.1 hfits, ?_⟩
    · rw [State.succeed_trie]
      rfl
    · simp only [List.length_append, List.length_cons, bytesOf_length] at heven
      omega
  · rw [step_beginning hbegin]
    exact congrArg Host.Outcome.next
      (tlobCompressBegin_eq (s := { s with inputs := rest, response := .none }) hr (tlobCheck_of_text h255 hle htext))
  · have hn : s.slen < 2 ^ 32 := s.ctx.slen.isLt
    obtain ⟨htrie, hlag⟩ := TrieInStep.of_tlobEnc hinv hw
    obtain ⟨-, hdist⟩ := htrie.lagged hlag hn hp (hu ▸ hs)
    rw [step_tlobEnc_item hnext hw hp, tlobEncItem_eq htrie hlag hn hp hu hs]
    refine ⟨fun hl => ?_, fun hl hd => ?_, fun hl => ?_⟩
    · obtain ⟨h3, h482⟩ := hdist (by omega)
      rw [if_pos hl]
      exact ⟨h3, h482, rfl⟩
    · obtain ⟨h3, -⟩ := hdist (by omega)
      rw [if_neg (by omega), if_pos ⟨hl, hd⟩]
      exact ⟨h3, rfl⟩
    · rw [if_neg (by omega), if_neg (by omega)]
  · exact ⟨_, step_tlobEnc_finish hnext hw hp, State.settle_checkCapacity _ _ hu hr (.inr (.inr rfl))⟩

end Sys2Proof.Machine

/-! ### Streams that end too soon -/

namespace Sys2Proof.Machine

/-! #### Byte tokens cut short -/

/-- Only a running decompressor has a next token in a byte stream (R60). -/
theorem State.streamAt_cases {s : State} {f : Format} {i : Nat} (h : s.streamAt = some (f, i)) :
    (∃ w, s.work = .lobDec w ∧ w.format = f ∧ w.i = i)
      ∨ (∃ w, s.work = .xlobDec w ∧ .xlob w.res.isSome = f ∧ w.i = i)
      ∨ ∃ w, s.work = .tlobDec w ∧ w.format = f ∧ w.i = i := by
  cases hw : s.work with
  | lobDec w => exact .inl ⟨w, rfl, by simpa [State.streamAt, hw] using h⟩
  | xlobDec w => exact .inr (.inl ⟨w, rfl, by simpa [State.streamAt, hw] using h⟩)
  | tlobDec w => exact .inr (.inr ⟨w, rfl, by simpa [State.streamAt, hw] using h⟩)
  | _ => simp [State.streamAt, hw] at h

theorem State.streamAt_isStreamFormat {s : State} {f : Format} {i : Nat} (h : s.streamAt = some (f, i)) :
    isStreamFormat f = true := by
  obtain ⟨w, -, rfl, -⟩ | ⟨w, -, rfl, -⟩ | ⟨w, -, rfl, -⟩ := State.streamAt_cases h
  · rw [LobDec.format]
    split
    · rfl
    · split <;> rfl
  · rfl
  · rw [TlobDec.format]
    split <;> rfl

/-- Of the tokens of two bytes or more, only the large match that opens a reservation goes on after its second byte
(R67): its first byte goes on too. -/
theorem decodeBytes_more_of_two {f : Format} {a b : Byte} (h : decodeBytes f [a, b] = .more) :
    decodeBytes f [a] = .more := by
  cases f with
  | xlob reserved =>
    simp only [decodeBytes, decodeXlob] at h
    split_ifs at h with _ _ hlarge
    exact Laws.ProperPrefixPending.xlob_header_pending reserved hlarge (by decide) (by decide)
  | tlob reserved =>
    simp only [decodeBytes, decodeTlob] at h
    split_ifs at h
  | _ => cases h

/-- What an unfinished token begins with is unfinished. -/
theorem decodeBytes_more_of_append {f : Format} (hf : isStreamFormat f = true) {bs cs : List Byte}
    (h : decodeBytes f (bs ++ cs) = .more) : decodeBytes f bs = .more := by
  have hlen := (decodeBytes_more hf h 0).1
  match bs, cs with
  | [], _ => exact decodeBytes_nil hf
  | [a], [] => exact h
  | [a], [b] => exact decodeBytes_more_of_two h
  | [a, b], [] => exact h
  | [a], _ :: _ :: _ | [a, b], _ :: _ | a :: b :: c :: l, _ =>
    simp [maxTokenBytes] at hlen
    omega

/-- A fetch from where the stream has no byte (R91 to R93, R103, R118). -/
theorem fetchToken_past {f : Format} {S : Nat → Byte} {n i : Nat} (h : n ≤ i) :
    fetchToken f S n maxTokenBytes [] i = .error ⟨.format, i⟩ :=
  if_pos h

/-- A fetch of a token that the stream's end cuts short raises FORMAT at the missing byte (R103, R110, R118, R123). -/
theorem fetchToken_cut {f : Format} (hf : isStreamFormat f = true) {S : Nat → Byte} {n : Nat} (fuel : Nat)
    (pre : List Byte) (i : Nat) (hi : i ≤ n) (hfuel : maxTokenBytes ≤ pre.length + fuel)
    (h : decodeBytes f (pre ++ bytesOf S i (n - i)) = .more) :
    fetchToken f S n fuel pre i = .error ⟨.format, n⟩ := by
  induction fuel generalizing pre i with
  | zero =>
    have hlen := (decodeBytes_more hf h 0).1
    rw [List.length_append] at hlen
    omega
  | succ fuel ih =>
    rw [fetchToken]
    split
    · next hend => rw [Nat.le_antisymm hi hend]
    · next hend =>
      rw [show n - i = n - (i + 1) + 1 by omega, bytesOf_succ, List.append_cons] at h
      rw [decodeBytes_more_of_append hf h]
      exact ih _ _ (by omega) (by simp; omega) h

/-- Where a decoder says that its stream ends: Lob at the token's first byte, the others at the missing byte (R95,
R110, R123). -/
def Work.streamEnd (w : Work) (first missing : Nat) : Nat :=
  match w with
  | .lobDec _ => first
  | _ => missing

/-- A running decompressor whose fetch raises FORMAT fails with it (R95, R110, R123). -/
theorem step_fetch_error {s : State} {f : Format} {i pos : Nat} (hnext : EngineNext s) (hu : Undisturbed s)
    (hat : s.streamAt = some (f, i))
    (hfetch : fetchToken f s.srcByte s.slen maxTokenBytes [] i = .error ⟨.format, pos⟩) :
    ∃ t, step s = .next t ∧ CommandFails s t .format (s.work.streamEnd i pos) s.trie := by
  obtain ⟨w, hw, rfl, rfl⟩ | ⟨w, hw, rfl, rfl⟩ | ⟨w, hw, rfl, rfl⟩ := State.streamAt_cases hat
  · rw [step_running hnext (by simp [hw]), runRunning, hw]
    simp only [fetchRunning, hw, LobDec.fetch, hfetch]
    exact ⟨_, rfl, State.raiseError_decoderFails hu (by decide) rfl ⟨.format, w.i⟩⟩
  · rw [step_running hnext (by simp [hw]), runRunning, hw]
    simp only [fetchRunning, hw, XlobDec.fetch, hfetch]
    exact ⟨_, rfl, State.raiseError_decoderFails hu (by decide) rfl ⟨.format, pos⟩⟩
  · rw [step_running hnext (by simp [hw]), runRunning, hw]
    simp only [fetchRunning, hw, TlobDec.fetch, hfetch]
    exact ⟨_, rfl, State.raiseError_decoderFails hu (by decide) rfl ⟨.format, pos⟩⟩

theorem Work.streamEnd_self (w : Work) (i : Nat) : w.streamEnd i i = i := by
  cases w <;> rfl

/-! #### Prefix codes cut short -/

/-- Every beginning of an unfinished Deplode code is unfinished (R76 to R78). -/
theorem bitsPending_of_more {f : Format} {bs : List Bool} (h : decodeBits f bs = .more) :
    Laws.ProperPrefixPending.bitsPending f bs = true := by
  cases f with
  | depSelLen =>
    simp only [decodeBits, decodeSelLen] at h
    split at h <;> cases h
    all_goals rfl
  | depLitLen | depDist =>
    simp only [decodeBits, decodeThreeWay] at h
    split at h <;> cases h
    all_goals rfl
  | _ => cases h

/-- A code that needs more bits than lie ahead raises FORMAT(0) (R129, R137). -/
theorem Dep.readCode_cut {f : Format} (bs pre : List Bool) (fuel : Nat) {w : Dep} (hw : w.ready)
    (hbits : w.bitsAhead = bs) (hfuel : bs.length < fuel)
    (hmore : ∀ k, 0 < k → k ≤ bs.length → decodeBits f (pre ++ bs.take k) = .more) :
    Dep.readCode f fuel pre w = .error ⟨.format, 0⟩ := by
  have hb := Dep.getbit_spec hw
  rw [hbits] at hb
  induction bs generalizing pre fuel w with
  | nil =>
    obtain ⟨fuel, rfl⟩ : ∃ m, fuel = m + 1 := ⟨fuel - 1, by omega⟩
    rw [Dep.readCode, hb]
  | cons b bs ih =>
    obtain ⟨fuel, rfl⟩ : ∃ m, fuel = m + 1 := ⟨fuel - 1, by omega⟩
    obtain ⟨hget, hready, hahead⟩ := hb
    rw [List.length_cons] at hfuel hmore
    rw [Dep.readCode, hget]
    dsimp only
    rw [show decodeBits f (pre ++ [b]) = .more by simpa using hmore 1 (by omega) (by omega)]
    exact ih (pre ++ [b]) fuel hready hahead (by omega)
      (fun k h0 hk => by simpa using hmore (k + 1) (by omega) (by omega)) (hahead ▸ Dep.getbit_spec hready)

/-- Settles O20. The fetch meets the stream's end (`fetchToken_past`, `fetchToken_cut`), or the bits run out inside a
code (`Dep.readCode_cut`). -/
theorem streamEndRaisesFormat : Obligations.StreamEndRaisesFormat := by
  refine ⟨fun s f i hnext hu hat hend => ?_, fun s f i hnext hu hat hi hmore => ?_,
    fun s w f hnext hu hw hready hf hmore => ?_⟩
  · have hfails := step_fetch_error hnext hu hat (fetchToken_past hend)
    rwa [Work.streamEnd_self] at hfails
  · exact step_fetch_error hnext hu hat
      (fetchToken_cut (State.streamAt_isStreamFormat hat) maxTokenBytes [] i hi (Nat.le_refl _) hmore)
  · have hlen := (decodeBits_more hf hmore false).1
    have hpending := bitsPending_of_more hmore
    have hread : Dep.readCode f maxCodeBits [] w = .error ⟨.format, 0⟩ :=
      Dep.readCode_cut _ [] maxCodeBits hready rfl hlen fun k _ hk => by
        rcases Nat.lt_or_ge k w.bitsAhead.length with hlt | hge
        · simpa using List.all_eq_true.1 hpending k (List.mem_range.2 hlt)
        · rwa [List.nil_append, List.take_of_length_le hge]
    rw [step_running hnext (by simp [hw]), runRunning]
    simp only [fetchRunning, hw, hf, hread]
    exact ⟨_, rfl, State.raiseError_decoderFails hu (by decide) rfl ⟨.format, 0⟩⟩

end Sys2Proof.Machine

/-! ### LOB_COMPRESS's stored form -/

namespace Sys2Proof.Machine

/-- Settles O26. Of fewer than 20 bytes the output is the input itself (`exec_lobCompress_stored`), so it fits exactly
where the input does. -/
theorem lobCompressStoresShortInputs : Obligations.LobCompressStoresShortInputs := by
  intro s hu hr h20
  have hlen : (bytesOf s.srcByte 0 s.slen).length = s.slen := bytesOf_length ..
  rw [exec_lobCompress_stored hr h20]
  refine ⟨fun hfit => ⟨_, rfl, ?_⟩, fun hover =>
    ⟨_, rfl, State.compressed_commandFails true hu rfl (hlen.symm ▸ hover)⟩⟩
  have hroom := hlen.trans_le hfit
  have hsucceeds := State.succeed_succeedsWith opLobCompress (bytesOf s.srcByte 0 s.slen) true hu.1
  rw [hlen] at hsucceeds
  rw [State.compressed_of_le hroom]
  refine ⟨hsucceeds, ⟨State.succeed_matchOff _ _ _ _ hu.1, State.succeed_matchLen _ _ _ _ hu.1⟩, State.succeed_trie ..,
    fun k hk => ?_, fun x hx => State.succeed_readByte_outside hu.1 x hx⟩
  rw [State.succeed_readByte_output hu rfl hr.2.1 hroom (bytesOf_getElem? _ _ _ k hk), Nat.zero_add,
    State.srcByte_undisturbed hu.1]

end Sys2Proof.Machine

/-! ### Streams that decode to their input -/

namespace Sys2Proof.Machine

/-- Where a compressor has written its output, a decompressor finds it as its source. -/
theorem State.compressed_sourceBegins {s v : State} {op : Byte} {out : List Byte} {stored : Bool} (hu : Undisturbed s)
    (hr : RegionsOk s) (hop : isCompress op = true) (herr : (s.compressed op out stored).status.err = false)
    (huv : Undisturbed v) (hmem : v.mem = (s.compressed op out stored).mem) (hsrc : v.src = s.dst)
    (hslen : v.slen = (s.compressed op out stored).outLen.toNat) : v.slen = out.length ∧ v.sourceBegins out := by
  obtain ⟨hfit, hsucceeds, hlen⟩ := State.compressed_outLen hu herr
  refine ⟨hslen.trans hlen, (hslen.trans hlen).ge, fun k b hk => ?_⟩
  rw [State.srcByte_undisturbed huv.1, hsrc, State.readByte, hmem, hsucceeds]
  exact State.succeed_readByte_output hu (writesDest_of_isCompress hop) hr.2.1 hfit hk

theorem State.sourceBegins_of_prefix {s : State} {as bs : List Byte} (hs : s.sourceBegins bs) (h : as <+: bs) :
    s.sourceBegins as := by
  obtain ⟨cs, rfl⟩ := h
  rw [State.sourceBegins_iff] at hs ⊢
  exact (State.sourceAt_append hs).1

section
variable {σ : Type} {appends : σ → List Byte → Instr → List Byte → Option (List Byte × σ)} {limit : Nat} {start q : σ}
  {us : List (Instr × List Byte)} {out : List Byte}

/-- Reading the tokens `us`, a decoder with output still to produce has given `out` and stands at `q`: what follows
them decodes from there. -/
def DecodesAs (appends : σ → List Byte → Instr → List Byte → Option (List Byte × σ)) (limit : Nat) (start : σ)
    (us : List (Instr × List Byte)) (q : σ) (out : List Byte) : Prop :=
  ∀ rest, decoded appends limit start [] (us ++ rest) = decoded appends limit q out rest

theorem DecodesAs.nil : DecodesAs appends limit start [] start [] := fun _ => rfl

/-- One more token, before the output is complete. -/
theorem DecodesAs.token {lits : List Byte} {i : Instr} {r : List Byte × σ} (h : DecodesAs appends limit start us q out)
    (hl : out.length < limit) (hwf : i.wellFormed = true) (hlits : lits.length = literalCount i)
    (ha : appends q out i lits = some r) :
    DecodesAs appends limit start (us ++ [(i, lits)]) r.2 (out ++ r.1) := by
  intro rest
  rw [List.append_assoc, h, List.singleton_append, decoded, if_pos ⟨hl, hwf, hlits⟩]
  simp only [ha]

theorem DecodesAs.complete (h : DecodesAs appends limit start us q out) (hl : out.length = limit) :
    decoded appends limit start [] us = some out := by
  have hend := h []
  rwa [List.append_nil, decoded, if_pos hl.ge, List.take_of_length_le hl.le] at hend

end

/-! #### The trie holds the input -/

/-- The entries are runs of the buffer's own bytes (R84). -/
def Trie.Holds (S : Nat → Byte) (t : Trie) : Prop :=
  ∀ q e, (q, e) ∈ t.entries → ∀ k b, e[k]? = some b → b = S (q + k)

theorem Trie.withWindow_holds (S : Nat → Byte) (window : Nat) : (Trie.withWindow window).Holds S :=
  fun _ _ h => absurd h List.not_mem_nil

theorem Trie.Holds.add {S : Nat → Byte} {t : Trie} (h : t.Holds S) (o l : Nat) : (t.add o (bytesOf S o l)).Holds S := by
  intro q e he k b hk
  obtain ⟨heq | hmem, -⟩ := Trie.mem_add he
  · obtain ⟨rfl, rfl⟩ := Prod.mk.inj heq
    have hlt : k < l := by simpa using (List.getElem?_eq_some_iff.1 hk).1
    exact Option.some.inj (hk.symm.trans (bytesOf_getElem? S q l k hlt))
  · exact h q e hmem k b hk

theorem Trie.Holds.addRuns {S : Nat → Byte} {t : Trie} (h : t.Holds S) (n cap count k : Nat) :
    (Trie.addRuns S n cap count k t).Holds S := by
  induction count generalizing k t with
  | zero => exact h
  | succ count ih => exact ih (h.add k _) (k + 1)

/-- Copying a match of such a trie after the input before it gives the input up to the match's end (R85). -/
theorem Trie.Holds.search_copied {S : Nat → Byte} {t : Trie} {p m q l : Nat} (h : t.Holds S)
    (hs : t.search S p m = (q, l)) (hl : 0 < l) (hq : q < p) :
    ∃ bs, copied (bytesOf S 0 p) (p - q) l = some bs ∧ bytesOf S 0 p ++ bs = bytesOf S 0 (p + l) := by
  obtain ⟨bs, hbs⟩ : ∃ bs, copied (bytesOf S 0 p) (p - q) l = some bs := ⟨_, if_pos ⟨by omega, by simp⟩⟩
  obtain ⟨-, -, hrow⟩ := copied_eq_some hbs
  obtain ⟨-, hcopy, -⟩ := matchReproducesThePrefix t S p m q l h hs hl
  have hinput := hcopy hq
  rw [copyMatch_eq_copied hbs (by simp), List.take_of_length_le (by simp [hrow])] at hinput
  exact ⟨bs, hbs, hinput⟩

end Sys2Proof.Machine

/-! ### LOB_COMPRESS's stream decodes to its input -/

namespace Sys2Proof.Machine

/-! #### Control bytes -/

/-- Whether an item's control bit is 1 (R61). -/
def isLobLiteral : Instr → Bool
  | .lobLit _ => true
  | _ => false

/-- The control byte has the bit of every item of its block, most significant first (R61). -/
def Governs (c : Byte) (items : List Instr) : Prop :=
  ∀ k i, items[k]? = some i → c.getLsbD (7 - k) = isLobLiteral i

/-- Marking a literal sets its item's control bit and no other one (R89). -/
theorem markLiteral_bit (c : Byte) {k m : Nat} (hk : k < 8) (hm : m < 8) :
    (c ||| ((0x80 : Byte) >>> m)).getLsbD (7 - k) = (c.getLsbD (7 - k) || decide (k = m)) := by
  have hbit : ∀ k < 8, ∀ m < 8, ((0x80 : Byte) >>> m).getLsbD (7 - k) = decide (k = m) := by decide
  rw [BitVec.getLsbD_or, hbit k hk m hm]

theorem Governs.nil (c : Byte) : Governs c [] := fun _ _ h => by simp at h

theorem governs_concat {c : Byte} {items : List Instr} {i : Instr} :
    Governs c (items ++ [i]) ↔ Governs c items ∧ c.getLsbD (7 - items.length) = isLobLiteral i := by
  refine ⟨fun h => ⟨fun k j hj => h k j ?_, h _ i List.getElem?_concat_length⟩, fun ⟨h, hi⟩ k j hj => ?_⟩
  · rwa [List.getElem?_append_left (List.getElem?_eq_some_iff.1 hj).1]
  · rw [List.getElem?_append] at hj
    split at hj
    · exact h k j hj
    · next hge =>
      obtain ⟨hlt, rfl⟩ := List.getElem?_eq_some_iff.1 hj
      obtain rfl : k = items.length := by simp at hlt; omega
      simpa using hi

/-- Later items' bits do not matter to the items before them. -/
theorem Governs.markLiteral {c : Byte} {items : List Instr} (h : Governs c items) (h8 : items.length < 8) :
    Governs (c ||| ((0x80 : Byte) >>> items.length)) items := by
  intro k i hi
  have hk := (List.getElem?_eq_some_iff.1 hi).1
  rw [markLiteral_bit c (by omega) h8, h k i hi, decide_eq_false (by omega), Bool.or_false]

/-! #### Blocks -/

/-- A block after the tokens `us`: its control byte, and its items so far (R61). -/
def lobBlock (us : List (Instr × List Byte)) (c : Byte) (items : List Instr) : List (Instr × List Byte) :=
  us ++ (.lobCtrl c, []) :: items.map (·, [])

theorem lobBlock_concat (us : List (Instr × List Byte)) (c : Byte) (items : List Instr) (i : Instr) :
    lobBlock us c (items ++ [i]) = lobBlock us c items ++ [(i, [])] := by
  simp [lobBlock]

theorem streamOf_append (us vs : List (Instr × List Byte)) : streamOf (us ++ vs) = streamOf us ++ streamOf vs :=
  List.flatMap_append

theorem streamOf_lobBlock_concat (us : List (Instr × List Byte)) (c : Byte) (items : List Instr) (i : Instr) :
    streamOf (lobBlock us c (items ++ [i])) = streamOf (lobBlock us c items) ++ tokenBytes i := by
  simp [lobBlock_concat, streamOf]

theorem streamOf_lobBlock (us : List (Instr × List Byte)) (c : Byte) (items : List Instr) :
    streamOf (lobBlock us c items) = streamOf us ++ c :: streamOf (items.map (·, [])) := by
  rw [lobBlock, streamOf_append]
  rfl

/-- Changing the byte where a block begins changes its control byte. -/
theorem streamOf_lobBlock_modify (us : List (Instr × List Byte)) (c : Byte) (items : List Instr) (f : Byte → Byte) :
    (streamOf (lobBlock us c items)).modify (streamOf us).length f = streamOf (lobBlock us (f c) items) := by
  simp [streamOf_lobBlock, List.modify_eq_take_cons_drop]

/-- `i` stands for the `adv` input bytes at `p`: where its control bit is right, it appends them (R92, R93). -/
def LobItemCovers (S : Nat → Byte) (p adv : Nat) (i : Instr) : Prop :=
  ∀ (c : Byte) k, k < 8 → c.getLsbD (7 - k) = isLobLiteral i →
    ∃ bs, lobAppends (c, k) (bytesOf S 0 p) i [] = some (bs, (c, k + 1)) ∧ bytesOf S 0 p ++ bs = bytesOf S 0 (p + adv)

theorem lobLit_covers (S : Nat → Byte) (p : Nat) : LobItemCovers S p 1 (.lobLit (S p)) := by
  refine fun c k hk hbit => ⟨[S p], if_pos ⟨hk, hbit⟩, ?_⟩
  simp [bytesOf, List.range_succ]

theorem lobMatch_covers {S : Nat → Byte} {t : Trie} {p m q l : Nat} (ht : LobTrie t p) (hold : t.Holds S)
    (hs : t.search S p (min 18 m) = (q, l)) (hl : 3 ≤ l) :
    LobItemCovers S p l (.lobMatch (BitVec.ofNat 4 (l - 3)) (BitVec.ofNat 12 (p - q))) := by
  have hmax := Trie.search_le t S p (min 18 m)
  rw [hs] at hmax
  obtain ⟨hd, hd4095⟩ := ht.distance hs (by omega)
  obtain ⟨bs, hbs, hout⟩ := hold.search_copied hs (by omega) (by omega)
  have hlen : (BitVec.ofNat 4 (l - 3)).toNat + 3 = l := by simp; omega
  have hdist : (BitVec.ofNat 12 (p - q)).toNat = p - q := by simp; omega
  refine fun c k hk hbit => ⟨bs, (if_pos ⟨hk, hbit⟩).trans ?_, hout⟩
  rw [hlen, hdist, hbs]
  rfl

/-- Only Lob's own tokens stand in its stream, and all of them are well formed. -/
theorem lobAppends_wellFormed {q : Byte × Nat} {out lits : List Byte} {t : Instr} {r : List Byte × (Byte × Nat)}
    (h : lobAppends q out t lits = some r) : t.wellFormed = true := by
  cases t with
  | lobCtrl c => rfl
  | lobLit v => rfl
  | lobMatch l d => rfl
  | _ => cases h

theorem DecodesAs.lobToken {n : Nat} {us : List (Instr × List Byte)} {q start : Byte × Nat} {out : List Byte}
    {i : Instr} {r : List Byte × (Byte × Nat)} (h : DecodesAs lobAppends n start us q out) (hl : out.length < n)
    (ha : lobAppends q out i [] = some r) : DecodesAs lobAppends n start (us ++ [(i, [])]) r.2 (out ++ r.1) :=
  h.token hl (lobAppends_wellFormed ha) (lobAppends_literalCount ha).symm ha

/-- LOB_COMPRESS inside a block: the output is the tokens `us`, then the open control byte `c` and the items written
under it. They decode to the input covered, whatever the control bits of the items that are still to come (R89). -/
structure LobEnc.InBlock (S : Nat → Byte) (n : Nat) (w : LobEnc) (us : List (Instr × List Byte)) (c : Byte)
    (items : List Instr) : Prop where
  out_eq : w.out = streamOf (lobBlock us c items)
  ci_eq : w.ci = some (streamOf us).length
  cnt_eq : w.cnt = items.length
  length_le : items.length ≤ 8
  governs : Governs c items
  clear : ∀ k, items.length ≤ k → k < 8 → c.getLsbD (7 - k) = false
  decodes : ∀ c', Governs c' items →
    DecodesAs lobAppends n (0, 8) (lobBlock us c' items) (c', items.length) (bytesOf S 0 w.p)

/-- A block that has just been opened, after tokens that decode to the input covered. -/
theorem LobEnc.InBlock.fresh {S : Nat → Byte} {n : Nat} {w : LobEnc} {us : List (Instr × List Byte)} {c : Byte}
    (hout : w.out = streamOf us) (hp : w.p < n)
    (hd : DecodesAs lobAppends n (0, 8) us (c, 8) (bytesOf S 0 w.p)) :
    LobEnc.InBlock S n { w with ci := some w.out.length, out := w.out ++ [0], cnt := 0 } us 0 [] where
  out_eq := by rw [hout, streamOf_lobBlock]; rfl
  ci_eq := by rw [hout]
  cnt_eq := rfl
  length_le := Nat.zero_le 8
  governs := .nil 0
  clear k _ _ := BitVec.getLsbD_zero
  decodes c' _ := by
    have htoken := hd.lobToken (i := .lobCtrl c') (r := ([], (c', 0))) (by simpa using hp) rfl
    rwa [List.append_nil] at htoken

/-- The next item of a block that has room for it. -/
theorem LobEnc.InBlock.item {S : Nat → Byte} {n adv : Nat} {w : LobEnc} {us : List (Instr × List Byte)} {c c' : Byte}
    {items : List Instr} {i : Instr} {out : List Byte} (h : w.InBlock S n us c items) (h8 : items.length < 8)
    (hp : w.p < n) (hi : LobItemCovers S w.p adv i) (hout : out = streamOf (lobBlock us c' (items ++ [i])))
    (hgov : Governs c' (items ++ [i]))
    (hclear : ∀ k, items.length + 1 ≤ k → k < 8 → c'.getLsbD (7 - k) = false) :
    LobEnc.InBlock S n { w with out := out, cnt := w.cnt + 1, p := w.p + adv } us c' (items ++ [i]) where
  out_eq := hout
  ci_eq := h.ci_eq
  cnt_eq := by simp [h.cnt_eq]
  length_le := by simpa using h8
  governs := hgov
  clear k hk := hclear k (by simpa using hk)
  decodes d hd := by
    obtain ⟨hitems, hbit⟩ := governs_concat.1 hd
    obtain ⟨bs, hbs, hcover⟩ := hi d items.length h8 hbit
    have htoken := (h.decodes d hitems).lobToken (by simpa using hp) hbs
    rw [lobBlock_concat, List.length_append]
    exact hcover ▸ htoken

/-- Marking the next item a literal in the open control byte (R89). -/
theorem LobEnc.InBlock.marked {S : Nat → Byte} {n : Nat} {w : LobEnc} {us : List (Instr × List Byte)} {c : Byte}
    {items : List Instr} (h : w.InBlock S n us c items) :
    w.out.modify (w.ci.getD 0) (fun c => c ||| ((0x80 : Byte) >>> w.cnt))
      = streamOf (lobBlock us (c ||| ((0x80 : Byte) >>> items.length)) items) := by
  rw [h.out_eq, h.ci_eq, h.cnt_eq]
  exact streamOf_lobBlock_modify us c items _

/-- What every item of LOB_COMPRESS keeps of its output: it is that of the start, or it stands inside a block. -/
def LobEnc.Decodable (S : Nat → Byte) (n : Nat) (w : LobEnc) : Prop :=
  w = LobEnc.start ∨ ∃ us c items, w.InBlock S n us c items

@[simp] theorem LobEnc.openBlock_p (w : LobEnc) : w.openBlock.p = w.p := by
  unfold LobEnc.openBlock
  split <;> rfl

/-- Before an item, the open block has room for it. -/
theorem LobEnc.Decodable.openBlock {S : Nat → Byte} {n : Nat} {w : LobEnc} (h : w.Decodable S n) (hp : w.p < n) :
    ∃ us c items, w.openBlock.InBlock S n us c items ∧ items.length < 8 := by
  obtain rfl | ⟨us, c, items, hin⟩ := h
  · exact ⟨[], 0, [], .fresh (c := 0) rfl hp DecodesAs.nil, by decide⟩
  · by_cases h8 : w.cnt = 8
    · have hdecodes := hin.decodes c hin.governs
      rw [← hin.cnt_eq, h8] at hdecodes
      rw [LobEnc.openBlock, if_pos (.inr h8)]
      exact ⟨_, 0, [], .fresh hin.out_eq hp hdecodes, by decide⟩
    · rw [LobEnc.openBlock, if_neg (by simp [hin.ci_eq, h8])]
      have := hin.length_le
      have := hin.cnt_eq
      exact ⟨us, c, items, hin, by omega⟩

theorem LobEnc.Decodable.putLiteral {S : Nat → Byte} {n : Nat} {w : LobEnc} (h : w.Decodable S n) (hp : w.p < n) :
    LobEnc.Decodable S n { w.putLiteral (S w.p) with p := w.p + 1 } := by
  obtain ⟨us, c, items, hin, h8⟩ := h.openBlock hp
  have hbit : (c ||| ((0x80 : Byte) >>> items.length)).getLsbD (7 - items.length) = true := by
    rw [markLiteral_bit c h8 h8, decide_eq_true rfl, Bool.or_true]
  have hitem := hin.item (c' := c ||| ((0x80 : Byte) >>> items.length)) h8 (by simpa using hp) (lobLit_covers S _) rfl
    (governs_concat.2 ⟨hin.governs.markLiteral h8, hbit⟩)
    (fun k hk hk8 => by rw [markLiteral_bit c hk8 h8, hin.clear k (by omega) hk8, decide_eq_false (by omega)]; rfl)
  rw [streamOf_lobBlock_concat, ← hin.marked, LobEnc.openBlock_p] at hitem
  exact .inr ⟨_, _, _, hitem⟩

theorem LobEnc.Decodable.putMatch {S : Nat → Byte} {n d l : Nat} {w : LobEnc} (h : w.Decodable S n) (hp : w.p < n)
    (hi : LobItemCovers S w.p l (.lobMatch (BitVec.ofNat 4 (l - 3)) (BitVec.ofNat 12 d))) :
    LobEnc.Decodable S n { w.putMatch d l with p := w.p + l } := by
  obtain ⟨us, c, items, hin, h8⟩ := h.openBlock hp
  rw [← LobEnc.openBlock_p] at hi
  have hitem := hin.item h8 (by simpa using hp) hi rfl
    (governs_concat.2 ⟨hin.governs, hin.clear _ (Nat.le_refl _) h8⟩) (fun k hk => hin.clear k (by omega))
  rw [streamOf_lobBlock_concat, ← hin.out_eq, LobEnc.openBlock_p] at hitem
  exact .inr ⟨_, _, _, hitem⟩

/-- The finished output begins with tokens that decode to the input: the padding follows the last of them, and if it is
a literal its control bit is none of theirs (R90). -/
theorem LobEnc.Decodable.pad {S : Nat → Byte} {n : Nat} {w : LobEnc} (h : w.Decodable S n) (hp : w.p = n) (hn : 0 < n) :
    ∃ us, streamOf us <+: w.pad ∧ decoded lobAppends n (0, 8) [] us = some (bytesOf S 0 n) := by
  obtain ⟨us, c, items, hin⟩ := h.resolve_left (by rintro rfl; exact hn.ne hp)
  have hdecodes (d : Byte) (hd : Governs d items) :
      decoded lobAppends n (0, 8) [] (lobBlock us d items) = some (bytesOf S 0 n) :=
    hp ▸ (hin.decodes d hd).complete (by simpa using hp)
  rw [LobEnc.pad]
  split
  · split
    · next h8 =>
      refine ⟨_, ?_, hdecodes _ (hin.governs.markLiteral (hin.cnt_eq ▸ h8))⟩
      rw [LobEnc.putLiteral, LobEnc.openBlock, if_neg (by simp [hin.ci_eq]; omega), hin.marked]
      exact List.prefix_append ..
    · exact ⟨_, hin.out_eq ▸ List.prefix_append .., hdecodes c hin.governs⟩
  · exact ⟨_, hin.out_eq ▸ List.prefix_rfl, hdecodes c hin.governs⟩

/-! #### The parse -/

/-- What every item of LOB_COMPRESS keeps: its trie holds runs of the input, those of every position covered, and its
output decodes to the input covered. -/
structure LobEnc.Undoable (S : Nat → Byte) (n : Nat) (t : Trie) (w : LobEnc) : Prop where
  trie : LobTrie t w.p
  holds : t.Holds S
  p_le : w.p ≤ n
  decodable : w.Decodable S n

theorem LobEnc.Undoable.item {S : Nat → Byte} {n : Nat} {t : Trie} {w : LobEnc} (h : LobEnc.Undoable S n t w)
    (hn : n < 2 ^ 32) (hp : w.p < n) : LobEnc.Undoable S n (lobEncItem S n t w).1 (lobEncItem S n t w).2 := by
  obtain ⟨htrie, hholds, -, hdec⟩ := h
  have htrie' := htrie.item (S := S) hn hp
  obtain ⟨⟨q, l⟩, hs⟩ : ∃ best, t.search S w.p (min Config.lobMaxMatch (n - w.p)) = best := ⟨_, rfl⟩
  have hmax := Trie.search_le t S w.p (min Config.lobMaxMatch (n - w.p))
  rw [lobEncItem, hs] at htrie' ⊢
  rw [hs] at hmax
  refine ⟨htrie', hholds.addRuns _ _ _ _, ?_, ?_⟩ <;> dsimp only at hmax ⊢
  · split <;> omega
  · split
    · next hl => exact hdec.putMatch hp (lobMatch_covers htrie hholds hs hl)
    · exact hdec.putLiteral hp

/-- The stream of LOB_COMPRESS begins with tokens that decode to its input (R88 to R94). -/
theorem exec_lobCompress_undoable {s : State} (hr : RegionsOk s) (h20 : 20 ≤ s.slen) :
    ∃ out us, exec .lobCompress s = .next (s.compressed opLobCompress out false) ∧ streamOf us <+: out
      ∧ decoded lobAppends s.slen (0, 8) [] us = some (bytesOf s.srcByte 0 s.slen) := by
  have hstart : LobEnc.Undoable s.srcByte s.slen (Trie.withWindow Config.lobWindow) LobEnc.start :=
    ⟨⟨Trie.withWindow_wf (by decide) (by decide), rfl, Trie.withWindow_reaches _⟩, Trie.withWindow_holds _ _,
      Nat.zero_le _, .inl rfl⟩
  obtain ⟨t, w, ⟨-, -, hle, hdec⟩, hend, hrun⟩ := lobParse.run_finishes
    (fun _ _ h hp => h.item s.ctx.slen.isLt hp) (s.slen + 1) hstart (Nat.lt_succ_of_le (Nat.sub_le ..))
  obtain ⟨us, hprefix, hus⟩ := hdec.pad (Nat.le_antisymm hle hend) (by omega)
  refine ⟨w.pad, us, congrArg Host.Outcome.next ?_, hprefix, hus⟩
  rw [lobCompressBegin_eq hr h20]
  exact hrun

/-- Settles O32. The stored form is the input; of 20 bytes or more, the stream begins with tokens that decode to the
input (`exec_lobCompress_undoable`), and LOB_DECOMPRESS gives what the tokens of its stream decode to. -/
theorem lobDecompressUndoesCompress : Obligations.LobDecompressUndoesCompress := by
  intro s t v hu hr ht herr huv hrv hmem hsrc hslen hp0 hroom
  have hcap : v.p0 ≤ v.dcap := hp0 ▸ hroom
  rcases Nat.lt_or_ge s.slen 20 with h20 | h20
  · rw [exec_lobCompress_stored hr h20] at ht
    cases ht
    obtain ⟨hlen, hbegins⟩ := State.compressed_sourceBegins hu hr rfl herr huv hmem hsrc hslen
    have hsame := State.sourceAt_eq_bytesOf ((v.sourceBegins_iff _).1 hbegins)
    rw [bytesOf_length] at hlen hsame
    obtain ⟨u, hexec, hwrites, -⟩ := (lobDecompressDecodesItsStream.1 v huv hrv hcap (hp0 ▸ h20)).1 (by omega)
    refine ⟨u, hexec, ?_⟩
    rwa [hsame, ← hp0]
  · obtain ⟨out, us, hexec, hprefix, hus⟩ := exec_lobCompress_undoable hr h20
    rw [hexec] at ht
    cases ht
    obtain ⟨-, hbegins⟩ := State.compressed_sourceBegins hu hr rfl herr huv hmem hsrc hslen
    obtain ⟨u, hexec, hwrites, -⟩ := lobDecompressDecodesItsStream.2 v us _ huv hrv hcap (hp0 ▸ h20)
      (State.sourceBegins_of_prefix hbegins hprefix) (hp0 ▸ hus)
    exact ⟨u, hexec, hp0 ▸ hwrites⟩

end Sys2Proof.Machine

/-! ### XLOB_COMPRESS's stream decodes to its input -/

namespace Sys2Proof.Machine

/-! #### The tokens written -/

/-- The bytes `written` by XLOB_COMPRESS are the tokens `us 0`. While a reservation is open at index `k`, `us r` are the
same tokens with the nibble `r` in the reserve byte there (R101). Whatever that nibble, a decoder that has read them has
given `out`, and keeps it for the next large match (R107). -/
structure XlobTokens (n : Nat) (us : BitVec 4 → List (Instr × List Byte)) (written : List Byte) (pend : Option Nat)
    (out : List Byte) : Prop where
  written_eq : written = streamOf (us 0)
  filled : ∀ k, pend = some k → ∀ r bs,
    (written ++ bs).modify k (fun b => b ||| ((0 : BitVec 4) ++ r)) = streamOf (us r) ++ bs
  decodes : ∀ r, DecodesAs xlobAppends n none (us r) (pend.map fun _ => r) out

section
variable {n k : Nat} {us : BitVec 4 → List (Instr × List Byte)} {written out bs lits : List Byte} {pend : Option Nat}
  {i : Instr} {a : BitVec 5} {b : Byte} {q : BitVec 4}

theorem streamOf_concat (us : List (Instr × List Byte)) (i : Instr) (lits : List Byte) :
    streamOf (us ++ [(i, lits)]) = streamOf us ++ tokenBytes i ++ lits := by
  simp [streamOf]

theorem XlobTokens.nil : XlobTokens n (fun _ => []) [] none [] :=
  ⟨rfl, nofun, fun _ => .nil⟩

/-- One more token, of those that leave the reservation as it is. -/
theorem XlobTokens.token (h : XlobTokens n us written pend out) (hl : out.length < n) (hwf : i.wellFormed = true)
    (hlits : lits.length = literalCount i) (ha : ∀ res, xlobAppends res out i lits = some (bs, res)) :
    XlobTokens n (fun r => us r ++ [(i, lits)]) (written ++ tokenBytes i ++ lits) pend (out ++ bs) where
  written_eq := by rw [streamOf_concat, h.written_eq]
  filled k hk r tail := by
    simp only [streamOf_concat, List.append_assoc]
    exact h.filled k hk r _
  decodes r := (h.decodes r).token hl hwf hlits (ha _)

theorem modify_append_length (as : List Byte) (b : Byte) (bs : List Byte) (f : Byte → Byte) :
    (as ++ b :: bs).modify as.length f = as ++ f b :: bs := by
  simp [List.modify_eq_take_cons_drop]

/-- The second nibble of a reserve byte is put below the first (R67, R101). -/
theorem reserveByte_filled (q r : BitVec 4) : (q ++ 0#4 ||| 0#4 ++ r : Byte) = q ++ r := by
  revert q r
  decide

/-- A large match that opens a reservation: its reserve byte is the last one written (R101). -/
theorem XlobTokens.largeFirst (h : XlobTokens n us written none out) (hl : out.length < n)
    (hc : largeCopied out a b q = some bs) :
    XlobTokens n (fun r => us 0 ++ [(.xlobLmatchFirst a b q r, [])])
      (written ++ tokenBytes (.xlobLmatchFirst a b q 0)) (some (written.length + 2)) (out ++ bs) where
  written_eq := by rw [streamOf_concat, ← h.written_eq, List.append_nil]
  filled k hk r tail := by
    obtain rfl := Option.some.inj hk
    have hreserve := modify_append_length (streamOf (us 0) ++ [(5 : BitVec 3) ++ a, b]) (q ++ (0 : BitVec 4)) tail
      (fun b => b ||| ((0 : BitVec 4) ++ r))
    simpa [streamOf_concat, h.written_eq, tokenBytes, encode, reserveByte_filled] using hreserve
  decodes r := (h.decodes 0).token (r := (bs, some r)) hl rfl rfl (by simp [xlobAppends, hc])

/-- A large match that fills the open reservation with its nibble (R101). -/
theorem XlobTokens.largeSecond (h : XlobTokens n us written (some k) out) (hl : out.length < n)
    (hc : largeCopied out a b q = some bs) :
    XlobTokens n (fun _ => us q ++ [(.xlobLmatchSecond a b, [])])
      ((written ++ tokenBytes (.xlobLmatchSecond a b)).modify k (fun b => b ||| ((0 : BitVec 4) ++ q))) none
      (out ++ bs) where
  written_eq := by rw [h.filled k rfl, streamOf_concat, List.append_nil]
  filled := nofun
  decodes _ := (h.decodes q).token (r := (bs, none)) hl rfl rfl (by simp [xlobAppends, hc])

end

/-! #### What the encoder's parts write -/

/-- XLOB_COMPRESS has written tokens that decode to `out`. -/
def XlobEnc.Writes (n : Nat) (w : XlobEnc) (out : List Byte) : Prop := ∃ us, XlobTokens n us w.out w.pend out

section
variable {n d l r : Nat} {w : XlobEnc} {out xs bs : List Byte}

theorem XlobEnc.Writes.token {lits : List Byte} {i : Instr} (h : w.Writes n out) (hl : out.length < n)
    (hwf : i.wellFormed = true) (hlits : lits.length = literalCount i)
    (ha : ∀ res, xlobAppends res out i lits = some (bs, res)) :
    XlobEnc.Writes n { w with out := w.out ++ tokenBytes i ++ lits } (out ++ bs) :=
  let ⟨_, hus⟩ := h
  ⟨_, hus.token hl hwf hlits ha⟩

/-- A token without literal bytes. -/
theorem XlobEnc.Writes.plainToken {i : Instr} (h : w.Writes n out) (hl : out.length < n) (hwf : i.wellFormed = true)
    (hlits : literalCount i = 0) (ha : ∀ res, xlobAppends res out i [] = some (bs, res)) :
    XlobEnc.Writes n { w with out := w.out ++ tokenBytes i } (out ++ bs) := by
  simpa using h.token (lits := []) hl hwf hlits.symm ha

/-- Small literals, one token each (R99, R109). -/
theorem XlobEnc.Writes.smallLiterals (h : w.Writes n out) (hsmall : ∀ x ∈ xs, x.toNat ≤ 31)
    (hl : (out ++ xs).length ≤ n) :
    XlobEnc.Writes n { w with out := w.out ++ xs.flatMap fun x => tokenBytes (.xlobSlit (BitVec.ofNat 5 x.toNat)) }
      (out ++ xs) := by
  induction xs generalizing w out with
  | nil => simpa using h
  | cons x xs ih =>
    have hx : x.toNat ≤ 31 := hsmall x List.mem_cons_self
    have hvalue : BitVec.ofNat 8 (BitVec.ofNat 5 x.toNat).toNat = x := (byte_eq (by simp; omega)).symm
    have hlt : out.length < n := by simp at hl; omega
    have htoken := h.plainToken (i := .xlobSlit (BitVec.ofNat 5 x.toNat)) (bs := [x]) hlt rfl rfl
      (fun res => by rw [xlobAppends, hvalue])
    have hrest := ih htoken (fun y hy => hsmall y (List.mem_cons_of_mem x hy)) (by simpa using hl)
    simpa using hrest

/-- A group of literals as one literal run (R99, R105). -/
theorem XlobEnc.Writes.literalRun (h : w.Writes n out) (hne : xs ≠ []) (h127 : xs.length ≤ 127)
    (hl : (out ++ xs).length ≤ n) :
    XlobEnc.Writes n { w with out := w.out ++ tokenBytes (.xlobLitrun (BitVec.ofNat 7 xs.length)) ++ xs }
      (out ++ xs) := by
  have hpos := List.length_pos_iff.2 hne
  have hcount : (BitVec.ofNat 7 xs.length).toNat = xs.length := by simp; omega
  refine h.token (i := .xlobLitrun (BitVec.ofNat 7 xs.length)) (by simp at hl; omega) ?_ hcount.symm (fun _ => rfl)
  rw [Instr.wellFormed, bne_iff_ne]
  intro h0
  rw [h0] at hcount
  exact hpos.ne hcount

/-- `flush()` writes the pending literals (R99). -/
theorem XlobEnc.Writes.flush (h : w.Writes n out) (h127 : w.lits.length ≤ 127) (hl : (out ++ w.lits).length ≤ n) :
    w.flush.Writes n (out ++ w.lits) := by
  unfold XlobEnc.flush
  split
  · next hnil => rwa [hnil, List.append_nil]
  · next hne =>
    split
    · next hsmall => exact h.smallLiterals (by simpa using hsmall) hl
    · exact h.literalRun hne h127 hl

theorem XlobEnc.Writes.putRun {v : Byte} (h : w.Writes n out) (hl : out.length < n) (h3 : 3 ≤ r)
    (hr : r ≤ if v = 0 then 258 else 34) : (w.putRun v r).Writes n (out ++ List.replicate r v) := by
  unfold XlobEnc.putRun
  split
  · next hv =>
    rw [if_pos hv] at hr
    have hcount : (BitVec.ofNat 8 (r - 3)).toNat + 3 = r := by simp; omega
    exact h.plainToken hl rfl rfl fun res => by rw [xlobAppends, hcount, hv]
  · next hv =>
    rw [if_neg hv] at hr
    have hcount : (BitVec.ofNat 5 (r - 3)).toNat + 3 = r := by simp; omega
    exact h.plainToken hl rfl rfl fun res => by rw [xlobAppends, hcount]

/-- The fields of a large match give back its distance and length (R67, R101). -/
theorem largeCopied_largeMatchValue (out : List Byte) (hd : d ≤ 1023) (h3 : 3 ≤ l) (h130 : l ≤ 130) :
    largeCopied out ((largeMatchValue d l).extractLsb' 12 5) ((largeMatchValue d l).extractLsb' 4 8)
      ((largeMatchValue d l).extractLsb' 0 4) = copied out d l := by
  have hv := largeMatchValue_toNat hd h130
  simp only [largeCopied, BitVec.extractLsb'_toNat, Nat.shiftRight_eq_div_pow, hv]
  congr 1 <;> omega

/-- `matchtok(d, L)` (R100, R101). -/
theorem XlobEnc.Writes.putMatch (h : w.Writes n out) (hl : out.length < n) (hc : copied out d l = some bs)
    (hd : d ≤ 1023) (h3 : 3 ≤ l) (h130 : l ≤ 130) : (w.putMatch d l).Writes n (out ++ bs) := by
  unfold XlobEnc.putMatch
  split
  · next hsmall =>
    obtain ⟨hd511, hl18⟩ : d ≤ 511 ∧ l ≤ 18 := hsmall
    have hlen : (BitVec.ofNat 4 (l - 3)).toNat + 3 = l := by simp; omega
    have hdist : (BitVec.ofNat 9 d).toNat = d := by simp; omega
    exact h.plainToken hl rfl rfl fun res => by rw [xlobAppends, hlen, hdist, hc]; rfl
  · obtain ⟨us, hus⟩ := h
    have hlarge := (largeCopied_largeMatchValue out hd h3 h130).trans hc
    unfold XlobEnc.putLargeMatch
    dsimp only
    split
    · next hpend => exact ⟨_, XlobTokens.largeFirst (hpend ▸ hus) hl hlarge⟩
    · next k hpend => exact ⟨_, XlobTokens.largeSecond (hpend ▸ hus) hl hlarge⟩

end

/-- XLOB_COMPRESS's tokens decode to the input covered, but for the pending literals. -/
def XlobEnc.Decodable (S : Nat → Byte) (n : Nat) (w : XlobEnc) : Prop :=
  ∃ out, w.Writes n out ∧ out ++ w.lits = bytesOf S 0 w.p

section
variable {S : Nat → Byte} {n : Nat} {w : XlobEnc}

theorem XlobEnc.Decodable.flush (h : w.Decodable S n) (h127 : w.lits.length ≤ 127) (hp : w.p ≤ n) :
    w.flush.Writes n (bytesOf S 0 w.p) := by
  obtain ⟨out, hw, hinput⟩ := h
  rw [← hinput]
  exact hw.flush h127 (by rw [hinput]; simpa using hp)

theorem bytesOf_add (S : Nat → Byte) (a k l : Nat) : bytesOf S a (k + l) = bytesOf S a k ++ bytesOf S (a + k) l := by
  simp [bytesOf, List.range_add, Nat.add_assoc]

/-- A run covers the input up to its end (R97, R98). -/
theorem XlobEnc.Decodable.putRun {r : Nat} (h : w.Decodable S n) (h127 : w.lits.length ≤ 127) (hp : w.p < n)
    (hr : IsRunAt S n w.p r) (h3 : 3 ≤ r) :
    XlobEnc.Decodable S n { w.flush.putRun (S w.p) r with p := w.p + r } := by
  obtain ⟨-, hmax, -, hsame, -⟩ := hr
  have hrun : List.replicate r (S w.p) = bytesOf S w.p r := by
    refine (List.eq_replicate_iff.2 ⟨bytesOf_length .., fun b hb => ?_⟩).symm
    obtain ⟨k, hk, rfl⟩ := List.mem_map.1 hb
    exact hsame k (List.mem_range.1 hk)
  refine ⟨_, (h.flush h127 hp.le).putRun (by simpa using hp) h3 hmax, ?_⟩
  rw [XlobEnc.putRun_lits, w.flush_lits, hrun, List.append_nil, bytesOf_add, Nat.zero_add]

/-- A match found in the input covers the input up to its end (R85, R100, R101). -/
theorem XlobEnc.Decodable.putMatch {t : Trie} {m q l : Nat} (h : w.Decodable S n) (h127 : w.lits.length ≤ 127)
    (hp : w.p < n) (ht : TrieInStep t 1023 w.p) (hold : t.Holds S) (hs : t.search S w.p (min 130 m) = (q, l))
    (h3 : 3 ≤ l) : XlobEnc.Decodable S n { w.flush.putMatch (w.p - q) l with p := w.p + l } := by
  have hmax := Trie.search_le t S w.p (min 130 m)
  rw [hs] at hmax
  obtain ⟨hq, hwin⟩ := ht.anchor hs (by omega)
  obtain ⟨bs, hbs, hinput⟩ := hold.search_copied hs (by omega) hq
  refine ⟨_, (h.flush h127 hp.le).putMatch (by simpa using hp) hbs (by omega) h3 (by omega), ?_⟩
  rw [XlobEnc.putMatch_lits, w.flush_lits, List.append_nil]
  exact hinput

/-- A literal is collected, or the full group of literals written (R99). -/
theorem XlobEnc.Decodable.addLiteral (h : w.Decodable S n) (h127 : w.lits.length < 127) (hp : w.p < n) :
    XlobEnc.Decodable S n { w.addLiteral (S w.p) with p := w.p + 1 } := by
  obtain ⟨out, hw, hinput⟩ := h
  have hnext : out ++ (w.lits ++ [S w.p]) = bytesOf S 0 (w.p + 1) := by
    rw [← List.append_assoc, hinput, bytesOf_add, Nat.zero_add]
    rfl
  have hlits : (w.lits ++ [S w.p]).length ≤ 127 := by simpa using h127
  unfold XlobEnc.addLiteral
  dsimp only
  split
  · refine ⟨_, XlobEnc.Writes.flush (w := { w with lits := w.lits ++ [S w.p] }) hw hlits ?_, ?_⟩
    · rw [hnext]
      simpa using hp
    · rw [XlobEnc.flush_lits, List.append_nil]
      exact hnext
  · exact ⟨out, hw, hnext⟩

/-- The finished output begins with tokens that decode to the input: the padding follows the last of them (R102). -/
theorem XlobEnc.Decodable.finish (h : w.Decodable S n) (h127 : w.lits.length ≤ 127) (hp : w.p = n) :
    ∃ us, streamOf us <+: w.finish ∧ decoded xlobAppends n none [] us = some (bytesOf S 0 n) := by
  obtain ⟨us, hus⟩ := h.flush h127 hp.le
  refine ⟨us 0, ?_, hp ▸ (hus.decodes 0).complete (by simpa using hp)⟩
  rw [← hus.written_eq, XlobEnc.finish]
  split
  · exact List.prefix_append ..
  · exact List.prefix_rfl

end

/-! #### The parse -/

/-- What every token of XLOB_COMPRESS keeps: its trie holds runs of the input, those of every position covered, and its
tokens with the pending literals decode to the input covered. -/
structure XlobEnc.Undoable (S : Nat → Byte) (n : Nat) (t : Trie) (w : XlobEnc) : Prop where
  keeps : XlobEnc.Keeps n t w
  holds : t.Holds S
  decodable : w.Decodable S n

theorem XlobEnc.Undoable.item {S : Nat → Byte} {n : Nat} {t : Trie} {w : XlobEnc} (h : XlobEnc.Undoable S n t w)
    (hn : n < 2 ^ 32) (hp : w.p < n) : XlobEnc.Undoable S n (xlobEncItem S n t w).1 (xlobEncItem S n t w).2 := by
  obtain ⟨hkeeps, hholds, hdec⟩ := h
  refine ⟨hkeeps.item hn hp, hholds.addRuns _ _ _ _, ?_⟩
  obtain ⟨⟨q, l⟩, hs⟩ : ∃ best, t.search S w.p (min Config.xlobMaxMatch (n - w.p)) = best := ⟨_, rfl⟩
  rw [xlobEncItem, hs]
  dsimp only
  split
  · next hrun => exact hdec.putRun hkeeps.lits_lt.le hp (xlobRunAt_isRunAt S hp) hrun.1
  · split
    · next hl => exact hdec.putMatch hkeeps.lits_lt.le hp hkeeps.trie hholds hs hl
    · exact hdec.addLiteral hkeeps.lits_lt hp

/-- The stream of XLOB_COMPRESS begins with tokens that decode to its input (R96 to R102). -/
theorem exec_xlobCompress_undoable {s : State} (hr : RegionsOk s) :
    ∃ out us, exec .xlobCompress s = .next (s.compressed opXlobCompress out false) ∧ streamOf us <+: out
      ∧ decoded xlobAppends s.slen none [] us = some (bytesOf s.srcByte 0 s.slen) := by
  have hkeeps : XlobEnc.Keeps s.slen (Trie.withWindow Config.xlobWindow) XlobEnc.start :=
    ⟨TrieInStep.start (by decide) (by decide), Nat.zero_le _, by decide, Nat.le_refl _, .inl rfl⟩
  have hstart : XlobEnc.Undoable s.srcByte s.slen (Trie.withWindow Config.xlobWindow) XlobEnc.start :=
    ⟨hkeeps, Trie.withWindow_holds _ _, [], ⟨_, .nil⟩, rfl⟩
  obtain ⟨t, w, ⟨hkeeps', -, hdec⟩, hend, hrun⟩ := xlobParse.run_finishes
    (fun _ _ h hp => h.item s.ctx.slen.isLt hp) (s.slen + 1) hstart (Nat.lt_succ_of_le (Nat.sub_le ..))
  obtain ⟨us, hprefix, hus⟩ := hdec.finish hkeeps'.lits_lt.le (Nat.le_antisymm hkeeps'.p_le hend)
  refine ⟨w.finish, us, congrArg Host.Outcome.next ?_, hprefix, hus⟩
  rw [xlobCompressBegin_eq hr]
  exact hrun

/-- Settles O38. The stream begins with tokens that decode to the input (`exec_xlobCompress_undoable`), and
XLOB_DECOMPRESS gives what the tokens of its stream decode to. -/
theorem xlobDecompressUndoesCompress : Obligations.XlobDecompressUndoesCompress := by
  intro s t v hu hr ht herr huv hrv hmem hsrc hslen hp0 hroom
  obtain ⟨out, us, hexec, hprefix, hus⟩ := exec_xlobCompress_undoable hr
  rw [hexec] at ht
  cases ht
  obtain ⟨-, hbegins⟩ := State.compressed_sourceBegins hu hr rfl herr huv hmem hsrc hslen
  obtain ⟨u, hexec', hwrites, -⟩ := xlobDecompressDecodesItsStream.1 v us _ huv hrv (hp0 ▸ hroom)
    (State.sourceBegins_of_prefix hbegins hprefix) (hp0 ▸ hus)
  exact ⟨u, hexec', hp0 ▸ hwrites⟩

end Sys2Proof.Machine

/-! ### TextLob's skip region and literals -/

namespace Sys2Proof.Machine

/-- The skip region is one read of the stream: its bytes are carried into the output (R119). -/
theorem TlobDec.skip_of_le {w : TlobDec} {limit n : Nat} {S : Nat → Byte} {k : Byte} (hout : w.out = [])
    (hk : k.toNat ≤ limit) (hin : w.i + k.toNat ≤ n) :
    w.skip limit S n k = .ok { w with i := w.i + k.toNat, out := bytesOf S w.i k.toNat, skipped := true } := by
  have hcut : min k.toNat (limit - w.out.length) = k.toNat := by simp [hout, hk]
  rw [TlobDec.skip, if_neg (Nat.not_lt.2 hk), readBytes_ok _ _ _ _ _ _ (hcut.symm ▸ hin), hcut, hout]
  rfl

/-- A skip count above the limit raises FORMAT(0) (R119). -/
theorem TlobDec.skip_of_gt {w : TlobDec} {limit n : Nat} {S : Nat → Byte} {k : Byte} (hk : limit < k.toNat) :
    w.skip limit S n k = .error ⟨.format, 0⟩ :=
  if_pos hk

/-- A skip region that the stream cuts short raises FORMAT at the first byte missing (R123). -/
theorem TlobDec.skip_of_short {w : TlobDec} {limit n : Nat} {S : Nat → Byte} {k : Byte} (hout : w.out = [])
    (hk : k.toNat ≤ limit) (hi : w.i ≤ n) (hshort : n < w.i + k.toNat) :
    w.skip limit S n k = .error ⟨.format, n⟩ := by
  have hcut : min k.toNat (limit - w.out.length) = k.toNat := by simp [hout, hk]
  rw [TlobDec.skip, if_neg (Nat.not_lt.2 hk), readBytes_error _ _ _ _ _ _ hi (hcut.symm ▸ hshort)]

/-- Settles O41. The token is `TlobDec.skip`, which by the count and the stream's length reads its bytes or raises. -/
theorem tlobSkipTokenCopies : Obligations.TlobSkipTokenCopies := by
  intro s w k hw hskip hout hu hv hcap
  have hexec : exec (.tlobSkip k) s
      = .next (s.settle opTlobDecompress (TlobDec.progress s.p0 (w.skip s.p0 s.srcByte s.slen k))) :=
    onTlobDec_eq _ hw (by simp [hskip])
  rw [hexec]
  refine ⟨fun hk hin => ?_, fun hk => ?_, fun hk hi hshort => ?_⟩
  · rw [TlobDec.skip_of_le hout hk hin, TlobDec.progress_skipped rfl]
    exact ⟨_, _, rfl, rfl, State.settle_decodesTo hu hv rfl rfl (by simpa using hk.trans hcap)⟩
  · rw [TlobDec.skip_of_gt hk]
    exact ⟨_, rfl, State.raiseError_decoderFails hu (by decide) rfl ⟨.format, 0⟩⟩
  · rw [TlobDec.skip_of_short hout hk hi hshort]
    exact ⟨_, rfl, State.raiseError_decoderFails hu (by decide) rfl ⟨.format, s.slen⟩⟩

/-- A literal may be the last byte of the output (R120, R123). -/
theorem TlobDec.literal_decodesTo {s : State} {w : TlobDec} (hskip : w.skipped = true) (hdec : Decoding s w.out)
    (v : Byte) : DecodesTo s (s.settle opTlobDecompress (TlobDec.progress s.p0 (w.literal v))) (w.out ++ [v])
      (.tlobDec { w with out := w.out ++ [v] }) := by
  obtain ⟨hu, hv, hlt, hcap⟩ := hdec
  rw [TlobDec.literal, TlobDec.progress_skipped (w := { w with out := w.out ++ [v] }) hskip]
  exact State.settle_decodesTo hu hv rfl rfl (by simp; omega)

/-- Settles O42. Both tokens decode whether a reservation is open or not (`tlobLit_readsAs`), and both are
`TlobDec.literal`. -/
theorem tlobLiteralTokensAppend : Obligations.TlobLiteralTokensAppend := by
  refine ⟨fun b reserved => ⟨fun hb => (tlobLit_readsAs hb reserved).token, rfl⟩, fun s w v hw hskip hdec => ?_⟩
  have hliteral := TlobDec.literal_decodesTo hskip hdec
  exact ⟨⟨_, onTlobDec_eq _ hw hskip, hliteral v⟩, ⟨_, onTlobDec_eq _ hw hskip, hliteral 0⟩⟩

end Sys2Proof.Machine

/-! ### TLOB_COMPRESS's stream decodes to its input -/

namespace Sys2Proof.Machine

/-! #### The tokens written -/

/-- A decoder with output still to produce goes on after a token that appends `r.1`. -/
theorem decoded_token {σ : Type} {appends : σ → List Byte → Instr → List Byte → Option (List Byte × σ)} {limit : Nat}
    {q : σ} {out : List Byte} {i : Instr} {lits : List Byte} {r : List Byte × σ} (hl : out.length < limit)
    (hwf : i.wellFormed = true) (hlits : lits.length = literalCount i) (ha : appends q out i lits = some r)
    (rest : List (Instr × List Byte)) :
    decoded appends limit q out ((i, lits) :: rest) = decoded appends limit r.2 (out ++ r.1) rest := by
  rw [decoded, if_pos ⟨hl, hwf, hlits⟩]
  simp only [ha]

/-- TLOB_COMPRESS has written its header and the tokens `us 0`. While a reservation is open at index `j`, `us r` are the
same tokens with the nibble `r` in the reserved place there (R115). Whatever that nibble, a decoder that has carried the
skip region and read them has given the input covered, and keeps it for the next 2-byte match (R121). -/
structure TlobEnc.Writes (S : Nat → Byte) (n k : Nat) (w : TlobEnc) (us : BitVec 4 → List (Instr × List Byte)) :
    Prop where
  out_eq : w.out = tlobHeader S k ++ streamOf (us 0)
  filled : ∀ j, w.pend = some j → ∀ r bs,
    (w.out ++ bs).modify j (fun b => b ||| ((0 : BitVec 4) ++ r)) = tlobHeader S k ++ (streamOf (us r) ++ bs)
  decodes : ∀ r rest, decoded tlobAppends n none (bytesOf S 0 k) (us r ++ rest)
    = decoded tlobAppends n (w.pend.map fun _ => r) (bytesOf S 0 w.p) rest

section
variable {S : Nat → Byte} {n k d l adv : Nat} {w : TlobEnc} {us : BitVec 4 → List (Instr × List Byte)} {bs : List Byte}

theorem TlobEnc.Writes.start (S : Nat → Byte) (n k : Nat) : (TlobEnc.start S k).Writes S n k fun _ => [] :=
  ⟨(List.append_nil _).symm, nofun, fun _ _ => rfl⟩

/-- One more token after those that decode to the input covered. -/
theorem TlobEnc.Writes.decodes_token {i : Instr} {q : Option (BitVec 4)} {r : BitVec 4} (h : w.Writes S n k us)
    (hp : w.p < n) (hwf : i.wellFormed = true)
    (ha : tlobAppends (w.pend.map fun _ => r) (bytesOf S 0 w.p) i [] = some (bs, q))
    (hcover : bytesOf S 0 w.p ++ bs = bytesOf S 0 (w.p + adv)) (rest : List (Instr × List Byte)) :
    decoded tlobAppends n none (bytesOf S 0 k) (us r ++ [(i, [])] ++ rest)
      = decoded tlobAppends n q (bytesOf S 0 (w.p + adv)) rest := by
  rw [List.append_assoc, h.decodes, ← hcover]
  exact decoded_token (lits := []) (by simpa using hp) hwf (tlobAppends_literalCount ha).symm ha rest

/-- A token of those that leave the reservation as it is. -/
theorem TlobEnc.Writes.token {i : Instr} (h : w.Writes S n k us) (hp : w.p < n) (hwf : i.wellFormed = true)
    (ha : ∀ res, tlobAppends res (bytesOf S 0 w.p) i [] = some (bs, res))
    (hcover : bytesOf S 0 w.p ++ bs = bytesOf S 0 (w.p + adv)) :
    TlobEnc.Writes S n k { w with out := w.out ++ tokenBytes i, p := w.p + adv } fun r => us r ++ [(i, [])] where
  out_eq := by rw [streamOf_concat, h.out_eq, List.append_nil, List.append_assoc]
  filled j hj r tail := by
    simp only [streamOf_concat, List.append_nil, List.append_assoc]
    exact h.filled j hj r _
  decodes _ rest := h.decodes_token hp hwf (ha _) hcover rest

/-- The first 2-byte match of a pair: its low nibble is reserved in the last byte written (R115). -/
theorem TlobEnc.Writes.shortFirst {f g : BitVec 4} (h : w.Writes S n k us) (hp : w.p < n) (hpend : w.pend = none)
    (hc : copied (bytesOf S 0 w.p) (f.toNat * 16 + g.toNat + 3) 2 = some bs)
    (hcover : bytesOf S 0 w.p ++ bs = bytesOf S 0 (w.p + adv)) :
    TlobEnc.Writes S n k
      { w with
        out := w.out ++ tokenBytes (.tlobShortFirst f g 0), pend := some (w.out.length + 1), p := w.p + adv }
      fun r => us 0 ++ [(.tlobShortFirst f g r, [])] where
  out_eq := by rw [streamOf_concat, h.out_eq, List.append_nil, List.append_assoc]
  filled j hj r tail := by
    obtain rfl := Option.some.inj hj
    have hreserve := modify_append_length (w.out ++ [(0 : BitVec 4) ++ f]) (g ++ (0 : BitVec 4)) tail
      (fun b => b ||| ((0 : BitVec 4) ++ r))
    simpa [streamOf_concat, h.out_eq, tokenBytes, encode, reserveByte_filled, Nat.add_assoc] using hreserve
  decodes r rest := h.decodes_token (r := 0) (q := some r) hp rfl (by simp [tlobAppends, hpend, hc]) hcover rest

/-- The second 2-byte match of a pair puts its low nibble in the reserved place (R115). -/
theorem TlobEnc.Writes.shortSecond {f g : BitVec 4} {j : Nat} (h : w.Writes S n k us) (hp : w.p < n)
    (hpend : w.pend = some j) (hc : copied (bytesOf S 0 w.p) (f.toNat * 16 + g.toNat + 3) 2 = some bs)
    (hcover : bytesOf S 0 w.p ++ bs = bytesOf S 0 (w.p + adv)) :
    TlobEnc.Writes S n k
      { w with
        out := (w.out ++ tokenBytes (.tlobShortSecond f)).modify j (fun b => b ||| ((0 : BitVec 4) ++ g))
        pend := none, p := w.p + adv }
      fun _ => us g ++ [(.tlobShortSecond f, [])] where
  out_eq := by rw [h.filled j hpend, streamOf_concat, List.append_nil]
  filled := nofun
  decodes _ rest := h.decodes_token (r := g) (q := none) hp rfl (by simp [tlobAppends, hpend, hc]) hcover rest

/-! #### What the encoder's parts write -/

/-- TLOB_COMPRESS's tokens decode to the input covered. -/
def TlobEnc.Decodable (S : Nat → Byte) (n k : Nat) (w : TlobEnc) : Prop := ∃ us, w.Writes S n k us

/-- Decoding does not depend on which anchor is inserted next. -/
theorem TlobEnc.Decodable.with_nxt (h : w.Decodable S n k) (x : Nat) :
    TlobEnc.Decodable S n k { w with nxt := x } :=
  let ⟨us, hus⟩ := h
  ⟨us, hus.out_eq, hus.filled, hus.decodes⟩

/-- `littok(v)` (R116, R120). -/
theorem TlobEnc.Decodable.putLiteral (h : w.Decodable S n k) (hp : w.p < n)
    (htext : ¬ (1 ≤ (S w.p).toNat ∧ (S w.p).toNat ≤ 31)) :
    TlobEnc.Decodable S n k { w.putLiteral (S w.p) with p := w.p + 1 } := by
  obtain ⟨us, hus⟩ := h
  have hcover : bytesOf S 0 w.p ++ [S w.p] = bytesOf S 0 (w.p + 1) := by
    rw [bytesOf_add, Nat.zero_add]
    rfl
  unfold TlobEnc.putLiteral
  split
  · next hzero => exact ⟨_, hus.token hp rfl (fun _ => rfl) (hzero ▸ hcover)⟩
  · next hne =>
    have h32 : 0x20 ≤ (S w.p).toNat := by
      have : (S w.p).toNat ≠ 0 := fun h0 => hne (BitVec.eq_of_toNat_eq h0)
      omega
    exact ⟨_, hus.token hp (decide_eq_true h32) (fun _ => rfl) hcover⟩

/-- `longtok(d, L)` (R73, R115, R122). -/
theorem TlobEnc.Decodable.putLong (h : w.Decodable S n k) (hp : w.p < n) (hd3 : 3 ≤ d) (hd : d ≤ 482) (hl3 : 3 ≤ l)
    (hl : l ≤ 10) (hc : copied (bytesOf S 0 w.p) d l = some bs)
    (hcover : bytesOf S 0 w.p ++ bs = bytesOf S 0 (w.p + l)) :
    TlobEnc.Decodable S n k { w.putLong d l with p := w.p + l } := by
  obtain ⟨us, hus⟩ := h
  have hfield : (BitVec.ofNat 9 (d - 3)).toNat = d - 3 := by simp; omega
  have hdist : (BitVec.ofNat 9 (d - 3)).toNat + 3 = d := by omega
  have hlen : (BitVec.ofNat 3 (l - 3)).toNat + 3 = l := by simp; omega
  refine ⟨_, hus.token hp ?_ (fun res => ?_) hcover⟩
  · exact decide_eq_true (show (BitVec.ofNat 9 (d - 3)).toNat ≤ 479 by omega)
  · rw [tlobAppends, hdist, hlen, hc]
    rfl

/-- `shorttok(d)` (R72, R115, R121). -/
theorem TlobEnc.Decodable.putShort (h : w.Decodable S n k) (hp : w.p < n) (hd3 : 3 ≤ d) (hd : d ≤ 258)
    (hc : copied (bytesOf S 0 w.p) d 2 = some bs) (hcover : bytesOf S 0 w.p ++ bs = bytesOf S 0 (w.p + 2)) :
    TlobEnc.Decodable S n k { w.putShort d with p := w.p + 2 } := by
  obtain ⟨us, hus⟩ := h
  have hdist : ((BitVec.ofNat 8 (d - 3)).extractLsb' 4 4).toNat * 16
      + ((BitVec.ofNat 8 (d - 3)).extractLsb' 0 4).toNat + 3 = d := by
    obtain ⟨hhigh, hlow⟩ := nibbles_toNat (BitVec.ofNat 8 (d - 3))
    rw [hhigh, hlow, BitVec.toNat_ofNat]
    omega
  rw [← hdist] at hc
  unfold TlobEnc.putShort
  dsimp only
  split
  · next hpend => exact ⟨_, hus.shortFirst hp hpend hc hcover⟩
  · next j hpend => exact ⟨_, hus.shortSecond hp hpend hc hcover⟩

/-- The finished output begins with the header and tokens that decode to the input: the padding follows the last of them
(R117). -/
theorem TlobEnc.Decodable.finish (h : w.Decodable S n k) (hp : w.p = n) :
    ∃ us, tlobHeader S k ++ streamOf us <+: w.finish
      ∧ decoded tlobAppends n none (bytesOf S 0 k) us = some (bytesOf S 0 n) := by
  obtain ⟨us, hus⟩ := h
  obtain ⟨hprefix, -⟩ := evened_spec w.out
  have hlen : (bytesOf S 0 n).length = n := bytesOf_length ..
  refine ⟨us 0, ?_, ?_⟩
  · rw [← hus.out_eq, TlobEnc.finish_eq]
    exact hprefix
  · have hend := hus.decodes 0 []
    rwa [List.append_nil, hp, decoded, if_pos hlen.ge, List.take_of_length_le hlen.le] at hend

end

/-! #### The parse -/

/-- No byte of an input that passes the check is 1 .. 31, past the skip region (R112). -/
theorem not_control_of_firstControlByte_eq_none {S : Nat → Byte} {count j i : Nat}
    (h : firstControlByte S count j = none) (hj : j ≤ i) (hi : i < j + count) :
    ¬ (1 ≤ (S i).toNat ∧ (S i).toNat ≤ 31) := by
  induction count generalizing j with
  | zero => omega
  | succ count ih =>
    rw [firstControlByte] at h
    split at h
    · cases h
    · next hbyte =>
      obtain rfl | hlt := Nat.eq_or_lt_of_le hj
      · exact hbyte
      · exact ih h hlt (by omega)

/-- What the check of R112 lets pass. -/
theorem tlobCheck_passed {S : Nat → Byte} {n k : Nat} (h : tlobCheck S n k = .ok ()) :
    k ≤ 255 ∧ ∀ i, k ≤ i → i < n → ¬ (1 ≤ (S i).toNat ∧ (S i).toNat ≤ 31) := by
  unfold tlobCheck at h
  split at h
  · cases h
  · next h255 =>
    split at h
    · cases h
    · split at h
      · cases h
      · next hnone =>
        exact ⟨Nat.not_lt.1 h255, fun i hk hn => not_control_of_firstControlByte_eq_none hnone hk (by omega)⟩

/-- What every token of TLOB_COMPRESS keeps: its trie holds runs of the input, and its tokens decode to the input
covered, which goes past the skip region. -/
structure TlobEnc.Undoable (S : Nat → Byte) (n k : Nat) (t : Trie) (w : TlobEnc) : Prop where
  keeps : TlobEnc.Keeps (tlobHeader S k) n t w
  holds : t.Holds S
  p_ge : k ≤ w.p
  decodable : w.Decodable S n k

theorem TlobEnc.Undoable.item {S : Nat → Byte} {n k : Nat} {t : Trie} {w : TlobEnc} (h : TlobEnc.Undoable S n k t w)
    (hc : tlobCheck S n k = .ok ()) (hn : n < 2 ^ 32) (hp : w.p < n) :
    TlobEnc.Undoable S n k (tlobEncItem S n t w).1 (tlobEncItem S n t w).2 := by
  obtain ⟨hkeeps, hholds, hge, hdec⟩ := h
  obtain ⟨htrie, -, hpos⟩ := tlobEncItem_positions S n t w
  obtain ⟨-, htext⟩ := tlobCheck_passed hc
  have hholds' : (t.addRuns S n Config.tlobMaxMatch (w.p - 2 - w.nxt) w.nxt).Holds S :=
    hholds.addRuns _ _ _ _
  refine ⟨hkeeps.item hn hp, htrie.symm ▸ hholds', hge.trans hpos, ?_⟩
  obtain ⟨⟨q, l⟩, hs⟩ : ∃ best, (t.addRuns S n Config.tlobMaxMatch (w.p - 2 - w.nxt) w.nxt).search S w.p
      (min Config.tlobMaxMatch (n - w.p)) = best := ⟨_, rfl⟩
  obtain ⟨hmax, hdist⟩ := hkeeps.trie.lagged hkeeps.lag hn hp (Trie.addRuns_eq_inserts .. ▸ hs)
  have hdec' := hdec.with_nxt (w.nxt + (w.p - 2 - w.nxt))
  have hcopied (hl : 0 < l) := hholds'.search_copied hs hl (by have := hdist hl; omega)
  rw [tlobEncItem, hs]
  dsimp only
  split
  · next hl =>
    obtain ⟨h3, h482⟩ := hdist (by omega)
    obtain ⟨bs, hbs, hcover⟩ := hcopied (by omega)
    exact hdec'.putLong hp h3 h482 hl (by omega) hbs hcover
  · split
    · next hshort =>
      obtain ⟨rfl, h258⟩ := hshort
      obtain ⟨h3, -⟩ := hdist (by decide)
      obtain ⟨bs, hbs, hcover⟩ := hcopied (by decide)
      exact hdec'.putShort hp h3 h258 hbs hcover
    · exact hdec'.putLiteral hp (htext _ hge hp)

/-- The stream of TLOB_COMPRESS begins with its header and tokens that decode to its input (R111 to R117). -/
theorem exec_tlobCompress_undoable {s : State} (hr : RegionsOk s) (hc : tlobCheck s.srcByte s.slen s.p1 = .ok ()) :
    ∃ out us, exec .tlobCompress s = .next (s.compressed opTlobCompress out false)
      ∧ tlobHeader s.srcByte s.p1 ++ streamOf us <+: out
      ∧ decoded tlobAppends s.slen none (bytesOf s.srcByte 0 s.p1) us = some (bytesOf s.srcByte 0 s.slen) := by
  have hkeeps : TlobEnc.Keeps (tlobHeader s.srcByte s.p1) s.slen (Trie.withWindow Config.tlobWindow)
      (TlobEnc.start s.srcByte s.p1) :=
    ⟨TrieInStep.start (by decide) (by decide), Nat.zero_le _, tlobCheck_ok hc, ⟨List.prefix_rfl, nofun⟩,
      by simp [TlobEnc.start]⟩
  have hstart : TlobEnc.Undoable s.srcByte s.slen s.p1 (Trie.withWindow Config.tlobWindow)
      (TlobEnc.start s.srcByte s.p1) :=
    ⟨hkeeps, Trie.withWindow_holds _ _, Nat.le_refl _, _, .start ..⟩
  obtain ⟨t, w, ⟨hkeeps', -, -, hdec⟩, hend, hrun⟩ := tlobParse.run_finishes
    (fun _ _ h hp => h.item hc s.ctx.slen.isLt hp) (s.slen + 1) hstart (Nat.lt_succ_of_le (Nat.sub_le ..))
  obtain ⟨us, hprefix, hus⟩ := hdec.finish (Nat.le_antisymm hkeeps'.p_le hend)
  refine ⟨w.finish, us, congrArg Host.Outcome.next ?_, hprefix, hus⟩
  rw [tlobCompressBegin_eq hr hc]
  exact hrun

/-- A TLOB_COMPRESS that ends without an error has passed the check of R112. -/
theorem tlobCheck_of_success {s t : State} (hu : Undisturbed s) (hr : RegionsOk s)
    (ht : exec .tlobCompress s = .next t) (herr : t.status.err = false) : tlobCheck s.srcByte s.slen s.p1 = .ok () := by
  cases hc : tlobCheck s.srcByte s.slen s.p1 with
  | ok => rfl
  | error r =>
    obtain ⟨t', ht', ⟨-, -, herr', -⟩, -⟩ := exec_tlobCompress_rejected hu hr hc
    rw [ht] at ht'
    cases ht'
    exact absurd herr' (by simp [herr])

/-- Settles O44. A compressor that ends without an error has written its header and tokens that decode to the input
(`exec_tlobCompress_undoable`), and TLOB_DECOMPRESS gives its skip region and what the tokens after it decode to. -/
theorem tlobDecompressUndoesCompress : Obligations.TlobDecompressUndoesCompress := by
  intro s t v hu hr ht herr huv hrv hmem hsrc hslen hp0 hroom
  have hc := tlobCheck_of_success hu hr ht herr
  obtain ⟨h255, -⟩ := tlobCheck_passed hc
  have hskip : (bytesOf s.srcByte 0 s.p1).length = (BitVec.ofNat 8 s.p1).toNat := by simp; omega
  have hfits : (BitVec.ofNat 8 s.p1).toNat ≤ v.p0 := by
    rw [← hskip, bytesOf_length, hp0]
    exact tlobCheck_ok hc
  obtain ⟨out, us, hexec, hprefix, hus⟩ := exec_tlobCompress_undoable hr hc
  rw [hexec] at ht
  cases ht
  obtain ⟨-, hbegins⟩ := State.compressed_sourceBegins hu hr rfl herr huv hmem hsrc hslen
  obtain ⟨u, hexec', hwrites, -⟩ := tlobDecompressDecodesItsStream.1 v _ _ us _ huv hrv (hp0 ▸ hroom) hskip hfits
    (State.sourceBegins_of_prefix hbegins hprefix) (hp0 ▸ hus)
  exact ⟨u, hexec', hp0 ▸ hwrites⟩

end Sys2Proof.Machine

/-! ### DEPLODE's file: its fields, its prepared buffer and its start -/

namespace Sys2Proof.Machine

/-- A big-endian field as a number (R39). -/
theorem be32At_toNat (F : Nat → Byte) (a : Nat) :
    (be32At F a).toNat = (F a).toNat * 2 ^ 24 + (F (a + 1)).toNat * 2 ^ 16 + (F (a + 2)).toNat * 2 ^ 8
      + (F (a + 3)).toNat := by
  rw [be32At, be32, toNat_append_eq, toNat_append_eq, toNat_append_eq]
  omega

/-- A size field leaves out bit 31 (R125, U1). -/
theorem sizeField_eq_mod (F : Nat → Byte) (a : Nat) : sizeField F a = (be32At F a).toNat % 2 ^ 31 := by
  rw [sizeField, BitVec.extractLsb'_toNat, Nat.shiftRight_zero]

theorem depPrepared_length {F : Nat → Byte} (h12 : 12 ≤ sizeField F 8) :
    (depPrepared F).length = sizeField F 8 := by
  simp only [depPrepared, List.length_append, bytesOf_length]
  omega

/-- Settles O45. The four pieces of the buffer, one after another. -/
theorem preparedBufferReordersTheInitialData : Obligations.PreparedBufferReordersTheInitialData := by
  intro F h12
  refine ⟨depPrepared_length h12, fun k hk => ?_⟩
  simp only [depPrepared, List.append_assoc]
  by_cases h4 : k < 4
  · rw [if_pos h4, List.getElem?_append_left (by simpa using h4), bytesOf_getElem? _ _ _ _ h4]
  rw [if_neg h4, List.getElem?_append_right (by simpa using h4), bytesOf_length]
  by_cases h8 : k < 8
  · rw [if_pos h8, List.getElem?_append_left (by rw [bytesOf_length]; omega), bytesOf_getElem? _ _ _ _ (by omega)]
  rw [if_neg h8, List.getElem?_append_right (by rw [bytesOf_length]; omega), bytesOf_length]
  by_cases hc : k < 12
  · rw [if_pos hc, List.getElem?_append_left (by rw [bytesOf_length]; omega), bytesOf_getElem? _ _ _ _ (by omega),
      show k - 4 - 4 = k - 8 by omega]
  · rw [if_neg hc, List.getElem?_append_right (by rw [bytesOf_length]; omega), bytesOf_length,
      bytesOf_getElem? _ _ _ _ (by omega), show 12 + (k - 4 - 4 - 4) = k by omega]

/-! #### The checks of the header and the footer -/

theorem depHeaderCheck_of_short {F : Nat → Byte} {n : Nat} (h : n < 12 ∨ bytesOf F 0 4 ≠ impMagic) :
    depHeaderCheck F n = .error ⟨.format, 0⟩ := by
  unfold depHeaderCheck
  split
  · rfl
  · next hn => exact if_pos (h.resolve_left hn)

theorem depHeaderCheck_of_magic {F : Nat → Byte} {n : Nat} (hn : 12 ≤ n) (hm : bytesOf F 0 4 = impMagic) :
    depHeaderCheck F n
      = if sizeField F 8 < 12 ∨ n < sizeField F 8 + 38 then .error ⟨.format, 8⟩ else .ok () := by
  rw [depHeaderCheck, if_neg (Nat.not_lt.2 hn), if_neg (not_not_intro hm)]
  rfl

/-- The extra-bit counts of the table are the footer's bytes from `I + 26` on (R75). -/
theorem depTable_extra (F : Nat → Byte) {k : Nat} (hk : k < 12) :
    (depTable F).getD (8 + k) 0 = F (sizeField F 8 + 26 + k) := by
  rw [List.getD, depTable, bytesOf_getElem? _ _ _ _ (by omega),
    show sizeField F 8 + 18 + (8 + k) = sizeField F 8 + 26 + k by omega]
  rfl

theorem firstBadExtra_eq_none {t : List Byte} {count j : Nat}
    (h : ∀ k, j ≤ k → k < j + count → (t.getD (8 + k) 0).toNat ≤ Config.deplodeMaxExtra) :
    firstBadExtra t count j = none := by
  induction count generalizing j with
  | zero => rfl
  | succ count ih =>
    rw [firstBadExtra, if_neg (Nat.not_lt.2 (h j (Nat.le_refl j) (by omega)))]
    exact ih fun k hk hlt => h k (by omega) (by omega)

theorem firstBadExtra_eq_some {t : List Byte} {count j i : Nat} (hj : j ≤ i) (hi : i < j + count)
    (hbad : Config.deplodeMaxExtra < (t.getD (8 + i) 0).toNat)
    (h : ∀ k, j ≤ k → k < i → (t.getD (8 + k) 0).toNat ≤ Config.deplodeMaxExtra) :
    firstBadExtra t count j = some i := by
  induction count generalizing j with
  | zero => omega
  | succ count ih =>
    rw [firstBadExtra]
    obtain rfl | hlt := Nat.eq_or_lt_of_le hj
    · exact if_pos hbad
    · rw [if_neg (Nat.not_lt.2 (h j (Nat.le_refl j) hlt))]
      exact ih hlt (by omega) fun k hk hki => h k (by omega) hki

theorem depFooterCheck_of_le {F : Nat → Byte} (h : ∀ j, j < 12 → (F (sizeField F 8 + 26 + j)).toNat ≤ 16) :
    depFooterCheck F = .ok () := by
  have hnone : firstBadExtra (depTable F) 12 0 = none := firstBadExtra_eq_none fun k _ hk => by
    rw [depTable_extra F (by omega)]
    exact h k (by omega)
  rw [depFooterCheck, hnone]

/-- The first extra-bit count above 16 fails the footer at its own position (R126). -/
theorem depFooterCheck_of_gt {F : Nat → Byte} {j : Nat} (hj : j < 12)
    (hbad : 16 < (F (sizeField F 8 + 26 + j)).toNat)
    (h : ∀ k, k < j → (F (sizeField F 8 + 26 + k)).toNat ≤ 16) :
    depFooterCheck F = .error ⟨.format, sizeField F 8 + 26 + j⟩ := by
  have hsome : firstBadExtra (depTable F) 12 0 = some j :=
    firstBadExtra_eq_some (Nat.zero_le j) (by omega) (by rwa [depTable_extra F hj]) fun k _ hk => by
      rw [depTable_extra F (by omega)]
      exact h k hk
  rw [depFooterCheck, hsome]

/-! #### The start of the command -/

/-- The premises under which the header and the footer pass their checks (R125, R126). -/
structure DepFile (F : Nat → Byte) (n : Nat) : Prop where
  magic : bytesOf F 0 4 = [0x49, 0x4D, 0x50, 0x21]
  size_ge : 12 ≤ sizeField F 8
  footer : sizeField F 8 + 38 ≤ n
  extra_le : ∀ j, j < 12 → (F (sizeField F 8 + 26 + j)).toNat ≤ 16

theorem DepFile.header_ok {F : Nat → Byte} {n : Nat} (h : DepFile F n) : depHeaderCheck F n = .ok () := by
  have hge := h.size_ge
  have hfooter := h.footer
  rw [depHeaderCheck_of_magic (by omega) h.magic, if_neg (by omega)]

theorem deplodeBegin_header {s : State} (hr : RegionsOk s) {r : Raise}
    (hh : depHeaderCheck s.srcByte s.slen = .error r) : deplodeBegin s = s.raiseError opDeplode r := by
  simp only [deplodeBegin, State.checkRegions_ok hr, hh]

theorem deplodeBegin_footer {s : State} (hr : RegionsOk s) {r : Raise}
    (hh : depHeaderCheck s.srcByte s.slen = .ok ()) (hf : depFooterCheck s.srcByte = .error r) :
    deplodeBegin s = s.raiseError opDeplode r := by
  simp only [deplodeBegin, State.checkRegions_ok hr, hh, hf]

/-- A file that passes its checks begins, unless its declared size is above the capacity (R124). -/
theorem deplodeBegin_file {s : State} (hr : RegionsOk s) (hfile : DepFile s.srcByte s.slen) :
    deplodeBegin s = if s.dcap < sizeField s.srcByte 4 then s.raiseError opDeplode ⟨.capacity, s.dcap⟩
      else { s with work := .dep (depStart s.srcByte) } := by
  simp only [deplodeBegin, State.checkRegions_ok hr, hfile.header_ok, depFooterCheck_of_le hfile.extra_le]

/-- A check that raises at the start ends DEPLODE with its error (R124, R145). -/
theorem exec_deplode_rejected {s : State} (hu : Undisturbed s) {e : ErrCode} {pos : Nat}
    (hb : deplodeBegin s = s.raiseError opDeplode ⟨e, pos⟩) :
    ∃ t, exec .deplode s = .next t ∧ CommandFails s t e pos s.trie :=
  ⟨_, congrArg Host.Outcome.next (takeTurns_ended hb (State.raiseError_work ..)),
    State.raiseError_decoderFails hu (by decide) rfl ⟨e, pos⟩⟩

/-! #### A literal run -/

theorem Dep.afterRun_eq_some {w v : Dep} (h : w.afterRun = some v) :
    w.lit ≤ w.cur ∧ w.out.length + w.lit ≤ w.size
      ∧ v = { w with cur := w.cur - w.lit
                     out := w.out ++ ((w.prepared.take w.cur).drop (w.cur - w.lit)).reverse } := by
  unfold Dep.afterRun at h
  split at h
  · next hfit => exact ⟨hfit.1, hfit.2, (Option.some.inj h).symm⟩
  · cases h

/-- After a whole literal run, the loop goes on while the cursor is above 0; at 0 it ends, with the output or with
DATA_INTEGRITY at the output's length (R131, R137). -/
theorem Dep.runProgress_of_afterRun {w v : Dep} (hready : w.ready) (h : w.afterRun = some v) :
    w.runProgress = if v.cur = 0 then
        if v.out.length = w.size then .finished v.out else .raised ⟨.dataIntegrity, v.out.length⟩
      else .running (.dep { v with phase := .selLen }) := by
  obtain ⟨-, hfit, hv⟩ := Dep.afterRun_eq_some h
  have hsize : v.size = w.size := by rw [hv]
  have hrun := Dep.literalRun_afterRun hready.2 (Nat.le_of_add_right_le hfit)
  rw [h] at hrun
  rw [Dep.runProgress, hrun, ← hsize]

/-- A literal run that cannot be had whole meets the declared size, or the cursor at 0 before that (R132, R137). -/
theorem Dep.runProgress_of_none {w : Dep} (hready : w.ready) (hout : w.out.length ≤ w.size) (h : w.afterRun = none) :
    w.runProgress = .raised (if w.size - w.out.length ≤ w.cur then ⟨.dataIntegrity, w.size⟩ else ⟨.format, 0⟩) := by
  have hrun := Dep.literalRun_afterRun hready.2 hout
  rw [h] at hrun
  rw [Dep.runProgress, hrun]
  by_cases hfull : w.size - w.out.length ≤ w.cur
  · simp only [if_pos hfull]
  · simp only [if_neg hfull]

theorem Dep.turnProgress_run {w : Dep} (hp : w.phase = .run) : w.turnProgress = w.runProgress := by
  rw [Dep.turnProgress, hp]
  rfl

/-- The step of a DEPLODE that stands before a literal run (R131; log entry 4). -/
theorem step_depRun {s : State} {w : Dep} (h : EngineNext s) (hw : s.work = .dep w) (hp : w.phase = .run) :
    step s = .next (s.settle opDeplode w.runProgress) := by
  rw [(depTurn_step h ⟨w, hw⟩).1, depTurn_eq hw, Dep.turnProgress_run hp]

theorem step_depRun_raised {s : State} {w : Dep} (h : EngineNext s) (hu : Undisturbed s) (hw : s.work = .dep w)
    (hp : w.phase = .run) {e : ErrCode} {pos : Nat} (hr : w.runProgress = .raised ⟨e, pos⟩) :
    ∃ t, step s = .next t ∧ CommandFails s t e pos s.trie :=
  ⟨_, by rw [step_depRun h hw hp, hr]; rfl, State.raiseError_decoderFails hu (by decide) rfl ⟨e, pos⟩⟩

/-- Settles O47. The first check that fails gives the error (`exec_deplode_rejected`); a literal run is had whole or
gives its error (`Dep.runProgress_of_afterRun`, `Dep.runProgress_of_none`). -/
theorem deplodeChecksInOrder : Obligations.DeplodeChecksInOrder := by
  refine ⟨fun s hu hr => ⟨fun h => ?_, fun hn hm => ⟨fun hsize => ?_, fun h12 hfooter =>
      ⟨fun j hj hbad hlow => ?_, fun hextra hcap => ?_⟩⟩⟩,
    fun s rest hbegin hr hm h12 hfooter hextra hcap => ?_,
    fun s w hnext hu hw hready hp hout => ⟨fun hlit hcur => ?_, fun hlit hcur => ?_, fun v hv => ⟨fun hpos => ?_,
      fun h0 hne => ?_, fun h0 heq hvalid hcap => ?_⟩⟩⟩
  · exact exec_deplode_rejected hu (deplodeBegin_header hr (depHeaderCheck_of_short h))
  · refine exec_deplode_rejected hu (deplodeBegin_header hr ?_)
    rw [depHeaderCheck_of_magic hn hm, if_pos hsize]
  · refine exec_deplode_rejected hu (deplodeBegin_footer hr ?_ (depFooterCheck_of_gt hj hbad hlow))
    rw [depHeaderCheck_of_magic hn hm, if_neg (by omega)]
  · refine exec_deplode_rejected hu ?_
    rw [deplodeBegin_file hr ⟨hm, h12, hfooter, hextra⟩, if_pos hcap]
  · rw [step_beginning hbegin]
    have hbegun := deplodeBegin_file (s := { s with inputs := rest, response := .none }) hr ⟨hm, h12, hfooter, hextra⟩
    exact congrArg Host.Outcome.next (hbegun.trans (if_neg (Nat.not_lt.2 hcap)))
  · have hnone : w.afterRun = none := if_neg (by omega)
    refine step_depRun_raised hnext hu hw hp ?_
    rw [Dep.runProgress_of_none hready hout hnone, if_pos hcur]
  · have hnone : w.afterRun = none := if_neg (by omega)
    refine step_depRun_raised hnext hu hw hp ?_
    rw [Dep.runProgress_of_none hready hout hnone, if_neg (Nat.not_le.2 hcur)]
  · rw [step_depRun hnext hw hp, Dep.runProgress_of_afterRun hready hv, if_neg hpos.ne']
    rfl
  · refine step_depRun_raised hnext hu hw hp ?_
    rw [Dep.runProgress_of_afterRun hready hv, if_pos h0, if_neg hne]
  · refine ⟨_, step_depRun hnext hw hp, ?_⟩
    rw [Dep.runProgress_of_afterRun hready hv, if_pos h0, if_pos heq]
    exact ⟨s.succeed_writesOutput opDeplode v.out hu rfl hvalid (heq ▸ hcap), State.succeed_trie ..⟩

end Sys2Proof.Machine

/-! ### DEPLODE of a whole file -/

namespace Sys2Proof.Machine

/-! #### Turns to completion -/

/-- The turns of DEPLODE from `w` on, literal runs and codes, end with the output `out` (R131). -/
inductive Dep.RunsTo (out : List Byte) : Dep → Prop
  | ends {w : Dep} : w.turnProgress = .finished out → Dep.RunsTo out w
  | turn {w v : Dep} : w.turnProgress = .running (.dep v) → Dep.RunsTo out v → Dep.RunsTo out w

/-- Turns that end with an output complete DEPLODE with it, in as many turns as there can be (R124, R131). -/
theorem Dep.RunsTo.completes {s : State} {m fuel : Nat} {w : Dep} {out : List Byte} (h : w.RunsTo out)
    (hw : DepRuns s m (.dep w)) (hfuel : m < fuel) :
    takeTurns State.resting depTurn fuel { s with work := .dep w } = s.succeed opDeplode out false
      ∧ out.length ≤ s.dcap := by
  induction h generalizing m fuel with
  | @ends w hend =>
    have hgoes := hw.turnProgress_goes
    rw [hend] at hgoes
    obtain ⟨fuel, rfl⟩ : ∃ k, fuel = k + 1 := ⟨fuel - 1, by omega⟩
    refine ⟨?_, hgoes⟩
    rw [takeTurns_succ, if_neg (by simp [State.resting]), depTurn_eq rfl, hend, State.settle_work]
    exact takeTurns_stopped ((State.resting_iff _).2 (State.succeed_work ..)) _
  | @turn w v hturn _ ih =>
    have hgoes := hw.turnProgress_goes
    rw [hturn] at hgoes
    obtain ⟨k, hk, hv⟩ := hgoes
    obtain ⟨fuel, rfl⟩ : ∃ k, fuel = k + 1 := ⟨fuel - 1, by omega⟩
    rw [takeTurns_succ, if_neg (by simp [State.resting]), depTurn_eq rfl, hturn, State.settle_work]
    exact ih hv (by omega)

/-- DEPLODE of a file that passes its checks completes with what its turns end with (R124). -/
theorem exec_deplode_runsTo {s : State} {out : List Byte} (hu : Undisturbed s) (hr : RegionsOk s)
    (hfile : DepFile s.srcByte s.slen) (hcap : sizeField s.srcByte 4 ≤ s.dcap)
    (h : (depStart s.srcByte).RunsTo out) :
    ∃ t, exec .deplode s = .next t ∧ WritesOutput s t out ∧ t.trie = s.trie := by
  have hfooter := hfile.footer
  have hfuel : (depStart s.srcByte).turnsLeft < depFuel s := by
    simp only [Dep.turnsLeft, Dep.bitsLeft, depStart, depFuel, if_true]
    omega
  obtain ⟨hrun, hlen⟩ := h.completes ⟨_, rfl, hcap, rfl⟩ hfuel
  refine ⟨_, congrArg Host.Outcome.next ?_, State.succeed_decoder (op := opDeplode) hu hr rfl rfl hlen⟩
  rw [deplodeBegin_file hr hfile, if_neg (Nat.not_lt.2 hcap)]
  exact hrun

/-! #### What one iteration leaves unchanged -/

theorem Dep.afterBits_add (w : Dep) (j k : Nat) : (w.afterBits j).afterBits k = w.afterBits (j + k) := by
  induction j generalizing w with
  | zero => rw [Dep.afterBits_zero, Nat.zero_add]
  | succ j ih => rw [← Dep.afterBits_succ, ih, Dep.afterBits_succ, Nat.add_right_comm]

theorem Dep.afterBits_ready {w : Dep} (hready : w.ready) {k : Nat} (hk : k ≤ w.bitsAhead.length) :
    (w.afterBits k).ready ∧ (w.afterBits k).bitsAhead = w.bitsAhead.drop k :=
  ((Dep.getbits_spec k 0 hready).1 hk).2

theorem Dep.afterCode_eq_some {w v : Dep} {i : Instr} {extra : List Bool} (h : w.afterCode i extra = some v) :
    ∃ bs, encode i = .bits bs ∧ (bs ++ extra) <+: w.bitsAhead ∧ v = w.afterBits (bs ++ extra).length := by
  unfold Dep.afterCode at h
  split at h
  · next bs hi =>
    split at h
    · next hpre => exact ⟨bs, hi, hpre, (Option.some.inj h).symm⟩
    · cases h
  · cases h

/-- `v` is a DEPLODE in step with its buffer, with the table and the phase of `w`. -/
structure Dep.Keeps (w v : Dep) : Prop where
  ready : v.ready
  table : v.table = w.table
  phase : v.phase = w.phase

theorem Dep.Keeps.trans {u v w : Dep} (h : u.Keeps v) (h' : v.Keeps w) : u.Keeps w :=
  ⟨h'.ready, h'.table.trans h.table, h'.phase.trans h.phase⟩

theorem Dep.afterRun_keeps {w v : Dep} (hready : w.ready) (h : w.afterRun = some v) : w.Keeps v := by
  obtain ⟨-, -, rfl⟩ := Dep.afterRun_eq_some h
  exact ⟨⟨hready.1, (Nat.sub_le ..).trans hready.2⟩, rfl, rfl⟩

theorem Dep.afterCode_keeps {w v : Dep} {i : Instr} {extra : List Bool} (hready : w.ready)
    (h : w.afterCode i extra = some v) : w.Keeps v := by
  obtain ⟨bs, -, hpre, rfl⟩ := Dep.afterCode_eq_some h
  exact ⟨(Dep.afterBits_ready hready hpre.length_le).1, Dep.afterBits_table .., Dep.afterBits_phase ..⟩

/-- Only `11111` takes a byte, the one before the cursor (R133). -/
theorem Dep.selected_keeps {w v : Dep} {i : Instr} {sel : Fin 4} {ml : Nat} (hready : w.ready)
    (h : w.selected i = some (sel, ml, v)) : w.Keeps v := by
  cases i with
  | depSellen0 | depSellen10 | depSellen110 | depSellen1110 | depSellen11110 _ =>
    cases h
    exact ⟨hready, rfl, rfl⟩
  | depSellen11111 =>
    simp only [Dep.selected] at h
    split at h
    · cases h
      exact ⟨⟨hready.1, (Nat.sub_le ..).trans hready.2⟩, rfl, rfl⟩
    · cases h
  | _ => cases h

theorem Dep.afterMatch_eq_some {w v : Dep} {d ml : Nat} (h : w.afterMatch d ml = some v) :
    w.out.length + ml ≤ w.size ∧ ∃ bs, copied w.out d ml = some bs ∧ v = { w with out := w.out ++ bs } := by
  unfold Dep.afterMatch at h
  split at h
  · next hfit =>
    obtain ⟨bs, hbs, rfl⟩ := Option.map_eq_some_iff.1 h
    exact ⟨hfit, bs, hbs, rfl⟩
  · cases h

/-! #### Each code takes one turn -/

theorem decodeBits_encode {i : Instr} {bs : List Bool} (h : encode i = .bits bs) :
    decodeBits (formatOf i) bs = .token i := by
  have hwf : i.wellFormed = true := by
    cases i with
    | xlobLitrun _ | tlobLit _ | tlobLong _ _ => cases h
    | _ => rfl
  have hdecode := decodeUndoesEncode.1 i hwf
  rwa [h] at hdecode

/-- A code whose bits and extra bits are the next ones is read, and its extra bits are then the next (R129). -/
theorem Dep.afterCode_reads {w v : Dep} {i : Instr} {extra : List Bool} (hready : w.ready)
    (h : w.afterCode i extra = some v) :
    ∃ k, Dep.readCode (formatOf i) maxCodeBits [] w = .ok (some (i, w.afterBits k)) ∧ (w.afterBits k).ready
      ∧ extra <+: (w.afterBits k).bitsAhead ∧ v = (w.afterBits k).afterBits extra.length := by
  obtain ⟨bs, hi, ⟨rest, hahead⟩, rfl⟩ := Dep.afterCode_eq_some h
  have hcode := ReadsAsCode.of_token (decodeBits_encode hi)
  rw [List.append_assoc] at hahead
  obtain ⟨hready', hdrop⟩ := Dep.afterBits_ready hready (k := bs.length) (by simp [← hahead])
  refine ⟨bs.length, ?_, hready', ⟨rest, ?_⟩, ?_⟩
  · exact Dep.readCode_token bs [] maxCodeBits hready hcode.ne_nil hcode.length_le hahead.symm
      (fun k _ hk => by simpa using List.all_eq_true.1 hcode.pending k (List.mem_range.2 hk)) hcode.token
  · rw [hdrop, ← hahead, List.drop_left]
  · rw [Dep.afterBits_add, List.length_append]

/-- The turn of a DEPLODE that reads a code (R131). -/
theorem Dep.turnProgress_code {w u : Dep} {i : Instr} {r : Result Dep} (hf : w.phase.format = some (formatOf i))
    (hread : Dep.readCode (formatOf i) maxCodeBits [] w = .ok (some (i, u))) (ha : u.apply i = some r) :
    w.turnProgress = Dep.progress r := by
  simp only [Dep.turnProgress, hf, hread, ha]

theorem Dep.apply_selected {w v : Dep} {i : Instr} {sel : Fin 4} {ml : Nat} (hp : w.phase = .selLen)
    (h : w.selected i = some (sel, ml, v)) :
    formatOf i = .depSelLen ∧ w.apply i = some (.ok { v with phase := .litLen sel ml }) := by
  cases i with
  | depSellen0 | depSellen10 | depSellen110 | depSellen1110 | depSellen11110 _ =>
    cases h
    exact ⟨rfl, Dep.selLenCode_eq hp _⟩
  | depSellen11111 =>
    simp only [Dep.selected] at h
    split at h
    · next hbyte =>
      cases h
      obtain ⟨hcur, hne⟩ := hbyte
      have hne' : w.prepared.getD (w.cur - 1) 0 ≠ 0 := fun h0 => by rw [h0] at hne; exact absurd hne (by decide)
      refine ⟨rfl, (Dep.selLenCode_eq hp _).trans (congrArg some ?_)⟩
      rw [Dep.rawSelLen, Dep.rawByte, if_neg hcur.ne']
      exact if_neg hne'
    · cases h
  | _ => cases h

/-- The turn on a match-length code (R133). -/
theorem Dep.turnProgress_selLen {w u v : Dep} {i : Instr} {sel : Fin 4} {ml : Nat} (hready : w.ready)
    (hp : w.phase = .selLen) (hc : w.afterCode i [] = some u) (hs : u.selected i = some (sel, ml, v)) :
    w.turnProgress = .running (.dep { v with phase := .litLen sel ml }) := by
  obtain ⟨hi, happly⟩ := Dep.apply_selected ((Dep.afterCode_keeps hready hc).phase.trans hp) hs
  obtain ⟨k, hread, -, -, rfl⟩ := Dep.afterCode_reads hready hc
  rw [List.length_nil, Dep.afterBits_zero] at happly
  exact Dep.turnProgress_code (by rw [hp, hi]; rfl) hread happly

/-- The extra bits that stand next are the ones read (R129). -/
theorem Dep.getbits_prefix {w : Dep} (hready : w.ready) {bs : List Bool} (h : bs <+: w.bitsAhead) :
    Dep.getbits bs.length 0 w = .ok (natOfBits bs, w.afterBits bs.length) := by
  rw [((Dep.getbits_spec bs.length 0 hready).1 h.length_le).1, ← List.prefix_iff_eq_take.1 h]
  rfl

theorem Dep.apply_litGroup {w : Dep} {i : Instr} {sel : Fin 4} {ml base k : Nat} (hp : w.phase = .litLen sel ml)
    (h : litGroup sel i = some (base, k)) :
    formatOf i = .depLitLen ∧ w.apply i = some (w.setLitLen base k sel ml) := by
  cases i with
  | depLitlen0 | depLitlen10 | depLitlen11 =>
    cases h
    refine ⟨rfl, ?_⟩
    simp only [Dep.apply, Dep.litLenCode, hp]
    rfl
  | _ => cases h

/-- The turn on a literal-length code (R134). -/
theorem Dep.turnProgress_litLen {w v : Dep} {i : Instr} {sel : Fin 4} {ml base : Nat} {bits : List Bool}
    (hready : w.ready) (hp : w.phase = .litLen sel ml) (hg : litGroup sel i = some (base, bits.length))
    (hc : w.afterCode i bits = some v) :
    w.turnProgress = .running (.dep { v with lit := base + natOfBits bits, phase := .dist sel ml }) := by
  obtain ⟨k, hread, hready', hbits, rfl⟩ := Dep.afterCode_reads hready hc
  obtain ⟨hi, happly⟩ := Dep.apply_litGroup (w := w.afterBits k) (ml := ml) (by rw [Dep.afterBits_phase, hp]) hg
  rw [Dep.setLitLen, Dep.getbits_prefix hready' hbits] at happly
  exact Dep.turnProgress_code (by rw [hp, hi]; rfl) hread happly

theorem Dep.apply_distGroup {w : Dep} {i : Instr} {sel : Fin 4} {ml base k : Nat} (hp : w.phase = .dist sel ml)
    (h : distGroup w.table sel i = some (base, k)) :
    formatOf i = .depDist ∧ w.apply i = some (w.matchAt base k ml) := by
  cases i with
  | depDist0 | depDist10 =>
    cases h
    refine ⟨rfl, ?_⟩
    simp only [Dep.apply, Dep.distCode, hp]
    rfl
  | depDist11 =>
    cases h
    have hbase : w.base sel
        = (w.table.getD (2 * sel.val) 0).toNat * 256 + (w.table.getD (2 * sel.val + 1) 0).toNat :=
      toNat_append_eq _ _
    refine ⟨rfl, ?_⟩
    simp only [Dep.apply, Dep.distCode, hp, ← hbase]
    rfl
  | _ => cases h

/-- A match that the statements copy is the one that a distance code copies (R135, R136). -/
theorem Dep.matchAt_of_afterMatch {w u : Dep} {ml base : Nat} {bits : List Bool} (hready : w.ready)
    (hbits : bits <+: w.bitsAhead)
    (hm : (w.afterBits bits.length).afterMatch (base + natOfBits bits + 1) ml = some u) :
    w.matchAt base bits.length ml = .ok { u with phase := .run } := by
  obtain ⟨hfit, bs, hcopied, rfl⟩ := Dep.afterMatch_eq_some hm
  rw [Dep.afterBits_out, Dep.afterBits_size] at hfit
  rw [Dep.afterBits_out] at hcopied
  obtain ⟨-, hmatch⟩ := Dep.matchAt_spec hready (base := base) ml hbits.length_le rfl
  rw [← List.prefix_iff_eq_take.1 hbits] at hmatch
  obtain ⟨-, hnear, hbs⟩ := copied_eq_some hcopied
  have hout : copyMatch (w.out.length + ml) (base + natOfBits bits + 1) ml w.out = w.out ++ bs := by
    rw [copyMatch_eq_copied hcopied (Nat.le_add_right ..), List.take_of_length_le (by simp [hbs])]
  rw [hmatch hnear (Nat.le_of_add_right_le hfit), if_pos hfit, hout, Dep.afterBits_out]

/-- The turn on a distance code whose match can be copied (R135, R136). -/
theorem Dep.turnProgress_dist {w v u : Dep} {i : Instr} {sel : Fin 4} {ml base : Nat} {bits : List Bool}
    (hready : w.ready) (hp : w.phase = .dist sel ml) (hg : distGroup w.table sel i = some (base, bits.length))
    (hc : w.afterCode i bits = some v) (hm : v.afterMatch (base + natOfBits bits + 1) ml = some u) :
    w.turnProgress = .running (.dep { u with phase := .run }) := by
  obtain ⟨k, hread, hready', hbits, rfl⟩ := Dep.afterCode_reads hready hc
  obtain ⟨hi, happly⟩ := Dep.apply_distGroup (w := w.afterBits k) (ml := ml) (by rw [Dep.afterBits_phase, hp])
    (by rwa [Dep.afterBits_table])
  rw [Dep.matchAt_of_afterMatch hready' hbits hm] at happly
  exact Dep.turnProgress_code (by rw [hp, hi]; rfl) hread happly

/-! #### One iteration takes three turns -/

/-- What a code takes does not depend on the phase, nor on the next run's length. -/
theorem Dep.afterCode_with {w v : Dep} {i : Instr} {extra : List Bool} (h : w.afterCode i extra = some v) (n : Nat)
    (p : DepPhase) :
    Dep.afterCode { w with lit := n, phase := p } i extra = some { v with lit := n, phase := p } := by
  obtain ⟨bs, hi, hpre, rfl⟩ := Dep.afterCode_eq_some h
  have hbits (k : Nat) : Dep.afterBits { w with lit := n, phase := p } k
      = { w.afterBits k with lit := n, phase := p } := by
    unfold Dep.afterBits
    split <;> rfl
  rw [Dep.afterCode, hi, ← hbits]
  exact if_pos hpre

theorem Dep.selected_with {w v : Dep} {i : Instr} {sel : Fin 4} {ml : Nat} (h : w.selected i = some (sel, ml, v))
    (n : Nat) (p : DepPhase) :
    Dep.selected { w with lit := n, phase := p } i = some (sel, ml, { v with lit := n, phase := p }) := by
  cases i with
  | depSellen0 | depSellen10 | depSellen110 | depSellen1110 | depSellen11110 _ =>
    cases h
    rfl
  | depSellen11111 =>
    simp only [Dep.selected] at h ⊢
    split at h
    · next hbyte =>
      cases h
      exact if_pos hbyte
    · cases h
  | _ => cases h

theorem Dep.afterMatch_with {w v : Dep} {d ml : Nat} (h : w.afterMatch d ml = some v) (p : DepPhase) :
    Dep.afterMatch { w with phase := p } d ml = some { v with phase := p } := by
  obtain ⟨hfit, bs, hcopied, rfl⟩ := Dep.afterMatch_eq_some h
  rw [Dep.afterMatch]
  simp only [if_pos hfit, hcopied, Option.map_some]

/-- After its literal run, an iteration takes the turns of its three codes, and the next one begins (R131). -/
theorem Dep.afterItem_runsTo {w u : Dep} {it : DepItem} {out : List Byte} (hready : w.ready) (hp : w.phase = .run)
    (h : w.afterItem it = some u) :
    u.ready ∧ u.phase = .run ∧ (u.RunsTo out → Dep.RunsTo out { w with phase := .selLen }) := by
  simp only [Dep.afterItem, Option.bind_eq_some_iff] at h
  obtain ⟨w1, hsel, ⟨sel, ml, w2⟩, hq, ⟨base, k⟩, hlit, ⟨base', k'⟩, hdist, h⟩ := h
  split at h
  · next hlen =>
    obtain ⟨rfl, rfl⟩ := hlen
    obtain ⟨w3, hc3, h⟩ := Option.bind_eq_some_iff.1 h
    obtain ⟨w4, hc4, hm⟩ := Option.bind_eq_some_iff.1 h
    have hkeeps1 := Dep.afterCode_keeps hready hsel
    have hkeeps2 := hkeeps1.trans (Dep.selected_keeps hkeeps1.ready hq)
    have hkeeps3 := hkeeps2.trans (Dep.afterCode_keeps hkeeps2.ready hc3)
    have hkeeps4 := hkeeps3.trans (Dep.afterCode_keeps hkeeps3.ready hc4)
    have hturn1 := Dep.turnProgress_selLen (w := { w with phase := .selLen }) hready rfl
      (Dep.afterCode_with hsel w.lit .selLen) (Dep.selected_with hq w.lit .selLen)
    have hturn2 := Dep.turnProgress_litLen (w := { w2 with lit := w.lit, phase := .litLen sel ml }) hkeeps2.ready rfl
      hlit (Dep.afterCode_with hc3 w.lit (.litLen sel ml))
    have hturn3 := Dep.turnProgress_dist (u := { u with phase := .dist sel ml })
      (w := { w3 with lit := base + natOfBits it.litBits, phase := .dist sel ml }) hkeeps3.ready rfl
      (hkeeps3.table ▸ hdist) (Dep.afterCode_with hc4 _ _) (Dep.afterMatch_with hm _)
    obtain ⟨-, bs, -, rfl⟩ := Dep.afterMatch_eq_some hm
    have hrun : w4.phase = .run := hkeeps4.phase.trans hp
    refine ⟨hkeeps4.ready, hrun, fun h => .turn hturn1 (.turn hturn2 (.turn hturn3 ?_))⟩
    rwa [← hrun]
  · cases h

/-- DEPLODE's turns end with what the statements' iterations give (R131, R137). -/
theorem Dep.runsTo_of_exploded {w : Dep} {items : List DepItem} {out : List Byte} (hready : w.ready)
    (hp : w.phase = .run) (h : exploded w items = some out) : w.RunsTo out := by
  induction items generalizing w with
  | nil =>
    obtain ⟨v, hv, h⟩ := Option.bind_eq_some_iff.1 h
    split at h
    · next hend =>
      cases h
      obtain ⟨-, -, hsize⟩ := Dep.afterRun_eq_some hv
      refine .ends ?_
      rw [Dep.turnProgress_run hp, Dep.runProgress_of_afterRun hready hv, if_pos hend.1,
        if_pos (hend.2.trans (congrArg Dep.size hsize))]
    · cases h
  | cons it items ih =>
    obtain ⟨v, hv, h⟩ := Option.bind_eq_some_iff.1 h
    split at h
    · cases h
    · next hcur =>
      obtain ⟨u, hu, h⟩ := Option.bind_eq_some_iff.1 h
      have hkeeps := Dep.afterRun_keeps hready hv
      obtain ⟨hready', hp', hitem⟩ := Dep.afterItem_runsTo (out := out) hkeeps.ready (hkeeps.phase.trans hp) hu
      refine .turn ?_ (hitem (ih hready' hp' h))
      rw [Dep.turnProgress_run hp, Dep.runProgress_of_afterRun hready hv, if_neg hcur]

/-! #### The start, and a file of literals only -/

theorem depStart_ready {F : Nat → Byte} (h12 : 12 ≤ sizeField F 8) : (depStart F).ready :=
  ⟨Nat.le_refl 8, (depPrepared_length h12).symm ▸ Nat.sub_le ..⟩

/-- The start of DEPLODE, field by field (R125 to R128). -/
theorem depStart_eq {F : Nat → Byte} {i : Nat} (hi : i = sizeField F 8) :
    depStart F =
      { prepared := depPrepared F
        table := (List.range 20).map (fun k => F (i + 18 + k))
        size := sizeField F 4
        cur := if F (i + 16) = 0 then i else i - 1
        bb := F (i + 17)
        bc := 8
        lit := (F (i + 12)).toNat * 2 ^ 24 + (F (i + 13)).toNat * 2 ^ 16 + (F (i + 14)).toNat * 2 ^ 8
          + (F (i + 15)).toNat
        out := []
        phase := .run } := by
  subst hi
  have hcur : (sizeField F 8 - if F (sizeField F 8 + 16) = 0 then 0 else 1)
      = if F (sizeField F 8 + 16) = 0 then sizeField F 8 else sizeField F 8 - 1 := by
    split <;> rfl
  rw [depStart, be32At_toNat, hcur]
  rfl

/-- A first run as long as the whole of an even-length file gives the prepared buffer read backwards (R128, R132). -/
theorem exploded_literals {F : Nat → Byte} (h12 : 12 ≤ sizeField F 8) (hsize : sizeField F 4 = sizeField F 8)
    (hlit : (be32At F (sizeField F 8 + 12)).toNat = sizeField F 8) (hodd : F (sizeField F 8 + 16) = 0) :
    exploded (depStart F) [] = some (depPrepared F).reverse := by
  have hlen := depPrepared_length h12
  have hrun : (depStart F).afterRun = some { depStart F with cur := 0, out := (depPrepared F).reverse } := by
    have htake : (depPrepared F).take (sizeField F 8) = depPrepared F := List.take_of_length_le hlen.le
    simp [Dep.afterRun, depStart, hlit, hodd, hsize, htake]
  rw [exploded, hrun]
  exact if_pos ⟨rfl, by rw [List.length_reverse, hlen]; exact hsize.symm⟩

/-- Settles O46. The decoder follows the iterations of the file turn by turn (`Dep.runsTo_of_exploded`); a file of
literals only has none. -/
theorem deplodeDecodesItsFile : Obligations.DeplodeDecodesItsFile := by
  have hdecodes (s : State) (items : List DepItem) (out : List Byte) (hu : Undisturbed s) (hr : RegionsOk s)
      (hfile : DepFile s.srcByte s.slen) (hcap : sizeField s.srcByte 4 ≤ s.dcap)
      (h : exploded (depStart s.srcByte) items = some out) :
      ∃ t, exec .deplode s = .next t ∧ WritesOutput s t out ∧ t.trie = s.trie :=
    exec_deplode_runsTo hu hr hfile hcap (Dep.runsTo_of_exploded (depStart_ready hfile.size_ge) rfl h)
  refine ⟨fun s items out hu hr hm h12 hfooter hextra hcap h =>
      hdecodes s items out hu hr ⟨hm, h12, hfooter, hextra⟩ hcap h,
    fun F i hi => ⟨fun x => by rw [sizeField_eq_mod, be32At_toNat], depStart_eq hi⟩,
    fun s size hu hr hm hI h12 hfooter hextra hE hlit hodd hcap => ?_⟩
  subst hI
  refine hdecodes s [] _ hu hr ⟨hm, h12, hfooter, hextra⟩ (hE ▸ hcap) (exploded_literals h12 hE ?_ hodd)
  rw [hlit, BitVec.toNat_ofNat]
  exact Nat.mod_eq_of_lt (by rw [sizeField_eq_mod]; omega)

end Sys2Proof.Machine

/-! ### JH_CRYPT over its region -/

namespace Sys2Proof.Machine

/-! #### The keystream -/

/-- The key word after key word `m` (R138, R139). -/
theorem jhNextKey_keyWord (k m : Nat) :
    jhNextKey (BitVec.ofNat 16 (keyWord k m)) = BitVec.ofNat 16 (keyWord k (m + 1)) := by
  rw [jhNextKey_eq, keyWord]
  refine BitVec.eq_of_toNat_eq ?_
  simp only [BitVec.toNat_ofNat]
  omega

/-- The keystream byte at an even offset is the high byte of its key word (R139, R140). -/
theorem highByte_keyWord (k m : Nat) : highByte (BitVec.ofNat 16 (keyWord k m)) = keyByte k (2 * m) := by
  rw [keyByte, if_pos (Nat.mul_mod_right ..), Nat.mul_div_cancel_left m Nat.zero_lt_two]
  refine BitVec.eq_of_toNat_eq ?_
  simp only [highByte_toNat, BitVec.toNat_ofNat]
  omega

/-- The keystream byte at an odd offset is the low byte of its key word (R139). -/
theorem lowByte_keyWord (k m : Nat) : lowByte (BitVec.ofNat 16 (keyWord k m)) = keyByte k (2 * m + 1) := by
  have hhalf : (2 * m + 1) / 2 = m := by omega
  rw [keyByte, if_neg (by omega), hhalf]
  refine BitVec.eq_of_toNat_eq ?_
  simp only [lowByte_toNat, BitVec.toNat_ofNat]
  omega

theorem highByte_be16_xor (b0 b1 : Byte) (w : Half) : highByte (be16 b0 b1 ^^^ w) = b0 ^^^ highByte w := by
  rw [highByte, BitVec.extractLsb'_xor, be16, BitVec.extractLsb'_append_eq_left, highByte]

theorem lowByte_be16_xor (b0 b1 : Byte) (w : Half) : lowByte (be16 b0 b1 ^^^ w) = b1 ^^^ lowByte w := by
  rw [lowByte, BitVec.extractLsb'_xor, be16, BitVec.extractLsb'_append_eq_right, lowByte]

/-- The first key word is `P0[15:0]` (R55, R139). -/
theorem State.jhKey_eq (s : State) : s.jhKey = BitVec.ofNat 16 (keyWord (s.p0 % 65536) 0) := by
  refine BitVec.eq_of_toNat_eq ?_
  simp [State.jhKey, State.p0, keyWord, BitVec.extractLsb'_toNat]

/-! #### The words of the region -/

/-- Memory `m` is that of `s` with the addresses from `lo` up to `hi` XORed with the keystream of key `k`, which
starts at `SRC` (R138 to R140). -/
def State.Xored (s : State) (k lo hi : Nat) (m : Memory) : Prop :=
  ∀ x, Memory.read m x =
    if lo ≤ x ∧ x < hi then s.readByte x ^^^ keyByte k (x - s.src) else s.readByte x

/-- Two runs of addresses XORed one after the other. -/
theorem State.Xored.trans {s : State} {k lo mid hi : Nat} {m m' : Memory} (h : s.Xored k lo mid m)
    (h' : State.Xored { s with mem := m } k mid hi m') (hlo : lo ≤ mid) (hhi : mid ≤ hi) : s.Xored k lo hi m' := by
  intro x
  have hmid : State.readByte { s with mem := m } x = _ := h x
  rw [h' x, hmid]
  by_cases hx : mid ≤ x ∧ x < hi
  · rw [if_pos hx, if_neg (by omega), if_pos (by omega)]
    rfl
  · rw [if_neg hx]
    exact if_congr (by omega) rfl rfl

/-- Data word `i` of the region is XORed with key word `i`: two bytes, or one at an odd tail (R138 to R140). -/
theorem jhStore_xored {s : State} {w : Jh} {k i : Nat} (hd : s.srcDirty = false)
    (hv : s.validRegion s.src s.slen = true) (hi : w.j = 2 * i) (hkey : w.d0 = BitVec.ofNat 16 (keyWord k i))
    (hj : w.j < s.slen) :
    s.Xored k (s.src + w.j) (s.src + min (w.j + 2) s.slen) (jhStore s w (w.word s.srcByte s.slen)) := by
  intro x
  rw [jhStore_read _ hv hj, Jh.word, highByte_be16_xor, lowByte_be16_xor, hkey, highByte_keyWord, lowByte_keyWord, ← hi]
  by_cases h0 : x = s.src + w.j
  · rw [if_pos h0, if_pos (by omega), h0, Nat.add_sub_cancel_left, s.srcByte_undisturbed hd]
  · by_cases h1 : x = s.src + w.j + 1 ∧ w.j + 1 < s.slen
    · have hoff : x - s.src = w.j + 1 := by omega
      rw [if_neg h0, if_pos h1, if_pos h1.2, if_pos (by omega), hoff, s.srcByte_undisturbed hd, h1.1, Nat.add_assoc]
    · rw [if_neg h0, if_neg h1, if_neg (by omega)]
      rfl

/-- A turn of a running JH_CRYPT is one data word (R138). -/
theorem takeTurns_jh_succ {s : State} {w : Jh} (hw : s.work = .jh w) (fuel : Nat) :
    takeTurns State.resting jhTurn (fuel + 1) s
      = takeTurns State.resting jhTurn fuel (jhWordStep s w (w.word s.srcByte s.slen)) := by
  rw [takeTurns_succ, if_neg (by simp [State.resting, hw])]
  simp only [jhTurn, hw]

/-- A running JH_CRYPT, before data word `i`, XORs the rest of its region (R138 to R140). -/
theorem takeTurns_jh_xored {fuel : Nat} {s : State} {w : Jh} {k i : Nat} (hw : s.work = .jh w)
    (hd : s.srcDirty = false) (hv : s.validRegion s.src s.slen = true) (hi : w.j = 2 * i)
    (hkey : w.d0 = BitVec.ofNat 16 (keyWord k i)) (hj : w.j < s.slen) (hf : s.slen - w.j ≤ fuel) :
    ∃ m, s.Xored k (s.src + w.j) (s.src + s.slen) m
      ∧ takeTurns State.resting jhTurn fuel s = State.succeed { s with mem := m } opJhCrypt [] false := by
  induction fuel generalizing s w i with
  | zero => omega
  | succ fuel ih =>
    have hword := jhStore_xored hd hv hi hkey hj
    rw [takeTurns_jh_succ hw]
    obtain ⟨hlast, hend⟩ | ⟨hmore, hnext⟩ := jhWordStep_cases s w (w.word s.srcByte s.slen)
    · rw [Nat.min_eq_right hlast] at hword
      exact ⟨_, hword, takeTurns_ended hend (State.succeed_work ..)⟩
    · rw [Nat.min_eq_left hmore.le] at hword
      rw [hnext]
      obtain ⟨m, hm, hrun⟩ := ih (i := i + 1) (s := { s with
          mem := jhStore s w (w.word s.srcByte s.slen)
          work := .jh { j := w.j + 2, d0 := jhNextKey w.d0, d1 := w.d0 } }) rfl hd hv
        (by rw [hi, Nat.mul_succ]) (by rw [hkey, jhNextKey_keyWord]) hmore (by
          change s.slen - (w.j + 2) ≤ fuel
          omega)
      exact ⟨m, hword.trans hm (by omega) (by omega), hrun⟩

/-- On a valid region JH_CRYPT starts with key word 0, and an empty region is complete at once (R138). -/
theorem jhCryptBegin_valid {s : State} (hv : s.validRegion s.src s.slen = true) :
    jhCryptBegin s = if s.slen = 0 then s.succeed opJhCrypt [] false
      else { s with work := .jh { j := 0, d0 := s.jhKey, d1 := 0 } } := by
  rw [jhCryptBegin, State.checkSource_ok hv]

/-- JH_CRYPT on a valid region that the host leaves alone XORs the whole of it (R138 to R140). -/
theorem exec_jhCrypt_xored {s : State} (hd : s.srcDirty = false) (hv : s.validRegion s.src s.slen = true) :
    ∃ m, s.Xored (s.p0 % 65536) s.src (s.src + s.slen) m
      ∧ exec .jhCrypt s = .next (State.succeed { s with mem := m } opJhCrypt [] false) := by
  have hbegin := jhCryptBegin_valid hv
  by_cases h0 : s.slen = 0
  · exact ⟨s.mem, fun x => (if_neg (by omega)).symm, congrArg Host.Outcome.next
      (takeTurns_ended (hbegin.trans (if_pos h0)) (State.succeed_work ..))⟩
  · obtain ⟨m, hm, hrun⟩ := takeTurns_jh_xored (fuel := s.slen + 1) (i := 0)
      (s := { s with work := .jh { j := 0, d0 := s.jhKey, d1 := 0 } }) rfl hd hv rfl s.jhKey_eq
      (Nat.pos_of_ne_zero h0) (Nat.le_succ _)
    exact ⟨m, hm, congrArg Host.Outcome.next ((congrArg _ (hbegin.trans (if_neg h0))).trans hrun)⟩

/-! #### The command -/

/-- Settles O51. The command leaves the memory of `exec_jhCrypt_xored`, read inside and outside the region. -/
theorem jhCryptXorsTheKeystream : Obligations.JhCryptXorsTheKeystream := by
  intro s hu hv
  obtain ⟨m, hm, hexec⟩ := exec_jhCrypt_xored hu.1 hv
  have hd : State.srcDirty { s with mem := m } = false := hu.1
  have hdest : writesDest opJhCrypt = false := rfl
  have hcompress : isCompress opJhCrypt = false := rfl
  have hread (x : Nat) : (State.succeed { s with mem := m } opJhCrypt [] false).readByte x = _ :=
    (congrArg (Memory.read · x) (by simp [State.memSucceeded, hd, hdest])).trans (hm x)
  refine ⟨_, hexec, State.succeed_succeedsWith opJhCrypt [] false hd, ⟨by simp [hd], by simp [hd]⟩,
    by simp [hcompress], fun x hx => ?_, fun x hx => ?_⟩
  · rw [hread, if_pos (by omega), Nat.add_sub_cancel_left]
    rfl
  · rw [hread, if_neg ((inRegion_eq_false ..).1 hx)]

/-- Settles O52. A byte XORed twice with one keystream byte is as it was (`jhCryptXorsTheKeystream`); a refused
region is refused both times. -/
theorem jhCryptTwiceRestores : Obligations.JhCryptTwiceRestores := by
  intro s t v hs ht hu hmem htop hsrc hslen hkey
  have hvt (x : Nat) : v.readByte x = t.readByte x := congrArg (Memory.read · x) hmem
  have hvalid : v.validRegion v.src v.slen = s.validRegion s.src s.slen := by
    rw [hsrc, hslen, State.validRegion, State.memSize, htop]
    rfl
  cases hv : s.validRegion s.src s.slen with
  | false =>
    cases ht.symm.trans (exec_jhCrypt_invalid hv)
    refine ⟨_, exec_jhCrypt_invalid (hvalid.trans hv), fun x => ?_⟩
    have hkept : (v.raiseError opJhCrypt ⟨.misuse, 0⟩).mem = s.mem := by
      rw [State.raiseError_mem_same hu.1 rfl, hmem, State.raiseError_mem_same hs.1 rfl]
    exact congrArg (Memory.read · x) hkept
  | true =>
    obtain ⟨t', ht', -, -, -, hin, hout⟩ := jhCryptXorsTheKeystream s hs hv
    cases ht.symm.trans ht'
    obtain ⟨u, hexec, -, -, -, hin', hout'⟩ := jhCryptXorsTheKeystream v hu (hvalid.trans hv)
    rw [hsrc, hslen] at hin' hout'
    refine ⟨u, hexec, fun x => ?_⟩
    cases hx : inRegion s.src s.slen x with
    | false => rw [hout' x hx, hvt, hout x hx]
    | true =>
      obtain ⟨hge, hlt⟩ := (inRegion_eq_true ..).1 hx
      obtain ⟨i, rfl⟩ := Nat.exists_eq_add_of_le hge
      have hi : i < s.slen := by omega
      have hkey' : v.ctx.p0.toNat % 65536 = s.ctx.p0.toNat % 65536 := hkey
      rw [hin' i hi, hvt, hin i hi, hkey', BitVec.xor_assoc, BitVec.xor_self, BitVec.xor_zero]

end Sys2Proof.Machine

/-! ### Every command completes -/

namespace Sys2Proof.Machine

/-- The command that ran on `s` has ended in `t`: the block is idle with DONE set, and the host's side is as it was
(R148, R168). -/
def Completes (s t : State) : Prop := Idle t ∧ KeepsHostSide s t

theorem State.raiseError_completes (s : State) (op : Byte) (r : Raise) : Completes s (s.raiseError op r) :=
  ⟨s.raiseError_idle op r, s.raiseError_keepsHostSide op r⟩

theorem State.succeed_completes (s : State) (op : Byte) (out : List Byte) (stored : Bool) :
    Completes s (s.succeed op out stored) :=
  ⟨s.succeed_idle op out stored, s.succeed_keepsHostSide op out stored⟩

theorem trieInitRun_completes (s : State) : Completes s (trieInitRun s) := by
  unfold trieInitRun
  split
  · exact s.raiseError_completes ..
  · exact State.succeed_completes { s with trie := _ } ..

theorem trieAddRun_completes (s : State) : Completes s (trieAddRun s) := by
  unfold trieAddRun
  split
  · exact s.raiseError_completes ..
  · exact State.succeed_completes { s with trie := _ } ..

theorem trieMatchRun_completes (s : State) : Completes s (trieMatchRun s) := by
  unfold trieMatchRun
  split
  · exact s.raiseError_completes ..
  · exact State.succeed_completes { s with matchOff := _, matchLen := _ } ..

theorem exec_completes_of_writesDest {i : Instr} (hi : writesDest (opcodeOf i) = true) (s : State) :
    ∃ t, exec i s = .next t ∧ Completes s t := by
  obtain ⟨r, hend⟩ | ⟨out, stored, hend⟩ := exec_endsAlike hi s
  · exact ⟨_, hend s (.refl s), s.raiseError_completes ..⟩
  · exact ⟨_, hend s (.refl s), s.succeed_completes ..⟩

theorem exec_jhCrypt_completes (s : State) : ∃ t, exec .jhCrypt s = .next t ∧ Completes s t := by
  cases hv : s.validRegion s.src s.slen with
  | false => exact ⟨_, exec_jhCrypt_invalid hv, s.raiseError_completes ..⟩
  | true =>
    obtain ⟨m, -, hend⟩ := exec_jhCrypt_valid hv
    exact ⟨_, hend, State.succeed_completes { s with mem := m } ..⟩

/-- Settles O13. The engine's loop reaches an error entry or a completion (`exec_endsAlike`, `exec_jhCrypt_valid`),
and a trie command is one of these in a single turn. -/
theorem everyCommandCompletes : Obligations.EveryCommandCompletes := by
  intro i s hi
  cases i with
  | trieInit => exact ⟨_, rfl, trieInitRun_completes s⟩
  | trieAdd => exact ⟨_, rfl, trieAddRun_completes s⟩
  | trieMatch => exact ⟨_, rfl, trieMatchRun_completes s⟩
  | jhCrypt => exact exec_jhCrypt_completes s
  | lobCompress | lobDecompress | xlobCompress | xlobDecompress | tlobCompress | tlobDecompress | deplode =>
    exact exec_completes_of_writesDest rfl s
  | _ => cases hi

end Sys2Proof.Machine

/-! ### The interrupt line -/

namespace Sys2Proof.Machine

theorem State.irq_of_done {s : State} (h : s.status.done = true) : s.irq = s.ie := by
  rw [State.irq, h, Bool.and_true]

theorem State.irq_of_not_done {s : State} (h : s.status.done = false) : s.irq = false := by
  rw [State.irq, h, Bool.and_false]

theorem State.irq_of_not_ie {s : State} (h : s.ie = false) : s.irq = false := by
  rw [State.irq, h, Bool.false_and]

/-- A completion raises the interrupt line exactly when IE is 1 (R149). -/
theorem Completes.irq {s t : State} (h : Completes s t) : t.irq = s.ie := by
  obtain ⟨⟨-, -, hdone, -⟩, hie, -⟩ := h
  rw [State.irq_of_done hdone, hie]

/-- A STATUS write that the port takes outside reset (R150). -/
theorem State.writeRegister_status {s : State} (hr : s.rstLow = false) (v : Word) :
    s.writeRegister 32 0x04 v = { s with status := s.status.writeOnes v, response := .none } := by
  rw [State.writeRegister, if_pos (by decide), if_neg (by simp [hr])]
  rfl

/-- A CTRL write that the port takes outside reset (R11). -/
theorem State.writeRegister_ctrl {s : State} (hr : s.rstLow = false) (v : Word) :
    s.writeRegister 32 0x00 v = { s with ie := v.getLsbD 0, response := .none } := by
  rw [State.writeRegister, if_pos (by decide), if_neg (by simp [hr])]
  rfl

theorem Status.writeOnes_done {v : Word} (hv : v.getLsbD 1 = true) (t : Status) : (t.writeOnes v).done = false := by
  rw [Status.writeOnes, hv, Bool.not_true, Bool.and_false]

/-- Settles O58. A command sets DONE (`everyCommandCompletes`); each of the three writes leaves DONE or IE at 0. -/
theorem interruptFollowsDone : Obligations.InterruptFollowsDone := by
  refine ⟨fun _ => rfl, fun i s t hi ht => ?_, fun s v hr => ⟨fun hv => ?_, fun hv => ?_, fun hb => ?_⟩⟩
  · obtain ⟨u, hu, hcompletes⟩ := everyCommandCompletes i s hi
    cases ht.symm.trans hu
    exact Completes.irq hcompletes
  · rw [State.writeRegister_status hr]
    exact State.irq_of_not_done (Status.writeOnes_done hv s.status)
  · rw [State.writeRegister_ctrl hr]
    exact State.irq_of_not_ie hv
  · rw [State.writeRegister_cmd hr, State.writeCmd_idle hb]
    exact State.irq_of_not_done rfl

end Sys2Proof.Machine

/-! ### The decompressors' capacity -/

namespace Sys2Proof.Machine

/-- A command whose start is an error entry takes no turn of its loop. -/
theorem next_takeTurns_of_raised {turn : State → State} {fuel : Nat} {s b : State} {op : Byte} {r : Raise}
    (hb : b = s.raiseError op r) :
    (.next (takeTurns State.resting turn fuel b) : Host.Outcome State Fault Refusal) = .next (s.raiseError op r) :=
  congrArg Host.Outcome.next (takeTurns_ended hb (State.raiseError_work ..))

/-- On regions that pass, a decompressor's next check is that its output fits (R144, R145). -/
theorem exec_decompress_over_capacity {i : Instr} {s : State}
    (hi : i = .lobDecompress ∨ i = .xlobDecompress ∨ i = .tlobDecompress) (hr : RegionsOk s) (hcap : s.dcap < s.p0) :
    exec i s = .next (s.raiseError (opcodeOf i) ⟨.capacity, s.dcap⟩) := by
  have hc := State.checkRegions_ok hr
  obtain rfl | rfl | rfl := hi
  · exact next_takeTurns_of_raised (by rw [lobDecompressBegin, hc]; exact if_pos hcap)
  · exact next_takeTurns_of_raised (by rw [xlobDecompressBegin, hc]; exact if_pos hcap)
  · exact next_takeTurns_of_raised (by rw [tlobDecompressBegin, hc]; exact if_pos hcap)

/-- Settles O19. Each of the three raises CAPACITY(DCAP) at its start (`exec_decompress_over_capacity`). -/
theorem decompressChecksCapacityFirst : Obligations.DecompressChecksCapacityFirst := by
  intro i s hi hu hr hcap
  have hfails := State.raiseError_commandFails (opcodeOf i) ⟨.capacity, s.dcap⟩ hu
  refine ⟨_, exec_decompress_over_capacity hi hr hcap, ?_⟩
  obtain rfl | rfl | rfl := hi <;> exact hfails (by decide)

end Sys2Proof.Machine

/-! ### Register writes -/

namespace Sys2Proof.Machine

/-- A write that the port takes outside reset (R41). -/
theorem State.writeRegister_taken {s : State} {off : Byte} (ho : off.toNat % 4 = 0) (hr : s.rstLow = false)
    (v : Word) : s.writeRegister 32 off v = { s.putRegister off v with response := .none } := by
  rw [State.writeRegister, if_pos ((takesAccess_iff 32 off).2 ⟨rfl, ho⟩), if_neg (by simp [hr])]

/-- A write that the port takes during reset is ignored (R158). -/
theorem State.writeRegister_in_reset {s : State} {off : Byte} (ho : off.toNat % 4 = 0) (hr : s.rstLow = true)
    (v : Word) : s.writeRegister 32 off v = { s with response := .none } := by
  rw [State.writeRegister, if_pos ((takesAccess_iff 32 off).2 ⟨rfl, ho⟩), if_pos hr]

/-- While BUSY, a CMD write sets OVR and does nothing else (R163). -/
theorem State.writeCmd_busy {s : State} (hb : s.status.busy = true) (v : Word) :
    s.writeCmd v = { s with status := { s.status with ovr := true } } := by
  rw [State.writeCmd, if_pos hb]

/-- Settles O55. -/
theorem cmdWhileBusySetsOvr : Obligations.CmdWhileBusySetsOvr := by
  intro s v rest hi hr hb
  rw [step_regWrite hi, State.writeRegister_cmd (s := { s with inputs := rest }) hr,
    State.writeCmd_busy (s := { s with inputs := rest }) hb]

/-- The registers that hold a command's operands (R14 to R19). -/
abbrev IsOperandRegister (off : Byte) : Prop :=
  off = 0x0C ∨ off = 0x10 ∨ off = 0x14 ∨ off = 0x18 ∨ off = 0x1C ∨ off = 0x20

/-- Past CTRL, STATUS and CMD, a register write is a write to an operand register or to none. -/
theorem State.putRegister_other {off : Byte} (hctrl : off ≠ 0x00) (hstatus : off ≠ 0x04) (hcmd : off ≠ 0x08)
    (s : State) (v : Word) : s.putRegister off v = s.writeOperand off v := by
  rw [State.putRegister, if_neg hctrl, if_neg hstatus, if_neg hcmd]

theorem State.writeOperand_busy {s : State} (hb : s.status.busy = true) (off : Byte) (v : Word) :
    s.writeOperand off v = s := by
  rw [State.writeOperand, if_pos hb]

/-- Writes to read-only and unmapped registers are ignored (R25). -/
theorem State.writeOperand_of_not_operand {off : Byte} (h : ¬ IsOperandRegister off) (s : State) (v : Word) :
    s.writeOperand off v = s := by
  simp only [not_or] at h
  simp only [State.writeOperand, h, if_false, ite_self]

/-- Idle, an operand register reads as what was written to it. -/
theorem State.writeOperand_register_same {s : State} {off : Byte} (hb : s.status.busy = false)
    (h : IsOperandRegister off) (v : Word) : (s.writeOperand off v).register off = v := by
  obtain rfl | rfl | rfl | rfl | rfl | rfl := h <;> simp [State.writeOperand, State.register, hb]

/-- A write to an operand register leaves every other register as it was: each branch sets one field, which
`State.register` reads at that register's offset alone. -/
theorem State.writeOperand_register_other {off r : Byte} (hne : r ≠ off) (s : State) (v : Word) :
    (s.writeOperand off v).register r = s.register r := by
  unfold State.writeOperand
  split_ifs <;> subst_vars <;> simp only [State.register, if_neg hne] <;> rfl

/-- Idle, a write to an operand register changes that register's value alone; a write to no operand register changes
nothing. -/
theorem State.writeOperand_register {s : State} (hb : s.status.busy = false) (off r : Byte) (v : Word) :
    (s.writeOperand off v).register r = if r = off ∧ IsOperandRegister off then v else s.register r := by
  split
  · next h =>
    obtain ⟨rfl, hop⟩ := h
    exact State.writeOperand_register_same hb hop v
  · next h =>
    by_cases hr : r = off
    · rw [State.writeOperand_of_not_operand fun hop => h ⟨hr, hop⟩]
    · exact State.writeOperand_register_other hr s v

/-- Settles O56. The port's write is `State.putRegister` outside reset; of an operand register it is
`State.writeOperand`, which needs an idle block. -/
theorem operandWritesNeedAnIdleBlock : Obligations.OperandWritesNeedAnIdleBlock := by
  refine ⟨fun s off v rest hi ho => ⟨fun hr => ?_, fun hr => ?_⟩, fun s v => ⟨rfl, rfl⟩,
    fun s off v hctrl hstatus hcmd => ?_⟩
  · rw [step_regWrite hi, State.writeRegister_taken (s := { s with inputs := rest }) ho hr]
  · rw [step_regWrite hi, State.writeRegister_in_reset (s := { s with inputs := rest }) ho hr]
  · rw [State.putRegister_other hctrl hstatus hcmd]
    exact ⟨fun hb => State.writeOperand_busy hb off v, fun hb r => State.writeOperand_register hb off r v⟩

end Sys2Proof.Machine

/-! ### Reset while a command runs -/

namespace Sys2Proof.Machine

/-- The command that runs is the one whose opcode the context holds (R26). -/
theorem State.activeOp_eq_some {s : State} {op : Byte} (h : s.activeOp = some op) : s.ctx.op = op := by
  unfold State.activeOp at h
  split at h
  · exact Option.some.inj h
  · cases h

/-- What reset leaves in memory: free values, at most, and only in the region that the running command writes
(R160). -/
theorem State.memReset_read {s : State} {x : Nat} (hx : ∀ op, s.activeOp = some op → s.writes op x = false) :
    Memory.read s.memReset x = Memory.read s.mem x := by
  unfold State.memReset
  split
  · next op hop =>
    obtain ⟨hdst, hsrc⟩ := State.writes_eq_false.1 (hx op hop)
    split
    · next hd => exact Memory.read_fill_outside (hdst hd) ..
    · split
      · next hs => exact Memory.read_fill_outside (hsrc hs) ..
      · rfl
  · rfl

/-- An address outside the running command's destination region is written by no command but a JH_CRYPT in place
(R36). -/
theorem State.writes_active_eq_false {s : State} {op : Byte} {x : Nat} (hop : s.activeOp = some op)
    (hdst : s.inActiveDest x = false) (hsrc : op ≠ opJhCrypt ∨ s.inActiveSource x = false) :
    s.writes op x = false := by
  have hd : (writesDest op && inRegion s.dst s.dcap x) = false := by
    rwa [State.inActiveDest, hop] at hdst
  have hs : (writesSource op && inRegion s.src s.slen x) = false := by
    by_cases hjh : op = opJhCrypt
    · subst hjh
      rw [← State.inActiveSource_eq hop rfl, hsrc.resolve_left (not_not_intro rfl), Bool.and_false]
    · rw [writesSource, beq_eq_false_iff_ne.2 hjh, Bool.false_and]
  rw [State.writes, hd, hs, Bool.or_false]

/-- Settles O10. All but memory is at its reset value by `State.resetLow`; memory keeps what the command that was cut
short does not write. -/
theorem resetCutsACommandShort : Obligations.ResetCutsACommandShort := by
  intro s rest hi
  refine ⟨State.resetLow { s with inputs := rest }, step_input hi, rfl, rfl, fun x hdst hsrc => ?_⟩
  refine State.memReset_read (s := { s with inputs := rest }) fun op hop => ?_
  rw [State.activeOp_eq_some (s := s) hop] at hsrc
  exact State.writes_active_eq_false (s := s) hop hdst hsrc

end Sys2Proof.Machine
